-- ==== Sys2Proof/Word.lean ====
section
/-! DEFINITION. The word types of the machine, with the widths the spec fixes (00_scope R6). -/

namespace Sys2Proof

/-- A long: 32 bits (R8). -/
abbrev Word := BitVec 32

/-- A byte: 8 bits (R8). -/
abbrev Byte := BitVec 8

/-- A cog register address, $000..$1FF (R26). -/
abbrev RegAddr := BitVec 9

/-- A hub byte address, $00000..$1FFFF (R21). -/
abbrev HubAddr := BitVec 17

/-- The field CCCC, bits 21..18 of an instruction: a condition (R115), or the indirect operand forms (R122). -/
abbrev CCCC := BitVec 4

end Sys2Proof
end

