-- ==== Sys2Proof/Syntax.lean ====
section
/-! DEFINITION. The instructions that have an encoding: one constructor of `Instr` per row of spec/opcode_table.json
(R124, R125, R132). Argument order: flag-write bits, CCCC, D, then S. -/

namespace Sys2Proof

/-- A PTR expression `S U P NNNNNN` (R151). -/
structure PtrExpr where
  /-- S: 0 for PTRA, 1 for PTRB. -/
  useB : Bool
  /-- U: 1 to update the pointer. -/
  update : Bool
  /-- P: 1 to use the pointer before the update. -/
  post : Bool
  /-- NNNNNN: INDEX, a 6-bit two's-complement number. -/
  index : BitVec 6
deriving DecidableEq, Repr

/-- The address operand of a hub memory instruction: a register or a PTR expression (R121). -/
inductive HubOp where
  | reg (a : RegAddr)
  | ptr (e : PtrExpr)
deriving DecidableEq, Repr

/-- An operand `S/#n` (bit 22 selects, R119) or `D/#n` (bit 23 selects, R121): a register or a 9-bit immediate. -/
inductive RegOrImm where
  | reg (a : RegAddr)
  | imm (n : BitVec 9)
deriving DecidableEq, Repr

/-- The operand of a SETINDx: a register address, or a 9-bit signed delta (R267). -/
inductive IndOp where
  | addr (a : BitVec 9)
  | delta (n : BitVec 9)
deriving DecidableEq, Repr

/-- The instructions of spec/opcode_table.json, one constructor per row, in the table's order. -/
inductive Instr where
  -- hub memory (R155..R166)
  | wrbyte (cc : CCCC) (d : RegAddr) (x : HubOp)
  | rdbyte (wz : Bool) (cc : CCCC) (d : RegAddr) (x : HubOp)
  | rdbytec (wz : Bool) (cc : CCCC) (d : RegAddr) (x : HubOp)
  | wrword (cc : CCCC) (d : RegAddr) (x : HubOp)
  | rdword (wz : Bool) (cc : CCCC) (d : RegAddr) (x : HubOp)
  | rdwordc (wz : Bool) (cc : CCCC) (d : RegAddr) (x : HubOp)
  | wrlong (cc : CCCC) (d : RegAddr) (x : HubOp)
  | rdlong (wz : Bool) (cc : CCCC) (d : RegAddr) (x : HubOp)
  | rdlongc (wz : Bool) (cc : CCCC) (d : RegAddr) (x : HubOp)
  | wrquad (cc : CCCC) (x : HubOp)
  | rdquad (cc : CCCC) (x : HubOp)
  | rdquadc (cc : CCCC) (x : HubOp)
  -- pointers and QUADs (R200..R213)
  | getptra (wz wc wr : Bool) (cc : CCCC) (d : RegAddr)
  | getptrb (wz wc wr : Bool) (cc : CCCC) (d : RegAddr)
  | setptra (cc : CCCC) (x : RegOrImm)
  | setptrb (cc : CCCC) (x : RegOrImm)
  | addptra (cc : CCCC) (x : RegOrImm)
  | addptrb (cc : CCCC) (x : RegOrImm)
  | subptra (cc : CCCC) (x : RegOrImm)
  | subptrb (cc : CCCC) (x : RegOrImm)
  | cachex (cc : CCCC)
  | gettops (wz : Bool) (cc : CCCC) (d : RegAddr)
  | setquad (cc : CCCC) (x : RegOrImm)
  | setquaz (cc : CCCC) (x : RegOrImm)
  -- hub control (R231..R241)
  | coginit (wz wc wr : Bool) (cc : CCCC) (d : RegAddr) (x : RegAddr)
  | clkset (cc : CCCC) (d : RegAddr)
  | cogid (cc : CCCC) (d : RegAddr)
  | cogstop (cc : CCCC) (d : RegAddr)
  | locknew (wz wc : Bool) (cc : CCCC) (d : RegAddr)
  | lockret (cc : CCCC) (d : RegAddr)
  | lockset (wc : Bool) (cc : CCCC) (d : RegAddr)
  | lockclr (wc : Bool) (cc : CCCC) (d : RegAddr)
  -- indirect set-up (R267..R272)
  | setinda (a : IndOp)
  | setindb (b : IndOp)
  | setinds (b a : IndOp)
  | fixinda (terminal initial : RegAddr)
  | fixindb (terminal initial : RegAddr)
  | fixinds (terminal initial : RegAddr)
  -- MOV and ADD (R273, R274)
  | mov (cc : CCCC) (d : RegAddr) (x : RegOrImm)
  | add (cc : CCCC) (d : RegAddr) (x : RegOrImm)
  -- system counter and waits (R302..R308)
  | cmpcnt (wz wc : Bool) (cc : CCCC) (d : RegAddr)
  | subcnt (wz wc : Bool) (cc : CCCC) (d : RegAddr)
  | passcnt (cc : CCCC) (d : RegAddr)
  | getcnt (cc : CCCC) (d : RegAddr)
  | waitcnt (wc wr : Bool) (cc : CCCC) (d : RegAddr) (x : RegOrImm)
  | waitpeq (cc : CCCC) (d : RegAddr) (x : RegOrImm)
  | waitpne (cc : CCCC) (d : RegAddr) (x : RegOrImm)
  -- JMPRET and its special cases (R322..R328)
  | jmpretS (wz wc : Bool) (cc : CCCC) (d : RegAddr) (x : RegAddr)
  | jmpretN (wz wc : Bool) (cc : CCCC) (d : RegAddr) (n : BitVec 9)
  | jmpretSNR (wz wc : Bool) (cc : CCCC) (d : RegAddr) (x : RegAddr)
  | jmpretNNR (wz wc : Bool) (cc : CCCC) (d : RegAddr) (n : BitVec 9)
  | jmpS (wz wc : Bool) (cc : CCCC) (x : RegAddr)
  | jmpN (wz wc : Bool) (cc : CCCC) (n : BitVec 9)
  | ret (wz wc : Bool) (cc : CCCC)
  | call (wz wc : Bool) (cc : CCCC) (d : RegAddr) (n : BitVec 9)
  | tasksw
  -- JMPRETD and its special cases (R329..R335)
  | jmpretdS (wz wc : Bool) (cc : CCCC) (d : RegAddr) (x : RegAddr)
  | jmpretdN (wz wc : Bool) (cc : CCCC) (d : RegAddr) (n : BitVec 9)
  | jmpretdSNR (wz wc : Bool) (cc : CCCC) (d : RegAddr) (x : RegAddr)
  | jmpretdNNR (wz wc : Bool) (cc : CCCC) (d : RegAddr) (n : BitVec 9)
  | jmpdS (wz wc : Bool) (cc : CCCC) (x : RegAddr)
  | jmpdN (wz wc : Bool) (cc : CCCC) (n : BitVec 9)
  | retd (wz wc : Bool) (cc : CCCC)
  | calld (wz wc : Bool) (cc : CCCC) (d : RegAddr) (n : BitVec 9)
  | taskswd
  -- conditional branches (R336..R351)
  | ijz (wr : Bool) (cc : CCCC) (d : RegAddr) (x : RegOrImm)
  | ijnz (wr : Bool) (cc : CCCC) (d : RegAddr) (x : RegOrImm)
  | djz (wr : Bool) (cc : CCCC) (d : RegAddr) (x : RegOrImm)
  | djnz (wr : Bool) (cc : CCCC) (d : RegAddr) (x : RegOrImm)
  | ijzd (wr : Bool) (cc : CCCC) (d : RegAddr) (x : RegOrImm)
  | ijnzd (wr : Bool) (cc : CCCC) (d : RegAddr) (x : RegOrImm)
  | djzd (wr : Bool) (cc : CCCC) (d : RegAddr) (x : RegOrImm)
  | djnzd (wr : Bool) (cc : CCCC) (d : RegAddr) (x : RegOrImm)
  | tjz (cc : CCCC) (d : RegAddr) (x : RegOrImm)
  | tjnz (cc : CCCC) (d : RegAddr) (x : RegOrImm)
  | jp (cc : CCCC) (d : RegAddr) (x : RegOrImm)
  | jnp (cc : CCCC) (d : RegAddr) (x : RegOrImm)
  | tjzd (cc : CCCC) (d : RegAddr) (x : RegOrImm)
  | tjnzd (cc : CCCC) (d : RegAddr) (x : RegOrImm)
  | jpd (cc : CCCC) (d : RegAddr) (x : RegOrImm)
  | jnpd (cc : CCCC) (d : RegAddr) (x : RegOrImm)
deriving DecidableEq, Repr

end Sys2Proof
end

