-- ==== Sys2Proof/Machine/AbsSyntax.lean ====
section
/-! DEFINITION. The instructions the spec describes but gives no encoding (R4, R141): no word decodes to them, so no
step runs them; `execAbs` gives each its meaning (log entry 21). -/

namespace Sys2Proof

/-- The A or the B one of a pair: CTRA and CTRB, SPA and SPB, ACCA and ACCB. -/
inductive Which where
  | a
  | b
deriving DecidableEq, Repr

/-- The seven texture-mapper parameters (R422). -/
inductive PixName where
  | u
  | v
  | z
  | a
  | r
  | g
  | b
deriving DecidableEq, Repr

/-- The condition and the flag and result controls every instruction has (R113, R115). -/
structure Ctl where
  cc : CCCC
  wz : Bool
  wc : Bool
  wr : Bool
deriving DecidableEq, Repr

/-- The instructions named without an encoding that have a rule of behaviour (R141). -/
inductive AbsInstr where
  /-- SETCOG (R233). -/
  | setcog (x : RegOrImm)
  /-- SETSPA, SETSPB (R291, R292). -/
  | setsp (w : Which) (x : RegOrImm)
  /-- ADDSPA, ADDSPB (R293, R294). -/
  | addsp (w : Which) (x : RegOrImm)
  /-- SUBSPA, SUBSPB (R295, R296). -/
  | subsp (w : Which) (x : RegOrImm)
  /-- GETSPA, GETSPB (R297, R298). -/
  | getsp (w : Which) (d : RegAddr)
  /-- GETSPD (R299). -/
  | getspd (d : RegAddr)
  /-- GETPHSA, GETPHSB (R371). -/
  | getphs (w : Which) (d : RegAddr)
  /-- GETPHZA, GETPHZB (R372). -/
  | getphz (w : Which) (d : RegAddr)
  /-- GETCOSA, GETCOSB (R373). -/
  | getcos (w : Which) (d : RegAddr)
  /-- GETSINA, GETSINB (R374). -/
  | getsin (w : Which) (d : RegAddr)
  /-- SETCTRA, SETCTRB (R375). -/
  | setctr (w : Which) (x : RegOrImm)
  /-- SETWAVA, SETWAVB (R376). -/
  | setwav (w : Which) (x : RegOrImm)
  /-- SETFRQA, SETFRQB (R377). -/
  | setfrq (w : Which) (x : RegOrImm)
  /-- SETPHSA, SETPHSB (R378). -/
  | setphs (w : Which) (x : RegOrImm)
  /-- ADDPHSA, ADDPHSB (R379). -/
  | addphs (w : Which) (x : RegOrImm)
  /-- SUBPHSA, SUBPHSB (R380). -/
  | subphs (w : Which) (x : RegOrImm)
  /-- SYNCTRA, SYNCTRB (R381). -/
  | synctr (w : Which)
  /-- POLCTRA, POLCTRB (R382). -/
  | polctr (w : Which)
  /-- CAPCTRA, CAPCTRB (R383). -/
  | capctr (w : Which)
  /-- CFGDAC0..CFGDAC3 (R390). -/
  | cfgdac (n : Fin 4) (x : RegOrImm)
  /-- CFGDACS (R391). -/
  | cfgdacs (x : RegOrImm)
  /-- SETDAC0..SETDAC3 (R393). -/
  | setdac (n : Fin 4) (x : RegOrImm)
  /-- SETDACS (R394). -/
  | setdacs (x : RegOrImm)
  /-- SETVID (R411). -/
  | setvid (x : RegOrImm)
  /-- SETVIDY (R412). -/
  | setvidy (x : RegOrImm)
  /-- SETVIDI (R434). -/
  | setvidi (x : RegOrImm)
  /-- SETVIDQ (R435). -/
  | setvidq (x : RegOrImm)
  /-- WAITVID (R416). -/
  | waitvid (d : RegAddr) (x : RegOrImm)
  /-- POLVID (R418). -/
  | polvid
  /-- SETPIX (R421). -/
  | setpix (x : RegOrImm)
  /-- SETPIXU, V, Z, A, R, G, B (R422, R436..R441). -/
  | setpixp (p : PixName) (x : RegOrImm)
  /-- GETPIX (R423). -/
  | getpix (d : RegAddr)
  /-- SETXFR (R431). -/
  | setxfr (x : RegOrImm)
  /-- SETMULU (R462). -/
  | setmulu (x : RegOrImm)
  /-- SETMULA (R463). -/
  | setmula (x : RegOrImm)
  /-- SETMULB (R464). -/
  | setmulb (x : RegOrImm)
  /-- GETMULL (R465). -/
  | getmull (d : RegAddr)
  /-- GETMULH (R466). -/
  | getmulh (d : RegAddr)
  /-- SETDIVU (R468). -/
  | setdivu (x : RegOrImm)
  /-- SETDIVA (R469). -/
  | setdiva (x : RegOrImm)
  /-- SETDIVB (R470). -/
  | setdivb (x : RegOrImm)
  /-- GETDIVQ (R471). -/
  | getdivq (d : RegAddr)
  /-- GETDIVR (R472). -/
  | getdivr (d : RegAddr)
  /-- SETSQRH (R475). -/
  | setsqrh (x : RegOrImm)
  /-- SETSQRL (R476). -/
  | setsqrl (x : RegOrImm)
  /-- GETSQRT (R477). -/
  | getsqrt (d : RegAddr)
  /-- QLOG (R479). -/
  | qlog (x : RegOrImm)
  /-- QEXP (R480). -/
  | qexp (x : RegOrImm)
  /-- QSINCOS (R481). -/
  | qsincos (d : RegAddr) (x : RegOrImm)
  /-- QARCTAN (R482). -/
  | qarctan (d : RegAddr) (x : RegOrImm)
  /-- SETQZ (R483). -/
  | setqz (x : RegOrImm)
  /-- QROTATE (R484). -/
  | qrotate (d : RegAddr) (x : RegOrImm)
  /-- GETQX (R485). -/
  | getqx (d : RegAddr)
  /-- GETQY (R570). -/
  | getqy (d : RegAddr)
  /-- GETQZ (R571). -/
  | getqz (d : RegAddr)
  /-- SETQI (R486). -/
  | setqi (x : RegOrImm)
  /-- MACA, MACB (R492, R493). -/
  | mac (w : Which) (d : RegAddr) (x : RegOrImm)
  /-- CLRACCA, CLRACCB (R494, R572). -/
  | clracc (w : Which)
  /-- CLRACCS (R573). -/
  | clraccs
  /-- SETACCA, SETACCB (R495, R574). -/
  | setacc (w : Which) (d : RegAddr) (x : RegOrImm)
  /-- FITACCA, FITACCB (R496, R575). -/
  | fitacc (w : Which)
  /-- FITACCS (R576). -/
  | fitaccs
  /-- GETACCA, GETACCB (R497, R577). -/
  | getacc (w : Which) (d : RegAddr)
deriving DecidableEq, Repr

end Sys2Proof
end

