-- ==== Sys2Proof/Config.lean ====
section
/-! DEFINITION. What the spec fixes for the chip (R6), and the free values: everything it leaves open (R7).
A free value is an opaque constant, so nothing can be proved of it and a statement holds whatever it is (log entry 6). -/

namespace Sys2Proof.Config

/-- First byte of hub RAM; below it is ROM (R6, R75). -/
def ramBase : Nat := 0xE80

/-- First byte after hub memory: 128K bytes (R6). -/
def hubBytes : Nat := 0x20000

/-- Longs loaded into a started cog: $1F8 (R6, R232). -/
def loadLongs : Nat := 0x1F8

/-- The 32 bytes the source shows at $00000..$0001F (R77; log entry 4). -/
def romHead : List Byte :=
  [0x50, 0x72, 0x6F, 0x70, 0x32, 0x2E, 0x30, 0x20,
   0x00, 0x20, 0x7C, 0x0C, 0x03, 0xCC, 0x7C, 0x0C,
   0x45, 0xFE, 0xC1, 0x0D, 0xE3, 0xB6, 0xFC, 0x0C,
   0x01, 0xC6, 0x7C, 0x0C, 0x01, 0xC6, 0x7C, 0x0D]

/-- ROM_IMAGE beyond the 32 bytes shown, by address: one unknown byte each, fixed for the run (R7, R77, D5). -/
opaque romByte : Nat → Byte

/-- The n-th free bit (`draw(1)`, R11). -/
opaque freeBit : Nat → Bool

/-- The n-th free long (`draw(32)`, R11). -/
opaque freeWord : Nat → Word

/-- The n-th free choice among a number of candidates (R231, R238). -/
opaque freeNat : Nat → Nat

/-- HUB_SLOT_ORDER: which cog moves after the n-th free value (R83, D9). -/
opaque nextCog : Nat → Fin 8

/-- CNT_ORACLE: how many clocks beyond one pass in a step (R301, D30). -/
opaque extraClocks : Nat → Nat

/-- Contents a reset leaves unspecified: hub RAM (R49, R530). -/
opaque resetBytes : Nat → List (Nat × Byte)

/-- Contents a reset leaves unspecified: the register RAM (0..7) and the stack RAM (8..15) of a cog (R49, R530). -/
opaque resetLongs : Nat → Nat → List (Nat × Word)

/-- PIN_ORACLE: the levels of pins P0..P95 at a clock (R7, D29). -/
opaque pins : Nat → BitVec 96

/-- Levels of the inputs INA and INB of counter A (false) or B (true) of a cog at a clock:
how they are chosen among the pins is not stated (R370). -/
opaque counterInputs : Nat → Nat → Bool → Bool × Bool

/-- PHS after a clock of a counter whose mode function the source does not give (R370, R384). -/
opaque counterPhase : Nat → Nat → Bool → Word

/-- Whether PHS rolled over in that clock. -/
opaque counterRolled : Nat → Nat → Bool → Bool

/-- What LOGIC_ENCODER registers at a clock: 1 forward half-step, 2 reverse, else none (R387). -/
opaque encoderStep : Nat → Nat → Bool → Nat

/-- Where the mode %iii_mmmmm sits in the operand of SETCTRx: not stated (R375). -/
opaque counterMode : Word → BitVec 8

/-- The nine-bit sine lookup table, by the top nine bits of a phase: contents not given (R385). -/
opaque sineTable : BitVec 9 → BitVec 9

/-- The nine-bit square, sawtooth or triangle value at a phase, by the low two bits of the mode: "derived from the top
nine bits of PHS", not given further (R384, R385). -/
opaque waveShape : BitVec 2 → BitVec 9 → BitVec 9

/-- The 18-bit signal of a WAVE mode, of the looked-up value, the offset TTTTTTTTT and the amplitude AAAAAAAAA of WAV:
the scaling is not given (R385). -/
opaque waveScale : BitVec 9 → BitVec 9 → BitVec 9 → BitVec 18

/-- The 18-bit signal SIGA (false) or SIGB (true) of a counter in another mode at a clock: not given (R384, R390). -/
opaque counterSignal : Nat → Nat → Bool → Bool → BitVec 18

/-- The level of OUTA (false) or OUTB (true) of a counter in a WAVE mode at a clock, the 18-bit signal it modulates given:
"duty-modulated", not given further (R385). -/
opaque dutyOutput : Nat → Nat → Bool → Bool → BitVec 18 → Bool

/-- The level of OUTA (false) or OUTB (true) of a counter in an NCO, DUTY or PWM mode at a clock: not given (R370, R384). -/
opaque counterOutput : Nat → Nat → Bool → Bool → Bool

/-- Whether a reverse step of LOGIC_ENCODER that wraps PHS counts as a roll-over for POLCTRx: not stated (R382). -/
opaque reverseCounts : Nat → Nat → Bool → Bool

/-- How far the oscillator of a video PLL is behind its reference after a clock: its phase is not given (R384). -/
opaque pllLag : Nat → Nat → Bool → Nat

/-- One step of the dither LFSR: polynomial not given (R392). -/
opaque lfsrNext : Word → Word

/-- The nine fixed bits taken from the LFSR, of the cog, the DAC channel and the LFSR: not given (R392). -/
opaque lfsrTap : Nat → Fin 4 → Word → BitVec 9

/-- Which edge of the PLL output is VID's dot clock, rising (true) or falling: not stated (R410). -/
opaque dotEdge : Bool

/-- How many of the inexact quotients of a colourspace sum are rounded up, of VCFG[1], the coefficients and the pixel: not
given (R413). -/
opaque colourRound : Bool → Word → Word → Nat

/-- The error of the modulated chroma Q' of (I, Q) at an angle: the rotator's numerics are not given (R413). -/
opaque chromaError : BitVec 9 → BitVec 9 → BitVec 4 → Nat

/-- What VID gives a DAC channel at a clock in which it streams no command or CTRA is in no PLL mode: not stated
(R410, R416). -/
opaque idleSignal : Nat → Nat → Fin 4 → BitVec 9

/-- The 8:8:8 colour of a narrow pixel of a mode (value, selector): the expansions are not stated (R417). -/
opaque narrowColour : BitVec 4 → Word → Word → BitVec 24

/-- Which half of a stack long a word texel takes: not stated (R423). -/
opaque texelHighHalf : Bool → Bool

/-- The 8:8:8:8 expansion of a 1:5:5:5 texel: not stated (R421). -/
opaque texelExpand : BitVec 16 → Word

/-- Whether a mirrored texture axis is reversed here, of U and the whole quotient U / Z': which quantity's bit 15 decides
is not stated (R421). -/
opaque mirrored : BitVec 16 → Nat → Bool

/-- Whether an angle word above 180 degrees is a negative angle in hyperbolic mode, where the two readings differ: not
stated (R486). -/
opaque hyperSigned : Bool

/-- Whether QSINCOS leaves its angle where SETQZ puts that of QROTATE, by the free values used before: not stated (R481,
R483). -/
opaque sincosSetsZ : Nat → Bool

/-- Whether a background arithmetic unit is still busy after a clock: time, cog, unit (R490, R560). -/
opaque stillBusy : Nat → Nat → Nat → Bool

end Sys2Proof.Config
end

