-- ==== Sys2Proof/WellFormed.lean ====
section
/-! DEFINITION. Which instructions are well formed: those spelt as the decoder spells their word.
JMP, RET, CALL, TASKSW and their delayed forms are other names of JMPRET and JMPRETD words (R132); where a word
belongs to two rows of the table, the special row spells it (log entry 15). Every other operand value is allowed. -/

namespace Sys2Proof

/-- INDA's register address (R260). -/
def indaAddr : RegAddr := 0x1F6

/-- INDB's register address (R260). -/
def indbAddr : RegAddr := 0x1F7

/-- Whether a field names INDA or INDB (R122). -/
def isIndAddr (a : RegAddr) : Bool := a == indaAddr || a == indbAddr

/-- Whether the operands of a JMPRET D,S are those of TASKSW: `JMPRET INDA,++INDA WZ,WC` (R328). -/
def isTaskSwitch (wz wc : Bool) (cc : CCCC) (d x : RegAddr) : Bool :=
  wz && wc && cc == 0b0011 && d == indaAddr && x == indaAddr

/-- An instruction is well formed when no special row of the table spells its word. -/
def Instr.wellFormed : Instr → Bool
  | .jmpretS wz wc cc d x | .jmpretdS wz wc cc d x => !isTaskSwitch wz wc cc d x
  | .jmpretN _ _ _ d _ | .jmpretdN _ _ _ d _ => isIndAddr d
  | .call _ _ _ d _ | .calld _ _ _ d _ => !isIndAddr d
  | .jmpretSNR _ _ _ d _ | .jmpretNNR _ _ _ d _
  | .jmpretdSNR _ _ _ d _ | .jmpretdNNR _ _ _ d _ => d != 0
  | .jmpN _ _ _ n | .jmpdN _ _ _ n => n != 0
  | .wrbyte .. | .rdbyte .. | .rdbytec .. | .wrword .. | .rdword .. | .rdwordc .. | .wrlong .. | .rdlong ..
  | .rdlongc .. | .wrquad .. | .rdquad .. | .rdquadc .. | .getptra .. | .getptrb .. | .setptra .. | .setptrb ..
  | .addptra .. | .addptrb .. | .subptra .. | .subptrb .. | .cachex .. | .gettops .. | .setquad .. | .setquaz ..
  | .coginit .. | .clkset .. | .cogid .. | .cogstop .. | .locknew .. | .lockret .. | .lockset .. | .lockclr ..
  | .setinda .. | .setindb .. | .setinds .. | .fixinda .. | .fixindb .. | .fixinds .. | .mov .. | .add ..
  | .cmpcnt .. | .subcnt .. | .passcnt .. | .getcnt .. | .waitcnt .. | .waitpeq .. | .waitpne ..
  | .jmpS .. | .ret .. | .tasksw | .jmpdS .. | .retd .. | .taskswd
  | .ijz .. | .ijnz .. | .djz .. | .djnz .. | .ijzd .. | .ijnzd .. | .djzd .. | .djnzd ..
  | .tjz .. | .tjnz .. | .jp .. | .jnp .. | .tjzd .. | .tjnzd .. | .jpd .. | .jnpd .. => true

end Sys2Proof
end

