-- ==== Sys2Proof/Decode.lean ====
section
/-! DEFINITION. The decoder, total on every 32-bit word and rejecting by name (R126, R127), and the encoder.
A word is cut into the fields of R111 once; R112's single-operand format has the same fields. -/

namespace Sys2Proof

/-- The fields `TTTTTT ZCR I CCCC DDDDDDDDD SSSSSSSSS` of a word (R9, R111). -/
structure Fields where
  t : BitVec 6
  z : Bool
  c : Bool
  r : Bool
  i : Bool
  cc : CCCC
  d : BitVec 9
  s : BitVec 9
deriving DecidableEq, Repr

/-- Why a word is not in the spec (R127, D13). -/
inductive Reject where
  /-- Bits 31..26 are none of the values of R124. -/
  | unlistedOpcode
  /-- The operation is listed, but not with these bits Z, C, R (R114). -/
  | unlistedControl
  /-- A single-operand code that R125 does not list. -/
  | unlistedCode
  /-- A SETINDx or FIXINDx selector, or a field that must be zero, that the source does not list (R127, R269, R272). -/
  | unlistedSelector
deriving DecidableEq, Repr

/-- The fields of a word (R9). -/
def Fields.ofWord (w : Word) : Fields :=
  { t := w.extractLsb' 26 6, z := w.getLsbD 25, c := w.getLsbD 24, r := w.getLsbD 23, i := w.getLsbD 22,
    cc := w.extractLsb' 18 4, d := w.extractLsb' 9 9, s := w.extractLsb' 0 9 }

/-- The word with given fields (R9). -/
def Fields.toWord (f : Fields) : Word :=
  BitVec.ofNat 32 (f.t.toNat * 2 ^ 26 + f.z.toNat * 2 ^ 25 + f.c.toNat * 2 ^ 24 + f.r.toNat * 2 ^ 23
    + f.i.toNat * 2 ^ 22 + f.cc.toNat * 2 ^ 18 + f.d.toNat * 2 ^ 9 + f.s.toNat)

/-- A PTR expression from its nine bits `S U P NNNNNN` (R151). -/
def PtrExpr.ofBits (b : BitVec 9) : PtrExpr :=
  { useB := b.getLsbD 8, update := b.getLsbD 7, post := b.getLsbD 6, index := b.extractLsb' 0 6 }

/-- The nine bits of a PTR expression (R151). -/
def PtrExpr.toBits (e : PtrExpr) : BitVec 9 :=
  BitVec.ofNat 9 (e.useB.toNat * 2 ^ 8 + e.update.toNat * 2 ^ 7 + e.post.toNat * 2 ^ 6 + e.index.toNat)

/-- A hub address operand: a PTR expression when its selector bit is 1 (R121). -/
def HubOp.ofField (sel : Bool) (b : BitVec 9) : HubOp :=
  if sel then .ptr (PtrExpr.ofBits b) else .reg b

/-- The selector bit of a hub address operand. -/
def HubOp.sel : HubOp → Bool
  | .reg _ => false
  | .ptr _ => true

/-- The nine-bit field of a hub address operand. -/
def HubOp.field : HubOp → BitVec 9
  | .reg a => a
  | .ptr e => e.toBits

/-- A register-or-immediate operand: an immediate when its selector bit is 1 (R119, R121). -/
def RegOrImm.ofField (sel : Bool) (b : BitVec 9) : RegOrImm :=
  if sel then .imm b else .reg b

/-- The selector bit of a register-or-immediate operand. -/
def RegOrImm.sel : RegOrImm → Bool
  | .reg _ => false
  | .imm _ => true

/-- The nine-bit field of a register-or-immediate operand. -/
def RegOrImm.field : RegOrImm → BitVec 9
  | .reg a => a
  | .imm n => n

/-- A SETINDx operand: a delta when its selector bit is 1 (R123). -/
def IndOp.ofField (delta : Bool) (b : BitVec 9) : IndOp :=
  if delta then .delta b else .addr b

/-- The selector bit of a SETINDx operand. -/
def IndOp.isDelta : IndOp → Bool
  | .addr _ => false
  | .delta _ => true

/-- The nine-bit field of a SETINDx operand. -/
def IndOp.field : IndOp → BitVec 9
  | .addr a => a
  | .delta n => n

/-- Opcodes 000000, 000001, 000010: write `000`, read `Z01`, cached read `Z11` (R124). -/
def decodeHub (f : Fields) (wr : CCCC → RegAddr → HubOp → Instr)
    (rd rdc : Bool → CCCC → RegAddr → HubOp → Instr) : Except Reject Instr :=
  match f.z, f.c, f.r with
  | false, false, false => .ok (wr f.cc f.d (.ofField f.i f.s))
  | z, false, true => .ok (rd z f.cc f.d (.ofField f.i f.s))
  | z, true, true => .ok (rdc z f.cc f.d (.ofField f.i f.s))
  | _, _, _ => .error .unlistedControl

/-- A single-operand row with ZCR `000` and a register D (R125). -/
def decode000 (f : Fields) (mk : CCCC → RegAddr → Instr) : Except Reject Instr :=
  match f.z, f.c, f.r with
  | false, false, false => .ok (mk f.cc f.d)
  | _, _, _ => .error .unlistedControl

/-- A single-operand row with ZCR `00R`, R selecting the operand form (R125, R208). -/
def decode00R (f : Fields) (mk : CCCC → RegOrImm → Instr) : Except Reject Instr :=
  match f.z, f.c with
  | false, false => .ok (mk f.cc (.ofField f.r f.d))
  | _, _ => .error .unlistedControl

/-- The single-operand group: T = 000011, bit 22 = 1, the S field is an operation code (R125). -/
def decodeSingle (f : Fields) : Except Reject Instr :=
  match f.s.toNat with
  | 0b000000000 => decode000 f .clkset
  | 0b000000001 =>
    match f.z, f.c, f.r with
    | false, false, true => .ok (.cogid f.cc f.d)
    | _, _, _ => .error .unlistedControl
  | 0b000000011 => decode000 f .cogstop
  | 0b000000100 => if f.r then .ok (.locknew f.z f.c f.cc f.d) else .error .unlistedControl
  | 0b000000101 => decode000 f .lockret
  | 0b000000110 =>
    match f.z, f.r with
    | false, false => .ok (.lockset f.c f.cc f.d)
    | _, _ => .error .unlistedControl
  | 0b000000111 =>
    match f.z, f.r with
    | false, false => .ok (.lockclr f.c f.cc f.d)
    | _, _ => .error .unlistedControl
  | 0b000001000 =>
    match f.z, f.c, f.r with
    | false, false, false => if f.d = 0 then .ok (.cachex f.cc) else .error .unlistedSelector
    | _, _, _ => .error .unlistedControl
  | 0b000001100 => if f.r then .ok (.subcnt f.z f.c f.cc f.d) else .ok (.cmpcnt f.z f.c f.cc f.d)
  | 0b000001101 =>
    match f.z, f.c, f.r with
    | false, false, false => .ok (.passcnt f.cc f.d)
    | false, false, true => .ok (.getcnt f.cc f.d)
    | _, _, _ => .error .unlistedControl
  | 0b000010001 =>
    match f.c, f.r with
    | false, true => .ok (.gettops f.z f.cc f.d)
    | _, _ => .error .unlistedControl
  | 0b000010010 => .ok (.getptra f.z f.c f.r f.cc f.d)
  | 0b000010011 => .ok (.getptrb f.z f.c f.r f.cc f.d)
  | 0b010110000 =>
    match f.z, f.c with
    | false, false => .ok (.wrquad f.cc (.ofField f.r f.d))
    | _, _ => .error .unlistedControl
  | 0b010110001 =>
    match f.z, f.c with
    | false, false => .ok (.rdquad f.cc (.ofField f.r f.d))
    | false, true => .ok (.rdquadc f.cc (.ofField f.r f.d))
    | _, _ => .error .unlistedControl
  | 0b010110010 => decode00R f .setptra
  | 0b010110011 => decode00R f .setptrb
  | 0b010110100 => decode00R f .addptra
  | 0b010110101 => decode00R f .addptrb
  | 0b010110110 => decode00R f .subptra
  | 0b010110111 => decode00R f .subptrb
  | 0b011100010 =>
    match f.z, f.c with
    | false, false => .ok (.setquad f.cc (.ofField f.r f.d))
    | false, true => .ok (.setquaz f.cc (.ofField f.r f.d))
    | _, _ => .error .unlistedControl
  | _ => .error .unlistedCode

/-- Opcode 000111: JMPRET, spelt by its most special row (R322..R328, R132). -/
def decodeJmpret (f : Fields) : Instr :=
  match f.r, f.i with
  | true, false =>
    if isTaskSwitch f.z f.c f.cc f.d f.s then .tasksw else .jmpretS f.z f.c f.cc f.d f.s
  | true, true => if isIndAddr f.d then .jmpretN f.z f.c f.cc f.d f.s else .call f.z f.c f.cc f.d f.s
  | false, false => if f.d = 0 then .jmpS f.z f.c f.cc f.s else .jmpretSNR f.z f.c f.cc f.d f.s
  | false, true =>
    if f.d = 0 then (if f.s = 0 then .ret f.z f.c f.cc else .jmpN f.z f.c f.cc f.s)
    else .jmpretNNR f.z f.c f.cc f.d f.s

/-- Opcode 010111: JMPRETD, spelt by its most special row (R329..R335, R132). -/
def decodeJmpretd (f : Fields) : Instr :=
  match f.r, f.i with
  | true, false =>
    if isTaskSwitch f.z f.c f.cc f.d f.s then .taskswd else .jmpretdS f.z f.c f.cc f.d f.s
  | true, true => if isIndAddr f.d then .jmpretdN f.z f.c f.cc f.d f.s else .calld f.z f.c f.cc f.d f.s
  | false, false => if f.d = 0 then .jmpdS f.z f.c f.cc f.s else .jmpretdSNR f.z f.c f.cc f.d f.s
  | false, true =>
    if f.d = 0 then (if f.s = 0 then .retd f.z f.c f.cc else .jmpdN f.z f.c f.cc f.s)
    else .jmpretdNNR f.z f.c f.cc f.d f.s

/-- MOV and ADD: only ZCR `001` is specified (R273, R274). -/
def decode001 (f : Fields) (mk : CCCC → RegAddr → RegOrImm → Instr) : Except Reject Instr :=
  match f.z, f.c, f.r with
  | false, false, true => .ok (mk f.cc f.d (.ofField f.i f.s))
  | _, _, _ => .error .unlistedControl

/-- Opcode 111000: SETINDA, SETINDB, SETINDS by CCCC; ZCR = 000, I = 0 (R123, R267..R269). -/
def decodeSetind (f : Fields) : Except Reject Instr :=
  match f.z, f.c, f.r, f.i with
  | false, false, false, false =>
    match f.cc.toNat with
    | 0b0001 => if f.d = 0 then .ok (.setinda (.addr f.s)) else .error .unlistedSelector
    | 0b0011 => if f.d = 0 then .ok (.setinda (.delta f.s)) else .error .unlistedSelector
    | 0b0100 => if f.s = 0 then .ok (.setindb (.addr f.d)) else .error .unlistedSelector
    | 0b1100 => if f.s = 0 then .ok (.setindb (.delta f.d)) else .error .unlistedSelector
    | 0b0101 => .ok (.setinds (.addr f.d) (.addr f.s))
    | 0b0111 => .ok (.setinds (.addr f.d) (.delta f.s))
    | 0b1101 => .ok (.setinds (.delta f.d) (.addr f.s))
    | 0b1111 => .ok (.setinds (.delta f.d) (.delta f.s))
    | _ => .error .unlistedSelector
  | _, _, _, _ => .error .unlistedControl

/-- Opcode 111001: FIXINDA, FIXINDB, FIXINDS by CCCC; ZCR = 000, I = 0 (R123, R270..R272). -/
def decodeFixind (f : Fields) : Except Reject Instr :=
  match f.z, f.c, f.r, f.i with
  | false, false, false, false =>
    match f.cc.toNat with
    | 0b0001 => .ok (.fixinda f.d f.s)
    | 0b0100 => .ok (.fixindb f.d f.s)
    | 0b0101 => .ok (.fixinds f.d f.s)
    | _ => .error .unlistedSelector
  | _, _, _, _ => .error .unlistedControl

/-- The operation selected by T, then by the bits R124 and R125 name. -/
def decodeFields (f : Fields) : Except Reject Instr :=
  match f.t.toNat with
  | 0b000000 => decodeHub f .wrbyte .rdbyte .rdbytec
  | 0b000001 => decodeHub f .wrword .rdword .rdwordc
  | 0b000010 => decodeHub f .wrlong .rdlong .rdlongc
  | 0b000011 => if f.i then decodeSingle f else .ok (.coginit f.z f.c f.r f.cc f.d f.s)
  | 0b000111 => .ok (decodeJmpret f)
  | 0b010111 => .ok (decodeJmpretd f)
  | 0b100000 => decode001 f .add
  | 0b101000 => decode001 f .mov
  | 0b111000 => decodeSetind f
  | 0b111001 => decodeFixind f
  | 0b111100 =>
    .ok (match f.z, f.c with
      | false, false => .ijz f.r f.cc f.d (.ofField f.i f.s)
      | false, true => .ijzd f.r f.cc f.d (.ofField f.i f.s)
      | true, false => .ijnz f.r f.cc f.d (.ofField f.i f.s)
      | true, true => .ijnzd f.r f.cc f.d (.ofField f.i f.s))
  | 0b111101 =>
    .ok (match f.z, f.c with
      | false, false => .djz f.r f.cc f.d (.ofField f.i f.s)
      | false, true => .djzd f.r f.cc f.d (.ofField f.i f.s)
      | true, false => .djnz f.r f.cc f.d (.ofField f.i f.s)
      | true, true => .djnzd f.r f.cc f.d (.ofField f.i f.s))
  | 0b111110 =>
    .ok (match f.z, f.c, f.r with
      | false, false, false => .tjz f.cc f.d (.ofField f.i f.s)
      | false, false, true => .jp f.cc f.d (.ofField f.i f.s)
      | false, true, false => .tjzd f.cc f.d (.ofField f.i f.s)
      | false, true, true => .jpd f.cc f.d (.ofField f.i f.s)
      | true, false, false => .tjnz f.cc f.d (.ofField f.i f.s)
      | true, false, true => .jnp f.cc f.d (.ofField f.i f.s)
      | true, true, false => .tjnzd f.cc f.d (.ofField f.i f.s)
      | true, true, true => .jnpd f.cc f.d (.ofField f.i f.s))
  | 0b111111 =>
    match f.z, f.c, f.r with
    | false, c, r => .ok (.waitcnt c r f.cc f.d (.ofField f.i f.s))
    | true, true, false => .ok (.waitpeq f.cc f.d (.ofField f.i f.s))
    | true, true, true => .ok (.waitpne f.cc f.d (.ofField f.i f.s))
    | true, false, _ => .error .unlistedControl
  | _ => .error .unlistedOpcode

/-- The instruction a word stands for, or why it is not in the spec (R126, R127). -/
def decode (w : Word) : Except Reject Instr := decodeFields (.ofWord w)

/-- The fields of a single-operand word with a register or immediate in D (R112). -/
def Fields.single (z c r : Bool) (cc : CCCC) (d code : BitVec 9) : Fields :=
  { t := 0b000011, z, c, r, i := true, cc, d, s := code }

/-- The fields of an instruction, from the encodings the spec gives (R155..R351). -/
def Instr.fields : Instr → Fields
  | .wrbyte cc d x => ⟨0b000000, false, false, false, x.sel, cc, d, x.field⟩
  | .rdbyte wz cc d x => ⟨0b000000, wz, false, true, x.sel, cc, d, x.field⟩
  | .rdbytec wz cc d x => ⟨0b000000, wz, true, true, x.sel, cc, d, x.field⟩
  | .wrword cc d x => ⟨0b000001, false, false, false, x.sel, cc, d, x.field⟩
  | .rdword wz cc d x => ⟨0b000001, wz, false, true, x.sel, cc, d, x.field⟩
  | .rdwordc wz cc d x => ⟨0b000001, wz, true, true, x.sel, cc, d, x.field⟩
  | .wrlong cc d x => ⟨0b000010, false, false, false, x.sel, cc, d, x.field⟩
  | .rdlong wz cc d x => ⟨0b000010, wz, false, true, x.sel, cc, d, x.field⟩
  | .rdlongc wz cc d x => ⟨0b000010, wz, true, true, x.sel, cc, d, x.field⟩
  | .wrquad cc x => .single false false x.sel cc x.field 0b010110000
  | .rdquad cc x => .single false false x.sel cc x.field 0b010110001
  | .rdquadc cc x => .single false true x.sel cc x.field 0b010110001
  | .getptra wz wc wr cc d => .single wz wc wr cc d 0b000010010
  | .getptrb wz wc wr cc d => .single wz wc wr cc d 0b000010011
  | .setptra cc x => .single false false x.sel cc x.field 0b010110010
  | .setptrb cc x => .single false false x.sel cc x.field 0b010110011
  | .addptra cc x => .single false false x.sel cc x.field 0b010110100
  | .addptrb cc x => .single false false x.sel cc x.field 0b010110101
  | .subptra cc x => .single false false x.sel cc x.field 0b010110110
  | .subptrb cc x => .single false false x.sel cc x.field 0b010110111
  | .cachex cc => .single false false false cc 0 0b000001000
  | .gettops wz cc d => .single wz false true cc d 0b000010001
  | .setquad cc x => .single false false x.sel cc x.field 0b011100010
  | .setquaz cc x => .single false true x.sel cc x.field 0b011100010
  | .coginit wz wc wr cc d x => ⟨0b000011, wz, wc, wr, false, cc, d, x⟩
  | .clkset cc d => .single false false false cc d 0b000000000
  | .cogid cc d => .single false false true cc d 0b000000001
  | .cogstop cc d => .single false false false cc d 0b000000011
  | .locknew wz wc cc d => .single wz wc true cc d 0b000000100
  | .lockret cc d => .single false false false cc d 0b000000101
  | .lockset wc cc d => .single false wc false cc d 0b000000110
  | .lockclr wc cc d => .single false wc false cc d 0b000000111
  | .setinda a => ⟨0b111000, false, false, false, false, if a.isDelta then 0b0011 else 0b0001, 0, a.field⟩
  | .setindb b => ⟨0b111000, false, false, false, false, if b.isDelta then 0b1100 else 0b0100, b.field, 0⟩
  | .setinds b a =>
    ⟨0b111000, false, false, false, false,
      if b.isDelta then (if a.isDelta then 0b1111 else 0b1101) else (if a.isDelta then 0b0111 else 0b0101),
      b.field, a.field⟩
  | .fixinda t i => ⟨0b111001, false, false, false, false, 0b0001, t, i⟩
  | .fixindb t i => ⟨0b111001, false, false, false, false, 0b0100, t, i⟩
  | .fixinds t i => ⟨0b111001, false, false, false, false, 0b0101, t, i⟩
  | .mov cc d x => ⟨0b101000, false, false, true, x.sel, cc, d, x.field⟩
  | .add cc d x => ⟨0b100000, false, false, true, x.sel, cc, d, x.field⟩
  | .cmpcnt wz wc cc d => .single wz wc false cc d 0b000001100
  | .subcnt wz wc cc d => .single wz wc true cc d 0b000001100
  | .passcnt cc d => .single false false false cc d 0b000001101
  | .getcnt cc d => .single false false true cc d 0b000001101
  | .waitcnt wc wr cc d x => ⟨0b111111, false, wc, wr, x.sel, cc, d, x.field⟩
  | .waitpeq cc d x => ⟨0b111111, true, true, false, x.sel, cc, d, x.field⟩
  | .waitpne cc d x => ⟨0b111111, true, true, true, x.sel, cc, d, x.field⟩
  | .jmpretS wz wc cc d x => ⟨0b000111, wz, wc, true, false, cc, d, x⟩
  | .jmpretN wz wc cc d n => ⟨0b000111, wz, wc, true, true, cc, d, n⟩
  | .jmpretSNR wz wc cc d x => ⟨0b000111, wz, wc, false, false, cc, d, x⟩
  | .jmpretNNR wz wc cc d n => ⟨0b000111, wz, wc, false, true, cc, d, n⟩
  | .jmpS wz wc cc x => ⟨0b000111, wz, wc, false, false, cc, 0, x⟩
  | .jmpN wz wc cc n => ⟨0b000111, wz, wc, false, true, cc, 0, n⟩
  | .ret wz wc cc => ⟨0b000111, wz, wc, false, true, cc, 0, 0⟩
  | .call wz wc cc d n => ⟨0b000111, wz, wc, true, true, cc, d, n⟩
  | .tasksw => ⟨0b000111, true, true, true, false, 0b0011, indaAddr, indaAddr⟩
  | .jmpretdS wz wc cc d x => ⟨0b010111, wz, wc, true, false, cc, d, x⟩
  | .jmpretdN wz wc cc d n => ⟨0b010111, wz, wc, true, true, cc, d, n⟩
  | .jmpretdSNR wz wc cc d x => ⟨0b010111, wz, wc, false, false, cc, d, x⟩
  | .jmpretdNNR wz wc cc d n => ⟨0b010111, wz, wc, false, true, cc, d, n⟩
  | .jmpdS wz wc cc x => ⟨0b010111, wz, wc, false, false, cc, 0, x⟩
  | .jmpdN wz wc cc n => ⟨0b010111, wz, wc, false, true, cc, 0, n⟩
  | .retd wz wc cc => ⟨0b010111, wz, wc, false, true, cc, 0, 0⟩
  | .calld wz wc cc d n => ⟨0b010111, wz, wc, true, true, cc, d, n⟩
  | .taskswd => ⟨0b010111, true, true, true, false, 0b0011, indaAddr, indaAddr⟩
  | .ijz wr cc d x => ⟨0b111100, false, false, wr, x.sel, cc, d, x.field⟩
  | .ijnz wr cc d x => ⟨0b111100, true, false, wr, x.sel, cc, d, x.field⟩
  | .djz wr cc d x => ⟨0b111101, false, false, wr, x.sel, cc, d, x.field⟩
  | .djnz wr cc d x => ⟨0b111101, true, false, wr, x.sel, cc, d, x.field⟩
  | .ijzd wr cc d x => ⟨0b111100, false, true, wr, x.sel, cc, d, x.field⟩
  | .ijnzd wr cc d x => ⟨0b111100, true, true, wr, x.sel, cc, d, x.field⟩
  | .djzd wr cc d x => ⟨0b111101, false, true, wr, x.sel, cc, d, x.field⟩
  | .djnzd wr cc d x => ⟨0b111101, true, true, wr, x.sel, cc, d, x.field⟩
  | .tjz cc d x => ⟨0b111110, false, false, false, x.sel, cc, d, x.field⟩
  | .tjnz cc d x => ⟨0b111110, true, false, false, x.sel, cc, d, x.field⟩
  | .jp cc d x => ⟨0b111110, false, false, true, x.sel, cc, d, x.field⟩
  | .jnp cc d x => ⟨0b111110, true, false, true, x.sel, cc, d, x.field⟩
  | .tjzd cc d x => ⟨0b111110, false, true, false, x.sel, cc, d, x.field⟩
  | .tjnzd cc d x => ⟨0b111110, true, true, false, x.sel, cc, d, x.field⟩
  | .jpd cc d x => ⟨0b111110, false, true, true, x.sel, cc, d, x.field⟩
  | .jnpd cc d x => ⟨0b111110, true, true, true, x.sel, cc, d, x.field⟩

/-- The word of an instruction. -/
def encode (i : Instr) : Word := i.fields.toWord

/-- The instruction the decoder reads from the bits `w` of a table row of `nbits` bits: every instruction of this
machine is one 32-bit long (R110), and a register holds it whole, so no byte order arises. -/
def decodeTableWord (nbits w : Nat) : Option Instr :=
  if nbits ≤ 32 ∧ w < 2 ^ 32 then (decode (BitVec.ofNat 32 w)).toOption else none

end Sys2Proof
end

