-- ==== Sys2Proof/Machine/State.lean ====
section
/-! DEFINITION. The state of the chip, as plain data: one hub and eight cogs (R20..R49), the reasons a step can stop,
and the state right after reset. INVENTORY.md lists every field with its rule and its reset value. -/

namespace Sys2Proof.Machine

/-- The machine has no faults: the source describes no exception (R500, D14). -/
inductive Fault where
deriving DecidableEq, Repr

/-- Why the model gives a case no meaning. Every refusal but `notModelled` is one the spec's own rules name, and
all are safe: the model stops where the hardware goes on in a way the source does not describe (R500). -/
inductive Refusal where
  /-- Raised by `exec` for an instruction that has no meaning yet. Safe. -/
  | notModelled (mnemonic : String)
  /-- Raised by `step`: the fetched word is in no row of the table and is not passed over (R127, R128, D13). Safe. -/
  | unlistedWord (why : Reject)
  /-- Raised by the fetch: an instruction fetch from $1F6..$1FF (R27, D17). Safe. -/
  | specialFetch
  /-- Raised by the fetch: the register was written by one of the three preceding instructions and no taken normal
  branch lies between (R88, R549, D32). Safe. -/
  | staleFetch
  /-- Raised by the fetch: a mapped QUAD too soon after it was filled or mapped (R541, R542, D37). Safe. -/
  | quadFetchTooSoon
  /-- Raised by a read or write of a register in $1F8..$1FF, the I/O registers, which have no description
  (R27, R507, D17). Safe. -/
  | specialRegister
  /-- Raised by a D or S read of a mapped QUAD too soon after it was filled or mapped (R540, R542, D37). Safe. -/
  | quadReadTooSoon
  /-- Raised by an indirect operand: INDA or INDB is used before any SETINDx or FIXINDx in this run of the cog, a use that
  the spec refuses by name (R275(c), D24, U12; R35: a program must execute SETINDx or FIXINDx before). The pointer has a
  value all the while; the refusal is of the use, not for want of a value. Safe. -/
  | indirectUnset
  /-- Raised by an indirect operand: fewer than two other instructions since its SETINDx or FIXINDx
  (R275(d), R545, D33). Safe. -/
  | indirectTooSoon
  /-- Raised by an indirect operand that addresses $1F6..$1FF (R275(a), D24). Safe. -/
  | indirectSpecial
  /-- Raised by a D field that is no register operand and equals $1F6 or $1F7 (R121, R275(b), D24). Safe. -/
  | indirectCollision
  /-- Raised by any branch in the three slots after a taken delayed branch (R321, D22). Safe. -/
  | branchInDelaySlot
  /-- Raised by a taken conditional normal branch with a ++ or -- indirect operand within three addresses
  (R544, D37). Safe. -/
  | stepAfterBranch
  /-- Raised by SETQUAD and SETQUAZ: a base in $1F3..$1FE (R212, D25). Safe. -/
  | quadBase
  /-- Raised by COGSTOP: a cog number above 7 (R237, D11). Safe. -/
  | cogNumber
  /-- Raised by LOCKRET, LOCKSET, LOCKCLR: a lock number above 7 (R239..R241, D11). Safe. -/
  | lockNumber
  /-- Raised by COGINIT and COGSTOP aimed at a cog that is loading (R231, R237, D38). Safe. -/
  | cogLoading
  /-- Raised by CLKSET: XTAL or PLL selected without its oscillator or PLL (R235, D38). Safe. -/
  | clockMode
  /-- Raised by WAITCNT with WC, whose 64-bit target is lost (R306, D38). Safe. -/
  | waitcntLong
  /-- Raised by GETCNT, SUBCNT and CMPCNT in an order the source does not show (R302..R304, D34). Safe. -/
  | cntMixture
  /-- Raised by a change of SPA while XFR is in a pins_to_stack mode (R92, R433, D38). Safe. -/
  | stackBusy
  /-- Raised by a GET on an arithmetic unit never started in this run of the cog, which the spec refuses by name (R460, D36,
  U51: the GET may never return). The result registers have values all the while. Safe. -/
  | unitNotStarted
  /-- Raised by a SET or Q instruction on an arithmetic unit that is busy (R464, R470, R476, R478, D36). Safe. -/
  | unitBusy
  /-- Raised by a third SETDIVx before SETDIVB, or by SETDIVU mixed with SETDIVA (R468, D36). Safe. -/
  | divideSetup
  /-- Raised by QSINCOS with an immediate of $00 or $40..$1FF (R481, D36). Safe. -/
  | sincosImmediate
  /-- Raised by a third GETACCx with no change between (R497, R577, D35). Safe. -/
  | accReadAgain
  /-- Raised by GETPIX without two three-clock instructions ahead of it (R424, R546, D38). Safe. -/
  | pixUnprepared
deriving DecidableEq, Repr

/-- The outcome of a step or a meaning. -/
abbrev Out (σ : Type) := Host.Outcome σ Fault Refusal

/-- Sparse contents of a memory of `w`-bit cells: (address, value) pairs, addresses strictly rising, no value 0;
an unlisted cell holds 0 (log entries 2, 3, 5). -/
abbrev Cells (w : Nat) := List (Nat × BitVec w)

/-- INDA or INDB (R260). -/
inductive IndReg where
  | a
  | b
deriving DecidableEq, Repr

/-- The hidden registers behind INDA or INDB (R35, R261), with the model's record of when they were set (R275). -/
structure Ind where
  ptr : BitVec 9
  bot : BitVec 9
  top : BitVec 9
  /-- Set by a SETINDx or FIXINDx in this run of the cog (R275(c)). -/
  isSet : Bool
  /-- Other instructions retired since then; stops counting at 2 (R545). -/
  age : Nat
deriving DecidableEq, Repr

/-- Whether SYNCTRx is waiting, and whether PHS has rolled over since it began (R381). -/
inductive Sync where
  | idle
  | waiting
  | hit
deriving DecidableEq, Repr

/-- The video PLL of a counter: an oscillator that follows PHS[31] times 8, and its divider (R384; log entry 37). -/
structure Pll where
  /-- PHS[31] at the previous clock. -/
  ref : Bool
  /-- Half cycles that the oscillator has still to make up for those of PHS[31] seen so far. -/
  lag : BitVec 6
  /-- Half cycles that the oscillator has made, modulo 64. -/
  half : BitVec 6
deriving DecidableEq, Repr

/-- A counter CTRA or CTRB (R38, R370). -/
structure Ctr where
  /-- The operand of the last SETCTRx (R375). -/
  cfg : Word
  /-- The mode %iii_mmmmm (R384). -/
  mode : BitVec 8
  frq : Word
  phs : Word
  wav : Word
  /-- Running sine and cosine accumulators (R386). -/
  sinAcc : Word
  cosAcc : Word
  /-- The copies captured by CAPCTRx (R383). -/
  sin : Word
  cos : Word
  /-- The rolled-over indication POLCTRx reads (R382). -/
  rolled : Bool
  sync : Sync
  /-- INA at the previous clock (R387). -/
  inaPrev : Bool
  pll : Pll
deriving DecidableEq, Repr

/-- A DAC channel (R39, R388). -/
structure Dac where
  cfg : BitVec 2
  src : BitVec 18
deriving DecidableEq, Repr

/-- A command given by WAITVID: its D and S values (R416). -/
structure VidCmd where
  d : Word
  s : Word
deriving DecidableEq, Repr

/-- The video generator (R40, R410..R418). -/
structure Vid where
  cfg : BitVec 4
  y : Word
  i : Word
  q : Word
  /-- The command being streamed, and the one buffered behind it (R416). -/
  cur : Option VidCmd
  next : Option VidCmd
  /-- Dot clocks done in the current command. -/
  dots : Nat
  /-- Modulation angle in sixteenths of a revolution (R413). -/
  angle : BitVec 4
deriving DecidableEq, Repr

/-- A texture-mapper parameter and its delta (R422). -/
structure PixPar where
  val : BitVec 16
  delta : BitVec 16
deriving DecidableEq, Repr

/-- The texture mapper (R41, R421, R422). -/
structure Pix where
  cfg : Word
  u : PixPar
  v : PixPar
  z : PixPar
  a : PixPar
  r : PixPar
  g : PixPar
  b : PixPar
deriving DecidableEq, Repr

/-- The pin transfer unit (R42, R431, R432). -/
structure Xfr where
  cfg : BitVec 6
  /-- Place in the repeating pattern, 0 at its first clock. -/
  pos : BitVec 3
  /-- The low word held by the 16-pin input modes. -/
  low : BitVec 16
deriving DecidableEq, Repr

/-- The big multiplier (R43, R461..R466). -/
structure Mul where
  a : Word
  b : Word
  signed : Bool
  result : BitVec 64
  busy : Bool
  started : Bool
deriving DecidableEq, Repr

/-- The big divider (R43, R467..R472). -/
structure Div where
  numLo : Word
  numHi : Word
  den : Word
  signed : Bool
  /-- SETDIVU and SETDIVA executed since the last SETDIVB (R468): 0, 1 or 2. -/
  count : Nat
  quot : Word
  rem : Word
  busy : Bool
  started : Bool
deriving DecidableEq, Repr

/-- The square rooter (R43, R474..R477). -/
structure Sqr where
  hi : Word
  haveHi : Bool
  lo : Word
  root : Word
  busy : Bool
  started : Bool
deriving DecidableEq, Repr

/-- The CORDIC engine (R44, R478..R489). -/
structure Cordic where
  cfg : BitVec 6
  xIn : Word
  yIn : Word
  zIn : Word
  x : Word
  y : Word
  z : Word
  busy : Bool
  started : Bool
deriving DecidableEq, Repr

/-- What the next GETACCx returns (R45, R497). -/
inductive AccRead where
  /-- The lower long. -/
  | low
  /-- The upper long: the lower one has been read. -/
  | high
  /-- Both have been read; the next read is not described (D35). -/
  | spent
deriving DecidableEq, Repr

/-- An accumulator ACCA or ACCB (R45, R491). -/
structure Acc where
  val : BitVec 64
  reads : AccRead
deriving DecidableEq, Repr

/-- Which CNT instruction the cog executed just before (R46, R302..R304, D34). -/
inductive CntSeq where
  /-- None of them. -/
  | idle
  /-- A GETCNT that returned CNTL. -/
  | gotLow
  /-- A GETCNT that returned CNTH. -/
  | gotHigh
  /-- A SUBCNT that used CNTL. -/
  | subLow
  /-- A SUBCNT that used CNTH. -/
  | subHigh
  /-- A CMPCNT. -/
  | compared
deriving DecidableEq, Repr

/-- A taken delayed branch whose trailing instructions are not all done (R321). -/
structure Pend where
  tgt : RegAddr
  /-- Trailing instructions still to execute: 1, 2 or 3. -/
  left : Nat
deriving DecidableEq, Repr

/-- What the model remembers of the last instructions, for the hazard rules (R46, R540..R546, R549). -/
structure Hazard where
  /-- The register written by the instruction now executing. -/
  fresh : Option RegAddr
  /-- The registers written by the last instructions, newest first, at most three, since a taken normal branch. -/
  recent : List (Option RegAddr)
  /-- Least clocks of the instructions since the last QUAD fill; stops counting at 3. -/
  fillClocks : Nat
  /-- At least one more instruction has passed after those three clocks (R541). -/
  fillReady : Bool
  /-- Other instructions retired since SETQUAD or SETQUAZ; stops counting at 4 (R542). -/
  mapAge : Nat
  /-- Least clocks of the previous instruction and of the one before it (R546). -/
  clocks1 : Nat
  clocks2 : Nat
  /-- The instruction now executing is MACA or MACB. -/
  macNow : Bool
  /-- The previous instruction was MACA or MACB (R547). -/
  macPrev : Bool
deriving DecidableEq, Repr

/-- The run state of a cog (R25). -/
inductive Run where
  | idle
  /-- Loading 504 longs from hub address `base`; `next` is the next one (R232). -/
  | loading (base : HubAddr) (next : Nat)
  | running
deriving DecidableEq, Repr

/-- The private state of a cog (10_state section 3). -/
structure Cog where
  run : Run
  ram : Cells 32
  pc : RegAddr
  z : Bool
  c : Bool
  quad : Vector Word 4
  qbase : RegAddr
  cacheValid : Bool
  cacheTag : BitVec 13
  ptra : HubAddr
  ptrb : HubAddr
  inda : Ind
  indb : Ind
  cogsel : BitVec 4
  stack : Cells 32
  spa : BitVec 8
  spb : BitVec 8
  ctra : Ctr
  ctrb : Ctr
  dac : Vector Dac 4
  lfsr : Word
  vid : Vid
  pix : Pix
  xfr : Xfr
  mul : Mul
  div : Div
  sqr : Sqr
  cordic : Cordic
  acca : Acc
  accb : Acc
  cntSeq : CntSeq
  cntHi : Word
  cntBorrow : Bool
  lastStored : Word
  pend : Option Pend
  haz : Hazard
deriving DecidableEq, Repr

/-- A semaphore lock (R22): its state, and whether it is checked out. -/
structure Lock where
  set : Bool
  out : Bool
deriving DecidableEq, Repr

/-- The state of the hub (10_state section 2). -/
structure Hub where
  /-- Hub RAM: only addresses $00E80..$1FFFF are listed. -/
  mem : List Host.Cell
  locks : Vector Lock 8
  clkreg : BitVec 9
  /-- The system counter CNT (R24). -/
  cnt : BitVec 64
  /-- The model's own: how many clocks have passed, the index of the free inputs (log entry 6). -/
  clock : Nat
deriving DecidableEq, Repr

/-- The state of the chip. -/
structure State where
  hub : Hub
  cogs : Vector Cog 8
  /-- The model's own: the cog that moves in the next step (log entry 7). -/
  cur : Fin 8
  /-- The model's own: the index of the next free value (log entry 6). -/
  draws : Nat
deriving DecidableEq, Repr

/-- WAVx after a cog start: %010000000_00000_100000000_111111111 (R385). -/
def wavStart : Word := 0x400201FF

/-- A DAC source value after a cog start: %000000000_100000000 (R388). -/
def dacStart : Dac := { cfg := 0, src := 0x00100 }

/-- The hazard record of a cog that has just started: nothing recent. -/
def Hazard.clear : Hazard :=
  { fresh := none, recent := [], fillClocks := 3, fillReady := true, mapAge := 4, clocks1 := 0, clocks2 := 0,
    macNow := false, macPrev := false }

/-- An indirect register that has not been set (R275(c)). -/
def Ind.reset : Ind := { ptr := 0, bot := 0, top := 0, isSet := false, age := 2 }

/-- A counter at reset: off, WAV at its start value (R38, R49). -/
def Ctr.reset : Ctr :=
  { cfg := 0, mode := 0, frq := 0, phs := 0, wav := wavStart, sinAcc := 0, cosAcc := 0, sin := 0, cos := 0,
    rolled := false, sync := .idle, inaPrev := false, pll := ⟨false, 0, 0⟩ }

/-- A cog at reset: the cog-start values of R49 and R531; where these give none, the values of log entries 2 and 5. -/
def Cog.reset : Cog :=
  { run := .idle, ram := [], pc := 0, z := false, c := false,
    quad := Vector.replicate 4 0, qbase := 0x1FF, cacheValid := false, cacheTag := 0,
    ptra := 0, ptrb := 0, inda := .reset, indb := .reset, cogsel := 0,
    stack := [], spa := 0, spb := 0, ctra := .reset, ctrb := .reset,
    dac := Vector.replicate 4 dacStart, lfsr := 0,
    vid := { cfg := 0, y := 0, i := 0, q := 0, cur := none, next := none, dots := 0, angle := 0 },
    pix := { cfg := 0, u := ⟨0, 0⟩, v := ⟨0, 0⟩, z := ⟨0, 0⟩, a := ⟨0, 0⟩, r := ⟨0, 0⟩, g := ⟨0, 0⟩, b := ⟨0, 0⟩ },
    xfr := { cfg := 0, pos := 0, low := 0 },
    mul := { a := 0, b := 0, signed := false, result := 0, busy := false, started := false },
    div := { numLo := 0, numHi := 0, den := 0, signed := false, count := 0, quot := 0, rem := 0,
             busy := false, started := false },
    sqr := { hi := 0, haveHi := false, lo := 0, root := 0, busy := false, started := false },
    cordic := { cfg := 0, xIn := 0, yIn := 0, zIn := 0, x := 0, y := 0, z := 0, busy := false, started := false },
    acca := { val := 0, reads := .low }, accb := { val := 0, reads := .low },
    cntSeq := .idle, cntHi := 0, cntBorrow := false, lastStored := 0, pend := none, haz := .clear }

/-- Whether a cog is idle. -/
def Run.isIdle : Run → Bool
  | .idle => true
  | .loading _ _ | .running => false

/-- The machine right after reset (R49, R530; log entries 1, 2, 3, 5, 8): the clock register is cleared, nothing is
listed in memory, cog 0 has just been started with nothing loaded, and the other cogs are idle. -/
def State.reset : State :=
  { hub := { mem := [], locks := Vector.replicate 8 ⟨false, false⟩, clkreg := 0, cnt := 0, clock := 0 },
    cogs := (Vector.replicate 8 Cog.reset).set 0 { Cog.reset with run := .running },
    cur := 0, draws := 0 }

end Sys2Proof.Machine
end

