-- ==== Sys2Proof/Machine/Ops.lean ====
section
/-! DEFINITION. The shared operations over memory, registers, the pipeline record, the cogs and the hub.
The spec describes no exception (R500, R503, R504), so no operation takes one or returns from one. -/

namespace Sys2Proof.Machine

/-! ## Sparse cells -/

/-- The value of a cell. -/
def Cells.read {w : Nat} : Cells w → Nat → BitVec w
  | [], _ => 0
  | (k, v) :: rest, a => if k = a then v else Cells.read rest a

/-- Write a cell, keeping the canonical form. -/
def Cells.write {w : Nat} : Cells w → Nat → BitVec w → Cells w
  | [], a, v => if v = 0 then [] else [(a, v)]
  | (k, u) :: rest, a, v =>
    if a < k then (if v = 0 then (k, u) :: rest else (a, v) :: (k, u) :: rest)
    else if a = k then (if v = 0 then rest else (k, v) :: rest)
    else (k, u) :: Cells.write rest a v

/-- Every listed address is at least `lo` and below `hi`, addresses rise strictly, and no value is 0. -/
def Cells.wfFrom {w : Nat} (hi : Nat) : Nat → Cells w → Bool
  | _, [] => true
  | lo, (k, v) :: rest => decide (lo ≤ k) && decide (k < hi) && decide (v ≠ 0) && Cells.wfFrom hi (k + 1) rest

/-- The canonical form of a list of writes within `[lo, hi)`, later entries written last. -/
def Cells.ofList {w : Nat} (lo hi : Nat) : List (Nat × BitVec w) → Cells w
  | [] => []
  | (a, v) :: rest => if lo ≤ a ∧ a < hi then Cells.write (Cells.ofList lo hi rest) a v else Cells.ofList lo hi rest

/-! ## Hub memory (R70..R82) -/

/-- Hub RAM is in canonical form, listing only addresses of RAM (R75). -/
def Memory.wf (m : List Host.Cell) : Bool := Cells.wfFrom Config.hubBytes Config.ramBase m

/-- A byte of ROM_IMAGE (R77, D5). -/
def romByte (a : Nat) : Byte := (Config.romHead[a]?).getD (Config.romByte a)

/-- A byte of hub memory (R21, R75). -/
def Hub.byte (h : Hub) (a : Nat) : Byte :=
  if a < Config.ramBase then romByte a else Cells.read h.mem a

/-- Write a byte of hub memory; a write into ROM changes nothing (R79). -/
def Hub.setByte (h : Hub) (a : Nat) (v : Byte) : Hub :=
  if a < Config.ramBase then h else { h with mem := Cells.write h.mem a v }

/-- Write bytes at consecutive addresses, lowest first (R73). -/
def Hub.setBytes (h : Hub) (a : Nat) : List Byte → Hub
  | [] => h
  | b :: rest => (h.setByte a b).setBytes (a + 1) rest

/-- The aligned unit of `n` bytes that contains an address: low bits are dropped (R72). -/
def aligned (n : Nat) (a : HubAddr) : Nat := a.toNat / n * n

/-- `MemRead(a, 2)`, little-endian (R73). -/
def Hub.word (h : Hub) (a : Nat) : BitVec 16 := h.byte (a + 1) ++ h.byte a

/-- `MemRead(a, 4)`, little-endian (R73). -/
def Hub.long (h : Hub) (a : Nat) : Word := h.byte (a + 3) ++ h.byte (a + 2) ++ h.byte (a + 1) ++ h.byte a

/-- The four longs of the quad at an aligned address, in address order (R74). -/
def Hub.quad (h : Hub) (a : Nat) : Vector Word 4 :=
  #v[h.long a, h.long (a + 4), h.long (a + 8), h.long (a + 12)]

/-- The bytes of a 16-bit value, lowest first (R73). -/
def wordBytes (v : BitVec 16) : List Byte := [v.extractLsb' 0 8, v.extractLsb' 8 8]

/-- The bytes of a long, lowest first (R73). -/
def longBytes (v : Word) : List Byte :=
  [v.extractLsb' 0 8, v.extractLsb' 8 8, v.extractLsb' 16 8, v.extractLsb' 24 8]

/-- The bytes of the four QUAD registers, QUAD[0] lowest (R74). -/
def quadBytes (q : Vector Word 4) : List Byte :=
  longBytes q[0] ++ longBytes q[1] ++ longBytes q[2] ++ longBytes q[3]

/-- A register value used as a hub address: bits 16..0 (R71). -/
def hubAddr (v : Word) : HubAddr := v.extractLsb' 0 17

/-! ## Cog registers and the QUAD overlay (R26, R30..R32) -/

/-- First register address that is not plain register RAM: INDA, INDB and the I/O registers (R27). -/
def specialBase : Nat := 0x1F6

/-- The first of the eight registers for I/O pin control, which have no description (R27). -/
def ioBase : Nat := 0x1F8

/-- Which QUAD register overlays a register address, if any; a base of $1FF hides them (R30, R31). -/
def Cog.quadAt (c : Cog) (a : RegAddr) : Option (Fin 4) :=
  if c.qbase = 0x1FF then none
  else if h : a.toNat - c.qbase.toNat < 4 then
    if c.qbase.toNat ≤ a.toNat then some ⟨a.toNat - c.qbase.toNat, h⟩ else none
  else none

/-- `x[a]`: the register at an address, through the overlay (R31). -/
def Cog.x (c : Cog) (a : RegAddr) : Word :=
  match c.quadAt a with
  | some k => c.quad[k.val]
  | none => Cells.read c.ram a.toNat

/-- Whether mapped QUADs may be read through D and S: three clocks after a fill, two instructions after SETQUAD
(R540, R542, D37). -/
def Hazard.readable (h : Hazard) : Bool := decide (3 ≤ h.fillClocks) && decide (2 ≤ h.mapAge)

/-- Whether mapped QUADs may be executed: three clocks and one instruction after a fill, four instructions after
SETQUAD (R541, R542, D37). -/
def Hazard.fetchable (h : Hazard) : Bool := h.fillReady && decide (4 ≤ h.mapAge)

/-- A D or S read of a register (R31, R27, R540, R542). -/
def Cog.read (c : Cog) (a : RegAddr) : Except Refusal Word :=
  if specialBase ≤ a.toNat then .error .specialRegister
  else if (c.quadAt a).isSome && !c.haz.readable then .error .quadReadTooSoon
  else .ok (c.x a)

/-- The QUADs after a write through D of a register address (R32). -/
def Cog.quadWrite (c : Cog) (a : RegAddr) (v : Word) : Vector Word 4 :=
  match c.quadAt a with
  | some k => c.quad.set k.val v
  | none => c.quad

/-- `x[a] <- v`: a write through D, to the register RAM and to a QUAD mapped there (R32); the value becomes the
last-stored value (R307). -/
def Cog.write (c : Cog) (a : RegAddr) (v : Word) : Except Refusal Cog :=
  if specialBase ≤ a.toNat then .error .specialRegister
  else .ok { c with
    ram := Cells.write c.ram a.toNat v, quad := c.quadWrite a v, lastStored := v,
    haz := { c.haz with fresh := some a } }

/-- An instruction fetch at `pc` (R27, R31, R88, R541, R542, R549). -/
def Cog.fetch (c : Cog) : Except Refusal Word :=
  if specialBase ≤ c.pc.toNat then .error .specialFetch
  else if c.haz.recent.contains (some c.pc) then .error .staleFetch
  else if (c.quadAt c.pc).isSome && !c.haz.fetchable then .error .quadFetchTooSoon
  else .ok (c.x c.pc)

/-! ## The end of an instruction -/

/-- The hazard record after an instruction that takes at least `clk` clocks. -/
def Hazard.retire (h : Hazard) (clk : Nat) : Hazard :=
  { fresh := none, recent := h.fresh :: h.recent.take 2,
    fillClocks := min 3 (h.fillClocks + clk), fillReady := h.fillReady || decide (3 ≤ h.fillClocks),
    mapAge := min 4 (h.mapAge + 1), clocks1 := clk, clocks2 := h.clocks1, macNow := false, macPrev := h.macNow }

/-- The hazard record after a taken normal branch, which takes four clocks and refills the pipeline (R320, R352, R549).
DESIGN CHOICE: for the two three-clock instructions that a GETPIX needs ahead of it, neither the branch nor what ran before
it counts (R424, R546 do not say; log entry 13). -/
def Hazard.branch (h : Hazard) : Hazard :=
  { h.retire 4 with recent := [], clocks1 := 0, clocks2 := 0 }

/-- One more instruction since an indirect register was set (R545). -/
def Ind.older (i : Ind) : Ind := { i with age := min 2 (i.age + 1) }

/-- The next address and the pending branch after an instruction that is no branch (R28, R321). -/
def Cog.advance (c : Cog) : RegAddr × Option Pend :=
  match c.pend with
  | none => (c.pc + 1, none)
  | some p => if p.left ≤ 1 then (p.tgt, none) else (c.pc + 1, some { p with left := p.left - 1 })

/-- The end of an executed instruction that takes at least `clk` clocks: `pc <- PC + 1`, or the pending delayed
branch takes effect (R28, R321). -/
def Cog.retire (c : Cog) (clk : Nat) : Cog :=
  { c with pc := c.advance.1, pend := c.advance.2, haz := c.haz.retire clk,
           inda := c.inda.older, indb := c.indb.older, cntSeq := .idle }

/-- An instruction whose condition is false: no effect but `pc <- PC + 1` (R117, D26); it does not execute, so the
CNT sequence goes on over it (log entry 14). -/
def Cog.skip (c : Cog) : Cog := { c.retire 1 with cntSeq := c.cntSeq }

/-- A taken normal branch: `pc <- tgt` (R320). -/
def Cog.branchTo (c : Cog) (tgt : RegAddr) : Cog :=
  { c with pc := tgt, haz := c.haz.branch, inda := c.inda.older, indb := c.indb.older, cntSeq := .idle }

/-- A taken delayed branch: three more instructions execute before the one at `tgt` (R321). -/
def Cog.delayTo (c : Cog) (tgt : RegAddr) : Cog := { c.retire 1 with pend := some { tgt, left := 3 } }

/-- The QUADs have just been filled from hub memory (R540). -/
def Cog.markFill (c : Cog) : Cog := { c with haz := { c.haz with fillClocks := 0, fillReady := false } }

/-- The QUAD base has just been set (R542). -/
def Cog.markMap (c : Cog) : Cog := { c with haz := { c.haz with mapAge := 0 } }

/-- The instruction now executing is MACA or MACB (R547). -/
def Cog.markMac (c : Cog) : Cog := { c with haz := { c.haz with macNow := true } }

/-! ## The executing cog and the hub -/

/-- What an instruction that acts on no other cog sees: the hub, its own cog and its number, and the free values. -/
structure View where
  hub : Hub
  cog : Cog
  num : Fin 8
  draws : Nat
deriving DecidableEq, Repr

/-- The cog that moves. -/
def State.cog (s : State) : Cog := s.cogs[s.cur.val]

/-- Replace a cog. -/
def State.setCog (s : State) (n : Fin 8) (c : Cog) : State := { s with cogs := s.cogs.set n.val c }

/-- Replace the cog that moves. -/
def State.withCog (s : State) (c : Cog) : State := s.setCog s.cur c

/-- The view of the cog that moves. -/
def State.view (s : State) : View := { hub := s.hub, cog := s.cog, num := s.cur, draws := s.draws }

/-- Put a view of the moving cog back. -/
def State.withView (s : State) (v : View) : State :=
  { s with hub := v.hub, cogs := s.cogs.set s.cur.val v.cog, draws := v.draws }

/-- Replace the cog of a view. -/
def View.withCog (v : View) (c : Cog) : View := { v with cog := c }

/-- The end of an executed instruction. -/
def View.retire (v : View) (clk : Nat) : View := v.withCog (v.cog.retire clk)

/-- Z becomes a free bit (R114, D4). -/
def View.drawZ (v : View) : View :=
  { v with cog := { v.cog with z := Config.freeBit v.draws }, draws := v.draws + 1 }

/-- C becomes a free bit (R114, D4). -/
def View.drawC (v : View) : View :=
  { v with cog := { v.cog with c := Config.freeBit v.draws }, draws := v.draws + 1 }

/-- A candidate chosen by the n-th free choice, where the source fixes none (R231, R238). -/
def choose (n : Nat) (first : Fin 8) (rest : List (Fin 8)) : Fin 8 :=
  (first :: rest).getD (Config.freeNat n % (rest.length + 1)) first

/-! ## The read cache (R33, R167) -/

/-- The tag of a hub address: bits 16..4 (R33). -/
def cacheTagOf (a : HubAddr) : BitVec 13 := a.extractLsb' 4 13

/-- Whether a cached read of an address hits (R167). -/
def Cog.cacheHit (c : Cog) (a : HubAddr) : Bool := c.cacheValid && c.cacheTag == cacheTagOf a

/-- A RDQUAD of the quad that contains an address (R165). -/
def View.fillQuads (v : View) (a : HubAddr) : View :=
  v.withCog { v.cog with quad := v.hub.quad (aligned 16 a), cacheValid := true, cacheTag := cacheTagOf a }

/-- `CacheLookup(a)` (R167). -/
def View.cacheLookup (v : View) (a : HubAddr) : View := if v.cog.cacheHit a then v else v.fillQuads a

/-! ## Starting, loading and stopping cogs (R232, R531) -/

/-- An indirect register at a cog start: unset, its hidden registers unspecified (R49, R275). -/
def Ind.start (n : Nat) : Ind :=
  { ptr := (Config.freeWord n).extractLsb' 0 9, bot := (Config.freeWord n).extractLsb' 9 9,
    top := (Config.freeWord n).extractLsb' 18 9, isSet := false, age := 2 }

/-- A counter at a cog start: off, WAV as R385, the rest unspecified (R49, R531). DESIGN CHOICE: R38 gives the five bits
%00000 of the mode; the model clears the three input bits above them too (log entry 10). -/
def Ctr.start (n : Nat) : Ctr :=
  { Ctr.reset with
    cfg := Config.freeWord n, frq := Config.freeWord (n + 1), phs := Config.freeWord (n + 2),
    sinAcc := Config.freeWord (n + 3), cosAcc := Config.freeWord (n + 4), sin := Config.freeWord (n + 5),
    cos := Config.freeWord (n + 6), rolled := Config.freeBit n, inaPrev := Config.freeBit (n + 1),
    pll := ⟨Config.freeBit (n + 2), (Config.freeWord (n + 7)).extractLsb' 0 6, (Config.freeWord (n + 7)).extractLsb' 6 6⟩ }

/-- A texture-mapper parameter at a cog start: unspecified (R41). -/
def PixPar.start (n : Nat) : PixPar :=
  { val := (Config.freeWord n).extractLsb' 0 16, delta := (Config.freeWord n).extractLsb' 16 16 }

/-- A place of the WAITVID buffer at a cog start: unspecified (R49). -/
def VidCmd.start (n k : Nat) : Option VidCmd :=
  if Config.freeBit n then some { d := Config.freeWord k, s := Config.freeWord (k + 1) } else none

/-- XFR at a cog start: off, %00x; the third bit, the pins and the place in the pattern are unspecified (R42, R49). -/
def Xfr.start (n : Nat) : Xfr :=
  { cfg := 0#2 ++ (Config.freeWord n).extractLsb' 0 4, pos := (Config.freeWord n).extractLsb' 4 3,
    low := (Config.freeWord n).extractLsb' 16 16 }

/-- How many free values a cog start uses. -/
def startDraws : Nat := 64

/-- `StartCog`: cog `old` enters the loading state, with the values of R531; what these leave unspecified is free
from index `n`, whether a background unit is still busy among it, and the stack RAM and registers $1F8..$1FF are kept
(R49, R232; log entry 10). -/
def Cog.start (old : Cog) (base param : HubAddr) (n : Nat) : Cog :=
  { Cog.reset with
    run := .loading base 0, ram := old.ram, stack := old.stack,
    z := Config.freeBit (n + 2), c := Config.freeBit (n + 3),
    cacheTag := (Config.freeWord n).extractLsb' 0 13,
    ptra := param, ptrb := base,
    inda := Ind.start (n + 1), indb := Ind.start (n + 2),
    spa := (Config.freeWord (n + 3)).extractLsb' 0 8, spb := (Config.freeWord (n + 3)).extractLsb' 8 8,
    ctra := Ctr.start (n + 4), ctrb := Ctr.start (n + 12),
    lfsr := Config.freeWord (n + 20),
    vid := {
      cfg := 0#2 ++ (Config.freeWord (n + 24)).extractLsb' 4 2,
      y := Config.freeWord (n + 21), i := Config.freeWord (n + 22), q := Config.freeWord (n + 23),
      cur := VidCmd.start (n + 40) (n + 60), next := VidCmd.start (n + 41) (n + 62),
      dots := Config.freeNat (n + 40) % 8192, angle := (Config.freeWord (n + 24)).extractLsb' 0 4 },
    pix := { cfg := Config.freeWord (n + 25), u := .start (n + 26), v := .start (n + 27), z := .start (n + 28),
             a := .start (n + 29), r := .start (n + 30), g := .start (n + 31), b := .start (n + 32) },
    xfr := Xfr.start (n + 33),
    mul := { Cog.reset.mul with
      a := Config.freeWord (n + 34), b := Config.freeWord (n + 35), signed := Config.freeBit (n + 34),
      result := Config.freeWord (n + 36) ++ Config.freeWord (n + 37), busy := Config.freeBit (n + 42) },
    div := { Cog.reset.div with
      numLo := Config.freeWord (n + 38), numHi := Config.freeWord (n + 39), den := Config.freeWord (n + 40),
      signed := Config.freeBit (n + 35), quot := Config.freeWord (n + 41), rem := Config.freeWord (n + 42),
      busy := Config.freeBit (n + 43) },
    sqr := { Cog.reset.sqr with
      hi := Config.freeWord (n + 43), haveHi := Config.freeBit (n + 44), lo := Config.freeWord (n + 53),
      root := Config.freeWord (n + 44), busy := Config.freeBit (n + 45) },
    cordic := { Cog.reset.cordic with
      xIn := Config.freeWord (n + 45), yIn := Config.freeWord (n + 46), zIn := Config.freeWord (n + 47),
      x := Config.freeWord (n + 48), y := Config.freeWord (n + 49), z := Config.freeWord (n + 50),
      busy := Config.freeBit (n + 46) },
    cntHi := Config.freeWord (n + 51), cntBorrow := Config.freeBit (n + 36),
    lastStored := Config.freeWord (n + 52) }

/-- Start cog `t` (R232). -/
def State.startCog (s : State) (t : Fin 8) (base param : HubAddr) : State :=
  { s.setCog t ((s.cogs[t.val]).start base param s.draws) with draws := s.draws + startDraws }

/-- The hub address of the k-th long of a load: it wraps at 17 bits (R78, R232, D20). -/
def loadAddr (base : HubAddr) (k : Nat) : Nat := (base.toNat + 4 * k) % Config.hubBytes

/-- One turn of a loading cog: the next long is read from hub memory into its register; after the last one the cog
runs from $000 (R232; log entry 9). -/
def Cog.loadLong (c : Cog) (h : Hub) (base : HubAddr) (k : Nat) : Cog :=
  { c with
    ram := Cells.write c.ram k (h.long (loadAddr base k)),
    run := if k + 1 < Config.loadLongs then .loading base (k + 1) else .running,
    pc := 0 }

/-- The numbers of the idle cogs (R231). -/
def State.idleCogs (s : State) : List (Fin 8) :=
  (List.finRange 8).filter fun n => (s.cogs[n.val]).run.isIdle

/-- How many free values the reset of one cog uses. -/
def resetDraws : Nat := 96

/-- A counter after a chip reset: its mode and WAV are unspecified too (R49). -/
def Ctr.afterReset (t : Ctr) (n : Nat) : Ctr :=
  { t with mode := (Config.freeWord n).extractLsb' 0 8, wav := Config.freeWord (n + 1) }

/-- A DAC channel after a chip reset (R49). -/
def Dac.afterReset (n : Nat) : Dac :=
  { cfg := (Config.freeWord n).extractLsb' 0 2, src := (Config.freeWord n).extractLsb' 2 18 }

/-- An accumulator after a chip reset (R49). -/
def Acc.afterReset (n : Nat) : Acc :=
  { val := Config.freeWord n ++ Config.freeWord (n + 1), reads := [.low, .high].getD (Config.freeNat n % 3) .spent }

/-- A QUAD base after a chip reset: any of those SETQUAD may set (R49, D25; log entry 11). -/
def freeBase (b : RegAddr) : RegAddr := if b.toNat ≤ 0x1F2 then b else 0x1FF

/-- A cog after a chip reset: stopped, everything the reset leaves unspecified free (R49, R530; log entry 11). -/
def Cog.afterReset (old : Cog) (j n : Nat) : Cog :=
  let g := old.start 0 0 n
  { g with
    run := .idle, ram := Cells.ofList 0 512 (Config.resetLongs n j),
    stack := Cells.ofList 0 256 (Config.resetLongs n (j + 8)),
    pc := (Config.freeWord (n + 64)).extractLsb' 0 9, qbase := freeBase ((Config.freeWord (n + 64)).extractLsb' 9 9),
    cogsel := (Config.freeWord (n + 64)).extractLsb' 18 4, cacheValid := Config.freeBit (n + 64),
    quad := #v[Config.freeWord (n + 65), Config.freeWord (n + 66), Config.freeWord (n + 67), Config.freeWord (n + 68)],
    ptra := (Config.freeWord (n + 69)).extractLsb' 0 17, ptrb := (Config.freeWord (n + 70)).extractLsb' 0 17,
    ctra := g.ctra.afterReset (n + 71), ctrb := g.ctrb.afterReset (n + 73),
    dac := #v[.afterReset (n + 75), .afterReset (n + 76), .afterReset (n + 77), .afterReset (n + 78)],
    vid := { g.vid with cfg := (Config.freeWord (n + 79)).extractLsb' 0 4 },
    xfr := { g.xfr with cfg := (Config.freeWord (n + 79)).extractLsb' 4 6 },
    cordic := { g.cordic with cfg := (Config.freeWord (n + 79)).extractLsb' 10 6 },
    div := { g.div with count := Config.freeNat (n + 64) % 3 },
    acca := .afterReset (n + 80), accb := .afterReset (n + 82),
    cntSeq := [.idle, .gotLow, .gotHigh, .subLow, .subHigh].getD (Config.freeNat (n + 65) % 6) .compared }

/-- Chip reset by CLKSET: the clock register is cleared, every cog stops, and what the source leaves unspecified is
free; no run goes on from here (R530, D15; log entry 11). -/
def State.chipReset (s : State) : State :=
  { s with
    hub := { s.hub with
      mem := Cells.ofList Config.ramBase Config.hubBytes (Config.resetBytes s.draws), clkreg := 0,
      locks := Vector.ofFn fun j => ⟨Config.freeBit (s.draws + 2 * j.val), Config.freeBit (s.draws + 2 * j.val + 1)⟩,
      cnt := Config.freeWord s.draws ++ Config.freeWord (s.draws + 1) },
    cogs := Vector.ofFn fun j => (s.cogs[j.val]).afterReset j.val (s.draws + 16 + resetDraws * j.val),
    draws := s.draws + 16 + resetDraws * 8 }

end Sys2Proof.Machine
end

