-- ==== Sys2Proof/Machine/Flags.lean ====
section
/-! DEFINITION. The condition field and the flag results (R12, R29, R113..R116). -/

namespace Sys2Proof.Machine

/-- The condition CCCC: bit `2*C + Z` of it (R115, R116). -/
def condHolds (cc : CCCC) (z c : Bool) : Bool := cc.getLsbD (2 * c.toNat + z.toNat)

/-- The value Z takes from a D result: 1 when all 32 bits are 0 (R113). -/
def zeroFlag (r : Word) : Bool := r == 0

/-- Write Z when the Z bit is set (R12). -/
def Cog.flagZ (c : Cog) (wz z : Bool) : Cog := { c with z := if wz then z else c.z }

/-- Write C when the C bit is set (R12). -/
def Cog.flagC (c : Cog) (wc b : Bool) : Cog := { c with c := if wc then b else c.c }

/-- Write the D result when the R bit is set (R12). -/
def Cog.result (c : Cog) (wr : Bool) (da : RegAddr) (r : Word) : Except Refusal Cog :=
  if wr then c.write da r else .ok c

/-- The borrow of `a - b - carry` on unsigned longs (R303, R304, D18). -/
def borrow (a b : Word) (carry : Bool) : Bool := decide (a.toNat < b.toNat + carry.toNat)

/-- The flags a JMPRET reloads from bits 9 (C) and 10 (Z) of a word (R322, R324, R325). -/
def Cog.reload (c : Cog) (wz wc : Bool) (w : Word) : Cog :=
  (c.flagC wc (w.getLsbD 9)).flagZ wz (w.getLsbD 10)

end Sys2Proof.Machine
end

