-- ==== Sys2Proof/Machine/Operands.lean ====
section
/-! DEFINITION. Operands: the condition or the indirect forms CCCC stands for (R122, R126), indirect addressing
(R260..R266), register, immediate and PTR operands (R118..R121, R151..R154), and the frame every meaning shares. -/

namespace Sys2Proof

/-- The register field of an operand, if it names a register (R119). -/
def RegOrImm.regField : RegOrImm → Option RegAddr
  | .reg a => some a
  | .imm _ => none

/-- The register field of a hub address operand, if it names a register (R121). -/
def HubOp.regField : HubOp → Option RegAddr
  | .reg a => some a
  | .ptr _ => none

end Sys2Proof

namespace Sys2Proof.Machine

/-! ## Indirect registers -/

/-- The indirect register a field names (R260). -/
def indReg (a : RegAddr) : Option IndReg :=
  if a = indaAddr then some .a else if a = indbAddr then some .b else none

/-- The hidden registers behind an indirect register. -/
def Cog.ind (c : Cog) : IndReg → Ind
  | .a => c.inda
  | .b => c.indb

/-- `inc(p)`: one step up, from the top limit to the bottom limit (R262, D12). -/
def Ind.inc (i : Ind) : BitVec 9 := if i.ptr = i.top then i.bot else i.ptr + 1

/-- `dec(p)`: one step down, from the bottom limit to the top limit (R262, D12). -/
def Ind.dec (i : Ind) : BitVec 9 := if i.ptr = i.bot then i.top else i.ptr - 1

/-- The pointer after an operand of a form: 00 kept, 01 and 11 up, 10 down (R263, R264). -/
def Ind.stepped (i : Ind) (form : BitVec 2) : Ind :=
  { i with ptr := if form = 0 then i.ptr else if form = 2 then i.dec else i.inc }

/-- The register an indirect operand addresses: `++INDx` addresses inc(p), the other forms p (R263, R264);
the cases of R275 are "all refused by the model", (c) the use before any SETINDx or FIXINDx among them (D24).
DESIGN CHOICE: R275(a) does not say which value of `++INDx` counts; the model looks at inc(p), the register addressed, so a p
in $1F6..$1FF that wraps below is used (log entry 36). -/
def Ind.addr (i : Ind) (form : BitVec 2) : Except Refusal RegAddr :=
  if !i.isSet then .error .indirectUnset
  else if i.age < 2 then .error .indirectTooSoon
  else if specialBase ≤ (if form = 3 then i.inc else i.ptr).toNat then .error .indirectSpecial
  else .ok (if form = 3 then i.inc else i.ptr)

/-- The form of an indirect D: the top two bits of CCCC (R122, R263). -/
def formD (cc : CCCC) : BitVec 2 := cc.extractLsb' 2 2

/-- The form of an indirect S: the bottom two bits of CCCC (R122, R264). -/
def formS (cc : CCCC) : BitVec 2 := cc.extractLsb' 0 2

/-- The step of one indirect register by an instruction: its operands' forms, OR'd together (R265). -/
def stepForm (r : IndReg) (cc : CCCC) (d x : Option IndReg) : BitVec 2 :=
  (if d = some r then formD cc else 0) ||| (if x = some r then formS cc else 0)

/-- Both pointers after an instruction (R265). -/
def Cog.stepPointers (c : Cog) (cc : CCCC) (d x : Option IndReg) : Cog :=
  { c with inda := c.inda.stepped (stepForm .a cc d x), indb := c.indb.stepped (stepForm .b cc d x) }

/-- The register address a field stands for (R118, R119). -/
def Cog.fieldAddr (c : Cog) (f : RegAddr) (form : BitVec 2) : Except Refusal RegAddr :=
  match indReg f with
  | none => .ok f
  | some r => (c.ind r).addr form

/-! ## Resolving an instruction's operands -/

/-- What CCCC and the register fields come to. -/
inductive Resolved where
  /-- The condition is false (R117). -/
  | skip
  /-- The instruction executes: the D and S register addresses, and the cog with its pointers stepped. -/
  | go (da sa : RegAddr) (c : Cog)
deriving DecidableEq, Repr

/-- Resolve the register fields of an instruction, `none` where it has none: with an indirect field CCCC gives the
forms and the instruction always executes, else CCCC is the condition (R122, R126, R266). -/
def Cog.resolve (c : Cog) (cc : CCCC) (d x : Option RegAddr) : Except Refusal Resolved :=
  match d.bind indReg, x.bind indReg with
  | none, none =>
    .ok (if condHolds cc c.z c.c then .go (d.getD 0) (x.getD 0) c else .skip)
  | di, xi => do
    let da ← c.fieldAddr (d.getD 0) (formD cc)
    let sa ← c.fieldAddr (x.getD 0) (formS cc)
    pure (.go da sa (c.stepPointers cc di xi))

/-- An outcome from a meaning that can only be refused. -/
def toOut : Except Refusal State → Out State
  | .ok s => .next s
  | .error r => .refused r

/-- The frame of an instruction that may act on other cogs: resolve the operands, then the body. -/
def State.chipInstr (s : State) (cc : CCCC) (d x : Option RegAddr)
    (body : RegAddr → RegAddr → State → Except Refusal State) : Out State :=
  match s.cog.resolve cc d x with
  | .error r => .refused r
  | .ok .skip => .next (s.withCog s.cog.skip)
  | .ok (.go da sa c) => toOut (body da sa (s.withCog c))

/-- The frame of every other instruction: its body acts on its own cog and the hub. -/
def State.instr (s : State) (cc : CCCC) (d x : Option RegAddr)
    (body : RegAddr → RegAddr → View → Except Refusal View) : Out State :=
  s.chipInstr cc d x fun da sa t => (body da sa t.view).map t.withView

/-- The frame of a branch: refused in the slots of a delayed branch (R321, D22). -/
def State.branchInstr (s : State) (cc : CCCC) (d x : Option RegAddr)
    (body : RegAddr → RegAddr → View → Except Refusal View) : Out State :=
  if s.cog.pend.isSome then .refused .branchInDelaySlot else s.instr cc d x body

/-- The frame of an instruction whose D field, with bit 23 = 1, is no register: refused when the field is $1F6 or
$1F7, whatever CCCC holds (R121, D24). -/
def State.fieldInstr (s : State) (cc : CCCC) (isReg : Bool) (f : BitVec 9)
    (body : RegAddr → View → Except Refusal View) : Out State :=
  if !isReg && isIndAddr f then .refused .indirectCollision
  else s.instr cc (if isReg then some f else none) none fun da _ v => body da v

/-- Whether a word never executes whatever it is: CCCC = 0000 in a word whose CCCC is a condition, because T is none of
SETINDx and FIXINDx and no field that may name a register is $1F6 or $1F7 (R122, R123, R126, R128). -/
def neverExecutes (w : Word) : Bool :=
  let f := Fields.ofWord w
  f.cc == 0 && f.t != 0b111000 && f.t != 0b111001 && !isIndAddr f.d && (f.i || !isIndAddr f.s)

/-- What a word in no row does: one that never executes is passed over (R128), any other is refused (R127, D13). DESIGN
CHOICE: it is passed over in the slots of a delayed branch too, where R321 refuses a branch whether taken or not, and whether
the word is one that the source does not describe is not known (R125; log entry 35). -/
def State.unlisted (s : State) (w : Word) (why : Reject) : Out State :=
  if neverExecutes w then .next (s.withCog s.cog.skip) else .refused (.unlistedWord why)

/-! ## S and D values -/

/-- The 32-bit value of an operand: the register at its resolved address, or the zero-extended immediate (R119, R208). -/
def Cog.operand (c : Cog) (x : RegOrImm) (a : RegAddr) : Except Refusal Word :=
  match x with
  | .reg _ => c.read a
  | .imm n => .ok (n.setWidth 32)

/-- The target of a branch: bits 8..0 of the register, or the immediate (45_branches section 3). -/
def Cog.target (c : Cog) (x : RegOrImm) (a : RegAddr) : Except Refusal RegAddr :=
  match x with
  | .reg _ => (c.read a).map fun v => v.extractLsb' 0 9
  | .imm n => .ok n

/-! ## PTR expressions -/

/-- The pointer a PTR expression names (R151). -/
def Cog.ptr (c : Cog) (useB : Bool) : HubAddr := if useB then c.ptrb else c.ptra

/-- Write PTRA or PTRB. -/
def Cog.setPtr (c : Cog) (useB : Bool) (a : HubAddr) : Cog :=
  if useB then { c with ptrb := a } else { c with ptra := a }

/-- The pointer plus INDEX*SCALE, modulo 2^17 (R152). -/
def Cog.ptrSum (c : Cog) (e : PtrExpr) (scale : Nat) : HubAddr :=
  c.ptr e.useB + e.index.signExtend 17 * BitVec.ofNat 17 scale

/-- The address a PTR expression uses (R152); with U = 0 and P = 1 it is the plain pointer (R154). -/
def Cog.ptrAddr (c : Cog) (e : PtrExpr) (scale : Nat) : HubAddr :=
  if e.post then c.ptr e.useB else c.ptrSum e scale

/-- The pointers after a PTR expression (R152). -/
def Cog.ptrStep (c : Cog) (e : PtrExpr) (scale : Nat) : Cog :=
  if e.update then c.setPtr e.useB (c.ptrSum e scale) else c

/-- The hub address of an operand, and the cog with its pointer updated (R71, R152). -/
def Cog.hubOperand (c : Cog) (x : HubOp) (a : RegAddr) (scale : Nat) : Except Refusal (HubAddr × Cog) :=
  match x with
  | .reg _ => (c.read a).map fun v => (hubAddr v, c)
  | .ptr e => .ok (c.ptrAddr e scale, c.ptrStep e scale)

/-! ## What an instruction's register fields are -/

/-- CCCC and the register fields (D, S) of an instruction, `none` for a field that names no register (R118..R123).
SETINDx and FIXINDx have no condition and no register operand (R123). -/
def instrFields : Instr → CCCC × Option RegAddr × Option RegAddr
  | .wrbyte cc d x | .rdbyte _ cc d x | .rdbytec _ cc d x | .wrword cc d x | .rdword _ cc d x | .rdwordc _ cc d x
  | .wrlong cc d x | .rdlong _ cc d x | .rdlongc _ cc d x => (cc, some d, x.regField)
  | .wrquad cc x | .rdquad cc x | .rdquadc cc x => (cc, x.regField, none)
  | .setptra cc x | .setptrb cc x | .addptra cc x | .addptrb cc x | .subptra cc x | .subptrb cc x
  | .setquad cc x | .setquaz cc x => (cc, x.regField, none)
  | .getptra _ _ _ cc d | .getptrb _ _ _ cc d | .gettops _ cc d | .clkset cc d | .cogid cc d | .cogstop cc d
  | .locknew _ _ cc d | .lockret cc d | .lockset _ cc d | .lockclr _ cc d | .cmpcnt _ _ cc d | .subcnt _ _ cc d
  | .passcnt cc d | .getcnt cc d => (cc, some d, none)
  | .coginit _ _ _ cc d x => (cc, some d, some x)
  | .mov cc d x | .add cc d x | .waitcnt _ _ cc d x | .waitpeq cc d x | .waitpne cc d x
  | .ijz _ cc d x | .ijnz _ cc d x | .djz _ cc d x | .djnz _ cc d x
  | .ijzd _ cc d x | .ijnzd _ cc d x | .djzd _ cc d x | .djnzd _ cc d x
  | .tjz cc d x | .tjnz cc d x | .jp cc d x | .jnp cc d x
  | .tjzd cc d x | .tjnzd cc d x | .jpd cc d x | .jnpd cc d x => (cc, some d, x.regField)
  | .jmpretS _ _ cc d x | .jmpretdS _ _ cc d x => (cc, some d, some x)
  | .jmpretN _ _ cc d _ | .jmpretdN _ _ cc d _ | .call _ _ cc d _ | .calld _ _ cc d _ => (cc, some d, none)
  | .jmpretSNR _ _ cc _ x | .jmpretdSNR _ _ cc _ x | .jmpS _ _ cc x | .jmpdS _ _ cc x => (cc, none, some x)
  | .jmpretNNR _ _ cc _ _ | .jmpretdNNR _ _ cc _ _ | .jmpN _ _ cc _ | .jmpdN _ _ cc _
  | .ret _ _ cc | .retd _ _ cc | .cachex cc => (cc, none, none)
  | .tasksw | .taskswd => (0b0011, some indaAddr, some indaAddr)
  | .setinda _ | .setindb _ | .setinds _ _ | .fixinda _ _ | .fixindb _ _ | .fixinds _ _ => (0b1111, none, none)

/-- Whether an instruction has a ++ or -- indirect operand (R544). -/
def stepsPointer (i : Instr) : Bool :=
  (((instrFields i).2.1.bind indReg).isSome && formD (instrFields i).1 != 0)
    || (((instrFields i).2.2.bind indReg).isSome && formS (instrFields i).1 != 0)

/-- Whether one of the three addresses after `pc` holds an instruction with a ++ or -- indirect operand (R544).
DESIGN CHOICE: a word in no row of the table, whose register fields are not known, does not count (R125; log entry 19). -/
def Cog.stepsAhead (c : Cog) : Bool :=
  [1, 2, 3].any fun k : RegAddr =>
    decide ((c.pc + k).toNat < specialBase) &&
      (match decode (c.x (c.pc + k)) with
       | .ok i => stepsPointer i
       | .error _ => false)

/-- Whether CCCC is a condition other than "always" (R115, R122, R544). -/
def conditional (cc : CCCC) (d x : Option RegAddr) : Bool :=
  (d.bind indReg).isNone && (x.bind indReg).isNone && cc != 0b1111

/-- The end of a branch that was taken or not, normal or delayed (R320, R321). A taken normal branch that is
conditional is refused when an instruction with a stepping indirect operand lies within three addresses (R544). DESIGN
CHOICE: a normal branch that is not taken counts as one clock in the hazard record, R352 states none (log entry 13). -/
def View.branch (v : View) (delayed cond taken : Bool) (tgt : RegAddr) : Except Refusal View :=
  if !delayed && cond && v.cog.stepsAhead then
    if taken then .error .stepAfterBranch else .ok (v.retire 1)
  else
    .ok (v.withCog (if taken then (if delayed then v.cog.delayTo tgt else v.cog.branchTo tgt) else v.cog.retire 1))

/-- The free flags of an instruction whose bits 25 and 24 select the operation (R114, D4). -/
def View.selectors (v : View) (bit25 bit24 : Bool) : View :=
  let w := if bit25 then v.drawZ else v
  if bit24 then w.drawC else w

end Sys2Proof.Machine
end

