-- ==== Sys2Proof/Machine/Stack.lean ====
section
/-! DEFINITION. The frames shared by the instructions without an encoding, SETCOG (R233), and the stack pointers
(R290..R299). Push and pop are lost (R300, D39). -/

namespace Sys2Proof.Machine

/-! ## Frames -/

/-- An instruction `D/#n` that changes its own cog and returns nothing; flags it is told to write are free, since the
source gives them no value (R208; log entry 22). -/
def State.absSet (s : State) (k : Ctl) (x : RegOrImm) (f : Word → View → Except Refusal Cog) : Out State :=
  s.fieldInstr k.cc (!x.sel) x.field fun da v => do
    let d ← v.cog.operand x da
    let c ← f d v
    pure (((v.withCog c).selectors k.wz k.wc).retire 1)

/-- The same with some free values used by the change. -/
def State.absSetDraw (s : State) (k : Ctl) (x : RegOrImm) (n : Nat) (f : Word → View → Except Refusal Cog) :
    Out State :=
  s.fieldInstr k.cc (!x.sel) x.field fun da v => do
    let d ← v.cog.operand x da
    let c ← f d v
    pure ((({ v with cog := c, draws := v.draws + n } : View).selectors k.wz k.wc).retire 1)

/-- An instruction `D,S/#n` that changes its own cog, using `n` free values, and returns nothing. -/
def State.absDual (s : State) (k : Ctl) (d : RegAddr) (x : RegOrImm) (n : Nat)
    (f : Word → Word → View → Except Refusal Cog) : Out State :=
  s.instr k.cc (some d) x.regField fun da sa v => do
    let dv ← v.cog.read da
    let sv ← v.cog.operand x sa
    let c ← f dv sv v
    pure ((({ v with cog := c, draws := v.draws + n } : View).selectors k.wz k.wc).retire 1)

/-- An instruction without operands that changes its own cog in at least `clk` clocks, using `n` free values. -/
def State.absAct (s : State) (k : Ctl) (clk : Cog → Nat) (n : Nat) (f : View → Cog) : Out State :=
  s.instr k.cc none none fun _ _ v =>
    .ok ((({ v with cog := f v, draws := v.draws + n } : View).selectors k.wz k.wc).retire (clk v.cog))

/-- An instruction that returns a value in D: Z is that of the result, C is free where the source gives none (R113,
93 U18). `f` gives the result and the changed cog, `clk` the least clocks it takes. -/
def State.absGet (s : State) (k : Ctl) (d : RegAddr) (clk : Cog → Nat) (f : Cog → Except Refusal (Word × Cog)) :
    Out State :=
  s.instr k.cc (some d) none fun da _ v => do
    let p ← f v.cog
    let c ← p.2.result k.wr da p.1
    pure (((v.withCog (c.flagZ k.wz (zeroFlag p.1))).selectors false k.wc).retire (clk v.cog))

/-- The same where the source gives Z and C. -/
def State.absGetFlags (s : State) (k : Ctl) (d : RegAddr) (f : Cog → Word × Bool × Bool) : Out State :=
  s.instr k.cc (some d) none fun da _ v => do
    let c ← v.cog.result k.wr da (f v.cog).1
    pure ((v.withCog ((c.flagZ k.wz (f v.cog).2.1).flagC k.wc (f v.cog).2.2)).retire 1)

/-! ## SETCOG and the stack pointers -/

/-- SETCOG: the cog selector takes the low four bits (R233). -/
def execSetcog (k : Ctl) (x : RegOrImm) (s : State) : Out State :=
  s.absSet k x fun d v => .ok { v.cog with cogsel := d.extractLsb' 0 4 }

/-- SPA or SPB. -/
def Cog.sp (c : Cog) : Which → BitVec 8
  | .a => c.spa
  | .b => c.spb

/-- Whether XFR is in a pins_to_stack mode (R431). -/
def Cog.stackTaken (c : Cog) : Bool := c.xfr.cfg.extractLsb' 4 2 == 3

/-- Write SPA or SPB; SPA is refused while XFR is in a pins_to_stack mode (R433). -/
def Cog.setSp (c : Cog) (w : Which) (v : BitVec 8) : Except Refusal Cog :=
  match w with
  | .a => if c.stackTaken then .error .stackBusy else .ok { c with spa := v }
  | .b => .ok { c with spb := v }

/-- SETSPA, SETSPB (R291, R292). -/
def execSetsp (k : Ctl) (w : Which) (x : RegOrImm) (s : State) : Out State :=
  s.absSet k x fun d v => v.cog.setSp w (d.extractLsb' 0 8)

/-- ADDSPA, ADDSPB, modulo 256 (R293, R294). -/
def execAddsp (k : Ctl) (w : Which) (x : RegOrImm) (s : State) : Out State :=
  s.absSet k x fun d v => v.cog.setSp w (v.cog.sp w + d.extractLsb' 0 8)

/-- SUBSPA, SUBSPB, modulo 256 (R295, R296). -/
def execSubsp (k : Ctl) (w : Which) (x : RegOrImm) (s : State) : Out State :=
  s.absSet k x fun d v => v.cog.setSp w (v.cog.sp w - d.extractLsb' 0 8)

/-- GETSPA, GETSPB: Z says whether it is 0, C is its top bit (R297, R298). -/
def execGetsp (k : Ctl) (w : Which) (d : RegAddr) (s : State) : Out State :=
  s.absGetFlags k d fun c => ((c.sp w).setWidth 32, c.sp w == 0, (c.sp w).getLsbD 7)

/-- GETSPD: SPA minus SPB modulo 256; Z says whether they are equal, C is lost and so free (R299). -/
def execGetspd (k : Ctl) (d : RegAddr) (s : State) : Out State :=
  s.absGet k d (fun _ => 1) fun c => .ok ((c.spa - c.spb).setWidth 32, c)

end Sys2Proof.Machine
end

