-- ==== Sys2Proof/Machine/Accum.lean ====
section
/-! DEFINITION. Multiply and accumulate (R491..R498, R572..R577). -/

namespace Sys2Proof.Machine

/-- ACCA or ACCB. -/
def Cog.acc (c : Cog) : Which → Acc
  | .a => c.acca
  | .b => c.accb

/-- Replace ACCA or ACCB. -/
def Cog.setAcc (c : Cog) (w : Which) (a : Acc) : Cog :=
  match w with
  | .a => { c with acca := a }
  | .b => { c with accb := a }

/-- An accumulator that has just been written: its lower long is read next (R491, R497). -/
def Acc.fresh (v : BitVec 64) : Acc := { val := v, reads := .low }

/-- The 20x20-bit signed product (R492). -/
def macProduct (d x : Word) : BitVec 64 :=
  (d.extractLsb' 0 20).signExtend 64 * (x.extractLsb' 0 20).signExtend 64

/-- MACx D,S/#n, modulo 2^64 (R492, R493). -/
def execMac (k : Ctl) (w : Which) (d : RegAddr) (x : RegOrImm) (s : State) : Out State :=
  s.absDual k d x 0 fun dv sv v =>
    .ok (v.cog.setAcc w (.fresh ((v.cog.acc w).val + macProduct dv sv))).markMac

/-- CLRACCA, CLRACCB (R494, R572). -/
def execClracc (k : Ctl) (w : Which) (s : State) : Out State :=
  s.absAct k (fun _ => 1) 0 fun v => v.cog.setAcc w (.fresh 0)

/-- CLRACCS (R573). -/
def execClraccs (k : Ctl) (s : State) : Out State :=
  s.absAct k (fun _ => 1) 0 fun v => { v.cog with acca := .fresh 0, accb := .fresh 0 }

/-- SETACCx D,S/#n: the lower long from D, the upper from S (R495, R574). -/
def execSetacc (k : Ctl) (w : Which) (d : RegAddr) (x : RegOrImm) (s : State) : Out State :=
  s.absDual k d x 0 fun dv sv v => .ok (v.cog.setAcc w (.fresh (sv ++ dv)))

/-- Whether a value shifted down by `e` fits 32 bits with its sign (R496). -/
def fits (a : BitVec 64) (e : Nat) : Bool :=
  decide (-(2 ^ 31) ≤ (a.sshiftRight e).toInt) && decide ((a.sshiftRight e).toInt < 2 ^ 31)

/-- The first of `e`, `e + 1`, ... that passes a test, looking at most `fuel` steps on. -/
def leastFrom (p : Nat → Bool) : Nat → Nat → Nat
  | 0, e => e
  | fuel + 1, e => if p e then e else leastFrom p fuel (e + 1)

/-- The exponent that fits an accumulator: the least e in 0..32 (R496). -/
def fitExponent (p : Nat → Bool) : Nat := leastFrom p 32 0

/-- The clocks a GETACCx or FITACCx takes: two more right after a MACx (R547). -/
def Cog.accClocks (c : Cog) (clk : Nat) : Nat := if c.haz.macPrev then clk + 2 else clk

/-- The fitted accumulator: the exponent above, the shifted value below, of which the low bit is free with bits shifted
out (R496). -/
def fitted (a : BitVec 64) (e n : Nat) : BitVec 64 :=
  BitVec.ofNat 32 e ++
    (if e = 0 then a.extractLsb' 0 32
     else (a.sshiftRight e).extractLsb' 1 31 ++ BitVec.ofBool (Config.freeBit n))

/-- FITACCA, FITACCB (R496, R575). -/
def execFitacc (k : Ctl) (w : Which) (s : State) : Out State :=
  s.absAct k (Cog.accClocks · 2) 1 fun v =>
    v.cog.setAcc w (.fresh (fitted (v.cog.acc w).val (fitExponent (fits (v.cog.acc w).val)) v.draws))

/-- The common exponent of FITACCS (R576). -/
def commonExponent (a b : BitVec 64) : Nat := fitExponent fun e => fits a e && fits b e

/-- FITACCS (R576). -/
def execFitaccs (k : Ctl) (s : State) : Out State :=
  s.absAct k (Cog.accClocks · 2) 2 fun v =>
    { v.cog with
      acca := .fresh (fitted v.cog.acca.val (commonExponent v.cog.acca.val v.cog.accb.val) v.draws),
      accb := .fresh (fitted v.cog.accb.val (commonExponent v.cog.acca.val v.cog.accb.val) (v.draws + 1)) }

/-- What a GETACCx returns, and the accumulator after it; a third read in a row is refused (R497, D35). -/
def Acc.get (a : Acc) : Except Refusal (Word × Acc) :=
  match a.reads with
  | .low => .ok (a.val.extractLsb' 0 32, { a with reads := .high })
  | .high => .ok (a.val.extractLsb' 32 32, { a with reads := .spent })
  | .spent => .error .accReadAgain

/-- GETACCx D (R497, R577). -/
def execGetacc (k : Ctl) (w : Which) (d : RegAddr) (s : State) : Out State :=
  s.absGet k d (Cog.accClocks · 1) fun c => (c.acc w).get.map fun p => (p.1, c.setAcc w p.2)

end Sys2Proof.Machine
end

