-- ==== Sys2Proof/Machine/Counters.lean ====
section
/-! DEFINITION. Counters CTRA and CTRB (R370..R387): what a clock does, and the thirteen instructions. -/

namespace Sys2Proof.Machine

/-! ## A clock -/

/-- The condition of a LOGIC mode %1xxxx other than the encoder, by its low four bits (R387). -/
def logicHolds (m : BitVec 4) (a b aPrev : Bool) : Bool :=
  match m.toNat with
  | 0b0000 => a && !aPrev
  | 0b0001 => !a && !b
  | 0b0010 => a && !b
  | 0b0011 => !b
  | 0b0100 => !a && b
  | 0b0101 => !a
  | 0b0110 => a != b
  | 0b0111 => !a || !b
  | 0b1000 => a && b
  | 0b1001 => a == b
  | 0b1010 => a
  | 0b1011 => a || !b
  | 0b1100 => b
  | 0b1101 => !a || b
  | _ => a || b

/-- PHS rolled over in this clock: remembered for POLCTRx and seen by a waiting SYNCTRx (R381, R382). -/
def Ctr.roll (c : Ctr) (wrap : Bool) : Ctr :=
  { c with rolled := c.rolled || wrap, sync := if wrap && c.sync == .waiting then .hit else c.sync }

/-- FRQ is added to PHS (R385, R387). -/
def Ctr.addFrq (c : Ctr) : Ctr :=
  { c.roll (decide (2 ^ 32 ≤ c.phs.toNat + c.frq.toNat)) with phs := c.phs + c.frq }

/-- A looked-up value added to a Goertzel accumulator, negated when INA is 0 (R386). DESIGN CHOICE: the looked-up
value and the accumulator are two's complement, the nine bits sign-extended to 32 (R373, R385 give no format; log entry
24). -/
def goertzel (acc : Word) (look : BitVec 9) (ina : Bool) : Word :=
  if ina then acc + look.signExtend 32 else acc - look.signExtend 32

/-- The Goertzel step: the top nine bits of PHS look up the sine, and with the phase advance of WAV the cosine
(R385, R386; log entry 24). -/
def Ctr.accumulate (c : Ctr) (ina : Bool) : Ctr :=
  { c with sinAcc := goertzel c.sinAcc (Config.sineTable (c.phs.extractLsb' 23 9)) ina,
           cosAcc := goertzel c.cosAcc (Config.sineTable (c.phs.extractLsb' 23 9 + c.wav.extractLsb' 23 9)) ina }

/-- PHS changes other than by an addition of FRQ: whether a wrap in doing so counts as a roll-over for POLCTRx is not
stated and is the free `counts` (R382; log entry 24); it does not end a SYNCTRx, which waits for an addition (R381). -/
def Ctr.moved (c : Ctr) (phs : Word) (wrap counts : Bool) : Ctr :=
  { c with phs, rolled := c.rolled || (wrap && counts) }

/-- FRQ is subtracted from PHS (R387). -/
def Ctr.subFrq (c : Ctr) (counts : Bool) : Ctr :=
  c.moved (c.phs - c.frq) (decide (c.phs.toNat < c.frq.toNat)) counts

/-- PHS after a clock, by the mode (R384). In the modes whose function the source does not give, PHS never rolls over
while FRQ is 0 (R381). -/
def Ctr.clockPhase (c : Ctr) (num t : Nat) (isB : Bool) (ins : Bool × Bool) : Ctr :=
  if (c.mode.extractLsb' 0 5).toNat = 0 then c
  else if (c.mode.extractLsb' 0 5).toNat < 12 then
    { c.roll (Config.counterRolled t num isB && c.frq != 0) with phs := Config.counterPhase t num isB }
  else if (c.mode.extractLsb' 0 5).toNat < 16 then (c.accumulate ins.1).addFrq
  else if (c.mode.extractLsb' 0 5).toNat < 31 then
    if logicHolds (c.mode.extractLsb' 0 4) ins.1 ins.2 c.inaPrev then c.addFrq else c
  else if Config.encoderStep t num isB = 1 then c.addFrq
  else if Config.encoderStep t num isB = 2 then c.subFrq (Config.reverseCounts t num isB)
  else c

/-- Whether the mode is one whose PLL multiplies PHS[31] by 8 (R384). -/
def Ctr.multiplies (c : Ctr) : Bool :=
  decide (2 ≤ (c.mode.extractLsb' 0 5).toNat) && decide ((c.mode.extractLsb' 0 5).toNat ≤ 7)

/-- The half cycles the oscillator may still have to make after a clock in which PHS[31] becomes `ref`: 16, which are eight
cycles, for every cycle of PHS[31], counted at its rising edge (R384). -/
def Pll.due (p : Pll) (ref : Bool) : Nat := min 32 p.lag.toNat + if ref && !p.ref then 16 else 0

/-- The PLL after a clock that leaves PHS[31] at `ref` and, while it multiplies, the oscillator a free number of half cycles
behind. DESIGN CHOICE: at most 32, two cycles of PHS[31] (R384 gives the ratio alone; log entry 37). -/
def Pll.clock (p : Pll) (multiplies ref : Bool) (free : Nat) : Pll :=
  if multiplies then
    let lag := free % (min 32 (p.due ref) + 1)
    { ref, lag := BitVec.ofNat 6 lag, half := p.half + BitVec.ofNat 6 (p.due ref - lag) }
  else { p with ref }

/-- A counter after a clock (R370). -/
def Ctr.clock (c : Ctr) (num t : Nat) (isB : Bool) : Ctr :=
  let g := c.clockPhase num t isB (Config.counterInputs t num isB)
  { g with
    inaPrev := (Config.counterInputs t num isB).1,
    pll := c.pll.clock c.multiplies (g.phs.getLsbD 31) (Config.pllLag t num isB) }

/-- OUTA and OUTB in a LOGIC mode: the ADD and SUB signals of this clock (R387). -/
def Ctr.logicOut (c : Ctr) (num t : Nat) (isB : Bool) : Bool × Bool :=
  if (c.mode.extractLsb' 0 5).toNat = 31 then
    (Config.encoderStep t num isB == 1, Config.encoderStep t num isB == 2)
  else
    (logicHolds (c.mode.extractLsb' 0 4) (Config.counterInputs t num isB).1 (Config.counterInputs t num isB).2
      c.inaPrev, false)

/-- QDR: PHS[31] XNOR PHS[30], or PHS[31] delayed by 90 degrees (R384). -/
def Ctr.qdr (c : Ctr) : Bool := c.phs.getLsbD 31 == c.phs.getLsbD 30

/-- The bit of the oscillator's half cycles that is the output of the divider: bit 0 divides by 1, in mode %00111, bit 5 by
32, in mode %00010 (R384). -/
def Ctr.divider (c : Ctr) : Nat := 7 - (c.mode.extractLsb' 0 5).toNat

/-- The PLL output in a video PLL mode: PHS[31] itself in mode %00001, else PHS[31] times 8, divided (R384). -/
def Ctr.pllOut (c : Ctr) : Option Bool :=
  if (c.mode.extractLsb' 0 5).toNat = 1 then some (c.phs.getLsbD 31)
  else if c.multiplies then some (c.pll.half.getLsbD c.divider)
  else none

/-- How often bit `k` of a number rises (`up`), or falls, while the number is counted from `a` up to `b`. -/
def edges (up : Bool) (k a b : Nat) : Nat :=
  let o := if up then 2 ^ k else 0
  (b + o) / 2 ^ (k + 1) - (a + o) / 2 ^ (k + 1)

/-- How many rising (`up`) or falling edges the PLL output has in a clock before which the counter was `before` (R384). -/
def Ctr.pllEdges (before after : Ctr) (up : Bool) : Nat :=
  if (after.mode.extractLsb' 0 5).toNat = 1 then
    if before.pll.ref != after.pll.ref && after.pll.ref == up then 1 else 0
  else if after.multiplies then
    edges up after.divider before.pll.half.toNat (before.pll.half.toNat + (after.pll.half - before.pll.half).toNat)
  else 0

/-- The looked-up value of a WAVE mode at a phase: the sine table in SIN_WAVE mode, else a shape derived from the phase
(R384, R385). -/
def Ctr.wave (c : Ctr) (phase : BitVec 9) : BitVec 9 :=
  if c.mode.extractLsb' 0 2 = 3 then Config.sineTable phase else Config.waveShape (c.mode.extractLsb' 0 2) phase

/-- The phase of OUTA (SIGA) or OUTB (SIGB): the top nine bits of PHS, advanced for OUTA by PPPPPPPPP of WAV (R385). -/
def Ctr.outPhase (c : Ctr) (outB : Bool) : BitVec 9 :=
  c.phs.extractLsb' 23 9 + if outB then 0 else c.wav.extractLsb' 23 9

/-- SIGA or SIGB, 18 bits: in a WAVE mode the looked-up value with the offset and the amplitude of WAV (R385, R390). -/
def Ctr.signal (c : Ctr) (num t : Nat) (isB outB : Bool) : BitVec 18 :=
  if c.mode.extractLsb' 2 3 = 3 then
    Config.waveScale (c.wave (c.outPhase outB)) (c.wav.extractLsb' 9 9) (c.wav.extractLsb' 0 9)
  else Config.counterSignal t num isB outB

/-- The pin signal OUTA or OUTB, none while the counter is off: in a WAVE mode its signal duty-modulated, in a LOGIC mode
the ADD or SUB signal, else free (R384, R385, R387). Which pin it drives is not stated; an effect, not state (D29). -/
def Ctr.out (c : Ctr) (num t : Nat) (isB outB : Bool) : Option Bool :=
  if (c.mode.extractLsb' 0 5).toNat = 0 then none
  else if (c.mode.extractLsb' 0 5).toNat < 12 then some (Config.counterOutput num t isB outB)
  else if (c.mode.extractLsb' 0 5).toNat < 16 then some (Config.dutyOutput num t isB outB (c.signal num t isB outB))
  else some (if outB then (c.logicOut num t isB).2 else (c.logicOut num t isB).1)

/-! ## The instructions -/

/-- CTRA or CTRB. -/
def Cog.ctr (c : Cog) : Which → Ctr
  | .a => c.ctra
  | .b => c.ctrb

/-- Replace CTRA or CTRB. -/
def Cog.setCtr (c : Cog) (w : Which) (t : Ctr) : Cog :=
  match w with
  | .a => { c with ctra := t }
  | .b => { c with ctrb := t }

/-- GETPHSx D (R371). -/
def execGetphs (k : Ctl) (w : Which) (d : RegAddr) (s : State) : Out State :=
  s.absGet k d (fun _ => 1) fun c => .ok ((c.ctr w).phs, c)

/-- GETPHZx D: the read and the clear are one action (R372). -/
def execGetphz (k : Ctl) (w : Which) (d : RegAddr) (s : State) : Out State :=
  s.absGet k d (fun _ => 1) fun c => .ok ((c.ctr w).phs, c.setCtr w { c.ctr w with phs := 0 })

/-- GETCOSx D (R373). -/
def execGetcos (k : Ctl) (w : Which) (d : RegAddr) (s : State) : Out State :=
  s.absGet k d (fun _ => 1) fun c => .ok ((c.ctr w).cos, c)

/-- GETSINx D (R374). -/
def execGetsin (k : Ctl) (w : Which) (d : RegAddr) (s : State) : Out State :=
  s.absGet k d (fun _ => 1) fun c => .ok ((c.ctr w).sin, c)

/-- SETCTRx D/#n: the place of the mode in the operand is not stated (R375; log entry 24). -/
def execSetctr (k : Ctl) (w : Which) (x : RegOrImm) (s : State) : Out State :=
  s.absSet k x fun d v => .ok (v.cog.setCtr w { v.cog.ctr w with cfg := d, mode := Config.counterMode d })

/-- SETWAVx D/#n (R376). -/
def execSetwav (k : Ctl) (w : Which) (x : RegOrImm) (s : State) : Out State :=
  s.absSet k x fun d v => .ok (v.cog.setCtr w { v.cog.ctr w with wav := d })

/-- SETFRQx D/#n (R377). -/
def execSetfrq (k : Ctl) (w : Which) (x : RegOrImm) (s : State) : Out State :=
  s.absSet k x fun d v => .ok (v.cog.setCtr w { v.cog.ctr w with frq := d })

/-- SETPHSx D/#n (R378). -/
def execSetphs (k : Ctl) (w : Which) (x : RegOrImm) (s : State) : Out State :=
  s.absSet k x fun d v => .ok (v.cog.setCtr w { v.cog.ctr w with phs := d })

/-- ADDPHSx D/#n, modulo 2^32 (R379); whether a carry counts as a roll-over is free (R382). -/
def execAddphs (k : Ctl) (w : Which) (x : RegOrImm) (s : State) : Out State :=
  s.absSetDraw k x 1 fun d v => .ok (v.cog.setCtr w
    ((v.cog.ctr w).moved ((v.cog.ctr w).phs + d) (decide (2 ^ 32 ≤ (v.cog.ctr w).phs.toNat + d.toNat))
      (Config.freeBit v.draws)))

/-- SUBPHSx D/#n, modulo 2^32 (R380); whether a borrow counts as a roll-over is free (R382). -/
def execSubphs (k : Ctl) (w : Which) (x : RegOrImm) (s : State) : Out State :=
  s.absSetDraw k x 1 fun d v => .ok (v.cog.setCtr w
    ((v.cog.ctr w).moved ((v.cog.ctr w).phs - d) (decide ((v.cog.ctr w).phs.toNat < d.toNat))
      (Config.freeBit v.draws)))

/-- SYNCTRx: the cog stalls until PHS rolls over after the instruction began (R381; log entry 17). Whether its end clears
the rolled-over indication that POLCTRx reads is not stated and is free (R381, R382; log entry 24). -/
def execSynctr (k : Ctl) (w : Which) (s : State) : Out State :=
  s.instr k.cc none none fun _ _ v =>
    .ok (match (v.cog.ctr w).sync with
      | .idle => v.withCog (v.cog.setCtr w { v.cog.ctr w with sync := .waiting })
      | .waiting => v
      | .hit => (({ v with
          cog := v.cog.setCtr w { v.cog.ctr w with
            sync := .idle, rolled := (v.cog.ctr w).rolled && Config.freeBit v.draws },
          draws := v.draws + 1 } : View).selectors k.wz k.wc).retire 1)

/-- POLCTRx WC: C says whether PHS has rolled over; whether the check clears the indication is free (R382). -/
def execPolctr (k : Ctl) (w : Which) (s : State) : Out State :=
  s.instr k.cc none none fun _ _ v =>
    .ok ((({ v with
      cog := (v.cog.setCtr w { v.cog.ctr w with rolled := (v.cog.ctr w).rolled && Config.freeBit v.draws }).flagC k.wc
        (v.cog.ctr w).rolled,
      draws := v.draws + 1 } : View).selectors k.wz false).retire 1)

/-- CAPCTRx: the accumulators are captured and cleared (R383). -/
def execCapctr (k : Ctl) (w : Which) (s : State) : Out State :=
  s.absAct k (fun _ => 1) 0 fun v => v.cog.setCtr w
    { v.cog.ctr w with sin := (v.cog.ctr w).sinAcc, cos := (v.cog.ctr w).cosAcc, sinAcc := 0, cosAcc := 0 }

end Sys2Proof.Machine
end

