-- ==== Sys2Proof/Machine/Trig.lean ====
section
/-! DEFINITION. The mathematical functions behind CORDIC and VID's rotator, in fixed point, and the free choice of a
value near one of them. Sums and products are cut downward; the last of the 64 (or 96) bits of a fraction are error. -/

namespace Sys2Proof.Machine

/-! ## Sine and cosine -/

/-- 1, with 64 fraction bits. -/
def fixOne : Int := 0x10000000000000000

/-- A quarter turn in radians, with 64 fraction bits: pi / 2. -/
def quarterTurn : Int := 28976077832308491369

/-- The terms `t = x^k / k!`, `x^(k+2) / (k+2)!`, ... of a power series, of which `sq` is the square of x with its sign: the
even ones give the cosine or hyperbolic cosine, the odd ones the sine. -/
def powerSum (sq : Int) : Nat → Nat → Int → Int
  | 0, _, _ => 0
  | fuel + 1, k, t => t + powerSum sq fuel (k + 2) (t * sq / fixOne / ((k + 1) * (k + 2) : Nat))

/-- Cosine and sine of an angle below a quarter turn, which is 2^30 (R486). -/
def quadrantCosSin (r : Nat) : Int × Int :=
  let x := r * quarterTurn / 0x40000000
  (powerSum (-(x * x / fixOne)) 16 0 fixOne, powerSum (-(x * x / fixOne)) 16 1 x)

/-- Cosine and sine of an angle word, of which 2^32 is a whole turn (R486). -/
def cosSin (a : Word) : Int × Int :=
  let p := quadrantCosSin (a.toNat % 2 ^ 30)
  match a.toNat / 2 ^ 30 with
  | 0 => p
  | 1 => (-p.2, p.1)
  | 2 => (-p.1, -p.2)
  | _ => (p.2, -p.1)

/-- Hyperbolic cosine and sine of a number of radians with 64 fraction bits, at most a whole turn. -/
def coshSinh (x : Int) : Int × Int := (powerSum (x * x / fixOne) 24 0 fixOne, powerSum (x * x / fixOne) 24 1 x)

/-- The radians, with 64 fraction bits, that an angle word stands for in hyperbolic mode: of the words that roll over at
360 degrees, whether one above 180 degrees is taken as negative is not stated and is free (R486; log entry 30). -/
def radians (a : Word) : Int := (if Config.hyperSigned then a.toInt else (a.toNat : Int)) * quarterTurn / 0x40000000

/-- The angle of a point of the first quadrant, from bit `k - 1` down: the largest at which the point is not behind. -/
def quadrantAngle (x y : Int) : Nat → Nat → Nat
  | 0, acc => acc
  | k + 1, acc =>
    quadrantAngle x y k
      (if 0 ≤ y * (quadrantCosSin (acc + 2 ^ k)).1 - x * (quadrantCosSin (acc + 2 ^ k)).2 then acc + 2 ^ k else acc)

/-- The angle of a point other than (0,0) around (0,0), as an angle word. -/
def angleOf (x y : Int) : Nat :=
  if 0 < x ∧ 0 ≤ y then quadrantAngle x y 30 0
  else if x ≤ 0 ∧ 0 < y then 2 ^ 30 + quadrantAngle y (-x) 30 0
  else if x < 0 ∧ y ≤ 0 then 2 * 2 ^ 30 + quadrantAngle (-x) (-y) 30 0
  else 3 * 2 ^ 30 + quadrantAngle (-y) x 30 0

/-! ## Square root -/

/-- The floor of the square root, one bit at a time from bit `k - 1` down. -/
def isqrtFrom (n : Nat) : Nat → Nat → Nat
  | 0, acc => acc
  | k + 1, acc => isqrtFrom n k (if (acc + 2 ^ k) * (acc + 2 ^ k) ≤ n then acc + 2 ^ k else acc)

/-- The floor of the square root of a 64-bit number. -/
def isqrt (n : Nat) : Nat := isqrtFrom n 32 0

/-! ## Logarithm -/

/-- The next `k` fraction bits of a base-2 logarithm, of which `m`, with 96 fraction bits, is the mantissa and `acc` what
is known so far. -/
def logBits : Nat → Nat → Nat → Nat
  | 0, _, acc => acc
  | k + 1, m, acc =>
    if 2 ^ 97 ≤ m * m / 2 ^ 96 then logBits k (m * m / 2 ^ 97) (2 * acc + 1) else logBits k (m * m / 2 ^ 96) (2 * acc)

/-- The floor of `log2(v) * 2^k`, for `v` from 1. -/
def logTo (k v : Nat) : Nat := logBits k (v * 2 ^ 96 / 2 ^ v.log2) v.log2

/-- The floor of `log2(v) * 2^27`, for `v` from 1 (R479). -/
def logFloor (v : Nat) : Nat := logTo 27 v

/-- Whether a number is a power of 2, so that its logarithm is whole. -/
def isPower (v : Nat) : Bool := 2 ^ v.log2 == v

/-- The floor of `2^(v / 2^27)`, from bit `k - 1` down: the largest number whose logarithm is at most `v` (R480). -/
def expFrom (v : Nat) : Nat → Nat → Nat
  | 0, acc => acc
  | k + 1, acc =>
    expFrom v k (if logFloor (acc + 2 ^ k) + (if isPower (acc + 2 ^ k) then 0 else 1) ≤ v then acc + 2 ^ k else acc)

/-- The floor of `2^(v / 2^27)`, below 2^32. -/
def expFloor (v : Nat) : Nat := expFrom v 32 0

/-- ln(2) / (4 pi), with 64 fraction bits. -/
def halfLogTurn : Nat := 1017502112391319005

/-- The hyperbolic angle atanh(Y/X), in units of which 2^32 are a whole turn (R486), for a Y smaller than X in size: half
the natural logarithm of (X + Y) / (X - Y). -/
def hyperAngleOf (x y : Int) : Int :=
  let a : Nat := (logTo 40 (x.natAbs + y.natAbs) - logTo 40 (x.natAbs - y.natAbs)) * halfLogTurn / 2 ^ 72
  if (x < 0) = (y < 0) then a else -a

/-! ## Free values near a mathematical one -/

/-- A free integer that differs from `v` by at most `by'`. -/
def near (v : Int) (by' n : Nat) : Int := v - by' + (Config.freeNat n % (2 * by' + 1) : Nat)

/-- A free word that differs by at most `by'` from a number that is not negative, given by its floor and whether it is
whole (R488). -/
def nearFloor (floor : Nat) (whole : Bool) (by' n : Nat) : Word :=
  let v : Int := if whole then near floor by' n else floor + 1 - by' + (Config.freeNat n % (2 * by') : Nat)
  BitVec.ofInt 32 (max 0 (min (2 ^ 32 - 1) v))

/-- A result as a word; one that lies outside the signed words is free, since no rule gives its word (R487). -/
def fitWord (v : Int) (n : Nat) : Word :=
  if -(2 ^ 31) ≤ v ∧ v < 2 ^ 31 then BitVec.ofInt 32 v else Config.freeWord n

end Sys2Proof.Machine
end

