-- ==== Sys2Proof/Machine/Video.lean ====
section
/-! DEFINITION. The video generator VID (R410..R418, R434, R435): the pixel streamer, the signals of a pixel, what a
dot clock does, and the instructions. The signals drive pins, which are effects, not state (D29). -/

namespace Sys2Proof.Machine

/-! ## The pixel streamer (R417) -/

/-- Field AAAAAAAA of a command: the stack RAM base (R416). -/
def VidCmd.base (m : VidCmd) : BitVec 8 := m.d.extractLsb' 24 8

/-- Field MMMM of a command: the pixel mode. -/
def VidCmd.mode (m : VidCmd) : BitVec 4 := m.d.extractLsb' 20 4

/-- Dot clocks per pixel: PPPPPPP + 1. -/
def VidCmd.dotsPerPixel (m : VidCmd) : Nat := (m.d.extractLsb' 13 7).toNat + 1

/-- Dot clocks in the command: CCCCCCCCCCCCC + 1. -/
def VidCmd.dotCount (m : VidCmd) : Nat := (m.d.extractLsb' 0 13).toNat + 1

/-- The `size`-bit field number `i` of a long. -/
def bitField (w : Word) (size i : Nat) : Word := w >>> (size * i) &&& BitVec.ofNat 32 (2 ^ size - 1)

/-- CLU modes: field number `p` of S, the highest field repeating (R417). -/
def VidCmd.offset (m : VidCmd) (size p : Nat) : Word := bitField m.s size (min p (32 / size - 1))

/-- A stack RAM long at an offset from the base, modulo 256 (R417). -/
def VidCmd.look (m : VidCmd) (stack : Cells 32) (off : Nat) : Word := Cells.read stack ((m.base.toNat + off) % 256)

/-- STR modes: pixel number `p` of `size` bits, from the pixel that the top bits of S select in the long at
AAAAAAAA + S[7:0] (R417). DESIGN CHOICE: the stream goes from low to high bits, then on to the next long (log entry 26). -/
def VidCmd.stream (m : VidCmd) (stack : Cells 32) (size p : Nat) : Word :=
  let at' := (m.s >>> 27).toNat / size + p
  bitField (m.look stack ((m.s.extractLsb' 0 8).toNat + at' / (32 / size))) size (at' % (32 / size))

/-- The half of a long a CLU8_RGB15 or CLU8_RGB16 offset selects (R417). -/
def VidCmd.lookWord (m : VidCmd) (stack : Cells 32) (off : Word) : Word :=
  bitField (m.look stack (off.toNat / 2)) 16 (off.toNat % 2)

/-- The 2:8:8:8 pixel number `p` of a command (R417); how narrow formats expand is not stated, and their SYNC bits are
00. DESIGN CHOICE: a 1-bit pixel 0 takes the colour in S[17..9], a 1 that in S[26..18] (log entry 26). -/
def VidCmd.pixel (m : VidCmd) (stack : Cells 32) (p : Nat) : BitVec 26 :=
  let narrow (value select : Word) : BitVec 26 := 0#2 ++ Config.narrowColour m.mode value select
  match m.mode.toNat with
  | 0 => m.s.extractLsb' 0 26
  | 1 => (m.look stack (m.offset 1 p).toNat).extractLsb' 0 26
  | 2 => (m.look stack (m.offset 2 p).toNat).extractLsb' 0 26
  | 3 => (m.look stack (m.offset 4 p).toNat).extractLsb' 0 26
  | 4 => (m.look stack (m.offset 8 p).toNat).extractLsb' 0 26
  | 5 => narrow (m.lookWord stack (m.offset 8 p)) 0
  | 6 => narrow (m.lookWord stack (m.offset 8 p)) 0
  | 7 => narrow (if m.stream stack 1 p = 0 then bitField m.s 9 1 else bitField m.s 9 2) 0
  | 8 => narrow (m.stream stack 4 p) 0
  | 9 => narrow (m.stream stack 4 p) (bitField (m.s >>> 9) 3 0)
  | 10 => narrow (m.stream stack 8 p) 0
  | 11 => narrow (m.stream stack 8 p) (bitField (m.s >>> 9) 3 0)
  | 12 => narrow (m.stream stack 8 p) 0
  | 13 => narrow (m.stream stack 16 p) 0
  | 14 => narrow (m.stream stack 16 p) 0
  | _ => (m.stream stack 32 p).extractLsb' 0 26

/-- The pixel now streamed, if a command is running. -/
def Vid.pixel (v : Vid) (stack : Cells 32) : Option (BitVec 26) :=
  v.cur.map fun m => m.pixel stack (v.dots / m.dotsPerPixel)

/-! ## Colourspace, modulation and signals (R413, R414) -/

/-- A coefficient, unsigned or signed by VCFG[1] (R411). -/
def coefficient (signed : Bool) (b : BitVec 8) : Int := if signed then b.toInt else (b.toNat : Int)

/-- The products of a pixel's R, G and B with their coefficients (R413). -/
def colourProducts (signed : Bool) (coefs : Word) (pixel : BitVec 26) : List Int :=
  [16, 8, 0].map fun i => (pixel.extractLsb' i 8).toNat * coefficient signed (coefs.extractLsb' i 8)

/-- Y, I or Q of a pixel, modulo 512: the sum of the products divided by 64; of those that 64 does not divide a free
number is rounded up, another one for signed and for unsigned coefficients (R413; log entry 26). -/
def colourSum (signed : Bool) (coefs : Word) (pixel : BitVec 26) : BitVec 9 :=
  let ps := colourProducts signed coefs pixel
  let inexact := (ps.filter fun p => p % 64 != 0).length
  BitVec.ofInt 9 ((ps.map (· / 64)).sum + (Config.colourRound signed coefs (pixel.setWidth 32) % (inexact + 1) : Nat))

/-- Q': the second coordinate of (I, Q) rotated by the modulation angle and expanded by 1/0.608, with a free error of at
most eight units; (0,0) stays (R413, R415). DESIGN CHOICE: the sums I and Q, which are modulo 512, are read as two's
complement, with unsigned coefficients too, and the error has that bound (log entry 26). -/
def chroma (i q : BitVec 9) (angle : BitVec 4) : BitVec 9 :=
  if i = 0 ∧ q = 0 then 0
  else
    let p := cosSin (angle ++ 0#28)
    BitVec.ofInt 9 ((i.toInt * p.2 + q.toInt * p.1) * 1000 / (608 * fixOne)
      + (Config.chromaError i q angle % 17 : Nat) - 8)

/-- An offset level, doubled to nine bits (R414). -/
def offsetLevel (coefs : Word) : BitVec 9 := coefs.extractLsb' 24 8 ++ 0#1

/-- Outputs Y_R, I_G and Q_B: pixel, black or sync, by bit 24 and one of bits 23, 22, 21 (R414). -/
def component (coefs : Word) (sum : BitVec 9) (pixel : BitVec 26) (syncBit : Nat) : BitVec 9 :=
  if !pixel.getLsbD 24 then offsetLevel coefs + sum
  else if pixel.getLsbD syncBit then offsetLevel coefs + (pixel.extractLsb' 0 8 ++ 0#1)
  else offsetLevel coefs

/-- The nine outputs of a pixel (R414). -/
structure VidOut where
  yR : BitVec 9
  iG : BitVec 9
  qB : BitVec 9
  syn : BitVec 9
  luma : BitVec 9
  chromaOut : BitVec 9
  yiq : BitVec 9
deriving DecidableEq, Repr

/-- The outputs of a pixel (R414). -/
def Vid.outputs (v : Vid) (pixel : BitVec 26) : VidOut :=
  let y := colourSum (v.cfg.getLsbD 1) v.y pixel
  let i := colourSum (v.cfg.getLsbD 1) v.i pixel
  let q := colourSum (v.cfg.getLsbD 1) v.q pixel
  let q' := chroma i q v.angle
  { yR := component v.y y pixel 23, iG := component v.i i pixel 22, qB := component v.q q pixel 21,
    syn := if pixel.getLsbD 24 != v.cfg.getLsbD 0 then 511 else 0,
    luma := if pixel.getLsbD 25 then 0 else if pixel.getLsbD 24 then offsetLevel v.i else offsetLevel v.y + y,
    chromaOut := offsetLevel v.q + q',
    yiq := if pixel.getLsbD 25 then q' else if pixel.getLsbD 24 then offsetLevel v.i + q'
      else offsetLevel v.y + y + q' }

/-- SIG0, SIG1, SIG2, SIG3 by VCFG[3:2]; none when VID is off (R411). -/
def Vid.signals (v : Vid) (pixel : BitVec 26) : Option (Vector (BitVec 9) 4) :=
  let o := v.outputs pixel
  match (v.cfg.extractLsb' 2 2).toNat with
  | 0 => none
  | 1 => some #v[o.syn, o.qB, o.iG, o.yR]
  | 2 => some #v[o.luma, o.chromaOut, o.yiq, o.yiq]
  | _ => some #v[o.yiq, o.yiq, o.yiq, o.yiq]

/-! ## A clock -/

/-- Whether VID runs: it is on, and CTRA's mode is a PLL mode (R410, R411). -/
def Cog.vidRuns (c : Cog) : Bool :=
  c.vid.cfg.extractLsb' 2 2 != 0 && c.ctra.pllOut.isSome

/-- The command buffer after a dot clock (R416). -/
def Vid.nextDot (v : Vid) : Vid :=
  match v.cur with
  | none => { v with cur := v.next, next := none, dots := 0 }
  | some m =>
    if v.dots + 1 < m.dotCount then { v with dots := v.dots + 1 }
    else { v with cur := v.next, next := none, dots := 0 }

/-- VID after a dot clock: the modulation angle steps 1/16 of a revolution, in the direction of VCFG[0] (R413). -/
def Vid.dotClock (v : Vid) : Vid :=
  { v.nextDot with angle := if v.cfg.getLsbD 0 then v.angle - 1 else v.angle + 1 }

/-- VID after some dot clocks. -/
def Vid.dotClocks : Nat → Vid → Vid
  | 0, v => v
  | n + 1, v => Vid.dotClocks n v.dotClock

/-- VID after a clock of the chip before which CTRA was `before`: a dot clock at each edge, of one kind, of the PLL output
(R384, R410). DESIGN CHOICE: while VID does not run it holds its
commands, its dot count and its angle, and goes on with them when it runs again, which R410 and R411 do not say (log entry
26). -/
def Cog.vidClock (c : Cog) (before : Ctr) : Cog :=
  if c.vidRuns then { c with vid := c.vid.dotClocks (before.pllEdges c.ctra Config.dotEdge) } else c

/-! ## The instructions -/

/-- SETVID D/#n (R411). -/
def execSetvid (k : Ctl) (x : RegOrImm) (s : State) : Out State :=
  s.absSet k x fun d v => .ok { v.cog with vid := { v.cog.vid with cfg := d.extractLsb' 0 4 } }

/-- SETVIDY D/#n (R412). -/
def execSetvidy (k : Ctl) (x : RegOrImm) (s : State) : Out State :=
  s.absSet k x fun d v => .ok { v.cog with vid := { v.cog.vid with y := d } }

/-- SETVIDI D/#n (R434). -/
def execSetvidi (k : Ctl) (x : RegOrImm) (s : State) : Out State :=
  s.absSet k x fun d v => .ok { v.cog with vid := { v.cog.vid with i := d } }

/-- SETVIDQ D/#n (R435). -/
def execSetvidq (k : Ctl) (x : RegOrImm) (s : State) : Out State :=
  s.absSet k x fun d v => .ok { v.cog with vid := { v.cog.vid with q := d } }

/-- VID is ready for a command: it runs and its buffer has room (R416). -/
def Cog.vidReady (c : Cog) : Bool := c.vidRuns && c.vid.next.isNone

/-- WAITVID D,S/#n: stalls until VID is ready, then hands over D and S (R416; log entry 17). -/
def execWaitvid (k : Ctl) (d : RegAddr) (x : RegOrImm) (s : State) : Out State :=
  s.instr k.cc (some d) x.regField fun da sa v => do
    let dv ← v.cog.read da
    let sv ← v.cog.operand x sa
    pure (if v.cog.vidReady then
        ((v.withCog { v.cog with vid := { v.cog.vid with next := some ⟨dv, sv⟩ } }).selectors k.wz k.wc).retire 1
      else s.view)

/-- POLVID WC: C says whether VID is ready (R418). -/
def execPolvid (k : Ctl) (s : State) : Out State :=
  s.instr k.cc none none fun _ _ v =>
    .ok (((v.withCog (v.cog.flagC k.wc v.cog.vidReady)).selectors k.wz false).retire 1)

end Sys2Proof.Machine
end

