-- ==== Sys2Proof/Machine/Dacs.lean ====
section
/-! DEFINITION. DAC channels (R388..R394). -/

namespace Sys2Proof.Machine

/-! ## Outputs -/

/-- The channel a pin can output (R389). -/
def pinChannel (n : Nat) : Fin 4 := ⟨n % 4, Nat.mod_lt n (by decide)⟩

/-- The output of an 18-bit source dithered by nine bits of the LFSR (R392). -/
def dither (src : BitVec 18) (tap : BitVec 9) : BitVec 9 := (src + tap.signExtend 18).extractLsb' 9 9

/-- The 18-bit source of a channel in configurations %00, %01 and %10: the channel itself, its own counter's signal, or
both counters' (R390). -/
def Cog.dacSource (c : Cog) (num t : Nat) (n : Fin 4) : BitVec 18 :=
  let a := c.ctra.signal num t false (n.val % 2 == 1)
  let b := c.ctrb.signal num t true (n.val % 2 == 1)
  match (c.dac[n.val]).cfg.toNat with
  | 0 => (c.dac[n.val]).src
  | 1 => if 2 ≤ n.val then b else a
  | _ => a + b

/-- What VID gives a channel in a clock: a signal of the streamed pixel; between commands, and while CTRA is in no PLL mode,
where R416 and R410 state nothing, a free value; nothing while it is off (R411; log entry 25). -/
def Cog.vidSignal (c : Cog) (num t : Nat) (n : Fin 4) : Option (BitVec 9) :=
  match if c.vidRuns then c.vid.pixel c.stack else none with
  | some p => (c.vid.signals p).map fun o => o[n.val]
  | none => if c.vid.cfg.extractLsb' 2 2 = 0 then none else some (Config.idleSignal t num n)

/-- The nine-bit output of a channel in a clock: VID's signal without dither in configuration %11, else the dithered
source; which nine bits of the LFSR a channel takes is free (R390, R392; log entry 25). -/
def Cog.dacOut (c : Cog) (num t : Nat) (n : Fin 4) : Option (BitVec 9) :=
  if (c.dac[n.val]).cfg = 3 then c.vidSignal num t n else some (dither (c.dacSource num t n) (Config.lfsrTap num n c.lfsr))

/-! ## The instructions -/

/-- CFGDACn D/#n (R390). -/
def execCfgdac (k : Ctl) (n : Fin 4) (x : RegOrImm) (s : State) : Out State :=
  s.absSet k x fun d v =>
    .ok { v.cog with dac := v.cog.dac.set n.val { v.cog.dac[n.val] with cfg := d.extractLsb' 0 2 } }

/-- CFGDACS D/#n: four 2-bit fields (R391). -/
def execCfgdacs (k : Ctl) (x : RegOrImm) (s : State) : Out State :=
  s.absSet k x fun d v =>
    .ok { v.cog with dac := Vector.ofFn fun n => { v.cog.dac[n.val] with cfg := d.extractLsb' (2 * n.val) 2 } }

/-- The source value of a nine-bit output: %nnnnnnnnn_100000000 (R393). -/
def dacLevel (n : BitVec 9) : BitVec 18 := n ++ 0x100#9

/-- The source value SETDACn gives a channel (R393). -/
def dacSet (x : RegOrImm) (d : Word) : Dac :=
  { cfg := 0, src := if x.sel then dacLevel (d.extractLsb' 0 9) else d.extractLsb' 14 18 }

/-- SETDACn D/#n: the configuration is forced to %00 (R393). -/
def execSetdac (k : Ctl) (n : Fin 4) (x : RegOrImm) (s : State) : Out State :=
  s.absSet k x fun d v => .ok { v.cog with dac := v.cog.dac.set n.val (dacSet x d) }

/-- The source value SETDACS gives channel `n` (R394). -/
def dacsSet (x : RegOrImm) (d : Word) (n : Fin 4) : Dac :=
  { cfg := 0, src := dacLevel (if x.sel then d.extractLsb' 0 9 else d.extractLsb' (8 * n.val) 8 ++ 0#1) }

/-- SETDACS D/#n: all four channels (R394). -/
def execSetdacs (k : Ctl) (x : RegOrImm) (s : State) : Out State :=
  s.absSet k x fun d v => .ok { v.cog with dac := Vector.ofFn (dacsSet x d) }

end Sys2Proof.Machine
end

