-- ==== Sys2Proof/Machine/Math.lean ====
section
/-! DEFINITION. The background units: multiplier, divider, square rooter and CORDIC (R460..R489). A unit's result is
formed when it starts and may be read when it is no longer busy; how long that takes is free (log entry 23). -/

namespace Sys2Proof.Machine

/-! ## The GET protocol (R460) -/

/-- The end of a GET: D takes a value, Z that of the value, and in the polling form C says whether it is valid. -/
def View.getEnd (v : View) (k : Ctl) (da : RegAddr) (c : Cog) (r : Word) (valid : Bool) (n : Nat) :
    Except Refusal View := do
  let g ← c.result k.wr da r
  pure ({ v with cog := ((g.flagZ k.wz (zeroFlag r)).flagC k.wc valid).retire 1, draws := v.draws + n })

/-- A GET: without WC it waits until the unit is done; with WC it polls, and D is free while the unit is busy (R460). On a
unit never started since cog start "the model refuses it" (R460, D36). -/
def State.unitGet (s : State) (k : Ctl) (d : RegAddr) (started busy : Cog → Bool) (done : Cog → Cog)
    (result : Cog → Word) : Out State :=
  s.instr k.cc (some d) none fun da _ v =>
    if !started v.cog then .error .unitNotStarted
    else if !k.wc then v.getEnd k da (done v.cog) (result v.cog) true 0
    else if busy v.cog then v.getEnd k da v.cog (Config.freeWord v.draws) false 1
    else v.getEnd k da v.cog (result v.cog) true 0

/-! ## Multiplier -/

/-- Replace the multiplier, refused while it is busy (R464). -/
def Cog.setMul (c : Cog) (m : Mul) : Except Refusal Cog :=
  if c.mul.busy then .error .unitBusy else .ok { c with mul := m }

/-- The 64-bit product (R464). -/
def product (signed : Bool) (a b : Word) : BitVec 64 :=
  if signed then a.signExtend 64 * b.signExtend 64 else a.setWidth 64 * b.setWidth 64

/-- SETMULU D/#n (R462). -/
def execSetmulu (k : Ctl) (x : RegOrImm) (s : State) : Out State :=
  s.absSet k x fun d v => v.cog.setMul { v.cog.mul with a := d, signed := false }

/-- SETMULA D/#n (R463). -/
def execSetmula (k : Ctl) (x : RegOrImm) (s : State) : Out State :=
  s.absSet k x fun d v => v.cog.setMul { v.cog.mul with a := d, signed := true }

/-- SETMULB D/#n: starts the multiplier (R464). -/
def execSetmulb (k : Ctl) (x : RegOrImm) (s : State) : Out State :=
  s.absSet k x fun d v => v.cog.setMul
    { v.cog.mul with b := d, busy := true, started := true, result := product v.cog.mul.signed v.cog.mul.a d }

/-- The multiplier is done. -/
def Cog.mulDone (c : Cog) : Cog := { c with mul := { c.mul with busy := false } }

/-- GETMULL D (R465). -/
def execGetmull (k : Ctl) (d : RegAddr) (s : State) : Out State :=
  s.unitGet k d (·.mul.started) (·.mul.busy) Cog.mulDone fun c => c.mul.result.extractLsb' 0 32

/-- GETMULH D (R466). -/
def execGetmulh (k : Ctl) (d : RegAddr) (s : State) : Out State :=
  s.unitGet k d (·.mul.started) (·.mul.busy) Cog.mulDone fun c => c.mul.result.extractLsb' 32 32

/-! ## Divider -/

/-- SETDIVU and SETDIVA: the low, then the high long of the numerator; a third one, or a mixture, is refused
(R468, R469, D36). -/
def Cog.setNumerator (c : Cog) (signed : Bool) (v : Word) : Except Refusal Cog :=
  if c.div.busy then .error .unitBusy
  else if c.div.count = 0 then
    .ok { c with div := { c.div with
      numLo := v, numHi := if signed then (v.signExtend 64).extractLsb' 32 32 else 0, count := 1, signed } }
  else if c.div.count = 1 && c.div.signed == signed then
    .ok { c with div := { c.div with numHi := v, count := 2 } }
  else .error .divideSetup

/-- Quotient and remainder, where the quotient fits 32 bits and the denominator is not 0 (R470). -/
def quotRem (signed : Bool) (n : BitVec 64) (b : Word) : Option (Word × Word) :=
  if b = 0 then none
  else if signed then
    let q := n.toInt.tdiv b.toInt
    if -(2 ^ 31) ≤ q ∧ q < 2 ^ 31 then some (BitVec.ofInt 32 q, BitVec.ofInt 32 (n.toInt.tmod b.toInt)) else none
  else
    if n.toNat / b.toNat < 2 ^ 32 then
      some (BitVec.ofNat 32 (n.toNat / b.toNat), BitVec.ofNat 32 (n.toNat % b.toNat))
    else none

/-- SETDIVU D/#n (R468). -/
def execSetdivu (k : Ctl) (x : RegOrImm) (s : State) : Out State :=
  s.absSet k x fun d v => v.cog.setNumerator false d

/-- SETDIVA D/#n (R469). -/
def execSetdiva (k : Ctl) (x : RegOrImm) (s : State) : Out State :=
  s.absSet k x fun d v => v.cog.setNumerator true d

/-- The results of dividing the held numerator; free where R470 leaves them open (log entry 29). -/
def Div.results (g : Div) (b : Word) (n : Nat) : Word × Word :=
  (quotRem g.signed (g.numHi ++ g.numLo) b).getD (Config.freeWord n, Config.freeWord (n + 1))

/-- SETDIVB D/#n: starts the divider (R470). -/
def execSetdivb (k : Ctl) (x : RegOrImm) (s : State) : Out State :=
  s.absSetDraw k x 2 fun d v =>
    if v.cog.div.busy then .error .unitBusy
    else .ok { v.cog with div := { v.cog.div with
      den := d, busy := true, started := true, count := 0,
      quot := (v.cog.div.results d v.draws).1, rem := (v.cog.div.results d v.draws).2 } }

/-- The divider is done. -/
def Cog.divDone (c : Cog) : Cog := { c with div := { c.div with busy := false } }

/-- GETDIVQ D (R471). -/
def execGetdivq (k : Ctl) (d : RegAddr) (s : State) : Out State :=
  s.unitGet k d (·.div.started) (·.div.busy) Cog.divDone (·.div.quot)

/-- GETDIVR D (R472). -/
def execGetdivr (k : Ctl) (d : RegAddr) (s : State) : Out State :=
  s.unitGet k d (·.div.started) (·.div.busy) Cog.divDone (·.div.rem)

/-! ## Square rooter -/

/-- The root: exact for a square, else the floor or one more, a free choice, of which the low 32 bits are kept (R476). -/
def rootOf (n : BitVec 64) (up : Bool) : Word :=
  BitVec.ofNat 32
    (if isqrt n.toNat * isqrt n.toNat = n.toNat then isqrt n.toNat
     else if up then isqrt n.toNat + 1 else isqrt n.toNat)

/-- SETSQRH D/#n (R475). -/
def execSetsqrh (k : Ctl) (x : RegOrImm) (s : State) : Out State :=
  s.absSet k x fun d v =>
    if v.cog.sqr.busy then .error .unitBusy
    else .ok { v.cog with sqr := { v.cog.sqr with hi := d, haveHi := true } }

/-- SETSQRL D/#n: starts the square rooter (R476). -/
def execSetsqrl (k : Ctl) (x : RegOrImm) (s : State) : Out State :=
  s.absSetDraw k x 1 fun d v =>
    if v.cog.sqr.busy then .error .unitBusy
    else .ok { v.cog with sqr := { v.cog.sqr with
      haveHi := false, lo := d, busy := true, started := true,
      root := rootOf ((if v.cog.sqr.haveHi then v.cog.sqr.hi else 0) ++ d) (Config.freeBit v.draws) } }

/-- The square rooter is done. -/
def Cog.sqrDone (c : Cog) : Cog := { c with sqr := { c.sqr with busy := false } }

/-- GETSQRT D (R477). -/
def execGetsqrt (k : Ctl) (d : RegAddr) (s : State) : Out State :=
  s.unitGet k d (·.sqr.started) (·.sqr.busy) Cog.sqrDone (·.sqr.root)

/-! ## CORDIC -/

/-- The rows of R488 that give a number and its QLOG. -/
def logRows : List (Word × Word) :=
  [(0x00000000, 0x00000000), (0x00000001, 0x00000000), (0x00000002, 0x08000000), (0x00000003, 0x0CAE00D2),
   (0x00000004, 0x10000000), (0x00000005, 0x12934F09), (0x07ADCBD8, 0xD786F595), (0x20000000, 0xE8000000),
   (0x40000000, 0xF0000000), (0x80000000, 0xF8000000), (0xFFFFFFFF, 0xFFFFFFFF)]

/-- The rows of R488 that give a log value and its QEXP. -/
def expRows : List (Word × Word) :=
  [(0x00000000, 0x00000001), (0x08000000, 0x00000002), (0x0CAE00D2, 0x00000003), (0x10000000, 0x00000004),
   (0x12934F09, 0x00000005), (0xD786F595, 0x07ADCBD9), (0xE8000000, 0x20000000), (0xF0000000, 0x40000000),
   (0xF8000000, 0x80000000), (0xFFFFFFFF, 0xFFFFFFE9)]

/-- Start the engine with its inputs and results (R478). -/
def Cog.startCordic (c : Cog) (xIn yIn zIn x y z : Word) : Except Refusal Cog :=
  if c.cordic.busy then .error .unitBusy
  else .ok { c with cordic := { c.cordic with xIn, yIn, zIn, busy := true, started := true, x, y, z } }

/-- A signed 30-bit input: the top two bits are ignored (R487). -/
def sext30 (v : Word) : Word := (v.extractLsb' 0 30).signExtend 32

/-- How many iterations are made: the fixed count, or in adaptive mode `adaptive` (R486). -/
def Cordic.iterations (g : Cordic) (adaptive : Nat) : Nat :=
  if g.cfg.extractLsb' 0 5 = 0 then adaptive else (g.cfg.extractLsb' 0 5).toNat

/-- The adaptive count of QLOG and QEXP: 35 clocks are those of 31 iterations (R490). -/
def logIterations : Nat := 31

/-- How far the results of QLOG and QEXP may be from the mathematical value: one unit after 31 iterations (R488); after a
smaller number, fixed by SETQI, also what these leave of a result of up to `size` (R486; DESIGN CHOICE, log entry 30). -/
def logSpread (size i : Nat) : Nat := if i = logIterations then 1 else 2 * size / 2 ^ i + 1

/-- A result of QLOG or QEXP: after 31 iterations the row of R488, if there is one, else `other`. -/
def Cordic.rowOr (g : Cordic) (rows : List (Word × Word)) (v other : Word) : Word :=
  if g.iterations logIterations = logIterations then (rows.lookup v).getD other else other

/-- The result of QLOG: the row of R488, else near the logarithm; that of 0 is that of 1 (R479, R486, R488). -/
def Cordic.logOf (g : Cordic) (v : Word) (n : Nat) : Word :=
  g.rowOr logRows v (nearFloor (logFloor (max 1 v.toNat)) (isPower (max 1 v.toNat))
    (logSpread (2 ^ 28) (g.iterations logIterations)) n)

/-- The result of QEXP: the row of R488, else near the power (R480, R486, R488). -/
def Cordic.expOf (g : Cordic) (v : Word) (n : Nat) : Word :=
  g.rowOr expRows v (nearFloor (expFloor v.toNat) (v.toNat % 2 ^ 27 == 0)
    (logSpread (expFloor v.toNat) (g.iterations logIterations)) n)

/-- QLOG D/#n: the result is in Z; X and Y are free (R479). -/
def execQlog (k : Ctl) (x : RegOrImm) (s : State) : Out State :=
  s.absSetDraw k x 3 fun d v =>
    v.cog.startCordic d v.cog.cordic.yIn v.cog.cordic.zIn (Config.freeWord v.draws) (Config.freeWord (v.draws + 1))
      (v.cog.cordic.logOf d (v.draws + 2))

/-- QEXP D/#n: the result is in Z; X and Y are free (R480). -/
def execQexp (k : Ctl) (x : RegOrImm) (s : State) : Out State :=
  s.absSetDraw k x 3 fun d v =>
    v.cog.startCordic d v.cog.cordic.yIn v.cog.cordic.zIn (Config.freeWord v.draws) (Config.freeWord (v.draws + 1))
      (v.cog.cordic.expOf d (v.draws + 2))

/-! ### The circular functions -/

/-- Whether the engine is in hyperbolic mode (R486). -/
def Cordic.hyperbolic (g : Cordic) : Bool := g.cfg.getLsbD 5

/-- K of the mode, in units of 10^-11 (R486, R487). -/
def Cordic.gain (g : Cordic) : Nat := if g.hyperbolic then 82815936096 else 164676025812

/-- The adaptive count for inputs X and Y, for QSINCOS D,S the amplitude S and 0: two more than the place of their highest
bit (R490; log entry 30). -/
def adaptiveCount (x y : Int) : Nat := (x.natAbs ||| y.natAbs).log2 + 2

/-- How far X and Y results may be from the mathematical value, for a result of a size up to `size`: what the last of `i`
iterations may leave, and four units (log entry 30). -/
def spread (size i : Nat) : Nat := 2 * size / 2 ^ i + 4

/-- How far an angle result may be from the mathematical value after `i` iterations (log entry 30). -/
def angleSpread (i : Nat) : Nat := 2 ^ 31 / 2 ^ i + 16

/-- The point (X, Y) turned by an angle, or in hyperbolic mode moved along its hyperbola by the radians of the angle; with
64 fraction bits (R481, R484, R486). -/
def Cordic.turned (g : Cordic) (x y : Int) (a : Word) : Int × Int :=
  if g.hyperbolic then
    let p := coshSinh (radians a)
    (x * p.1 + y * p.2, x * p.2 + y * p.1)
  else
    let p := cosSin a
    (x * p.1 - y * p.2, x * p.2 + y * p.1)

/-- X and Y results near the turned point scaled by `num / den` after `i` iterations, by free choices. -/
def Cordic.turnedNear (g : Cordic) (x y : Int) (a : Word) (num den i n : Nat) : Int × Int :=
  let p := g.turned x y a
  let px := p.1 * num / (den * fixOne)
  let py := p.2 * num / (den * fixOne)
  (near px (spread (px.natAbs + py.natAbs) i) n, near py (spread (px.natAbs + py.natAbs) i) (n + 1))

/-- (X, Y) turned and scaled by K (R484, R487). DESIGN CHOICE: the adaptive count of QSINCOS D,S looks at the amplitude
alone, as R486 has it (X and Y), and not at the angle D too, as the row of R490 has it, which gives a smaller bound (log
entry 30). -/
def Cordic.rotated (g : Cordic) (x y : Int) (a : Word) (n : Nat) : Int × Int :=
  g.turnedNear x y a g.gain 100000000000 (g.iterations (adaptiveCount x y)) n

/-- Whether an amplitude operand of QSINCOS is one R481 leaves out: an immediate $00 or $40..$1FF (D36). -/
def sincosRefused : RegOrImm → Bool
  | .reg _ => false
  | .imm n => n == 0 || decide (0x40 ≤ n.toNat)

/-- The amplitude of an immediate #n, in sixteenths: 2^(n-1), or 7/8 of that from $20 (R481). -/
def immAmplitude (n : BitVec 9) : Nat :=
  if n.toNat < 0x20 then 8 * 2 ^ n.toNat else 7 * 2 ^ (n.toNat - 0x20)

/-- A number kept within -limit..limit. -/
def clamp (limit : Nat) (v : Int) : Int := max (-(limit : Int)) (min (limit : Int) v)

/-- Cosine and sine with the amplitude of an immediate, which is not scaled by K; in trigonometric mode they lie within
the amplitude (R481). DESIGN CHOICE: n of the adaptive count is the low five bits of an immediate in $20..$3F, the wider
bound of the two readings that R490 leaves open (log entry 30). -/
def Cordic.sincosImm (g : Cordic) (m : BitVec 9) (a : Word) (n : Nat) : Int × Int :=
  let amp := immAmplitude m
  let p := g.turnedNear amp 0 a 1 16 (g.iterations (m.toNat % 32)) n
  if g.hyperbolic then p else (clamp ((amp + 15) / 16) p.1, clamp ((amp + 15) / 16) p.2)

/-- QSINCOS D,S/#n: the angle in D, the amplitude in S; X is the cosine, Y the sine, Z free (R481). Whether the angle
then also stands where SETQZ puts that of QROTATE is not stated and is free (log entry 30). -/
def execQsincos (k : Ctl) (d : RegAddr) (x : RegOrImm) (s : State) : Out State :=
  s.absDual k d x 3 fun dv sv v =>
    if sincosRefused x then .error .sincosImmediate
    else
      let p := match x with
        | .reg _ => v.cog.cordic.rotated (sext30 sv).toInt 0 dv v.draws
        | .imm n => v.cog.cordic.sincosImm n dv v.draws
      v.cog.startCordic (sext30 sv) v.cog.cordic.yIn
        (if Config.sincosSetsZ v.draws then dv else v.cog.cordic.zIn)
        (fitWord p.1 v.draws) (fitWord p.2 (v.draws + 1)) (Config.freeWord (v.draws + 2))

/-- The distance of (X, Y) to (0,0) scaled by K, along the hyperbola in hyperbolic mode, where there is none for an X
smaller than Y (R482, R486, R487). -/
def Cordic.distance (g : Cordic) (x y : Int) : Option Nat :=
  if g.hyperbolic then
    if y.natAbs ≤ x.natAbs then
      some (isqrt ((x.natAbs * x.natAbs - y.natAbs * y.natAbs) * (g.gain * g.gain) / 10000000000000000000000))
    else none
  else some (isqrt ((x.natAbs * x.natAbs + y.natAbs * y.natAbs) * (g.gain * g.gain) / 10000000000000000000000))

/-- The distance QARCTAN gives: near the mathematical one, free where there is none (R482, R489). -/
def Cordic.arcDistance (g : Cordic) (x y : Int) (n : Nat) : Word :=
  match g.distance x y with
  | some r => fitWord (near r (spread (2 * (x.natAbs + y.natAbs)) (g.iterations (adaptiveCount x y))) n) n
  | none => Config.freeWord n

/-- The angle of (X, Y), in hyperbolic mode atanh(Y/X): there is none at (0,0), nor in hyperbolic mode for a Y that is not
smaller than X in size (R482, R486). -/
def Cordic.angle (g : Cordic) (x y : Int) : Option Int :=
  if g.hyperbolic then
    if y.natAbs < x.natAbs then some (hyperAngleOf x y) else none
  else if x = 0 ∧ y = 0 then none
  else some (angleOf x y)

/-- The angle QARCTAN gives: near the mathematical one, rolling over at 360 degrees; free where there is none (R482, R486,
R489). -/
def Cordic.arcAngle (g : Cordic) (x y : Int) (n : Nat) : Word :=
  match g.angle x y with
  | some a => BitVec.ofInt 32 (near a (angleSpread (g.iterations (adaptiveCount x y))) n)
  | none => Config.freeWord n

/-- QARCTAN D,S/#n: X in D, Y in S; the distance is in X, the angle in Z, Y is free (R482). -/
def execQarctan (k : Ctl) (d : RegAddr) (x : RegOrImm) (s : State) : Out State :=
  s.absDual k d x 3 fun dv sv v =>
    v.cog.startCordic (sext30 dv) (sext30 sv) v.cog.cordic.zIn
      (v.cog.cordic.arcDistance (sext30 dv).toInt (sext30 sv).toInt v.draws) (Config.freeWord (v.draws + 1))
      (v.cog.cordic.arcAngle (sext30 dv).toInt (sext30 sv).toInt (v.draws + 2))

/-- SETQZ D/#n (R483). DESIGN CHOICE: while the engine is busy it is accepted and does not change the running operation (log
entry 23). -/
def execSetqz (k : Ctl) (x : RegOrImm) (s : State) : Out State :=
  s.absSet k x fun d v => .ok { v.cog with cordic := { v.cog.cordic with zIn := d } }

/-- QROTATE D,S/#n: X in D, Y in S, turned by the angle set by SETQZ and scaled by K; Z is free (R484). -/
def execQrotate (k : Ctl) (d : RegAddr) (x : RegOrImm) (s : State) : Out State :=
  s.absDual k d x 3 fun dv sv v =>
    let p := v.cog.cordic.rotated (sext30 dv).toInt (sext30 sv).toInt v.cog.cordic.zIn v.draws
    v.cog.startCordic (sext30 dv) (sext30 sv) v.cog.cordic.zIn (fitWord p.1 v.draws) (fitWord p.2 (v.draws + 1))
      (Config.freeWord (v.draws + 2))

/-- CORDIC is done. -/
def Cog.cordicDone (c : Cog) : Cog := { c with cordic := { c.cordic with busy := false } }

/-- GETQX D (R485). -/
def execGetqx (k : Ctl) (d : RegAddr) (s : State) : Out State :=
  s.unitGet k d (·.cordic.started) (·.cordic.busy) Cog.cordicDone (·.cordic.x)

/-- GETQY D (R570). -/
def execGetqy (k : Ctl) (d : RegAddr) (s : State) : Out State :=
  s.unitGet k d (·.cordic.started) (·.cordic.busy) Cog.cordicDone (·.cordic.y)

/-- GETQZ D (R571). -/
def execGetqz (k : Ctl) (d : RegAddr) (s : State) : Out State :=
  s.unitGet k d (·.cordic.started) (·.cordic.busy) Cog.cordicDone (·.cordic.z)

/-- SETQI D/#n (R486). DESIGN CHOICE: while the engine is busy it is accepted and does not change the running operation (log
entry 23). -/
def execSetqi (k : Ctl) (x : RegOrImm) (s : State) : Out State :=
  s.absSet k x fun d v => .ok { v.cog with cordic := { v.cog.cordic with cfg := d.extractLsb' 0 6 } }

/-! ## A clock -/

/-- The units after a clock: a busy one may finish; when is free (R490, R560). -/
def Cog.unitsClock (c : Cog) (num t : Nat) : Cog :=
  { c with
    mul := { c.mul with busy := c.mul.busy && Config.stillBusy t num 0 },
    div := { c.div with busy := c.div.busy && Config.stillBusy t num 1 },
    sqr := { c.sqr with busy := c.sqr.busy && Config.stillBusy t num 2 },
    cordic := { c.cordic with busy := c.cordic.busy && Config.stillBusy t num 3 } }

end Sys2Proof.Machine
end

