-- ==== Sys2Proof/Machine/Transfer.lean ====
section
/-! DEFINITION. The pin transfer unit XFR (R430..R433): what a clock does, and SETXFR. -/

namespace Sys2Proof.Machine

/-- The 16 pins a configuration selects; %11x selects none and reads 0 (R431). -/
def pins16 (pins : BitVec 96) (sel : BitVec 3) : BitVec 16 :=
  if sel.toNat < 6 then pins.extractLsb' (16 * sel.toNat) 16 else 0

/-- The 32 pins a configuration selects (R431). -/
def pins32 (pins : BitVec 96) (sel : BitVec 3) : Word :=
  if sel.toNat < 6 then pins.extractLsb' (32 * (sel.toNat / 2)) 32 else 0

/-- QUAD number `k`, for the places of a transfer pattern. -/
def Cog.quadNo (c : Cog) (k : Nat) : Word := c.quad[k % 4]'(Nat.mod_lt k (by decide))

/-- Pins that a unit drives: which of P0..P95, and their levels. An effect, not state (D29). -/
structure PinDrive where
  mask : BitVec 96
  level : BitVec 96
deriving DecidableEq, Repr

/-- `w` put out on the group of its width that PPP selects; no pins with %11x (R431). -/
def driveGroup {n : Nat} (sel : BitVec 3) (group : Nat) (w : BitVec n) : Option PinDrive :=
  if sel.toNat < 6 then
    some ⟨(BitVec.allOnes n).setWidth 96 <<< (n * group), w.setWidth 96 <<< (n * group)⟩
  else none

/-- The pins that XFR drives in this clock, with a word or a long of the QUADs (R431, R432). -/
def Cog.xfrOut (c : Cog) : Option PinDrive :=
  let sel := c.xfr.cfg.extractLsb' 0 3
  match (c.xfr.cfg.extractLsb' 3 3).toNat with
  | 2 => driveGroup sel sel.toNat ((c.quadNo (c.xfr.pos.toNat / 2)).extractLsb' (16 * (c.xfr.pos.toNat % 2)) 16)
  | 3 => driveGroup sel (sel.toNat / 2) (c.quadNo c.xfr.pos.toNat)
  | _ => none

/-- The next place of a pattern of `period` clocks. -/
def Xfr.next (x : Xfr) (period : Nat) : Xfr := { x with pos := BitVec.ofNat 3 ((x.pos.toNat + 1) % period) }

/-- A long written to QUAD `k` only, not to the register under it (R432). DESIGN CHOICE: a mapped QUAD may be read and
executed at once after it, with no delay as after an RDQUAD, for which R433 gives no rule (log entry 28). -/
def Cog.xfrQuad (c : Cog) (k : Nat) (v : Word) : Cog :=
  { c with quad := c.quad.set (k % 4) v (Nat.mod_lt k (by decide)) }

/-- A long written to the stack at SPA++ (R432). -/
def Cog.xfrPush (c : Cog) (v : Word) : Cog :=
  { c with stack := Cells.write c.stack c.spa.toNat v, spa := c.spa + 1 }

/-- XFR after a clock, with the levels of the pins (R432). -/
def Cog.xfrClock (c : Cog) (pins : BitVec 96) : Cog :=
  let p16 := pins16 pins (c.xfr.cfg.extractLsb' 0 3)
  let p32 := pins32 pins (c.xfr.cfg.extractLsb' 0 3)
  match (c.xfr.cfg.extractLsb' 3 3).toNat with
  | 0 | 1 => c
  | 2 => { c with xfr := c.xfr.next 8 }
  | 3 => { c with xfr := c.xfr.next 4 }
  | 4 =>
    if c.xfr.pos.toNat % 2 = 0 then { c with xfr := { c.xfr.next 8 with low := p16 } }
    else { c.xfrQuad (c.xfr.pos.toNat / 2) (p16 ++ c.xfr.low) with xfr := c.xfr.next 8 }
  | 5 => { c.xfrQuad c.xfr.pos.toNat p32 with xfr := c.xfr.next 4 }
  | 6 =>
    if c.xfr.pos.toNat % 2 = 0 then { c with xfr := { c.xfr.next 2 with low := p16 } }
    else { c.xfrPush (p16 ++ c.xfr.low) with xfr := c.xfr.next 2 }
  | _ => c.xfrPush p32

/-- SETXFR D/#n: the pattern begins on the next clock (R431). -/
def execSetxfr (k : Ctl) (x : RegOrImm) (s : State) : Out State :=
  s.absSet k x fun d v => .ok { v.cog with xfr := { v.cog.xfr with cfg := d.extractLsb' 0 6, pos := 0 } }

end Sys2Proof.Machine
end

