-- ==== Sys2Proof/Machine/Background.lean ====
section
/-! DEFINITION. What passes between two instructions: a free number of clocks, in which CNT and the units of every
running cog move, and the choice of the cog that moves next (R20, R83, R301; log entries 6, 7, 8). -/

namespace Sys2Proof.Machine

/-- The units of a running cog after one clock: counters, DAC dither, VID, XFR, background arithmetic. -/
def Cog.clock (c : Cog) (num t : Nat) : Cog :=
  (({ c with
      ctra := c.ctra.clock num t false, ctrb := c.ctrb.clock num t true,
      lfsr := Config.lfsrNext c.lfsr } : Cog).vidClock c.ctra).xfrClock (Config.pins t) |>.unitsClock num t

/-- The units of a running cog after `n` clocks, the first of them clock `t`. -/
def Cog.clocks (num : Nat) : Nat → Nat → Cog → Cog
  | 0, _, c => c
  | n + 1, t, c => Cog.clocks num n (t + 1) (c.clock num t)

/-- A cog after `n` clocks; an idle or loading cog does not change (R237, R531). -/
def Cog.pass (c : Cog) (num n t : Nat) : Cog :=
  match c.run with
  | .running => Cog.clocks num n t c
  | .idle | .loading _ _ => c

/-- How many clocks pass in a step: at least one (R301, D30). -/
def State.clocksPassed (s : State) : Nat := 1 + Config.extraClocks s.draws

/-- What passes until the next step: clocks, and which cog moves then (R83, D9). -/
def State.elapse (s : State) : State :=
  { hub := { s.hub with cnt := s.hub.cnt + BitVec.ofNat 64 s.clocksPassed, clock := s.hub.clock + s.clocksPassed },
    cogs := Vector.ofFn fun n => (s.cogs[n.val]).pass n.val s.clocksPassed s.hub.clock,
    cur := Config.nextCog s.draws, draws := s.draws + 1 }

end Sys2Proof.Machine
end

