-- ==== Sys2Proof/Machine/Texture.lean ====
section
/-! DEFINITION. The texture mapper PIX (R420..R424, R436..R441). -/

namespace Sys2Proof.Machine

/-! ## Set-up -/

/-- SETPIX D/#n (R421). -/
def execSetpix (k : Ctl) (x : RegOrImm) (s : State) : Out State :=
  s.absSet k x fun d v => .ok { v.cog with pix := { v.cog.pix with cfg := d } }

/-- Replace a parameter of the texture mapper. -/
def Pix.setPar (p : Pix) (n : PixName) (v : PixPar) : Pix :=
  match n with
  | .u => { p with u := v }
  | .v => { p with v := v }
  | .z => { p with z := v }
  | .a => { p with a := v }
  | .r => { p with r := v }
  | .g => { p with g := v }
  | .b => { p with b := v }

/-- SETPIXU and its siblings: the low word is the parameter, the high word its delta (R422, R436..R441). -/
def execSetpixp (k : Ctl) (n : PixName) (x : RegOrImm) (s : State) : Out State :=
  s.absSet k x fun d v =>
    .ok { v.cog with pix := v.cog.pix.setPar n ⟨d.extractLsb' 0 16, d.extractLsb' 16 16⟩ }

/-! ## GETPIX -/

/-- A parameter after its delta is added, modulo 2^16 (R422). -/
def PixPar.step (p : PixPar) : PixPar := { p with val := p.val + p.delta }

/-- All parameters after a GETPIX (R423). -/
def Pix.step (p : Pix) : Pix :=
  { p with u := p.u.step, v := p.v.step, z := p.z.step, a := p.a.step, r := p.r.step, g := p.g.step, b := p.b.step }

/-- The parameter divided by Z' = 256 - Z[15:8], whole (R423). -/
def Pix.quotient (p : Pix) (c : PixPar) : Nat := c.val.toNat / (256 - (p.z.val.extractLsb' 8 8).toNat)

/-- U' or V': the quotient modulo 256 (R423). -/
def Pix.corrected (p : Pix) (c : PixPar) : BitVec 8 := BitVec.ofNat 8 (p.quotient c)

/-- The coordinate: the top bits of U' or V', reversed where the axis is mirrored; when it is, is free, of U and of the
whole quotient (R421, R423; log entry 27). -/
def Pix.coordinate (p : Pix) (sizeCode : BitVec 3) (mirror : Bool) (c : PixPar) : Nat :=
  let n := (p.corrected c).toNat / 2 ^ (8 - sizeCode.toNat)
  if mirror && Config.mirrored c.val (p.quotient c) then 2 ^ sizeCode.toNat - 1 - n else n

/-- The number of the texture pixel in the map (R420, R421). -/
def Pix.texel (p : Pix) : Nat :=
  p.coordinate (p.cfg.extractLsb' 26 3) (p.cfg.getLsbD 21) p.v * 2 ^ (p.cfg.extractLsb' 29 3).toNat
    + p.coordinate (p.cfg.extractLsb' 29 3) (p.cfg.getLsbD 22) p.u

/-- Bits of a texture pixel: 1, 2, 4 or 8 (R421). -/
def Pix.texelBits (p : Pix) : Nat := 2 ^ (p.cfg.extractLsb' 24 2).toNat

/-- The register that holds the texture pixel (R420). DESIGN CHOICE: a texture that runs past the last register goes on at
register 0 (log entry 27). -/
def Pix.texelReg (p : Pix) : RegAddr := p.cfg.extractLsb' 0 9 + BitVec.ofNat 9 (p.texel * p.texelBits / 32)

/-- The long that holds the texture pixel, from register RAM; whether $1F6 and $1F7 hold anything is not stated, and theirs
is a free value (R27, R420; log entry 27). -/
def Cog.texelLong (c : Cog) (n : Nat) : Word :=
  if specialBase ≤ c.pix.texelReg.toNat then Config.freeWord n else Cells.read c.ram c.pix.texelReg.toNat

/-- The texture pixel (R420). -/
def Cog.texture (c : Cog) (n : Nat) : Nat :=
  (c.texelLong n >>> (c.pix.texel * c.pix.texelBits % 32)).toNat % 2 ^ c.pix.texelBits

/-- The A:R:G:B data of a texture pixel, from stack RAM: a long, or an expanded word of which the half and the
expansion are free (R421, R423). DESIGN CHOICE: data that run past the last long go on at long 0 (log entry 27). -/
def Cog.argb (c : Cog) (t : Nat) : Word :=
  let base := (c.pix.cfg.extractLsb' 9 8).toNat
  if c.pix.cfg.getLsbD 23 then
    let w := Cells.read c.stack ((base + t / 2) % 256)
    Config.texelExpand (if Config.texelHighHalf (t % 2 == 1) then w.extractLsb' 16 16 else w.extractLsb' 0 16)
  else Cells.read c.stack ((base + t) % 256)

/-- `(T * P[15:8] + 255) / 256` (R423). -/
def scale (t : BitVec 8) (p : PixPar) : Nat := (t.toNat * (p.val.extractLsb' 8 8).toNat + 255) / 256

/-- `(A' * C' + (255 - A') * d + 255) / 256` (R423). -/
def blend (a c : Nat) (d : BitVec 8) : BitVec 8 := BitVec.ofNat 8 ((a * c + (255 - a) * d.toNat + 255) / 256)

/-- A': the scaled opacity of a texture pixel (R423). -/
def Pix.alpha (p : Pix) (argb : Word) : Nat := scale (argb.extractLsb' 24 8) p.a

/-- The scaled texture pixel blended with the pixel in D (R423). -/
def Pix.blended (p : Pix) (argb d : Word) : Word :=
  0#8 ++ blend (p.alpha argb) (scale (argb.extractLsb' 16 8) p.r) (d.extractLsb' 16 8)
    ++ blend (p.alpha argb) (scale (argb.extractLsb' 8 8) p.g) (d.extractLsb' 8 8)
    ++ blend (p.alpha argb) (scale (argb.extractLsb' 0 8) p.b) (d.extractLsb' 0 8)

/-- GETPIX D: needs two three-clock instructions ahead of it (R424, R546), stack RAM free of XFR (R92), and a texture
outside the I/O registers (R27). DESIGN CHOICE: the texture read, which R423 puts in stage 2, sees what all earlier
instructions have written, the two just before it too (log entry 27). -/
def execGetpix (k : Ctl) (d : RegAddr) (s : State) : Out State :=
  s.instr k.cc (some d) none fun da _ v =>
    if v.cog.haz.clocks1 < 3 || v.cog.haz.clocks2 < 3 then .error .pixUnprepared
    else if v.cog.stackTaken then .error .stackBusy
    else if ioBase ≤ v.cog.pix.texelReg.toNat then .error .specialRegister
    else do
      let dv ← v.cog.read da
      let argb := v.cog.argb (v.cog.texture v.draws)
      let c ← v.cog.result k.wr da (v.cog.pix.blended argb dv)
      pure (({ v with
        cog := { (c.flagZ k.wz (zeroFlag (v.cog.pix.blended argb dv))).flagC k.wc
          (v.cog.pix.alpha argb != 0) with pix := v.cog.pix.step },
        draws := v.draws + 1 } : View).retire 3)

end Sys2Proof.Machine
end

