-- ==== Sys2Proof/Machine/AbsDispatch.lean ====
section
/-! DEFINITION. The meaning of every instruction the spec describes without an encoding (R141; log entry 21). -/

namespace Sys2Proof.Machine

/-- What an unencoded instruction does under its condition and controls. -/
def execAbs (k : Ctl) (i : AbsInstr) (s : State) : Out State :=
  match i with
  | .setcog x => execSetcog k x s
  | .setsp w x => execSetsp k w x s
  | .addsp w x => execAddsp k w x s
  | .subsp w x => execSubsp k w x s
  | .getsp w d => execGetsp k w d s
  | .getspd d => execGetspd k d s
  | .getphs w d => execGetphs k w d s
  | .getphz w d => execGetphz k w d s
  | .getcos w d => execGetcos k w d s
  | .getsin w d => execGetsin k w d s
  | .setctr w x => execSetctr k w x s
  | .setwav w x => execSetwav k w x s
  | .setfrq w x => execSetfrq k w x s
  | .setphs w x => execSetphs k w x s
  | .addphs w x => execAddphs k w x s
  | .subphs w x => execSubphs k w x s
  | .synctr w => execSynctr k w s
  | .polctr w => execPolctr k w s
  | .capctr w => execCapctr k w s
  | .cfgdac n x => execCfgdac k n x s
  | .cfgdacs x => execCfgdacs k x s
  | .setdac n x => execSetdac k n x s
  | .setdacs x => execSetdacs k x s
  | .setvid x => execSetvid k x s
  | .setvidy x => execSetvidy k x s
  | .setvidi x => execSetvidi k x s
  | .setvidq x => execSetvidq k x s
  | .waitvid d x => execWaitvid k d x s
  | .polvid => execPolvid k s
  | .setpix x => execSetpix k x s
  | .setpixp p x => execSetpixp k p x s
  | .getpix d => execGetpix k d s
  | .setxfr x => execSetxfr k x s
  | .setmulu x => execSetmulu k x s
  | .setmula x => execSetmula k x s
  | .setmulb x => execSetmulb k x s
  | .getmull d => execGetmull k d s
  | .getmulh d => execGetmulh k d s
  | .setdivu x => execSetdivu k x s
  | .setdiva x => execSetdiva k x s
  | .setdivb x => execSetdivb k x s
  | .getdivq d => execGetdivq k d s
  | .getdivr d => execGetdivr k d s
  | .setsqrh x => execSetsqrh k x s
  | .setsqrl x => execSetsqrl k x s
  | .getsqrt d => execGetsqrt k d s
  | .qlog x => execQlog k x s
  | .qexp x => execQexp k x s
  | .qsincos d x => execQsincos k d x s
  | .qarctan d x => execQarctan k d x s
  | .setqz x => execSetqz k x s
  | .qrotate d x => execQrotate k d x s
  | .getqx d => execGetqx k d s
  | .getqy d => execGetqy k d s
  | .getqz d => execGetqz k d s
  | .setqi x => execSetqi k x s
  | .mac w d x => execMac k w d x s
  | .clracc w => execClracc k w s
  | .clraccs => execClraccs k s
  | .setacc w d x => execSetacc k w d x s
  | .fitacc w => execFitacc k w s
  | .fitaccs => execFitaccs k s
  | .getacc w d => execGetacc k w d s

end Sys2Proof.Machine
end

