-- ==== Sys2Proof/Machine/Branch.lean ====
section
/-! DEFINITION. Branches (R320..R351). Every branch is refused in the slots of a delayed branch (R321). -/

namespace Sys2Proof.Machine

/-! ## Shared operations -/

/-- The word a JMPRET stores: the return address in bits 8..0, C in bit 9 and Z in bit 10 where asked, the rest of
the old D (R322). -/
def linkWord (d : Word) (back : RegAddr) (wz wc z c : Bool) : Word :=
  d.extractLsb' 11 21 ++ BitVec.ofBool (if wz then z else d.getLsbD 10)
    ++ BitVec.ofBool (if wc then c else d.getLsbD 9) ++ back

/-- Store the return address, PC+1 or PC+4, with the flags before any reload (R322, R329). -/
def Cog.link (c : Cog) (delayed wz wc : Bool) (da : RegAddr) : Except Refusal Cog := do
  let d ← c.read da
  c.write da (linkWord d (c.pc + (if delayed then 4 else 1)) wz wc c.z c.c)

/-- JMPRET D,S: both operands are read before anything is written (R322, R329). -/
def View.jmpretReg (v : View) (delayed wz wc cond : Bool) (da sa : RegAddr) : Except Refusal View := do
  let sv ← v.cog.read sa
  let c ← v.cog.link delayed wz wc da
  (v.withCog (c.reload wz wc sv)).branch delayed cond true (sv.extractLsb' 0 9)

/-- JMPRET D,#n: the flags themselves are not changed (R323, R330). -/
def View.jmpretImm (v : View) (delayed wz wc cond : Bool) (da : RegAddr) (n : BitVec 9) : Except Refusal View := do
  let c ← v.cog.link delayed wz wc da
  (v.withCog c).branch delayed cond true n

/-- JMP S: the flags come from bits 9 and 10 of S (R324, R331). -/
def View.jmpReg (v : View) (delayed wz wc cond : Bool) (sa : RegAddr) : Except Refusal View := do
  let sv ← v.cog.read sa
  (v.withCog (v.cog.reload wz wc sv)).branch delayed cond true (sv.extractLsb' 0 9)

/-- JMP #n: the flags come from bits 9 and 10 of the instruction, the two lowest bits of its D field (R325, R332). -/
def View.jmpImm (v : View) (delayed wz wc cond : Bool) (d : BitVec 9) (n : BitVec 9) : Except Refusal View :=
  (v.withCog ((v.cog.flagC wc (d.getLsbD 0)).flagZ wz (d.getLsbD 1))).branch delayed cond true n

/-- The frame of the NR forms: a D field of $1F6 or $1F7 is refused (R324, R325, D24). -/
def State.nrInstr (s : State) (cc : CCCC) (d : BitVec 9) (x : Option RegAddr)
    (body : RegAddr → View → Except Refusal View) : Out State :=
  if isIndAddr d then .refused .indirectCollision else s.branchInstr cc none x fun _ sa v => body sa v

/-- IJx and DJx: D changes by one, written or not, and the jump tests the result (R336..R339, R344..R347). -/
def View.countBranch (v : View) (delta : Word) (nz delayed wr : Bool) (da : RegAddr) (x : RegOrImm) (sa : RegAddr) :
    Except Refusal View := do
  let dv ← v.cog.read da
  let tgt ← v.cog.target x sa
  let c ← v.cog.result wr da (dv + delta)
  ((v.withCog c).selectors nz delayed).branch delayed true (zeroFlag (dv + delta) != nz) tgt

/-- TJZ and TJNZ: the jump tests D (R340, R341, R348, R349). -/
def View.testBranch (v : View) (nz delayed : Bool) (da : RegAddr) (x : RegOrImm) (sa : RegAddr) :
    Except Refusal View := do
  let dv ← v.cog.read da
  let tgt ← v.cog.target x sa
  (v.selectors nz delayed).branch delayed true (zeroFlag dv != nz) tgt

/-- JP and JNP: the jump tests a pin, whose level is free (R342, R343, R350, R351, D29; log entry 16). -/
def View.pinBranch (v : View) (low delayed : Bool) (da : RegAddr) (x : RegOrImm) (sa : RegAddr) :
    Except Refusal View := do
  let _ ← v.cog.read da
  let tgt ← v.cog.target x sa
  (({ v with draws := v.draws + 1 } : View).selectors low delayed).branch delayed true
    (Config.freeBit v.draws != low) tgt

/-! ## JMPRET and its special cases, normal and delayed -/

/-- JMPRET D,S (R322). -/
def execJmpretS (wz wc : Bool) (cc : CCCC) (d x : RegAddr) (s : State) : Out State :=
  s.branchInstr cc (some d) (some x) fun da sa v =>
    v.jmpretReg false wz wc (conditional cc (some d) (some x)) da sa

/-- JMPRET D,#n (R323). -/
def execJmpretN (wz wc : Bool) (cc : CCCC) (d : RegAddr) (n : BitVec 9) (s : State) : Out State :=
  s.branchInstr cc (some d) none fun da _ v => v.jmpretImm false wz wc (conditional cc (some d) none) da n

/-- JMPRET D,S NR (R324). -/
def execJmpretSNR (wz wc : Bool) (cc : CCCC) (d x : RegAddr) (s : State) : Out State :=
  s.nrInstr cc d (some x) fun sa v => v.jmpReg false wz wc (conditional cc none (some x)) sa

/-- JMPRET D,#n NR (R325). -/
def execJmpretNNR (wz wc : Bool) (cc : CCCC) (d : RegAddr) (n : BitVec 9) (s : State) : Out State :=
  s.nrInstr cc d none fun _ v => v.jmpImm false wz wc (conditional cc none none) d n

/-- JMP S (R324). -/
def execJmpS (wz wc : Bool) (cc : CCCC) (x : RegAddr) (s : State) : Out State :=
  s.nrInstr cc 0 (some x) fun sa v => v.jmpReg false wz wc (conditional cc none (some x)) sa

/-- JMP #n (R325). -/
def execJmpN (wz wc : Bool) (cc : CCCC) (n : BitVec 9) (s : State) : Out State :=
  s.nrInstr cc 0 none fun _ v => v.jmpImm false wz wc (conditional cc none none) 0 n

/-- RET, a JMP #0 until a CALL has patched its word (R326). -/
def execRet (wz wc : Bool) (cc : CCCC) (s : State) : Out State :=
  s.nrInstr cc 0 none fun _ v => v.jmpImm false wz wc (conditional cc none none) 0 0

/-- CALL #label (R327). -/
def execCall (wz wc : Bool) (cc : CCCC) (d : RegAddr) (n : BitVec 9) (s : State) : Out State :=
  s.branchInstr cc (some d) none fun da _ v => v.jmpretImm false wz wc (conditional cc (some d) none) da n

/-- TASKSW: JMPRET INDA,++INDA WZ,WC (R328). -/
def execTasksw (s : State) : Out State :=
  s.branchInstr 0b0011 (some indaAddr) (some indaAddr) fun da sa v => v.jmpretReg false true true false da sa

/-- JMPRETD D,S (R329). -/
def execJmpretdS (wz wc : Bool) (cc : CCCC) (d x : RegAddr) (s : State) : Out State :=
  s.branchInstr cc (some d) (some x) fun da sa v =>
    v.jmpretReg true wz wc (conditional cc (some d) (some x)) da sa

/-- JMPRETD D,#n (R330). -/
def execJmpretdN (wz wc : Bool) (cc : CCCC) (d : RegAddr) (n : BitVec 9) (s : State) : Out State :=
  s.branchInstr cc (some d) none fun da _ v => v.jmpretImm true wz wc (conditional cc (some d) none) da n

/-- JMPRETD D,S NR (R331). -/
def execJmpretdSNR (wz wc : Bool) (cc : CCCC) (d x : RegAddr) (s : State) : Out State :=
  s.nrInstr cc d (some x) fun sa v => v.jmpReg true wz wc (conditional cc none (some x)) sa

/-- JMPRETD D,#n NR (R332). -/
def execJmpretdNNR (wz wc : Bool) (cc : CCCC) (d : RegAddr) (n : BitVec 9) (s : State) : Out State :=
  s.nrInstr cc d none fun _ v => v.jmpImm true wz wc (conditional cc none none) d n

/-- JMPD S (R331). -/
def execJmpdS (wz wc : Bool) (cc : CCCC) (x : RegAddr) (s : State) : Out State :=
  s.nrInstr cc 0 (some x) fun sa v => v.jmpReg true wz wc (conditional cc none (some x)) sa

/-- JMPD #n (R332). -/
def execJmpdN (wz wc : Bool) (cc : CCCC) (n : BitVec 9) (s : State) : Out State :=
  s.nrInstr cc 0 none fun _ v => v.jmpImm true wz wc (conditional cc none none) 0 n

/-- RETD, a JMPD #0 until a CALL has patched its word (R333). -/
def execRetd (wz wc : Bool) (cc : CCCC) (s : State) : Out State :=
  s.nrInstr cc 0 none fun _ v => v.jmpImm true wz wc (conditional cc none none) 0 0

/-- CALLD #label (R334). -/
def execCalld (wz wc : Bool) (cc : CCCC) (d : RegAddr) (n : BitVec 9) (s : State) : Out State :=
  s.branchInstr cc (some d) none fun da _ v => v.jmpretImm true wz wc (conditional cc (some d) none) da n

/-- TASKSWD: JMPRETD INDA,++INDA WZ,WC (R335). -/
def execTaskswd (s : State) : Out State :=
  s.branchInstr 0b0011 (some indaAddr) (some indaAddr) fun da sa v => v.jmpretReg true true true false da sa

/-! ## Conditional branches -/

/-- IJZ D,S/#n (R336). -/
def execIjz (wr : Bool) (cc : CCCC) (d : RegAddr) (x : RegOrImm) (s : State) : Out State :=
  s.branchInstr cc (some d) x.regField fun da sa v => v.countBranch 1 false false wr da x sa

/-- IJNZ D,S/#n (R337). -/
def execIjnz (wr : Bool) (cc : CCCC) (d : RegAddr) (x : RegOrImm) (s : State) : Out State :=
  s.branchInstr cc (some d) x.regField fun da sa v => v.countBranch 1 true false wr da x sa

/-- DJZ D,S/#n (R338). -/
def execDjz (wr : Bool) (cc : CCCC) (d : RegAddr) (x : RegOrImm) (s : State) : Out State :=
  s.branchInstr cc (some d) x.regField fun da sa v => v.countBranch (-1) false false wr da x sa

/-- DJNZ D,S/#n (R339). -/
def execDjnz (wr : Bool) (cc : CCCC) (d : RegAddr) (x : RegOrImm) (s : State) : Out State :=
  s.branchInstr cc (some d) x.regField fun da sa v => v.countBranch (-1) true false wr da x sa

/-- TJZ D,S/#n (R340). -/
def execTjz (cc : CCCC) (d : RegAddr) (x : RegOrImm) (s : State) : Out State :=
  s.branchInstr cc (some d) x.regField fun da sa v => v.testBranch false false da x sa

/-- TJNZ D,S/#n (R341). -/
def execTjnz (cc : CCCC) (d : RegAddr) (x : RegOrImm) (s : State) : Out State :=
  s.branchInstr cc (some d) x.regField fun da sa v => v.testBranch true false da x sa

/-- JP D,S/#n (R342). -/
def execJp (cc : CCCC) (d : RegAddr) (x : RegOrImm) (s : State) : Out State :=
  s.branchInstr cc (some d) x.regField fun da sa v => v.pinBranch false false da x sa

/-- JNP D,S/#n (R343). -/
def execJnp (cc : CCCC) (d : RegAddr) (x : RegOrImm) (s : State) : Out State :=
  s.branchInstr cc (some d) x.regField fun da sa v => v.pinBranch true false da x sa

/-- IJZD D,S/#n (R344). -/
def execIjzd (wr : Bool) (cc : CCCC) (d : RegAddr) (x : RegOrImm) (s : State) : Out State :=
  s.branchInstr cc (some d) x.regField fun da sa v => v.countBranch 1 false true wr da x sa

/-- IJNZD D,S/#n (R345). -/
def execIjnzd (wr : Bool) (cc : CCCC) (d : RegAddr) (x : RegOrImm) (s : State) : Out State :=
  s.branchInstr cc (some d) x.regField fun da sa v => v.countBranch 1 true true wr da x sa

/-- DJZD D,S/#n (R346). -/
def execDjzd (wr : Bool) (cc : CCCC) (d : RegAddr) (x : RegOrImm) (s : State) : Out State :=
  s.branchInstr cc (some d) x.regField fun da sa v => v.countBranch (-1) false true wr da x sa

/-- DJNZD D,S/#n (R347). -/
def execDjnzd (wr : Bool) (cc : CCCC) (d : RegAddr) (x : RegOrImm) (s : State) : Out State :=
  s.branchInstr cc (some d) x.regField fun da sa v => v.countBranch (-1) true true wr da x sa

/-- TJZD D,S/#n (R348). -/
def execTjzd (cc : CCCC) (d : RegAddr) (x : RegOrImm) (s : State) : Out State :=
  s.branchInstr cc (some d) x.regField fun da sa v => v.testBranch false true da x sa

/-- TJNZD D,S/#n (R349). -/
def execTjnzd (cc : CCCC) (d : RegAddr) (x : RegOrImm) (s : State) : Out State :=
  s.branchInstr cc (some d) x.regField fun da sa v => v.testBranch true true da x sa

/-- JPD D,S/#n (R350). -/
def execJpd (cc : CCCC) (d : RegAddr) (x : RegOrImm) (s : State) : Out State :=
  s.branchInstr cc (some d) x.regField fun da sa v => v.pinBranch false true da x sa

/-- JNPD D,S/#n (R351). -/
def execJnpd (cc : CCCC) (d : RegAddr) (x : RegOrImm) (s : State) : Out State :=
  s.branchInstr cc (some d) x.regField fun da sa v => v.pinBranch true true da x sa

end Sys2Proof.Machine
end

