-- ==== Sys2Proof/Machine/CntWait.lean ====
section
/-! DEFINITION. The system counter and the wait instructions (R301..R308). CNT is `Hub.cnt`; how far it advances
between instructions is free (D30; log entry 8). -/

namespace Sys2Proof.Machine

/-- CNTL: the low long of CNT (R301). -/
def Hub.cntl (h : Hub) : Word := h.cnt.extractLsb' 0 32

/-- CNTH: the high long of CNT (R301). -/
def Hub.cnth (h : Hub) : Word := h.cnt.extractLsb' 32 32

/-- The end of a CNT instruction: it is remembered for the next one (R302..R304). -/
def View.retireCnt (v : View) (seq : CntSeq) : View := v.withCog { v.cog.retire 1 with cntSeq := seq }

/-- GETCNT D: CNTL, then CNTH of the same reading; next to a SUBCNT it is refused (R302, D34). -/
def execGetcnt (cc : CCCC) (d : RegAddr) (s : State) : Out State :=
  s.instr cc (some d) none fun da _ v =>
    match v.cog.cntSeq with
    | .subLow | .subHigh => .error .cntMixture
    | .gotLow => do
      let c ← v.cog.write da v.cog.cntHi
      pure ((v.withCog c).retireCnt .gotHigh)
    | .idle | .gotHigh | .compared => do
      let c ← v.cog.write da v.hub.cntl
      pure ((v.withCog { c with cntHi := v.hub.cnth }).retireCnt .gotLow)

/-- SUBCNT D: CNTL minus D, then CNTH minus D minus the borrow; next to a GETCNT it is refused (R303, D34). -/
def execSubcnt (wz wc : Bool) (cc : CCCC) (d : RegAddr) (s : State) : Out State :=
  s.instr cc (some d) none fun da _ v =>
    match v.cog.cntSeq with
    | .gotLow | .gotHigh => .error .cntMixture
    | .subLow => do
      let dv ← v.cog.read da
      let r := v.cog.cntHi - dv - (BitVec.ofBool v.cog.cntBorrow).setWidth 32
      let c ← v.cog.write da r
      pure ((v.withCog ((c.flagZ wz (zeroFlag r)).flagC wc (borrow v.cog.cntHi dv v.cog.cntBorrow))).retireCnt .subHigh)
    | .idle | .subHigh | .compared => do
      let dv ← v.cog.read da
      let r := v.hub.cntl - dv
      let b := borrow v.hub.cntl dv false
      let c ← v.cog.write da r
      pure ((v.withCog { (c.flagZ wz (zeroFlag r)).flagC wc b with cntHi := v.hub.cnth, cntBorrow := b }).retireCnt .subLow)

/-- CMPCNT D: C = D > CNTL, unsigned; two in a row are refused (R304, D18, D34). -/
def execCmpcnt (wz wc : Bool) (cc : CCCC) (d : RegAddr) (s : State) : Out State :=
  s.instr cc (some d) none fun da _ v =>
    match v.cog.cntSeq with
    | .compared => .error .cntMixture
    | .idle | .gotLow | .gotHigh | .subLow | .subHigh => do
      let dv ← v.cog.read da
      pure ((v.withCog ((v.cog.flagZ wz (v.hub.cntl == dv)).flagC wc
        (decide (v.hub.cntl.toNat < dv.toNat)))).retireCnt .compared)

/-- Whether CNTL has passed a value: (CNTL - D) mod 2^32 < 2^31 (R305, D30). -/
def passed (cntl d : Word) : Bool := decide ((cntl - d).toNat < 2 ^ 31)

/-- PASSCNT D: passes on, or stays at its own address for another step (R305). DESIGN CHOICE: among the three trailing
instructions of a delayed branch, where R321 does not say what it does, it runs the same way; while it stays there the
branch stays pending and no trailing instruction is counted (log entry 17). -/
def execPasscnt (cc : CCCC) (d : RegAddr) (s : State) : Out State :=
  s.instr cc (some d) none fun da _ v => do
    let dv ← v.cog.read da
    pure (if passed v.hub.cntl dv then v.retire 1 else s.view)

/-- WAITCNT D,S/#n: a step of free duration, then D + S; the 64-bit form is refused (R306, D38). -/
def execWaitcnt (wc wr : Bool) (cc : CCCC) (d : RegAddr) (x : RegOrImm) (s : State) : Out State :=
  s.instr cc (some d) x.regField fun da sa v =>
    if wc then .error .waitcntLong
    else do
      let dv ← v.cog.read da
      let sv ← v.cog.operand x sa
      let c ← v.cog.result wr da (dv + sv)
      pure ((v.withCog c).retire 1)

/-- The wait of WAITPEQ and WAITPNE, a step of free duration: C says whether the counter reaching the last-stored
value ended it, a free value (R307, D29); bit 25 selects the operation, so Z is free (R114). -/
def View.waitPins (v : View) (da : RegAddr) (x : RegOrImm) (sa : RegAddr) : Except Refusal View := do
  let _ ← v.cog.read da
  let _ ← v.cog.operand x sa
  pure (v.drawC.drawZ.retire 1)

/-- WAITPEQ D,S/#n WC (R307). -/
def execWaitpeq (cc : CCCC) (d : RegAddr) (x : RegOrImm) (s : State) : Out State :=
  s.instr cc (some d) x.regField fun da sa v => v.waitPins da x sa

/-- WAITPNE D,S/#n WC (R308). -/
def execWaitpne (cc : CCCC) (d : RegAddr) (x : RegOrImm) (s : State) : Out State :=
  s.instr cc (some d) x.regField fun da sa v => v.waitPins da x sa

end Sys2Proof.Machine
end

