-- ==== Sys2Proof/Machine/HubControl.lean ====
section
/-! DEFINITION. Hub control: cogs, the clock and locks (R230..R242). Clocks are the least the source gives. -/

namespace Sys2Proof.Machine

/-! ## Cogs -/

/-- The results of a COGINIT in the cog that executes it, and its end; one clock more when a result is awaited
(R230, R231). -/
def State.cogResult (s : State) (wz wc wr : Bool) (da : RegAddr) (r : Word) (z c : Bool) : Except Refusal State := do
  let g ← s.cog.result wr da r
  pure (s.withCog (((g.flagZ wz z).flagC wc c).retire (if wz || wc || wr then 2 else 1)))

/-- A state with some free values used. -/
def State.drawn (s : State) (n : Nat) : State := { s with draws := s.draws + n }

/-- COGINIT of "the next idle cog": any idle cog; D and C report it (R231, D21). -/
def State.startNext (s : State) (wz wc wr : Bool) (da : RegAddr) (base param : HubAddr) : Except Refusal State :=
  match s.idleCogs with
  | [] =>
    (s.drawn 1).cogResult wz wc wr da (Config.freeWord s.draws) (zeroFlag (Config.freeWord s.draws)) true
  | first :: rest => do
    let t ← (s.drawn 1).cogResult wz wc wr da (BitVec.ofNat 32 (choose s.draws first rest).val)
      ((choose s.draws first rest).val == 0) false
    pure (t.startCog (choose s.draws first rest) base param)

/-- COGINIT of cog `n`: D, C and Z are free where written; a loading cog is refused (R231, D21, D38). -/
def State.startGiven (s : State) (wz wc wr : Bool) (da : RegAddr) (n : Fin 8) (base param : HubAddr) :
    Except Refusal State :=
  match (s.cogs[n.val]).run with
  | .loading _ _ => .error .cogLoading
  | .idle | .running => do
    let t ← (s.drawn 2).cogResult wz wc wr da (Config.freeWord s.draws) (Config.freeBit s.draws)
      (Config.freeBit (s.draws + 1))
    pure (t.startCog n base param)

/-- The cog that a selector %0xxx names (R36). -/
def Cog.selected (c : Cog) : Fin 8 := ⟨(c.cogsel.extractLsb' 0 3).toNat, (c.cogsel.extractLsb' 0 3).isLt⟩

/-- The long address in D: bits 16..2, then 00 (R231). -/
def loadBase (d : Word) : HubAddr := d.extractLsb' 2 15 ++ 0#2

/-- COGINIT D,S (R231). A cog that restarts itself executes nothing more of its old program (R232). -/
def execCoginit (wz wc wr : Bool) (cc : CCCC) (d x : RegAddr) (s : State) : Out State :=
  s.chipInstr cc (some d) (some x) fun da sa t => do
    let dv ← t.cog.read da
    let sv ← t.cog.read sa
    if t.cog.cogsel.getLsbD 3 then t.startNext wz wc wr da (loadBase dv) (hubAddr sv)
    else t.startGiven wz wc wr da t.cog.selected (loadBase dv) (hubAddr sv)

/-- COGID D (R236). -/
def execCogid (cc : CCCC) (d : RegAddr) (s : State) : Out State :=
  s.instr cc (some d) none fun da _ v => do
    let c ← v.cog.write da (BitVec.ofNat 32 v.num.val)
    pure ((v.withCog c).retire 2)

/-- Stop cog `n`: it becomes idle and keeps its state; a cog that stops itself executes nothing more (R237). -/
def State.stopCog (s : State) (n : Fin 8) : Except Refusal State :=
  match (s.cogs[n.val]).run with
  | .loading _ _ => .error .cogLoading
  | .idle | .running =>
    .ok (if n = s.cur then s.withCog { s.cog with run := .idle }
      else (s.setCog n { s.cogs[n.val] with run := .idle }).withCog (s.cog.retire 1))

/-- COGSTOP D (R237). -/
def execCogstop (cc : CCCC) (d : RegAddr) (s : State) : Out State :=
  s.chipInstr cc (some d) none fun da _ t => do
    let dv ← t.cog.read da
    if h : dv.toNat < 8 then t.stopCog ⟨dv.toNat, h⟩ else .error .cogNumber

/-! ## The clock -/

/-- Whether a clock register value selects XTAL or PLL without its oscillator, or PLL with the PLL disabled (R235). -/
def clockRefused (m : BitVec 9) : Bool :=
  (m.getLsbD 1 && m.extractLsb' 2 2 == 0) || (m.extractLsb' 0 2 == 3 && m.extractLsb' 4 4 == 0)

/-- CLKSET D (R234, R235); with bit 8 set the chip is reset, whatever the mode (R530; log entry 11). -/
def execClkset (cc : CCCC) (d : RegAddr) (s : State) : Out State :=
  s.chipInstr cc (some d) none fun da _ t => do
    let dv ← t.cog.read da
    if dv.getLsbD 8 then pure t.chipReset
    else if clockRefused (dv.extractLsb' 0 9) then .error .clockMode
    else pure ({ t with hub := { t.hub with clkreg := dv.extractLsb' 0 9 } }.withCog (t.cog.retire 1))

/-! ## Locks -/

/-- The locks that are not checked out (R238). -/
def Hub.freeLocks (h : Hub) : List (Fin 8) := (List.finRange 8).filter fun n => !(h.locks[n.val]).out

/-- Set the state bit of a lock (R240, R241). -/
def Hub.setLock (h : Hub) (n : Fin 8) (b : Bool) : Hub :=
  { h with locks := h.locks.set n.val { h.locks[n.val] with set := b } }

/-- Check a lock out or in (R238, R239). -/
def Hub.checkLock (h : Hub) (n : Fin 8) (b : Bool) : Hub :=
  { h with locks := h.locks.set n.val { h.locks[n.val] with out := b } }

/-- LOCKNEW's result in D, Z and C, and its end (R238). -/
def View.newLock (v : View) (wz wc : Bool) (da : RegAddr) (r : Word) (busy : Bool) : Except Refusal View := do
  let c ← v.cog.write da r
  pure ({ v with cog := ((c.flagZ wz (zeroFlag r)).flagC wc busy).retire 2, draws := v.draws + 1 })

/-- LOCKNEW D: any lock that is free; when none is, D is free and C is 1 (R238, D10). -/
def execLocknew (wz wc : Bool) (cc : CCCC) (d : RegAddr) (s : State) : Out State :=
  s.instr cc (some d) none fun da _ v =>
    match v.hub.freeLocks with
    | [] => v.newLock wz wc da (Config.freeWord v.draws) true
    | first :: rest => do
      let w ← v.newLock wz wc da (BitVec.ofNat 32 (choose v.draws first rest).val) false
      pure { w with hub := w.hub.checkLock (choose v.draws first rest) true }

/-- A lock number in D; above 7 it is refused (R239, D11). -/
def Cog.lockOf (c : Cog) (da : RegAddr) : Except Refusal (Fin 8) := do
  let dv ← c.read da
  if h : dv.toNat < 8 then pure ⟨dv.toNat, h⟩ else .error .lockNumber

/-- LOCKRET D (R239). -/
def execLockret (cc : CCCC) (d : RegAddr) (s : State) : Out State :=
  s.instr cc (some d) none fun da _ v => do
    let n ← v.cog.lockOf da
    pure { v with hub := v.hub.checkLock n false, cog := v.cog.retire 1 }

/-- Set or clear a lock; its prior state is returned in C (R240, R241). -/
def View.writeLock (v : View) (wc : Bool) (da : RegAddr) (b : Bool) : Except Refusal View := do
  let n ← v.cog.lockOf da
  pure { v with hub := v.hub.setLock n b,
                cog := (v.cog.flagC wc (v.hub.locks[n.val]).set).retire (if wc then 2 else 1) }

/-- LOCKSET D (R240). -/
def execLockset (wc : Bool) (cc : CCCC) (d : RegAddr) (s : State) : Out State :=
  s.instr cc (some d) none fun da _ v => v.writeLock wc da true

/-- LOCKCLR D (R241). -/
def execLockclr (wc : Bool) (cc : CCCC) (d : RegAddr) (s : State) : Out State :=
  s.instr cc (some d) none fun da _ v => v.writeLock wc da false

end Sys2Proof.Machine
end

