-- ==== Sys2Proof/Machine/HubMem.lean ====
section
/-! DEFINITION. Hub memory instructions (R150..R167). Clocks are the least the source gives (R168). -/

namespace Sys2Proof.Machine

/-! ## Shared operations -/

/-- The zero-extended byte at a hub address (R156, D2). -/
def Hub.readByte (h : Hub) (a : HubAddr) : Word := (h.byte (aligned 1 a)).setWidth 32

/-- The zero-extended word that contains a hub address (R159, D2). -/
def Hub.readWord (h : Hub) (a : HubAddr) : Word := (h.word (aligned 2 a)).setWidth 32

/-- The long that contains a hub address (R162). -/
def Hub.readLong (h : Hub) (a : HubAddr) : Word := h.long (aligned 4 a)

/-- The long of the cache line that holds an address: QUAD[A[3:2]] (R163). -/
def quadLong (q : Vector Word 4) (a : HubAddr) : Word := q[(a.extractLsb' 2 2).toNat]'(a.extractLsb' 2 2).isLt

/-- The word of the cache line that holds an address (R160). -/
def quadWord (q : Vector Word 4) (a : HubAddr) : Word :=
  ((quadLong q a >>> (16 * (a.extractLsb' 1 1).toNat)).setWidth 16).setWidth 32

/-- The byte of the cache line that holds an address (R157). -/
def quadByte (q : Vector Word 4) (a : HubAddr) : Word :=
  ((quadLong q a >>> (8 * (a.extractLsb' 0 2).toNat)).setWidth 8).setWidth 32

/-- A hub write of `scale` bytes taken from D (R155, R158, R161). -/
def View.hubStore (v : View) (da : RegAddr) (x : HubOp) (sa : RegAddr) (scale : Nat) (bytes : Word → List Byte) :
    Except Refusal View := do
  let d ← v.cog.read da
  let p ← v.cog.hubOperand x sa scale
  pure ({ v with hub := v.hub.setBytes (aligned scale p.1) (bytes d), cog := p.2.retire 1 })

/-- An uncached hub read into D (R156, R159, R162). -/
def View.hubLoad (v : View) (wz : Bool) (da : RegAddr) (x : HubOp) (sa : RegAddr) (scale : Nat)
    (value : Hub → HubAddr → Word) : Except Refusal View := do
  let p ← v.cog.hubOperand x sa scale
  let c ← p.2.write da (value v.hub p.1)
  pure ((v.withCog (c.flagZ wz (zeroFlag (value v.hub p.1)))).retire 3)

/-- The end of a cached read: after a miss the QUADs have just been filled (R167). -/
def View.endCached (v : View) (hit : Bool) (clk : Nat) : View :=
  if hit then v.retire 1 else v.withCog (v.cog.retire clk).markFill

/-- A cached hub read into D (R157, R160, R163); bit 24 selects the operation, so C is free (R114). -/
def View.cachedLoad (v : View) (wz : Bool) (da : RegAddr) (x : HubOp) (sa : RegAddr) (scale : Nat)
    (value : Vector Word 4 → HubAddr → Word) : Except Refusal View := do
  let p ← v.cog.hubOperand x sa scale
  let w := (v.withCog p.2).cacheLookup p.1
  let c ← w.cog.write da (value w.cog.quad p.1)
  pure ((w.withCog (c.flagZ wz (zeroFlag (value w.cog.quad p.1)))).drawC.endCached (p.2.cacheHit p.1) 3)

/-! ## Byte, word and long instructions -/

/-- WRBYTE D,S / WRBYTE D,PTR (R155). -/
def execWrbyte (cc : CCCC) (d : RegAddr) (x : HubOp) (s : State) : Out State :=
  s.instr cc (some d) x.regField fun da sa v => v.hubStore da x sa 1 fun w => [w.extractLsb' 0 8]

/-- RDBYTE D,S / RDBYTE D,PTR (R156). -/
def execRdbyte (wz : Bool) (cc : CCCC) (d : RegAddr) (x : HubOp) (s : State) : Out State :=
  s.instr cc (some d) x.regField fun da sa v => v.hubLoad wz da x sa 1 Hub.readByte

/-- RDBYTEC D,S / RDBYTEC D,PTR (R157). -/
def execRdbytec (wz : Bool) (cc : CCCC) (d : RegAddr) (x : HubOp) (s : State) : Out State :=
  s.instr cc (some d) x.regField fun da sa v => v.cachedLoad wz da x sa 1 quadByte

/-- WRWORD D,S / WRWORD D,PTR (R158). -/
def execWrword (cc : CCCC) (d : RegAddr) (x : HubOp) (s : State) : Out State :=
  s.instr cc (some d) x.regField fun da sa v => v.hubStore da x sa 2 fun w => wordBytes (w.extractLsb' 0 16)

/-- RDWORD D,S / RDWORD D,PTR (R159). -/
def execRdword (wz : Bool) (cc : CCCC) (d : RegAddr) (x : HubOp) (s : State) : Out State :=
  s.instr cc (some d) x.regField fun da sa v => v.hubLoad wz da x sa 2 Hub.readWord

/-- RDWORDC D,S / RDWORDC D,PTR (R160). -/
def execRdwordc (wz : Bool) (cc : CCCC) (d : RegAddr) (x : HubOp) (s : State) : Out State :=
  s.instr cc (some d) x.regField fun da sa v => v.cachedLoad wz da x sa 2 quadWord

/-- WRLONG D,S / WRLONG D,PTR (R161). -/
def execWrlong (cc : CCCC) (d : RegAddr) (x : HubOp) (s : State) : Out State :=
  s.instr cc (some d) x.regField fun da sa v => v.hubStore da x sa 4 longBytes

/-- RDLONG D,S / RDLONG D,PTR (R162). -/
def execRdlong (wz : Bool) (cc : CCCC) (d : RegAddr) (x : HubOp) (s : State) : Out State :=
  s.instr cc (some d) x.regField fun da sa v => v.hubLoad wz da x sa 4 Hub.readLong

/-- RDLONGC D,S / RDLONGC D,PTR (R163). -/
def execRdlongc (wz : Bool) (cc : CCCC) (d : RegAddr) (x : HubOp) (s : State) : Out State :=
  s.instr cc (some d) x.regField fun da sa v => v.cachedLoad wz da x sa 4 quadLong

/-! ## Quad instructions -/

/-- WRQUAD D / WRQUAD PTR: the four QUADs, mapped or hidden, in one action (R164). -/
def execWrquad (cc : CCCC) (x : HubOp) (s : State) : Out State :=
  s.fieldInstr cc (!x.sel) x.field fun da v => do
    let p ← v.cog.hubOperand x da 16
    pure ({ v with hub := v.hub.setBytes (aligned 16 p.1) (quadBytes p.2.quad), cog := p.2.retire 1 })

/-- RDQUAD D / RDQUAD PTR (R165). -/
def execRdquad (cc : CCCC) (x : HubOp) (s : State) : Out State :=
  s.fieldInstr cc (!x.sel) x.field fun da v => do
    let p ← v.cog.hubOperand x da 16
    pure (((v.withCog p.2).fillQuads p.1).endCached false 1)

/-- RDQUADC D / RDQUADC PTR (R166); bit 24 selects the operation, so C is free (R114). -/
def execRdquadc (cc : CCCC) (x : HubOp) (s : State) : Out State :=
  s.fieldInstr cc (!x.sel) x.field fun da v => do
    let p ← v.cog.hubOperand x da 16
    pure (((v.withCog p.2).cacheLookup p.1).drawC.endCached (p.2.cacheHit p.1) 1)

end Sys2Proof.Machine
end

