-- ==== Sys2Proof/Machine/Indirect.lean ====
section
/-! DEFINITION. Setting the indirect pointers (R267..R272), MOV and ADD (R273, R274); each takes one clock. -/

namespace Sys2Proof.Machine

/-- An indirect register after a SETINDx: the limits become $000 and $1FF (R267). -/
def Ind.set (i : Ind) (x : IndOp) : Ind :=
  { ptr := match x with
      | .addr a => a
      | .delta n => i.ptr + n,
    bot := 0, top := 0x1FF, isSet := true, age := 0 }

/-- An indirect register after a FIXINDx: the limits are the lower and the higher of the two values (R270). -/
def Ind.fix (terminal initial : BitVec 9) : Ind :=
  { ptr := initial,
    bot := if initial.toNat ≤ terminal.toNat then initial else terminal,
    top := if initial.toNat ≤ terminal.toNat then terminal else initial,
    isSet := true, age := 0 }

/-- The end of a SETINDx or FIXINDx: no other instruction has passed since (R545). -/
def View.setInds (v : View) (a b : Option Ind) : View :=
  v.withCog { v.cog.retire 1 with
    inda := a.getD (v.cog.retire 1).inda, indb := b.getD (v.cog.retire 1).indb }

/-- SETINDA #addrA / SETINDA ++deltA (R267); it always executes (R123). -/
def execSetinda (a : IndOp) (s : State) : Out State :=
  s.instr 0b1111 none none fun _ _ v => .ok (v.setInds (some (v.cog.inda.set a)) none)

/-- SETINDB #addrB / SETINDB ++deltB (R268). -/
def execSetindb (b : IndOp) (s : State) : Out State :=
  s.instr 0b1111 none none fun _ _ v => .ok (v.setInds none (some (v.cog.indb.set b)))

/-- SETINDS (R269). -/
def execSetinds (b a : IndOp) (s : State) : Out State :=
  s.instr 0b1111 none none fun _ _ v => .ok (v.setInds (some (v.cog.inda.set a)) (some (v.cog.indb.set b)))

/-- FIXINDA #terminal,#initial (R270). -/
def execFixinda (terminal initial : RegAddr) (s : State) : Out State :=
  s.instr 0b1111 none none fun _ _ v => .ok (v.setInds (some (.fix terminal initial)) none)

/-- FIXINDB #terminal,#initial (R271). -/
def execFixindb (terminal initial : RegAddr) (s : State) : Out State :=
  s.instr 0b1111 none none fun _ _ v => .ok (v.setInds none (some (.fix terminal initial)))

/-- FIXINDS #terminal,#initial (R272). -/
def execFixinds (terminal initial : RegAddr) (s : State) : Out State :=
  s.instr 0b1111 none none fun _ _ v =>
    .ok (v.setInds (some (.fix terminal initial)) (some (.fix terminal initial)))

/-- MOV D,S/#n (R273). -/
def execMov (cc : CCCC) (d : RegAddr) (x : RegOrImm) (s : State) : Out State :=
  s.instr cc (some d) x.regField fun da sa v => do
    let sv ← v.cog.operand x sa
    let c ← v.cog.write da sv
    pure ((v.withCog c).retire 1)

/-- ADD D,S/#n, modulo 2^32 (R274). -/
def execAdd (cc : CCCC) (d : RegAddr) (x : RegOrImm) (s : State) : Out State :=
  s.instr cc (some d) x.regField fun da sa v => do
    let dv ← v.cog.read da
    let sv ← v.cog.operand x sa
    let c ← v.cog.write da (dv + sv)
    pure ((v.withCog c).retire 1)

end Sys2Proof.Machine
end

