-- ==== Sys2Proof/Machine/PtrQuad.lean ====
section
/-! DEFINITION. PTRA, PTRB and QUAD instructions (R200..R213); each takes one clock. -/

namespace Sys2Proof.Machine

/-! ## Shared operations -/

/-- Get PTRA or PTRB into D (R200). -/
def View.getPtr (v : View) (useB wz wc wr : Bool) (da : RegAddr) : Except Refusal View := do
  let c ← v.cog.result wr da ((v.cog.ptr useB).setWidth 32)
  pure ((v.withCog ((c.flagZ wz (zeroFlag ((v.cog.ptr useB).setWidth 32))).flagC wc
    ((v.cog.ptr useB).getLsbD 16))).retire 1)

/-- Change PTRA or PTRB by an operand, modulo 2^17 (R202, R204, R206, D27). -/
def View.changePtr (v : View) (useB : Bool) (x : RegOrImm) (da : RegAddr) (f : HubAddr → HubAddr → HubAddr) :
    Except Refusal View := do
  let d ← v.cog.operand x da
  pure ((v.withCog (v.cog.setPtr useB (f (v.cog.ptr useB) (hubAddr d)))).retire 1)

/-- Whether the spec allows a QUAD base: $000..$1F2, or $1FF to hide (R212, D25). -/
def quadBaseOk (b : RegAddr) : Bool := decide (b.toNat ≤ 0x1F2) || b == 0x1FF

/-- Set the QUAD base from the low nine bits of an operand, clearing the QUADs if asked (R212, R213). -/
def View.mapQuads (v : View) (x : RegOrImm) (da : RegAddr) (clear : Bool) : Except Refusal View := do
  let d ← v.cog.operand x da
  if quadBaseOk (d.extractLsb' 0 9) then
    pure (v.withCog ({ v.cog with
      qbase := d.extractLsb' 0 9, quad := if clear then Vector.replicate 4 0 else v.cog.quad }.retire 1).markMap)
  else .error .quadBase

/-- The top bytes of the QUADs, QUAD[0] lowest (R211, D8). -/
def topBytes (q : Vector Word 4) : Word :=
  q[3].extractLsb' 24 8 ++ q[2].extractLsb' 24 8 ++ q[1].extractLsb' 24 8 ++ q[0].extractLsb' 24 8

/-! ## The instructions -/

/-- GETPTRA D (R200). -/
def execGetptra (wz wc wr : Bool) (cc : CCCC) (d : RegAddr) (s : State) : Out State :=
  s.instr cc (some d) none fun da _ v => v.getPtr false wz wc wr da

/-- GETPTRB D (R201). -/
def execGetptrb (wz wc wr : Bool) (cc : CCCC) (d : RegAddr) (s : State) : Out State :=
  s.instr cc (some d) none fun da _ v => v.getPtr true wz wc wr da

/-- SETPTRA D / SETPTRA #n (R202). -/
def execSetptra (cc : CCCC) (x : RegOrImm) (s : State) : Out State :=
  s.fieldInstr cc (!x.sel) x.field fun da v => v.changePtr false x da (fun _ n => n)

/-- SETPTRB D / SETPTRB #n (R203). -/
def execSetptrb (cc : CCCC) (x : RegOrImm) (s : State) : Out State :=
  s.fieldInstr cc (!x.sel) x.field fun da v => v.changePtr true x da (fun _ n => n)

/-- ADDPTRA D / ADDPTRA #n (R204). -/
def execAddptra (cc : CCCC) (x : RegOrImm) (s : State) : Out State :=
  s.fieldInstr cc (!x.sel) x.field fun da v => v.changePtr false x da (fun p n => p + n)

/-- ADDPTRB D / ADDPTRB #n (R205). -/
def execAddptrb (cc : CCCC) (x : RegOrImm) (s : State) : Out State :=
  s.fieldInstr cc (!x.sel) x.field fun da v => v.changePtr true x da (fun p n => p + n)

/-- SUBPTRA D / SUBPTRA #n (R206). -/
def execSubptra (cc : CCCC) (x : RegOrImm) (s : State) : Out State :=
  s.fieldInstr cc (!x.sel) x.field fun da v => v.changePtr false x da (fun p n => p - n)

/-- SUBPTRB D / SUBPTRB #n (R207). -/
def execSubptrb (cc : CCCC) (x : RegOrImm) (s : State) : Out State :=
  s.fieldInstr cc (!x.sel) x.field fun da v => v.changePtr true x da (fun p n => p - n)

/-- CACHEX (R210). -/
def execCachex (cc : CCCC) (s : State) : Out State :=
  s.instr cc none none fun _ _ v => .ok ((v.withCog { v.cog with cacheValid := false }).retire 1)

/-- GETTOPS D (R211). -/
def execGettops (wz : Bool) (cc : CCCC) (d : RegAddr) (s : State) : Out State :=
  s.instr cc (some d) none fun da _ v => do
    let c ← v.cog.write da (topBytes v.cog.quad)
    pure ((v.withCog (c.flagZ wz (zeroFlag (topBytes v.cog.quad)))).retire 1)

/-- SETQUAD D / SETQUAD #n (R212). -/
def execSetquad (cc : CCCC) (x : RegOrImm) (s : State) : Out State :=
  s.fieldInstr cc (!x.sel) x.field fun da v => v.mapQuads x da false

/-- SETQUAZ D / SETQUAZ #n (R213); bit 24 selects the operation, so C is free (R114). -/
def execSetquaz (cc : CCCC) (x : RegOrImm) (s : State) : Out State :=
  s.fieldInstr cc (!x.sel) x.field fun da v => (v.mapQuads x da true).map View.drawC

end Sys2Proof.Machine
end

