-- ==== Sys2Proof/Machine/Dispatch.lean ====
section
/-! DEFINITION. The meaning of every instruction of the opcode table, one arm each. -/

namespace Sys2Proof.Machine

def exec (i : Instr) (s : State) : Host.Outcome State Fault Refusal :=
  match i with
  | .wrbyte cc d x => Sys2Proof.Machine.execWrbyte cc d x s
  | .rdbyte wz cc d x => Sys2Proof.Machine.execRdbyte wz cc d x s
  | .rdbytec wz cc d x => Sys2Proof.Machine.execRdbytec wz cc d x s
  | .wrword cc d x => Sys2Proof.Machine.execWrword cc d x s
  | .rdword wz cc d x => Sys2Proof.Machine.execRdword wz cc d x s
  | .rdwordc wz cc d x => Sys2Proof.Machine.execRdwordc wz cc d x s
  | .wrlong cc d x => Sys2Proof.Machine.execWrlong cc d x s
  | .rdlong wz cc d x => Sys2Proof.Machine.execRdlong wz cc d x s
  | .rdlongc wz cc d x => Sys2Proof.Machine.execRdlongc wz cc d x s
  | .wrquad cc x => Sys2Proof.Machine.execWrquad cc x s
  | .rdquad cc x => Sys2Proof.Machine.execRdquad cc x s
  | .rdquadc cc x => Sys2Proof.Machine.execRdquadc cc x s
  | .getptra wz wc wr cc d => Sys2Proof.Machine.execGetptra wz wc wr cc d s
  | .getptrb wz wc wr cc d => Sys2Proof.Machine.execGetptrb wz wc wr cc d s
  | .setptra cc x => Sys2Proof.Machine.execSetptra cc x s
  | .setptrb cc x => Sys2Proof.Machine.execSetptrb cc x s
  | .addptra cc x => Sys2Proof.Machine.execAddptra cc x s
  | .addptrb cc x => Sys2Proof.Machine.execAddptrb cc x s
  | .subptra cc x => Sys2Proof.Machine.execSubptra cc x s
  | .subptrb cc x => Sys2Proof.Machine.execSubptrb cc x s
  | .cachex cc => Sys2Proof.Machine.execCachex cc s
  | .gettops wz cc d => Sys2Proof.Machine.execGettops wz cc d s
  | .setquad cc x => Sys2Proof.Machine.execSetquad cc x s
  | .setquaz cc x => Sys2Proof.Machine.execSetquaz cc x s
  | .coginit wz wc wr cc d x => Sys2Proof.Machine.execCoginit wz wc wr cc d x s
  | .clkset cc d => Sys2Proof.Machine.execClkset cc d s
  | .cogid cc d => Sys2Proof.Machine.execCogid cc d s
  | .cogstop cc d => Sys2Proof.Machine.execCogstop cc d s
  | .locknew wz wc cc d => Sys2Proof.Machine.execLocknew wz wc cc d s
  | .lockret cc d => Sys2Proof.Machine.execLockret cc d s
  | .lockset wc cc d => Sys2Proof.Machine.execLockset wc cc d s
  | .lockclr wc cc d => Sys2Proof.Machine.execLockclr wc cc d s
  | .setinda a => Sys2Proof.Machine.execSetinda a s
  | .setindb b => Sys2Proof.Machine.execSetindb b s
  | .setinds b a => Sys2Proof.Machine.execSetinds b a s
  | .fixinda terminal initial => Sys2Proof.Machine.execFixinda terminal initial s
  | .fixindb terminal initial => Sys2Proof.Machine.execFixindb terminal initial s
  | .fixinds terminal initial => Sys2Proof.Machine.execFixinds terminal initial s
  | .mov cc d x => Sys2Proof.Machine.execMov cc d x s
  | .add cc d x => Sys2Proof.Machine.execAdd cc d x s
  | .cmpcnt wz wc cc d => Sys2Proof.Machine.execCmpcnt wz wc cc d s
  | .subcnt wz wc cc d => Sys2Proof.Machine.execSubcnt wz wc cc d s
  | .passcnt cc d => Sys2Proof.Machine.execPasscnt cc d s
  | .getcnt cc d => Sys2Proof.Machine.execGetcnt cc d s
  | .waitcnt wc wr cc d x => Sys2Proof.Machine.execWaitcnt wc wr cc d x s
  | .waitpeq cc d x => Sys2Proof.Machine.execWaitpeq cc d x s
  | .waitpne cc d x => Sys2Proof.Machine.execWaitpne cc d x s
  | .jmpretS wz wc cc d x => Sys2Proof.Machine.execJmpretS wz wc cc d x s
  | .jmpretN wz wc cc d n => Sys2Proof.Machine.execJmpretN wz wc cc d n s
  | .jmpretSNR wz wc cc d x => Sys2Proof.Machine.execJmpretSNR wz wc cc d x s
  | .jmpretNNR wz wc cc d n => Sys2Proof.Machine.execJmpretNNR wz wc cc d n s
  | .jmpS wz wc cc x => Sys2Proof.Machine.execJmpS wz wc cc x s
  | .jmpN wz wc cc n => Sys2Proof.Machine.execJmpN wz wc cc n s
  | .ret wz wc cc => Sys2Proof.Machine.execRet wz wc cc s
  | .call wz wc cc d n => Sys2Proof.Machine.execCall wz wc cc d n s
  | .tasksw => Sys2Proof.Machine.execTasksw s
  | .jmpretdS wz wc cc d x => Sys2Proof.Machine.execJmpretdS wz wc cc d x s
  | .jmpretdN wz wc cc d n => Sys2Proof.Machine.execJmpretdN wz wc cc d n s
  | .jmpretdSNR wz wc cc d x => Sys2Proof.Machine.execJmpretdSNR wz wc cc d x s
  | .jmpretdNNR wz wc cc d n => Sys2Proof.Machine.execJmpretdNNR wz wc cc d n s
  | .jmpdS wz wc cc x => Sys2Proof.Machine.execJmpdS wz wc cc x s
  | .jmpdN wz wc cc n => Sys2Proof.Machine.execJmpdN wz wc cc n s
  | .retd wz wc cc => Sys2Proof.Machine.execRetd wz wc cc s
  | .calld wz wc cc d n => Sys2Proof.Machine.execCalld wz wc cc d n s
  | .taskswd => Sys2Proof.Machine.execTaskswd s
  | .ijz wr cc d x => Sys2Proof.Machine.execIjz wr cc d x s
  | .ijnz wr cc d x => Sys2Proof.Machine.execIjnz wr cc d x s
  | .djz wr cc d x => Sys2Proof.Machine.execDjz wr cc d x s
  | .djnz wr cc d x => Sys2Proof.Machine.execDjnz wr cc d x s
  | .ijzd wr cc d x => Sys2Proof.Machine.execIjzd wr cc d x s
  | .ijnzd wr cc d x => Sys2Proof.Machine.execIjnzd wr cc d x s
  | .djzd wr cc d x => Sys2Proof.Machine.execDjzd wr cc d x s
  | .djnzd wr cc d x => Sys2Proof.Machine.execDjnzd wr cc d x s
  | .tjz cc d x => Sys2Proof.Machine.execTjz cc d x s
  | .tjnz cc d x => Sys2Proof.Machine.execTjnz cc d x s
  | .jp cc d x => Sys2Proof.Machine.execJp cc d x s
  | .jnp cc d x => Sys2Proof.Machine.execJnp cc d x s
  | .tjzd cc d x => Sys2Proof.Machine.execTjzd cc d x s
  | .tjnzd cc d x => Sys2Proof.Machine.execTjnzd cc d x s
  | .jpd cc d x => Sys2Proof.Machine.execJpd cc d x s
  | .jnpd cc d x => Sys2Proof.Machine.execJnpd cc d x s

end Sys2Proof.Machine
end

