-- ==== Sys2Proof/Machine/Step.lean ====
section
/-! DEFINITION. The step of the chip: the cog whose turn it is moves, then time passes. -/

namespace Sys2Proof.Machine

/-- What a fetched word does: the meaning of its instruction, or of a word in no row (R126..R128). -/
def State.execWord (s : State) (w : Word) : Host.Outcome State Fault Refusal :=
  match decode w with
  | .error why => s.unlisted w why
  | .ok i => exec i s

/-- One step: an idle cog does nothing (R237), a loading cog takes its next long (R232), a running cog fetches,
decodes and executes one instruction (R126). -/
def step (s : State) : Host.Outcome State Fault Refusal :=
  match s.cog.run with
  | .idle => .next s.elapse
  | .loading base k => .next (s.withCog (s.cog.loadLong s.hub base k)).elapse
  | .running =>
    match s.cog.fetch with
    | .error r => .refused r
    | .ok w =>
      match s.execWord w with
      | .next t => .next t.elapse
      | .fault f => .fault f
      | .refused r => .refused r

/-- The moving cog with a word where it fetches next: it is running, its pc addresses plain register RAM, the register
and a QUAD mapped there hold the word, and no hazard forbids the fetch (R27, R31, R541, R542, R549). -/
def Cog.withFetchWord (c : Cog) (w : Word) : Cog :=
  let p : RegAddr := if specialBase ≤ c.pc.toNat then 0 else c.pc
  { c with
    run := .running, pc := p, ram := Cells.write c.ram p.toNat w, quad := c.quadWrite p w,
    haz := { c.haz with
      recent := if c.haz.recent.contains (some p) then [] else c.haz.recent,
      fillReady := if (c.quadAt p).isSome then true else c.haz.fillReady,
      mapAge := if (c.quadAt p).isSome then 4 else c.haz.mapAge } }

/-- The state with an instruction of `nbits` bits stored where the next step fetches (log entry 1): every instruction
is one 32-bit long (R110), and bits above it do not exist. -/
def State.withFetchWord (s : State) (nbits w : Nat) : State :=
  s.withCog (s.cog.withFetchWord (BitVec.ofNat 32 (if nbits ≤ 32 then w % 2 ^ nbits else w)))

end Sys2Proof.Machine
end

