-- ==== Sys2Proof/Safety.lean ====
section
/-! DEFINITION. What a well-formed state of the chip is, what a run that stays within the spec is, and the words in
which the statements say what an instruction changes and that it changes nothing else. -/

namespace Sys2Proof.Machine

/-- A cog's memories are in canonical form: register RAM lists addresses below 512, stack RAM below 256 (R26, R37). -/
def Cog.cellsOk (c : Cog) : Bool := Cells.wfFrom 512 0 c.ram && Cells.wfFrom 256 0 c.stack

/-- The QUAD base is one SETQUAD may set: the window lies in plain register RAM, or is hidden (R30, D25). -/
def Cog.quadOk (c : Cog) : Bool := decide (c.qbase.toNat ≤ 0x1F2) || c.qbase == 0x1FF

/-- A pending delayed branch has one, two or three trailing instructions left (R321). -/
def Cog.pendOk (c : Cog) : Bool :=
  match c.pend with
  | none => true
  | some p => decide (1 ≤ p.left) && decide (p.left ≤ 3)

/-- A loading cog has a long-aligned base and a next long among the 504 (R232). -/
def Cog.loadOk (c : Cog) : Bool :=
  match c.run with
  | .loading base k => base.extractLsb' 0 2 == 0 && decide (k < Config.loadLongs)
  | .idle | .running => true

/-- What holds of every cog between steps. -/
def Cog.ok (c : Cog) : Bool := c.cellsOk && c.quadOk && c.pendOk && c.loadOk

/-- What holds of the chip between steps: hub RAM in canonical form, and every cog in order. -/
def State.ok (s : State) : Bool := Memory.wf s.hub.mem && (List.finRange 8).all fun n => (s.cogs[n.val]).ok

/-- A run of `n` steps stays within what the spec describes: no step is refused. -/
def runsFor (n : Nat) (s : State) : Bool :=
  match Sys2Proof.core.run n s with
  | .next _ => true
  | .fault _ | .refused _ => false

/-! ## What an instruction changes -/

/-- Cog `g` with the pipeline bookkeeping of `p`: the next address, the pending branch, the hazard record, how long ago
the indirect pointers were set, and the CNT sequence. -/
def Cog.withPipe (g p : Cog) : Cog :=
  { g with pc := p.pc, pend := p.pend, haz := p.haz, cntSeq := p.cntSeq,
           inda := { g.inda with age := p.inda.age }, indb := { g.indb with age := p.indb.age } }

/-- From `s` to `t` nothing has changed but this: the hub has become `h` and the moving cog `g`, up to the pipeline
bookkeeping and the number of free values used. -/
def State.EndsAs (s t : State) (h : Hub) (g : Cog) : Prop :=
  t = { s with hub := h, cogs := s.cogs.set s.cur.val (g.withPipe t.cog), draws := t.draws }

/-- The moving cog goes on to the next address, or to the target of a delayed branch whose last trailing instruction
this was (R28, R321). -/
def State.GoesOn (s t : State) : Prop :=
  match s.cog.pend with
  | none => t.cog.pc = s.cog.pc + 1 ∧ t.cog.pend = none
  | some p =>
    if p.left ≤ 1 then t.cog.pc = p.tgt ∧ t.cog.pend = none
    else t.cog.pc = s.cog.pc + 1 ∧ t.cog.pend = some ⟨p.tgt, p.left - 1⟩

/-- From cog `c` to cog `g`, the register at `da` has taken the value `v` and no other has changed: as registers are
read, in the register RAM, and in the QUADs, of which only one mapped at `da` takes the value (R31, R32). -/
def Cog.Wrote (c g : Cog) (da : RegAddr) (v : Word) : Prop :=
  (∀ a, g.x a = if a = da then v else c.x a)
    ∧ (∀ n, Cells.read g.ram n = if n = da.toNat then v else Cells.read c.ram n)
    ∧ (∀ k : Fin 4, g.quad[k.val] = if c.quadAt da = some k then v else c.quad[k.val])
    ∧ g.lastStored = v

/-- The same for a result that is written only when `wr` is set. -/
def Cog.WroteIf (c g : Cog) (wr : Bool) (da : RegAddr) (v : Word) : Prop :=
  if wr then c.Wrote g da v else g.ram = c.ram ∧ g.quad = c.quad ∧ g.lastStored = c.lastStored

/-- Cog `c` with the registers of `p`: register RAM, QUADs and the last-stored value. -/
def Cog.withRegs (c p : Cog) : Cog := { c with ram := p.ram, quad := p.quad, lastStored := p.lastStored }

/-- An instruction that is no branch has ended: nothing has changed but the moving cog, which is `g`, and it goes on. -/
def State.Finishes (s t : State) (g : Cog) : Prop := s.EndsAs t s.hub g ∧ s.GoesOn t

/-- The same for an instruction that stores `n` bytes at `start`, byte `j` of them being `v j`: every other byte of hub
memory, and every byte of ROM, reads as before (R79). -/
def State.Stores (s t : State) (g : Cog) (start n : Nat) (v : Nat → Byte) : Prop :=
  s.EndsAs t { s.hub with mem := t.hub.mem } g ∧ s.GoesOn t
    ∧ ∀ b, t.hub.byte b = if start ≤ b ∧ b < start + n ∧ Config.ramBase ≤ b then v (b - start) else s.hub.byte b

/-- A branch of the moving cog was taken: at once, or after three more instructions (R320, R321). -/
def State.Jumps (s t : State) (delayed : Bool) (tgt : RegAddr) : Prop :=
  if delayed then t.cog.pc = s.cog.pc + 1 ∧ t.cog.pend = some ⟨tgt, 3⟩
  else t.cog.pc = tgt ∧ t.cog.pend = s.cog.pend

/-- Byte `j` of a long, the lowest first (R73). -/
def byteOf (v : Word) (j : Nat) : Byte := (v >>> (8 * j)).setWidth 8

/-- A register address an instruction may write: below $1F6 (R27). -/
def plainReg (a : RegAddr) : Prop := a.toNat < specialBase

/-- A D field that is no register is not $1F6 or $1F7 (R121). -/
def fieldOk (isReg : Bool) (f : BitVec 9) : Prop := isReg = false → isIndAddr f = false

end Sys2Proof.Machine
end

