-- ==== Sys2Proof/Certificates/Slice0/Obligations.lean ====
section
/-! DEFINITION. The statements for the provers. Where a statement is about an instruction, `resolve` says what its
register fields and CCCC come to (statements of their own say what that is), so every operand form is covered: `da`
and `sa` are the register addresses after indirection, `c` the moving cog with its indirect pointers stepped. -/

open Sys2Proof Sys2Proof.Machine

/-! ## The machine -/

/-- Whether a word's CCCC is a condition that never holds: CCCC is 0000, T is neither 111000 nor 111001, and no field
that may name a register is $1F6 or $1F7 (R122, R123, R128). -/
def Sys2Proof.Statement.never (w : Word) : Prop :=
  w.extractLsb' 18 4 = 0 ∧ w.extractLsb' 26 6 ≠ 0b111000 ∧ w.extractLsb' 26 6 ≠ 0b111001
    ∧ w.extractLsb' 9 9 ≠ 0x1F6 ∧ w.extractLsb' 9 9 ≠ 0x1F7
    ∧ (w.getLsbD 22 = true ∨ (w.extractLsb' 0 9 ≠ 0x1F6 ∧ w.extractLsb' 0 9 ≠ 0x1F7))

/-- When the word at the program counter decodes, a step of a running cog is that instruction's meaning, and then time
passes; a refusal of the instruction, or of the fetch, is a refusal of the step (R126). A word in no row is passed over
when its CCCC never holds, and else refused (R127, R128). The refusal is the spec's decision D13, that nothing happens in
the other case its decision D26. That one cog moves in a step, that a refusal stops the chip, and which fields of a word
in no row may name a register, is the model's choice (log entries 7, 31 and 35). -/
def Obligations.StepRunsDecoded : Prop :=
  ∀ s : State, s.cog.run = .running →
    (∀ (w : Word) (i : Instr), s.cog.fetch = .ok w → decode w = .ok i →
      step s = match exec i s with
        | .next t => .next t.elapse
        | .fault f => .fault f
        | .refused r => .refused r)
    ∧ (∀ r, s.cog.fetch = .error r → step s = .refused r)
    ∧ ∀ (w : Word) (why : Reject), s.cog.fetch = .ok w → decode w = .error why →
      (Statement.never w → ∃ t, step s = .next t.elapse ∧ s.Finishes t s.cog)
      ∧ (¬ Statement.never w → step s = .refused (.unlistedWord why))

/-- The pipeline record `k` that an instruction of one clock leaves of the record `h`, having written register `w` or
none: what was written by the last three, clocks since a QUAD fill, instructions since SETQUAD. -/
def Sys2Proof.Statement.onRecord (h k : Hazard) (w : Option RegAddr) : Prop :=
  k.recent = w :: h.recent.take 2 ∧ k.fillClocks = min 3 (h.fillClocks + 1)
    ∧ k.fillReady = (h.fillReady || decide (3 ≤ h.fillClocks)) ∧ k.mapAge = min 4 (h.mapAge + 1)

/-- A fetch gives the register at pc, through the QUAD overlay, when pc is below $1F6, none of the last three
instructions wrote it without a taken normal branch between, and a QUAD mapped there may be executed: three clocks and
one instruction after a fill, four instructions after SETQUAD; else it is refused (R27, R31, R541, R542, R549). What was
written goes on record (MOV, and CACHEX that writes nothing), and a taken normal branch (JMP) clears the record. The
refusals are the spec's decisions D17, D32 and D37 (log entry 13). -/
def Obligations.FetchReadsPc : Prop :=
  (∀ c : Cog,
    let ready : Prop := c.haz.fillReady = true ∧ 4 ≤ c.haz.mapAge
    (c.pc.toNat < 0x1F6 → some c.pc ∉ c.haz.recent → (c.quadAt c.pc = none ∨ ready) → c.fetch = .ok (c.x c.pc))
    ∧ (0x1F6 ≤ c.pc.toNat → c.fetch = .error .specialFetch)
    ∧ (c.pc.toNat < 0x1F6 → some c.pc ∈ c.haz.recent → c.fetch = .error .staleFetch)
    ∧ (c.pc.toNat < 0x1F6 → some c.pc ∉ c.haz.recent → c.quadAt c.pc ≠ none → ¬ ready →
      c.fetch = .error .quadFetchTooSoon))
  ∧ (∀ (cc : CCCC) (d : RegAddr) (x : RegOrImm) (s : State) (da sa : RegAddr) (c : Cog) (v : Word),
      s.cog.resolve cc (some d) x.regField = .ok (.go da sa c) → plainReg da → c.operand x sa = .ok v →
      ∃ t, exec (.mov cc d x) s = .next t ∧ Statement.onRecord s.cog.haz t.cog.haz (some da))
  ∧ (∀ (cc : CCCC) (s : State), s.cog.haz.fresh = none → condHolds cc s.cog.z s.cog.c = true →
      ∃ t, exec (.cachex cc) s = .next t ∧ Statement.onRecord s.cog.haz t.cog.haz none)
  ∧ ∀ (wz wc : Bool) (n : BitVec 9) (s : State), s.cog.pend = none →
      ∃ t, exec (.jmpN wz wc 0b1111 n) s = .next t ∧ t.cog.haz.recent = []

/-- An idle cog executes nothing: its step only lets time pass (R237). A turn of a loading cog moves one long from hub
memory, at the base plus four times the register number modulo 2^17, into its register; after register $1F7 the cog
runs from $000 (R232). One long a turn, in ascending order, is the model's choice (log entry 9). -/
def Obligations.IdleAndLoadingTurns : Prop :=
  (∀ s : State, s.cog.run = .idle → step s = .next s.elapse)
  ∧ ∀ (s : State) (base : HubAddr) (k : Nat), s.ok = true → s.cog.run = .loading base k →
    ∃ t, step s = .next t.elapse ∧ t.hub = s.hub
      ∧ (∀ n, Cells.read t.cog.ram n = if n = k then s.hub.long ((base.toNat + 4 * k) % 2 ^ 17) else Cells.read s.cog.ram n)
      ∧ t.cog.pc = 0 ∧ t.cog.run = (if k = 0x1F7 then .running else .loading base (k + 1))
      ∧ t = s.withCog { s.cog with ram := t.cog.ram, pc := 0, run := t.cog.run }

/-- Between two steps at least one clock passes: CNT and the clock of the free inputs advance by as many. The units of
the running cogs move; an idle or loading cog does not change, and no flag, pointer, register of the
register RAM or hub state else, the QUADs only under a pins_to_QUADs mode of XFR, the RAM under them never, stack RAM and
SPA only under a pins_to_stack mode (R301, R432). At least one clock in every step, and that XFR leaves the RAM under the
QUADs, is the model's choice (log entries 8 and 28). So is that the units of a loading cog stand still, which the spec does
not say (log entry 9), and that an idle cog keeps its state, which R237 calls unspecified (log entry 10). -/
def Obligations.TimeMovesOnlyUnits : Prop :=
  ∀ s : State,
    (1 ≤ s.clocksPassed ∧ s.elapse.hub = { s.hub with
      cnt := s.hub.cnt + BitVec.ofNat 64 s.clocksPassed, clock := s.hub.clock + s.clocksPassed })
    ∧ ∀ n : Fin 8,
      ((s.cogs[n.val]).run ≠ .running → s.elapse.cogs[n.val] = s.cogs[n.val])
      ∧ s.elapse.cogs[n.val] =
        { s.cogs[n.val] with
          ctra := (s.elapse.cogs[n.val]).ctra, ctrb := (s.elapse.cogs[n.val]).ctrb,
          lfsr := (s.elapse.cogs[n.val]).lfsr, vid := (s.elapse.cogs[n.val]).vid,
          xfr := (s.elapse.cogs[n.val]).xfr, mul := (s.elapse.cogs[n.val]).mul, div := (s.elapse.cogs[n.val]).div,
          sqr := (s.elapse.cogs[n.val]).sqr, cordic := (s.elapse.cogs[n.val]).cordic,
          quad := (s.elapse.cogs[n.val]).quad, stack := (s.elapse.cogs[n.val]).stack,
          spa := (s.elapse.cogs[n.val]).spa }
      ∧ ((s.cogs[n.val]).xfr.cfg.extractLsb' 4 2 ≠ 2#2 → (s.elapse.cogs[n.val]).quad = (s.cogs[n.val]).quad)
      ∧ ((s.cogs[n.val]).xfr.cfg.extractLsb' 4 2 ≠ 3#2 →
          (s.elapse.cogs[n.val]).stack = (s.cogs[n.val]).stack ∧ (s.elapse.cogs[n.val]).spa = (s.cogs[n.val]).spa)

/-- Every step keeps the state well formed: memories in canonical form, QUAD bases among those SETQUAD may set,
pending branches with one to three trailing instructions, loaders among the 504 longs. The form of the lists is the
model's own (log entry 3). -/
def Obligations.StepKeepsOk : Prop :=
  ∀ s t : State, s.ok = true → step s = .next t → t.ok = true

/-- The state after reset is well formed. -/
def Obligations.ResetOk : Prop := State.reset.ok = true

/-- After reset the clock register is %0_0000_00_00 (R23, R530). That one cog has then just been started is the model's
choice (log entry 1). -/
def Obligations.ResetClearsClock : Prop := State.reset.hub.clkreg = 0b0_0000_00_00#9

/-! ## Encoding -/

/-- Decoding the word of a well-formed instruction gives it back, for every instruction and every operand value. -/
def Obligations.DecodeEncode : Prop := ∀ i : Instr, i.wellFormed = true → decode (encode i) = .ok i

/-- A word that decodes has a well-formed instruction, whose word it is: no bit of a word is dropped. Which of two
names a shared word has is the model's choice (log entry 15). -/
def Obligations.EncodeDecode : Prop :=
  ∀ (w : Word) (i : Instr), decode w = .ok i → i.wellFormed = true ∧ encode i = w

/-- Words of the spec decode to the instructions they stand for. -/
def Obligations.SpecWordsDecode : Prop :=
  decode 0x0C7C2000 = .ok (.clkset 15 0x010)
    ∧ decode 0x1F8FEDF6 = .ok .tasksw
    ∧ decode 0xE01C0E08 = .ok (.setinds (.addr 7) (.delta 8))
    ∧ decode 0xE414C632 = .ok (.fixinds 99 50)
    ∧ decode 0xA0FC2064 = .ok (.mov 15 0x010 (.imm 100))
    ∧ decode 0x1C7C0010 = .ok (.jmpN false false 15 0x010)
    ∧ decode 0x1C7C0000 = .ok (.ret false false 15)

/-- A word of the table's layout `TTTTTT ZCR I CCCC DDDDDDDDD SSSSSSSSS` (R111). -/
def Sys2Proof.Statement.row (t : BitVec 6) (zcr : BitVec 3) (i : BitVec 1) (cc : CCCC) (d x : BitVec 9) : Word :=
  t ++ zcr ++ i ++ cc ++ d ++ x

/-! ## Conditions and operands -/

/-- The sixteen conditions of CCCC (R115). -/
def Sys2Proof.Statement.condition (cc : CCCC) (z c : Bool) : Bool :=
  match cc.toNat with
  | 0 => false | 1 => !c && !z | 2 => !c && z | 3 => !c
  | 4 => c && !z | 5 => !z | 6 => c != z | 7 => !c || !z
  | 8 => c && z | 9 => c == z | 10 => z | 11 => !c || z
  | 12 => c | 13 => c || !z | 14 => c || z | _ => true

/-- An instruction without an indirect operand executes when the condition that CCCC stands for holds of the cog's
flags, and not otherwise (R115); then its register fields are the register addresses. -/
def Obligations.ConditionTable : Prop :=
  ∀ (c : Cog) (cc : CCCC) (d x : Option RegAddr), d.bind indReg = none → x.bind indReg = none →
    c.resolve cc d x = .ok (if Statement.condition cc c.z c.c then .go (d.getD 0) (x.getD 0) c else .skip)

/-- Whether the D field of an instruction is no register and equals $1F6 or $1F7 (R121, R324). -/
def Sys2Proof.Statement.collides : Instr → Bool
  | .wrquad _ x | .rdquad _ x | .rdquadc _ x => x.sel && isIndAddr x.field
  | .setptra _ x | .setptrb _ x | .addptra _ x | .addptrb _ x | .subptra _ x | .subptrb _ x
  | .setquad _ x | .setquaz _ x => x.sel && isIndAddr x.field
  | .jmpretSNR _ _ _ d _ | .jmpretNNR _ _ _ d _ | .jmpretdSNR _ _ _ d _ | .jmpretdNNR _ _ _ d _ => isIndAddr d
  | _ => false

/-- Whether an instruction is a branch (45_branches). -/
def Sys2Proof.Statement.isBranch : Instr → Bool
  | .jmpretS .. | .jmpretN .. | .jmpretSNR .. | .jmpretNNR .. | .jmpS .. | .jmpN .. | .ret .. | .call .. | .tasksw
  | .jmpretdS .. | .jmpretdN .. | .jmpretdSNR .. | .jmpretdNNR .. | .jmpdS .. | .jmpdN .. | .retd .. | .calld ..
  | .taskswd | .ijz .. | .ijnz .. | .djz .. | .djnz .. | .ijzd .. | .ijnzd .. | .djzd .. | .djnzd ..
  | .tjz .. | .tjnz .. | .jp .. | .jnp .. | .tjzd .. | .tjnzd .. | .jpd .. | .jnpd .. => true
  | _ => false

/-- An instruction whose condition is false, and that has no indirect operand, changes nothing but the next address
(R117); a branch does so outside the slots of a delayed branch (R321). That nothing else happens is the spec's
decision D26. -/
def Obligations.FalseConditionSkips : Prop :=
  ∀ (i : Instr) (s : State), (instrFields i).2.1.bind indReg = none → (instrFields i).2.2.bind indReg = none →
    condHolds (instrFields i).1 s.cog.z s.cog.c = false → Statement.collides i = false →
    (s.cog.pend = none ∨ Statement.isBranch i = false) →
    ∃ t, exec i s = .next t ∧ s.Finishes t s.cog

/-- A D field that is no register but equals $1F6 or $1F7 is refused (R121, R324, R325). The refusal is the spec's
decision D24. -/
def Obligations.FieldCollisionsRefused : Prop :=
  ∀ (i : Instr) (s : State), Statement.collides i = true → exec i s = .refused .indirectCollision

/-- Pointer stepping: inc(p) is the bottom limit at the top limit, else p + 1 modulo 512; dec(p) is the top limit at
the bottom limit, else p - 1 modulo 512 (R262). The formula is the spec's decision D12. -/
def Obligations.PointerStepping : Prop :=
  ∀ i : Ind,
    (i.inc.toNat = if i.ptr.toNat = i.top.toNat then i.bot.toNat else (i.ptr.toNat + 1) % 512)
    ∧ (i.dec.toNat = if i.ptr.toNat = i.bot.toNat then i.top.toNat else (i.ptr.toNat + 511) % 512)

/-- The register an indirect operand addresses: `++INDx` the next one, the other forms the pointer (R263, R264). -/
def Sys2Proof.Statement.indAddr (i : Ind) (form : BitVec 2) : RegAddr := if form = 3 then i.inc else i.ptr

/-- Why an indirect operand is refused, if it is (R275, R545). -/
def Sys2Proof.Statement.indRefused (i : Ind) (form : BitVec 2) : Option Refusal :=
  if i.isSet = false then some .indirectUnset
  else if i.age < 2 then some .indirectTooSoon
  else if 0x1F6 ≤ (Statement.indAddr i form).toNat then some .indirectSpecial
  else none

/-- An instruction with an indirect operand always executes (R266), when each pointer it uses has been set, at least two
instructions ago, and addresses a register below $1F6: the registers addressed and the pointers afterwards, by form
(R263, R264), the forms of D and S OR'd where both go through the same register (R265). How a pointer steps at its limits
is the spec's decision D12. That for `++INDx` the stepped pointer is the one that must lie below $1F6, so that $1FF stepped to
$000 executes, is the model's reading of R275(a), a DESIGN CHOICE (log entry 36). -/
def Obligations.IndirectOperands : Prop :=
  ∀ (c : Cog) (cc : CCCC) (d x : Option RegAddr), (d.bind indReg ≠ none ∨ x.bind indReg ≠ none) →
    c.resolve cc d x ≠ .ok .skip
    ∧ ((∀ r, d.bind indReg = some r → Statement.indRefused (c.ind r) (formD cc) = none) →
      (∀ r, x.bind indReg = some r → Statement.indRefused (c.ind r) (formS cc) = none) →
      ∃ (da sa : RegAddr) (g : Cog), c.resolve cc d x = .ok (.go da sa g)
        ∧ (∀ r, d.bind indReg = some r → da = Statement.indAddr (c.ind r) (formD cc))
        ∧ (d.bind indReg = none → da = d.getD 0)
        ∧ (∀ r, x.bind indReg = some r → sa = Statement.indAddr (c.ind r) (formS cc))
        ∧ (x.bind indReg = none → sa = x.getD 0)
        ∧ g = { c with inda := { c.inda with ptr := g.inda.ptr }, indb := { c.indb with ptr := g.indb.ptr } }
        ∧ ∀ r, (g.ind r).ptr =
            match (if d.bind indReg = some r then formD cc else 0) ||| (if x.bind indReg = some r then formS cc else 0) with
            | 0 => (c.ind r).ptr
            | 2 => (c.ind r).dec
            | _ => (c.ind r).inc)

/-- An instruction is refused when an indirect D, or else an indirect S, has a pointer that has not been set in this run
of the cog, was set fewer than two instructions ago, or addresses $1F6..$1FF (R275, R545). A pointer is as old as the
instructions since it was set: SETINDx and FIXINDx set it to 0, another instruction (MOV) adds one, up to 2. The
refusals are the spec's decisions D24 and D33. That for `++INDx` the address looked at is the stepped pointer and not the
pointer itself is the model's reading of R275(a), a DESIGN CHOICE (log entry 36). -/
def Obligations.IndirectRefusals : Prop :=
  (∀ (c : Cog) (cc : CCCC) (d x : Option RegAddr) (r : IndReg) (e : Refusal),
    (d.bind indReg = some r → Statement.indRefused (c.ind r) (formD cc) = some e → c.resolve cc d x = .error e)
    ∧ ((∀ q, d.bind indReg = some q → Statement.indRefused (c.ind q) (formD cc) = none) →
      x.bind indReg = some r → Statement.indRefused (c.ind r) (formS cc) = some e → c.resolve cc d x = .error e))
  ∧ ∀ s : State,
    (∀ a : IndOp, ∃ t, exec (.setinda a) s = .next t ∧ t.cog.inda.age = 0 ∧ t.cog.indb.age = min 2 (s.cog.indb.age + 1))
    ∧ (∀ b : IndOp, ∃ t, exec (.setindb b) s = .next t ∧ t.cog.indb.age = 0 ∧ t.cog.inda.age = min 2 (s.cog.inda.age + 1))
    ∧ (∀ a b : IndOp, ∃ t, exec (.setinds b a) s = .next t ∧ t.cog.inda.age = 0 ∧ t.cog.indb.age = 0)
    ∧ (∀ m n : RegAddr, ∃ t, exec (.fixinda m n) s = .next t ∧ t.cog.inda.age = 0
      ∧ t.cog.indb.age = min 2 (s.cog.indb.age + 1))
    ∧ (∀ m n : RegAddr, ∃ t, exec (.fixindb m n) s = .next t ∧ t.cog.indb.age = 0
      ∧ t.cog.inda.age = min 2 (s.cog.inda.age + 1))
    ∧ (∀ m n : RegAddr, ∃ t, exec (.fixinds m n) s = .next t ∧ t.cog.inda.age = 0 ∧ t.cog.indb.age = 0)
    ∧ ∀ (cc : CCCC) (d : RegAddr) (x : RegOrImm) (da sa : RegAddr) (c : Cog) (v : Word),
      s.cog.resolve cc (some d) x.regField = .ok (.go da sa c) → plainReg da → c.operand x sa = .ok v →
      ∃ t, exec (.mov cc d x) s = .next t ∧ t.cog.inda.age = min 2 (s.cog.inda.age + 1)
        ∧ t.cog.indb.age = min 2 (s.cog.indb.age + 1)

/-- A PTR expression, for a scale up to 16, gives an address: the pointer, or the pointer plus INDEX times the scale
modulo 2^17, and the pointer is updated to that sum when U is 1 (R152, R154). An address in a register is its low 17
bits, and nothing is updated (R71). The modulus is the spec's decision D27, the plain pointer for U = 0 and P = 1 its
decision D23. -/
def Obligations.PtrExpressions : Prop :=
  (∀ (c : Cog) (e : PtrExpr) (sa : RegAddr) (scale : Nat), scale ≤ 16 →
    let p := if e.useB then c.ptrb else c.ptra
    let sum : Nat := (((p.toNat : Int) + e.index.toInt * scale) % 2 ^ 17).toNat
    ∃ (a : HubAddr) (g : Cog), c.hubOperand (.ptr e) sa scale = .ok (a, g)
      ∧ a.toNat = (if e.post then p.toNat else sum)
      ∧ (if e.useB then g.ptrb else g.ptra).toNat = (if e.update then sum else p.toNat)
      ∧ (if e.useB then g.ptra else g.ptrb) = (if e.useB then c.ptra else c.ptrb)
      ∧ g = { c with ptra := g.ptra, ptrb := g.ptrb })
  ∧ ∀ (c : Cog) (f sa : RegAddr) (scale : Nat),
    (∀ v, c.read sa = .ok v → ∃ a, c.hubOperand (.reg f) sa scale = .ok (a, c) ∧ a.toNat = v.toNat % 2 ^ 17)
    ∧ ∀ e, c.read sa = .error e → c.hubOperand (.reg f) sa scale = .error e

/-- QUAD k overlays register qbase + k, unless qbase is $1FF (R30); a register is read through the overlay (R31). A D or
S read gives the register; $1F6..$1FF are refused, and a mapped QUAD is refused until three clocks after a fill and two
instructions after SETQUAD (R27, R540, R542). A register operand has that value, of which a branch takes bits 8..0, an
immediate is zero-extended (R119, R208). RDQUAD and a cached read that misses count as a fill, SETQUAD as itself. The
refusals are the spec's decisions D17 and D37 (log entry 13), the order of the QUADs its decision D3. -/
def Obligations.RegisterReads : Prop :=
  (∀ (c : Cog) (a : RegAddr),
    (∀ k : Fin 4, c.quadAt a = some k ↔ c.qbase ≠ 0x1FF ∧ a.toNat = c.qbase.toNat + k.val)
    ∧ (c.quadAt a = none → c.x a = Cells.read c.ram a.toNat)
    ∧ (∀ k : Fin 4, c.quadAt a = some k → c.x a = c.quad[k.val])
    ∧ (0x1F6 ≤ a.toNat → c.read a = .error .specialRegister)
    ∧ (a.toNat < 0x1F6 → c.quadAt a = none → c.read a = .ok (c.x a))
    ∧ (a.toNat < 0x1F6 → c.quadAt a ≠ none →
      c.read a = if 3 ≤ c.haz.fillClocks ∧ 2 ≤ c.haz.mapAge then .ok (c.x a) else .error .quadReadTooSoon)
    ∧ (∀ f : RegAddr, c.operand (.reg f) a = c.read a)
    ∧ (∀ (f : RegAddr) (v : Word), c.read a = .ok v → c.target (.reg f) a = .ok (v.extractLsb' 0 9))
    ∧ (∀ (f : RegAddr) (e : Refusal), c.read a = .error e → c.target (.reg f) a = .error e)
    ∧ ∀ n : BitVec 9, c.operand (.imm n) a = .ok (BitVec.ofNat 32 n.toNat) ∧ c.target (.imm n) a = .ok n)
  ∧ (∀ (cc : CCCC) (x : HubOp) (s : State) (da sa : RegAddr) (c g : Cog) (a : HubAddr), fieldOk (!x.sel) x.field →
      s.cog.resolve cc x.regField none = .ok (.go da sa c) → c.hubOperand x da 16 = .ok (a, g) →
      ∃ t, exec (.rdquad cc x) s = .next t ∧ t.cog.haz.fillClocks = 0 ∧ t.cog.haz.fillReady = false)
  ∧ (∀ (wz : Bool) (cc : CCCC) (d : RegAddr) (x : HubOp) (s : State) (da sa : RegAddr) (c g : Cog) (a : HubAddr),
      s.cog.resolve cc (some d) x.regField = .ok (.go da sa c) → plainReg da → c.hubOperand x sa 4 = .ok (a, g) →
      ¬ (c.cacheValid = true ∧ c.cacheTag = a.extractLsb' 4 13) →
      ∃ t, exec (.rdlongc wz cc d x) s = .next t ∧ t.cog.haz.fillClocks = 0 ∧ t.cog.haz.fillReady = false)
  ∧ ∀ (cc : CCCC) (x : RegOrImm) (s : State) (da sa : RegAddr) (c : Cog) (v : Word), fieldOk (!x.sel) x.field →
      s.cog.resolve cc x.regField none = .ok (.go da sa c) → c.operand x da = .ok v → v.toNat % 512 ≤ 0x1F2 →
      ∃ t, exec (.setquad cc x) s = .next t ∧ t.cog.haz.mapAge = 0

/-- A write through D goes to the register RAM and to a QUAD mapped there, and is what a read then finds; $1F6..$1FF
are refused (R27, R32). The refusal is the spec's decision D17 (log entry 20). -/
def Obligations.RegisterWrites : Prop :=
  ∀ (c : Cog) (a : RegAddr) (v : Word), c.cellsOk = true →
    (0x1F6 ≤ a.toNat → c.write a v = .error .specialRegister)
    ∧ (a.toNat < 0x1F6 → ∃ g, c.write a v = .ok g ∧ c.Wrote g a v)

/-! ## Hub memory -/

/-- Hub writes: the low byte, word or long of D goes to the aligned unit at the address, lowest byte first; ROM and
every other byte are unchanged, and no register but an updated pointer (R155, R158, R161, R72, R73, R79). That ROM
keeps its bytes is the spec's decision D5. -/
def Obligations.HubWritesStore : Prop :=
  ∀ (cc : CCCC) (d : RegAddr) (x : HubOp) (s : State) (da sa : RegAddr) (c g : Cog) (v : Word) (a : HubAddr),
    s.ok = true → s.cog.resolve cc (some d) x.regField = .ok (.go da sa c) → c.read da = .ok v →
    (c.hubOperand x sa 1 = .ok (a, g) →
      ∃ t, exec (.wrbyte cc d x) s = .next t ∧ s.Stores t g a.toNat 1 (byteOf v))
    ∧ (c.hubOperand x sa 2 = .ok (a, g) →
      ∃ t, exec (.wrword cc d x) s = .next t ∧ s.Stores t g (a.toNat / 2 * 2) 2 (byteOf v))
    ∧ (c.hubOperand x sa 4 = .ok (a, g) →
      ∃ t, exec (.wrlong cc d x) s = .next t ∧ s.Stores t g (a.toNat / 4 * 4) 4 (byteOf v))

/-- Uncached hub reads: the zero-extended byte or word, or the long, of the aligned unit at the address goes to D; Z
is written under WZ, C never (R156, R159, R162). The zero extension is the spec's decision D2. -/
def Obligations.HubReadsLoad : Prop :=
  ∀ (wz : Bool) (cc : CCCC) (d : RegAddr) (x : HubOp) (s : State) (da sa : RegAddr) (c g : Cog) (a : HubAddr),
    s.ok = true → s.cog.resolve cc (some d) x.regField = .ok (.go da sa c) → plainReg da →
    (c.hubOperand x sa 1 = .ok (a, g) →
      let v : Word := (s.hub.byte a.toNat).setWidth 32
      ∃ t, exec (.rdbyte wz cc d x) s = .next t ∧ g.Wrote t.cog da v
        ∧ s.Finishes t { g.withRegs t.cog with z := if wz then v == 0 else g.z })
    ∧ (c.hubOperand x sa 2 = .ok (a, g) →
      let v : Word := (s.hub.byte (a.toNat / 2 * 2 + 1) ++ s.hub.byte (a.toNat / 2 * 2)).setWidth 32
      ∃ t, exec (.rdword wz cc d x) s = .next t ∧ g.Wrote t.cog da v
        ∧ s.Finishes t { g.withRegs t.cog with z := if wz then v == 0 else g.z })
    ∧ (c.hubOperand x sa 4 = .ok (a, g) →
      let v : Word := s.hub.byte (a.toNat / 4 * 4 + 3) ++ s.hub.byte (a.toNat / 4 * 4 + 2)
        ++ s.hub.byte (a.toNat / 4 * 4 + 1) ++ s.hub.byte (a.toNat / 4 * 4)
      ∃ t, exec (.rdlong wz cc d x) s = .next t ∧ g.Wrote t.cog da v
        ∧ s.Finishes t { g.withRegs t.cog with z := if wz then v == 0 else g.z })

/-- The cog after a cache lookup: on a miss the four QUADs hold the quad that contains the address (R167). -/
def Sys2Proof.Statement.looked (h : Hub) (g : Cog) (a : HubAddr) : Cog :=
  if g.cacheValid = true ∧ g.cacheTag = a.extractLsb' 4 13 then g
  else { g with
    quad := #v[h.long (a.toNat / 16 * 16), h.long (a.toNat / 16 * 16 + 4), h.long (a.toNat / 16 * 16 + 8),
      h.long (a.toNat / 16 * 16 + 12)],
    cacheValid := true, cacheTag := a.extractLsb' 4 13 }

/-- Cached hub reads: after the lookup, D takes the byte, word or long of the QUADs that the low address bits select;
Z is written under WZ, and C, whose bit selects the operation, may hold anything (R157, R160, R163, R167, R114). The
zero extension, the place of each long, the free C and the cache window are the spec's decisions D2, D3, D4 and D7. -/
def Obligations.CachedReadsLoad : Prop :=
  ∀ (wz : Bool) (cc : CCCC) (d : RegAddr) (x : HubOp) (s : State) (da sa : RegAddr) (c g : Cog) (a : HubAddr)
    (q : Word), s.ok = true → s.cog.resolve cc (some d) x.regField = .ok (.go da sa c) → plainReg da →
    q = (Statement.looked s.hub g a).quad[(a.extractLsb' 2 2).toNat]'(a.extractLsb' 2 2).isLt →
    (c.hubOperand x sa 1 = .ok (a, g) →
      let v : Word := ((q >>> (8 * (a.toNat % 4))).setWidth 8).setWidth 32
      ∃ t, exec (.rdbytec wz cc d x) s = .next t ∧ (Statement.looked s.hub g a).Wrote t.cog da v
        ∧ s.Finishes t { (Statement.looked s.hub g a).withRegs t.cog with
            z := if wz then v == 0 else g.z, c := t.cog.c })
    ∧ (c.hubOperand x sa 2 = .ok (a, g) →
      let v : Word := ((q >>> (16 * (a.toNat / 2 % 2))).setWidth 16).setWidth 32
      ∃ t, exec (.rdwordc wz cc d x) s = .next t ∧ (Statement.looked s.hub g a).Wrote t.cog da v
        ∧ s.Finishes t { (Statement.looked s.hub g a).withRegs t.cog with
            z := if wz then v == 0 else g.z, c := t.cog.c })
    ∧ (c.hubOperand x sa 4 = .ok (a, g) →
      ∃ t, exec (.rdlongc wz cc d x) s = .next t ∧ (Statement.looked s.hub g a).Wrote t.cog da q
        ∧ s.Finishes t { (Statement.looked s.hub g a).withRegs t.cog with
            z := if wz then q == 0 else g.z, c := t.cog.c })

/-- A cached read that misses returns the same value as the uncached read would (R167). -/
def Obligations.CacheMissAgrees : Prop :=
  ∀ (h : Hub) (a : HubAddr),
    quadByte (h.quad (aligned 16 a)) a = h.readByte a
    ∧ quadWord (h.quad (aligned 16 a)) a = h.readWord a
    ∧ quadLong (h.quad (aligned 16 a)) a = h.readLong a

/-- Quad instructions: WRQUAD stores the four QUADs, QUAD[0] lowest, at the aligned 16 bytes; RDQUAD fills them from
there; RDQUADC does so only on a miss, and its C, whose bit selects the operation, may hold anything (R164..R166). The
order of the QUADs, the free C, that ROM keeps its bytes, and the cache window are the spec's decisions D3, D4, D5 and
D7. -/
def Obligations.QuadInstructions : Prop :=
  ∀ (cc : CCCC) (x : HubOp) (s : State) (da sa : RegAddr) (c g : Cog) (a : HubAddr), s.ok = true →
    fieldOk (!x.sel) x.field → s.cog.resolve cc x.regField none = .ok (.go da sa c) →
    c.hubOperand x da 16 = .ok (a, g) →
    (∃ t, exec (.wrquad cc x) s = .next t
      ∧ s.Stores t g (a.toNat / 16 * 16) 16 fun j => byteOf (g.quad[j / 4 % 4]'(Nat.mod_lt _ (by decide))) (j % 4))
    ∧ (∃ t, exec (.rdquad cc x) s = .next t ∧ s.Finishes t (Statement.looked s.hub { g with cacheValid := false } a))
    ∧ (∃ t, exec (.rdquadc cc x) s = .next t
      ∧ s.Finishes t { Statement.looked s.hub g a with c := t.cog.c })

/-! ## PTRA, PTRB and QUADs -/

/-- GETPTRx: D takes the pointer, zero-extended, under R; Z says whether it is 0 and C is its bit 16, under WZ and WC
(R200, R201). The zero extension is the spec's inference in R200. -/
def Obligations.GetPointers : Prop :=
  ∀ (wz wc wr useB : Bool) (cc : CCCC) (d : RegAddr) (s : State) (da sa : RegAddr) (c : Cog), s.ok = true →
    s.cog.resolve cc (some d) none = .ok (.go da sa c) → (wr = true → plainReg da) →
    let p := if useB then c.ptrb else c.ptra
    ∃ t, exec (if useB then .getptrb wz wc wr cc d else .getptra wz wc wr cc d) s = .next t
      ∧ c.WroteIf t.cog wr da (p.setWidth 32)
      ∧ s.Finishes t { c.withRegs t.cog with
          z := if wz then p == 0 else c.z, c := if wc then p.getLsbD 16 else c.c }

/-- SETPTRx, ADDPTRx and SUBPTRx: their words; PTRA or PTRB becomes the low 17 bits of the operand, or the sum or
difference modulo 2^17; nothing else changes (R202..R207). The modulus is the spec's decision D27 (log entry 32). -/
def Obligations.ChangePointers : Prop :=
  (∀ (cc : CCCC) (a n : BitVec 9),
    [encode (.setptra cc (.reg a)), encode (.setptrb cc (.reg a)), encode (.addptra cc (.reg a)),
      encode (.addptrb cc (.reg a)), encode (.subptra cc (.reg a)), encode (.subptrb cc (.reg a))]
      = [0b010110010#9, 0b010110011, 0b010110100, 0b010110101, 0b010110110, 0b010110111].map
          (Statement.row 0b000011 0b000 1 cc a)
    ∧ [encode (.setptra cc (.imm n)), encode (.setptrb cc (.imm n)), encode (.addptra cc (.imm n)),
      encode (.addptrb cc (.imm n)), encode (.subptra cc (.imm n)), encode (.subptrb cc (.imm n))]
      = [0b010110010#9, 0b010110011, 0b010110100, 0b010110101, 0b010110110, 0b010110111].map
          (Statement.row 0b000011 0b001 1 cc n))
  ∧ ∀ (useB : Bool) (cc : CCCC) (x : RegOrImm) (s : State) (da sa : RegAddr) (c : Cog) (v : Word),
    fieldOk (!x.sel) x.field → s.cog.resolve cc x.regField none = .ok (.go da sa c) → c.operand x da = .ok v →
    let p := if useB then c.ptrb else c.ptra
    let set (q : Nat) : Cog := if useB then { c with ptrb := BitVec.ofNat 17 q } else { c with ptra := BitVec.ofNat 17 q }
    (∃ t, exec (if useB then .setptrb cc x else .setptra cc x) s = .next t ∧ s.Finishes t (set v.toNat))
    ∧ (∃ t, exec (if useB then .addptrb cc x else .addptra cc x) s = .next t ∧ s.Finishes t (set (p.toNat + v.toNat)))
    ∧ (∃ t, exec (if useB then .subptrb cc x else .subptra cc x) s = .next t
        ∧ s.Finishes t (set (p.toNat + (2 ^ 32 - v.toNat))))

/-- CACHEX only makes the cache invalid (R210). GETTOPS puts the top byte of QUAD[k] into byte k of D; Z is written
under WZ (R211). The byte order of GETTOPS is the spec's decision D8. -/
def Obligations.CacheAndTops : Prop :=
  (∀ (cc : CCCC) (s : State) (da sa : RegAddr) (c : Cog), s.cog.resolve cc none none = .ok (.go da sa c) →
    ∃ t, exec (.cachex cc) s = .next t ∧ s.Finishes t { c with cacheValid := false })
  ∧ ∀ (wz : Bool) (cc : CCCC) (d : RegAddr) (s : State) (da sa : RegAddr) (c : Cog) (v : Word), s.ok = true →
    s.cog.resolve cc (some d) none = .ok (.go da sa c) → plainReg da →
    (∀ k : Fin 4, byteOf v k.val = (c.quad[k.val]).extractLsb' 24 8) →
    ∃ t, exec (.gettops wz cc d) s = .next t ∧ c.Wrote t.cog da v
      ∧ s.Finishes t { c.withRegs t.cog with z := if wz then v == 0 else c.z }

/-- SETQUAD and SETQUAZ: the QUAD base becomes the low nine bits of the operand; SETQUAZ also clears the QUADs, and
its C, whose bit selects the operation, may hold anything; a base of $1F3..$1FE is refused (R212, R213, R208). The
refusal and the free C are the spec's decisions D25 and D4; that only the low nine bits count is its inference in
R212, that the clearing leaves the RAM under the QUADs its inference in R32 (log entry 32). -/
def Obligations.MapQuads : Prop :=
  ∀ (cc : CCCC) (x : RegOrImm) (s : State) (da sa : RegAddr) (c : Cog) (v : Word),
    fieldOk (!x.sel) x.field → s.cog.resolve cc x.regField none = .ok (.go da sa c) → c.operand x da = .ok v →
    let b : RegAddr := v.extractLsb' 0 9
    ((b.toNat ≤ 0x1F2 ∨ b.toNat = 0x1FF) →
      (∃ t, exec (.setquad cc x) s = .next t ∧ s.Finishes t { c with qbase := b })
      ∧ (∃ t, exec (.setquaz cc x) s = .next t
        ∧ s.Finishes t { c with qbase := b, quad := #v[0, 0, 0, 0], c := t.cog.c }))
    ∧ (0x1F3 ≤ b.toNat → b.toNat ≤ 0x1FE →
      exec (.setquad cc x) s = .refused .quadBase ∧ exec (.setquaz cc x) s = .refused .quadBase)

/-! ## Hub control -/

/-- COGINIT with a selector %1xxx and an idle cog: some idle cog is started at the long address in D with the low 17
bits of S as parameter; D takes its number under R, C becomes 0 under WC, Z says whether the number is 0 under WZ; no
other cog changes (R231). That any idle cog may be chosen is the spec's decision D21, the width of the parameter D28.
-/
def Obligations.CoginitNextIdle : Prop :=
  ∀ (wz wc wr : Bool) (cc : CCCC) (d x : RegAddr) (s : State) (da sa : RegAddr) (c : Cog) (dv sv : Word), s.ok = true →
    s.cog.run = .running → s.cog.resolve cc (some d) (some x) = .ok (.go da sa c) → c.read da = .ok dv → c.read sa = .ok sv →
    c.cogsel.getLsbD 3 = true → (∃ n : Fin 8, (s.cogs[n.val]).run = .idle) →
    ∃ (t : State) (n : Fin 8), exec (.coginit wz wc wr cc d x) s = .next t
      ∧ n ≠ s.cur ∧ (s.cogs[n.val]).run = .idle
      ∧ t.cogs[n.val] = (s.cogs[n.val]).start (dv.extractLsb' 2 15 ++ 0#2) (sv.extractLsb' 0 17) (s.draws + 1)
      ∧ c.WroteIf t.cog wr da (BitVec.ofNat 32 n.val)
      ∧ ({ s with cogs := s.cogs.set n.val (t.cogs[n.val]) } : State).Finishes t { c.withRegs t.cog with
          z := if wz then n.val == 0 else c.z, c := if wc then false else c.c }

/-- COGINIT with a selector %1xxx and no idle cog starts nothing: C becomes 1 under WC, and what D takes under R may
be anything (R231). The free value in D is the spec's decision D21. -/
def Obligations.CoginitNoneIdle : Prop :=
  ∀ (wz wc wr : Bool) (cc : CCCC) (d x : RegAddr) (s : State) (da sa : RegAddr) (c : Cog) (dv sv : Word), s.ok = true →
    s.cog.resolve cc (some d) (some x) = .ok (.go da sa c) → c.read da = .ok dv → c.read sa = .ok sv →
    c.cogsel.getLsbD 3 = true → (∀ n : Fin 8, (s.cogs[n.val]).run ≠ .idle) →
    ∃ (t : State) (r : Word), exec (.coginit wz wc wr cc d x) s = .next t
      ∧ c.WroteIf t.cog wr da r
      ∧ s.Finishes t { c.withRegs t.cog with z := if wz then r == 0 else c.z, c := if wc then true else c.c }

/-- COGINIT with a selector %0xxx starts the cog it names, itself or another, running or idle, at the long address in D
with the low 17 bits of S as parameter, with the values of a cog start; what D, C and Z take, where written, may be
anything; a cog that starts itself executes nothing more. A loading cog is refused (R231, R232). The free results and
the refusal are the spec's decisions D21 and D38, the width of the parameter D28. -/
def Obligations.CoginitGiven : Prop :=
  ∀ (wz wc wr : Bool) (cc : CCCC) (d x : RegAddr) (s : State) (da sa : RegAddr) (c : Cog) (dv sv : Word) (n : Fin 8),
    s.ok = true → s.cog.run = .running → s.cog.resolve cc (some d) (some x) = .ok (.go da sa c) →
    c.read da = .ok dv → c.read sa = .ok sv → c.cogsel.toNat = n.val →
    ((∀ base k, (s.cogs[n.val]).run ≠ .loading base k) →
      ∃ (t : State) (r : Word), exec (.coginit wz wc wr cc d x) s = .next t ∧ t.hub = s.hub ∧ t.cur = s.cur
        ∧ (∀ m : Fin 8, m ≠ n → m ≠ s.cur → t.cogs[m.val] = s.cogs[m.val])
        ∧ (n = s.cur → ∃ g : Cog, c.WroteIf g wr da r ∧ g.stack = c.stack
            ∧ t.cogs[n.val] = g.start (dv.extractLsb' 2 15 ++ 0#2) (sv.extractLsb' 0 17) (s.draws + 2))
        ∧ (n ≠ s.cur →
            t.cogs[n.val] = (s.cogs[n.val]).start (dv.extractLsb' 2 15 ++ 0#2) (sv.extractLsb' 0 17) (s.draws + 2)
            ∧ c.WroteIf t.cog wr da r
            ∧ ({ s with cogs := s.cogs.set n.val (t.cogs[n.val]) } : State).Finishes t { c.withRegs t.cog with
                z := if wz then t.cog.z else c.z, c := if wc then t.cog.c else c.c }))
    ∧ (∀ base k, (s.cogs[n.val]).run = .loading base k →
      exec (.coginit wz wc wr cc d x) s = .refused .cogLoading)

/-- A cog that is started takes the values the source states, and keeps its stack RAM (R531); of VCFG and of the XFR
configuration only the bits that say off are stated. The invalid cache is the spec's decision D6, the hidden QUADs its
inference in R30. Of a counter's mode the source states the five bits %00000 (R38); that the three input bits above them are
0 too is the model's DESIGN CHOICE (log entry 10). -/
def Obligations.CogStartValues : Prop :=
  ∀ (c : Cog) (base param : HubAddr) (n : Nat),
    let g := c.start base param n
    g.run = .loading base 0 ∧ g.pc = 0 ∧ g.ptra = param ∧ g.ptrb = base ∧ g.quad = #v[0, 0, 0, 0] ∧ g.qbase = 0x1FF
      ∧ g.cacheValid = false ∧ g.cogsel = 0b0000 ∧ g.stack = c.stack ∧ g.ctra.mode = 0 ∧ g.ctrb.mode = 0
      ∧ g.ctra.wav = 0x400201FF ∧ g.ctrb.wav = 0x400201FF
      ∧ g.dac = #v[⟨0, 0b000000000_100000000⟩, ⟨0, 0b000000000_100000000⟩, ⟨0, 0b000000000_100000000⟩, ⟨0, 0b000000000_100000000⟩]
      ∧ g.vid.cfg.extractLsb' 2 2 = 0 ∧ g.xfr.cfg.extractLsb' 4 2 = 0 ∧ g.cordic.cfg = 0
      ∧ g.acca.val = 0 ∧ g.accb.val = 0 ∧ g.pend = none

/-- COGID, word 000011 001 1 CCCC DDDDDDDDD 000000001: the number of the executing cog goes into D; no flag changes
(R236). -/
def Obligations.CogidNumbers : Prop :=
  (∀ (cc : CCCC) (d : RegAddr), encode (.cogid cc d) = Statement.row 0b000011 0b001 1 cc d 0b000000001)
  ∧ ∀ (cc : CCCC) (d : RegAddr) (s : State) (da sa : RegAddr) (c : Cog), s.ok = true →
    s.cog.resolve cc (some d) none = .ok (.go da sa c) → plainReg da →
    ∃ t, exec (.cogid cc d) s = .next t ∧ c.Wrote t.cog da (BitVec.ofNat 32 s.cur.val)
      ∧ s.Finishes t (c.withRegs t.cog)

/-- COGSTOP: the cog named in D becomes idle, and nothing else changes; a number above 7 and a loading cog are refused
(R237). The refusals are the spec's decisions D11 and D38; that a stopped cog keeps its state is the model's (log
entry 10). -/
def Obligations.CogstopStops : Prop :=
  ∀ (cc : CCCC) (d : RegAddr) (s : State) (da sa : RegAddr) (c : Cog) (v : Word),
    s.cog.resolve cc (some d) none = .ok (.go da sa c) → c.read da = .ok v →
    (8 ≤ v.toNat → exec (.cogstop cc d) s = .refused .cogNumber)
    ∧ ∀ n : Fin 8, v.toNat = n.val →
      (∀ base k, (s.cogs[n.val]).run = .loading base k → exec (.cogstop cc d) s = .refused .cogLoading)
      ∧ ((∀ base k, (s.cogs[n.val]).run ≠ .loading base k) →
        (n = s.cur → exec (.cogstop cc d) s = .next (s.withCog { c with run := .idle }))
        ∧ (n ≠ s.cur → ∃ t, exec (.cogstop cc d) s = .next t
          ∧ ({ s with cogs := s.cogs.set n.val { s.cogs[n.val] with run := .idle } } : State).Finishes t c))

/-- CLKSET writes the low nine bits of D to the clock register; a mode that selects XTAL or PLL without its oscillator
or PLL is refused; with bit 8 set the chip is reset: the clock register is cleared and every cog stops (R234, R235,
R530). The refusal and the end of every run are the spec's decisions D38 and D15. That the reset comes first, so that a
word with bit 8 set is not refused whatever its mode bits ($102 is a reset), is the model's own deduction (log entry 11). -/
def Obligations.ClksetSetsClock : Prop :=
  ∀ (cc : CCCC) (d : RegAddr) (s : State) (da sa : RegAddr) (c : Cog) (v : Word),
    s.cog.resolve cc (some d) none = .ok (.go da sa c) → c.read da = .ok v →
    let bad : Prop := (2 ≤ v.toNat % 4 ∧ v.toNat / 4 % 4 = 0) ∨ (v.toNat % 4 = 3 ∧ v.toNat / 16 % 16 = 0)
    (v.getLsbD 8 = false → ¬ bad → ∃ t, exec (.clkset cc d) s = .next t
      ∧ s.EndsAs t { s.hub with clkreg := v.extractLsb' 0 9 } c ∧ s.GoesOn t)
    ∧ (v.getLsbD 8 = false → bad → exec (.clkset cc d) s = .refused .clockMode)
    ∧ (v.getLsbD 8 = true →
      ∃ t, exec (.clkset cc d) s = .next t ∧ t.hub.clkreg = 0 ∧ ∀ n : Fin 8, (t.cogs[n.val]).run = .idle)

/-- LOCKNEW checks out a lock that is free and returns its number, with C = 0 under WC; when none is free it changes
no lock and C = 1 under WC (R238). That any free lock may be chosen, and the free value in D, are the spec's decision
D10. -/
def Obligations.LocknewTakesFree : Prop :=
  ∀ (wz wc : Bool) (cc : CCCC) (d : RegAddr) (s : State) (da sa : RegAddr) (c : Cog), s.ok = true →
    s.cog.resolve cc (some d) none = .ok (.go da sa c) → plainReg da →
    ((∃ n : Fin 8, (s.hub.locks[n.val]).out = false) →
      ∃ (t : State) (n : Fin 8), exec (.locknew wz wc cc d) s = .next t ∧ (s.hub.locks[n.val]).out = false
        ∧ c.Wrote t.cog da (BitVec.ofNat 32 n.val) ∧ s.GoesOn t
        ∧ s.EndsAs t { s.hub with locks := s.hub.locks.set n.val ⟨(s.hub.locks[n.val]).set, true⟩ }
            { c.withRegs t.cog with z := if wz then n.val == 0 else c.z, c := if wc then false else c.c })
    ∧ ((∀ n : Fin 8, (s.hub.locks[n.val]).out = true) →
      ∃ (t : State) (r : Word), exec (.locknew wz wc cc d) s = .next t ∧ c.Wrote t.cog da r
        ∧ s.Finishes t { c.withRegs t.cog with z := if wz then r == 0 else c.z, c := if wc then true else c.c })

/-- LOCKRET frees a lock without changing its state; LOCKSET and LOCKCLR set and clear its state and return the prior
state in C under WC; a number above 7 is refused (R239..R241). The refusal is the spec's decision D11. -/
def Obligations.LocksWork : Prop :=
  ∀ (wc : Bool) (cc : CCCC) (d : RegAddr) (s : State) (da sa : RegAddr) (c : Cog) (v : Word),
    s.cog.resolve cc (some d) none = .ok (.go da sa c) → c.read da = .ok v →
    (8 ≤ v.toNat → exec (.lockret cc d) s = .refused .lockNumber ∧ exec (.lockset wc cc d) s = .refused .lockNumber
      ∧ exec (.lockclr wc cc d) s = .refused .lockNumber)
    ∧ ∀ n : Fin 8, v.toNat = n.val →
      (∃ t, exec (.lockret cc d) s = .next t ∧ s.GoesOn t
        ∧ s.EndsAs t { s.hub with locks := s.hub.locks.set n.val ⟨(s.hub.locks[n.val]).set, false⟩ } c)
      ∧ (∃ t, exec (.lockset wc cc d) s = .next t ∧ s.GoesOn t
        ∧ s.EndsAs t { s.hub with locks := s.hub.locks.set n.val ⟨true, (s.hub.locks[n.val]).out⟩ }
            { c with c := if wc then (s.hub.locks[n.val]).set else c.c })
      ∧ (∃ t, exec (.lockclr wc cc d) s = .next t ∧ s.GoesOn t
        ∧ s.EndsAs t { s.hub with locks := s.hub.locks.set n.val ⟨false, (s.hub.locks[n.val]).out⟩ }
            { c with c := if wc then (s.hub.locks[n.val]).set else c.c })

/-! ## Indirect set-up, MOV, ADD -/

/-- An indirect register with a new pointer and limits. -/
def Sys2Proof.Statement.ind (ptr bot top : BitVec 9) : Ind := { ptr, bot, top, isSet := true, age := 0 }

/-- The pointer a SETINDx operand gives. -/
def Sys2Proof.Statement.indPtr (i : Ind) : IndOp → BitVec 9
  | .addr a => a
  | .delta n => BitVec.ofNat 9 (i.ptr.toNat + n.toNat)

/-- SETINDx: their words; the pointer becomes the address, or moves by the delta modulo 512; the limits become $000 and
$1FF; the other pointer is untouched (R267..R269). -/
def Obligations.SetindSets : Prop :=
  (∀ a b : BitVec 9,
    let w := fun (cc : CCCC) (d x : BitVec 9) => Statement.row 0b111000 0b000 0 cc d x
    encode (.setinda (.addr a)) = w 0b0001 0 a ∧ encode (.setinda (.delta a)) = w 0b0011 0 a
    ∧ encode (.setindb (.addr b)) = w 0b0100 b 0 ∧ encode (.setindb (.delta b)) = w 0b1100 b 0
    ∧ encode (.setinds (.addr b) (.addr a)) = w 0b0101 b a ∧ encode (.setinds (.addr b) (.delta a)) = w 0b0111 b a
    ∧ encode (.setinds (.delta b) (.addr a)) = w 0b1101 b a ∧ encode (.setinds (.delta b) (.delta a)) = w 0b1111 b a)
  ∧ ∀ (a b : IndOp) (s : State),
    (∃ t, exec (.setinda a) s = .next t
      ∧ s.Finishes t { s.cog with inda := Statement.ind (Statement.indPtr s.cog.inda a) 0 0x1FF })
    ∧ (∃ t, exec (.setindb b) s = .next t
      ∧ s.Finishes t { s.cog with indb := Statement.ind (Statement.indPtr s.cog.indb b) 0 0x1FF })
    ∧ (∃ t, exec (.setinds b a) s = .next t
      ∧ s.Finishes t { s.cog with
          inda := Statement.ind (Statement.indPtr s.cog.inda a) 0 0x1FF,
          indb := Statement.ind (Statement.indPtr s.cog.indb b) 0 0x1FF })

/-- FIXINDx: their words; the pointer becomes the initial value, the limits the lower and the higher of the two values
(R270..R272). -/
def Obligations.FixindSets : Prop :=
  (∀ t i : BitVec 9, encode (.fixinda t i) = Statement.row 0b111001 0b000 0 0b0001 t i
    ∧ encode (.fixindb t i) = Statement.row 0b111001 0b000 0 0b0100 t i
    ∧ encode (.fixinds t i) = Statement.row 0b111001 0b000 0 0b0101 t i)
  ∧ ∀ (terminal initial : RegAddr) (s : State),
    let i := Statement.ind initial (if initial.toNat ≤ terminal.toNat then initial else terminal)
      (if initial.toNat ≤ terminal.toNat then terminal else initial)
    (∃ t, exec (.fixinda terminal initial) s = .next t ∧ s.Finishes t { s.cog with inda := i })
    ∧ (∃ t, exec (.fixindb terminal initial) s = .next t ∧ s.Finishes t { s.cog with indb := i })
    ∧ (∃ t, exec (.fixinds terminal initial) s = .next t ∧ s.Finishes t { s.cog with inda := i, indb := i })

/-- MOV puts S into D; ADD puts D + S modulo 2^32 into D; no flag changes (R273, R274). The modulus is the spec's
inference in R274, and its law R499. -/
def Obligations.MovAndAdd : Prop :=
  ∀ (cc : CCCC) (d : RegAddr) (x : RegOrImm) (s : State) (da sa : RegAddr) (c : Cog) (sv : Word), s.ok = true →
    s.cog.resolve cc (some d) x.regField = .ok (.go da sa c) → plainReg da → c.operand x sa = .ok sv →
    (∃ t, exec (.mov cc d x) s = .next t ∧ c.Wrote t.cog da sv ∧ s.Finishes t (c.withRegs t.cog))
    ∧ ∀ dv, c.read da = .ok dv →
      ∃ t, exec (.add cc d x) s = .next t ∧ c.Wrote t.cog da (BitVec.ofNat 32 (dv.toNat + sv.toNat))
        ∧ s.Finishes t (c.withRegs t.cog)

/-! ## The system counter and waits -/

/-- The low and the high long of CNT. -/
def Sys2Proof.Statement.cntLong (h : Hub) (high : Bool) : Word :=
  BitVec.ofNat 32 (if high then h.cnt.toNat / 2 ^ 32 else h.cnt.toNat)

/-- The end of a CNT instruction: as any other, but it is remembered for the next one. -/
def Sys2Proof.Statement.cntEnds (s t : State) (g : Cog) (seq : CntSeq) : Prop := s.Finishes t g ∧ t.cog.cntSeq = seq

/-- GETCNT: CNTL, and after a GETCNT that returned CNTL the CNTH of that reading; after a SUBCNT it is refused (R302).
The sequence and the refusal are the spec's decision D34; that CNTH is of the same reading is its inference in R302.
-/
def Obligations.GetcntReads : Prop :=
  ∀ (cc : CCCC) (d : RegAddr) (s : State) (da sa : RegAddr) (c : Cog), s.ok = true →
    s.cog.resolve cc (some d) none = .ok (.go da sa c) → plainReg da →
    (c.cntSeq = .gotLow → ∃ t, exec (.getcnt cc d) s = .next t ∧ c.Wrote t.cog da c.cntHi
      ∧ Statement.cntEnds s t (c.withRegs t.cog) .gotHigh)
    ∧ (c.cntSeq ≠ .gotLow → c.cntSeq ≠ .subLow → c.cntSeq ≠ .subHigh →
      ∃ t, exec (.getcnt cc d) s = .next t ∧ c.Wrote t.cog da (Statement.cntLong s.hub false)
        ∧ Statement.cntEnds s t { c.withRegs t.cog with cntHi := Statement.cntLong s.hub true } .gotLow)
    ∧ (c.cntSeq = .subLow ∨ c.cntSeq = .subHigh → exec (.getcnt cc d) s = .refused .cntMixture)

/-- SUBCNT: CNTL minus D, and after a SUBCNT that used CNTL the CNTH of that reading minus D minus the borrow; Z and C
are the zero and borrow of the result under WZ and WC; after a GETCNT it is refused (R303). The sequence, the borrow
and the refusal are the spec's decision D34; that CNTH is of the same reading is its inference in R302, what C takes
its inference in R303. -/
def Obligations.SubcntSubtracts : Prop :=
  ∀ (wz wc : Bool) (cc : CCCC) (d : RegAddr) (s : State) (da sa : RegAddr) (c : Cog) (dv : Word), s.ok = true →
    s.cog.resolve cc (some d) none = .ok (.go da sa c) → c.read da = .ok dv →
    (c.cntSeq = .subLow →
      let r := c.cntHi - dv - (if c.cntBorrow then 1 else 0)
      ∃ t, exec (.subcnt wz wc cc d) s = .next t ∧ c.Wrote t.cog da r
        ∧ Statement.cntEnds s t { c.withRegs t.cog with
            z := if wz then r == 0 else c.z,
            c := if wc then decide (c.cntHi.toNat < dv.toNat + (if c.cntBorrow then 1 else 0)) else c.c } .subHigh)
    ∧ (c.cntSeq ≠ .subLow → c.cntSeq ≠ .gotLow → c.cntSeq ≠ .gotHigh →
      let low := Statement.cntLong s.hub false
      ∃ t, exec (.subcnt wz wc cc d) s = .next t ∧ c.Wrote t.cog da (low - dv)
        ∧ Statement.cntEnds s t { c.withRegs t.cog with
            cntHi := Statement.cntLong s.hub true, cntBorrow := decide (low.toNat < dv.toNat),
            z := if wz then low - dv == 0 else c.z,
            c := if wc then decide (low.toNat < dv.toNat) else c.c } .subLow)
    ∧ (c.cntSeq = .gotLow ∨ c.cntSeq = .gotHigh → exec (.subcnt wz wc cc d) s = .refused .cntMixture)

/-- CMPCNT writes no register: C = D > CNTL, unsigned, under WC, and Z = (D = CNTL) under WZ; two in a row are refused
(R304). The unsigned comparison and the refusal are the spec's decisions D18 and D34. -/
def Obligations.CmpcntCompares : Prop :=
  ∀ (wz wc : Bool) (cc : CCCC) (d : RegAddr) (s : State) (da sa : RegAddr) (c : Cog) (dv : Word),
    s.cog.resolve cc (some d) none = .ok (.go da sa c) → c.read da = .ok dv →
    (c.cntSeq ≠ .compared → ∃ t, exec (.cmpcnt wz wc cc d) s = .next t
      ∧ Statement.cntEnds s t { c with
          z := if wz then dv == Statement.cntLong s.hub false else c.z,
          c := if wc then decide ((Statement.cntLong s.hub false).toNat < dv.toNat) else c.c } .compared)
    ∧ (c.cntSeq = .compared → exec (.cmpcnt wz wc cc d) s = .refused .cntMixture)

/-- PASSCNT goes on when (CNTL - D) mod 2^32 is below 2^31, writing nothing, and else stays where it is (R305). The
test is the spec's decision D30; a waiting cog that stays is the model's choice (log entry 17). -/
def Obligations.PasscntWaits : Prop :=
  ∀ (cc : CCCC) (d : RegAddr) (s : State) (da sa : RegAddr) (c : Cog) (dv : Word),
    s.cog.resolve cc (some d) none = .ok (.go da sa c) → c.read da = .ok dv →
    let ahead := (s.hub.cnt.toNat + (2 ^ 32 - dv.toNat)) % 2 ^ 32
    (ahead < 2 ^ 31 → ∃ t, exec (.passcnt cc d) s = .next t ∧ s.Finishes t c)
    ∧ (2 ^ 31 ≤ ahead → exec (.passcnt cc d) s = .next s)

/-- WAITCNT puts D + S modulo 2^32 into D under R; with WC it is refused (R306). The refusal is the spec's decision
D38; a wait of one step is the model's choice (log entry 17). -/
def Obligations.WaitcntAdds : Prop :=
  ∀ (wr : Bool) (cc : CCCC) (d : RegAddr) (x : RegOrImm) (s : State) (da sa : RegAddr) (c : Cog) (dv sv : Word), s.ok = true →
    s.cog.resolve cc (some d) x.regField = .ok (.go da sa c) → c.read da = .ok dv → c.operand x sa = .ok sv →
    (∃ t, exec (.waitcnt false wr cc d x) s = .next t
      ∧ c.WroteIf t.cog wr da (BitVec.ofNat 32 (dv.toNat + sv.toNat)) ∧ s.Finishes t (c.withRegs t.cog))
    ∧ exec (.waitcnt true wr cc d x) s = .refused .waitcntLong

/-- WAITPEQ and WAITPNE write no register; C and Z may hold anything afterwards (R307, R308, R114). A wait of one
step, and what ends it being free, is the model's choice (log entry 17). -/
def Obligations.WaitpinsEnd : Prop :=
  ∀ (cc : CCCC) (d : RegAddr) (x : RegOrImm) (s : State) (da sa : RegAddr) (c : Cog) (dv sv : Word),
    s.cog.resolve cc (some d) x.regField = .ok (.go da sa c) → c.read da = .ok dv → c.operand x sa = .ok sv →
    (∃ t, exec (.waitpeq cc d x) s = .next t ∧ s.Finishes t { c with z := t.cog.z, c := t.cog.c })
    ∧ (∃ t, exec (.waitpne cc d x) s = .next t ∧ s.Finishes t { c with z := t.cog.z, c := t.cog.c })

/-! ## Branches -/

/-- A normal JMPRET form with CCCC other than 1111 and no indirect operand, whose condition holds, in one shape: it is
refused when the cog as it then is has a stepping operand ahead. `link` says whether the return address is stored in D
first. -/
def Sys2Proof.Statement.refusedAhead (link : Bool) (d : RegAddr) (x : Option RegAddr) (i : Bool → Bool → CCCC → Instr) :
    Prop :=
  ∀ (wz wc : Bool) (cc : CCCC) (s : State) (g : Cog), s.cog.pend = none → cc ≠ 0b1111 → indReg d = none →
    (∀ a, x = some a → indReg a = none ∧ ∃ v, s.cog.read a = .ok v) → condHolds cc s.cog.z s.cog.c = true →
    (if link then s.cog.link false wz wc d = .ok g else g = s.cog) → g.stepsAhead = true →
    exec (i wz wc cc) s = .refused .stepAfterBranch

/-- A taken normal IJx or DJx in one shape. -/
def Sys2Proof.Statement.countAhead (step : Word) (nz : Bool) (i : Bool → CCCC → RegAddr → RegOrImm → Instr) : Prop :=
  ∀ (wr : Bool) (cc : CCCC) (d : RegAddr) (x : RegOrImm) (s : State) (da sa tgt : RegAddr) (c g : Cog) (dv : Word),
    s.cog.pend = none → s.cog.resolve cc (some d) x.regField = .ok (.go da sa c) → c.read da = .ok dv →
    c.target x sa = .ok tgt → c.result wr da (dv + step) = .ok g → ((dv + step == 0) != nz) = true →
    g.stepsAhead = true → exec (i wr cc d x) s = .refused .stepAfterBranch

/-- A normal TJx, JP or JNP in one shape: `taken` says from D and a free pin level whether the jump is taken. -/
def Sys2Proof.Statement.testAhead (taken : Word → Bool → Bool) (i : CCCC → RegAddr → RegOrImm → Instr) : Prop :=
  ∀ (cc : CCCC) (d : RegAddr) (x : RegOrImm) (s : State) (da sa tgt : RegAddr) (c : Cog) (dv : Word),
    s.cog.pend = none → s.cog.resolve cc (some d) x.regField = .ok (.go da sa c) → c.read da = .ok dv →
    c.target x sa = .ok tgt → c.stepsAhead = true →
    ∃ level : Bool, if taken dv level then exec (i cc d x) s = .refused .stepAfterBranch
      else ∃ t, exec (i cc d x) s = .next t ∧ s.GoesOn t

/-- Any branch, taken or not, is refused while a delayed branch is pending (R321). A taken conditional normal branch is
refused when an instruction with a ++ or -- indirect operand lies ahead: JMPRET and its forms with CCCC other than 1111
and no indirect operand, IJx, DJx, TJx, JP and JNP; ahead are the registers below $1F6 at the next three addresses
(R544). The refusals are the spec's decisions D22 and D37 (log entry 19). -/
def Obligations.BranchesRefused : Prop :=
  (∀ (i : Instr) (s : State), Statement.isBranch i = true → Statement.collides i = false → s.cog.pend ≠ none →
    exec i s = .refused .branchInDelaySlot)
  ∧ (∀ c : Cog, c.stepsAhead = true ↔ ∃ (k : RegAddr) (i : Instr), 1 ≤ k.toNat ∧ k.toNat ≤ 3
      ∧ (c.pc + k).toNat < 0x1F6 ∧ decode (c.x (c.pc + k)) = .ok i
      ∧ (((instrFields i).2.1.bind indReg ≠ none ∧ formD (instrFields i).1 ≠ 0)
        ∨ ((instrFields i).2.2.bind indReg ≠ none ∧ formS (instrFields i).1 ≠ 0)))
  ∧ (∀ (d x : RegAddr) (n : BitVec 9),
      Statement.refusedAhead true d (some x) (fun wz wc cc => .jmpretS wz wc cc d x)
      ∧ Statement.refusedAhead true d none (fun wz wc cc => .jmpretN wz wc cc d n)
      ∧ Statement.refusedAhead true d none (fun wz wc cc => .call wz wc cc d n)
      ∧ Statement.refusedAhead false d (some x) (fun wz wc cc => .jmpretSNR wz wc cc d x)
      ∧ Statement.refusedAhead false d none (fun wz wc cc => .jmpretNNR wz wc cc d n)
      ∧ Statement.refusedAhead false d (some x) (fun wz wc cc => .jmpS wz wc cc x)
      ∧ Statement.refusedAhead false d none (fun wz wc cc => .jmpN wz wc cc n)
      ∧ Statement.refusedAhead false d none .ret)
  ∧ Statement.countAhead 1 false .ijz ∧ Statement.countAhead 1 true .ijnz
  ∧ Statement.countAhead (-1) false .djz ∧ Statement.countAhead (-1) true .djnz
  ∧ Statement.testAhead (fun dv _ => dv == 0) .tjz ∧ Statement.testAhead (fun dv _ => dv != 0) .tjnz
  ∧ Statement.testAhead (fun _ level => level) .jp ∧ Statement.testAhead (fun _ level => !level) .jnp

/-- What a JMPRET stores: the return address in bits 8..0; C in bit 9 and Z in bit 10 where asked; the rest of D is
preserved (R322). -/
def Sys2Proof.Statement.Linked (w dv : Word) (back : RegAddr) (wz wc z c : Bool) : Prop :=
  w.extractLsb' 0 9 = back ∧ w.getLsbD 9 = (if wc then c else dv.getLsbD 9)
    ∧ w.getLsbD 10 = (if wz then z else dv.getLsbD 10) ∧ w.extractLsb' 11 21 = dv.extractLsb' 11 21

/-- JMPRET D,S and JMPRETD D,S in one shape. -/
def Sys2Proof.Statement.jmpretReg (delayed : Bool) (i : Bool → Bool → CCCC → RegAddr → RegAddr → Instr) : Prop :=
  ∀ (wz wc : Bool) (cc : CCCC) (d x : RegAddr) (s : State) (da sa : RegAddr) (c : Cog) (dv sv : Word), s.ok = true →
    s.cog.pend = none → s.cog.resolve cc (some d) (some x) = .ok (.go da sa c) → c.read da = .ok dv → c.read sa = .ok sv →
    (delayed = true ∨ conditional cc (some d) (some x) = false ∨ ∀ g, c.link delayed wz wc da = .ok g → g.stepsAhead = false) →
    ∃ (t : State) (w : Word), exec (i wz wc cc d x) s = .next t
      ∧ Statement.Linked w dv (s.cog.pc + if delayed then 4 else 1) wz wc c.z c.c ∧ c.Wrote t.cog da w
      ∧ s.Jumps t delayed (sv.extractLsb' 0 9)
      ∧ s.EndsAs t s.hub { c.withRegs t.cog with
          z := if wz then sv.getLsbD 10 else c.z, c := if wc then sv.getLsbD 9 else c.c }

/-- JMPRET D,S, normal and delayed: D takes the return address and the old flags, the flags are reloaded from S, and
control goes to bits 8..0 of S (R322, R329). That the flags stored are those before the reload is the spec's inference
in R322. -/
def Obligations.JmpretRegister : Prop :=
  Statement.jmpretReg false .jmpretS ∧ Statement.jmpretReg true .jmpretdS

/-- JMPRET D,#n, CALL and their delayed forms in one shape. -/
def Sys2Proof.Statement.jmpretImm (delayed : Bool) (i : Bool → Bool → CCCC → RegAddr → BitVec 9 → Instr) : Prop :=
  ∀ (wz wc : Bool) (cc : CCCC) (d : RegAddr) (n : BitVec 9) (s : State) (da sa : RegAddr) (c : Cog) (dv : Word), s.ok = true →
    s.cog.pend = none → s.cog.resolve cc (some d) none = .ok (.go da sa c) → c.read da = .ok dv →
    (delayed = true ∨ conditional cc (some d) none = false ∨ ∀ g, c.link delayed wz wc da = .ok g → g.stepsAhead = false) →
    ∃ (t : State) (w : Word), exec (i wz wc cc d n) s = .next t
      ∧ Statement.Linked w dv (s.cog.pc + if delayed then 4 else 1) wz wc c.z c.c ∧ c.Wrote t.cog da w
      ∧ s.Jumps t delayed n ∧ s.EndsAs t s.hub (c.withRegs t.cog)

/-- JMPRET D,#n and CALL, normal and delayed: D takes the return address and the flags, which do not change, and control
goes to n (R323, R327, R330, R334). -/
def Obligations.JmpretImmediate : Prop :=
  Statement.jmpretImm false .jmpretN ∧ Statement.jmpretImm false .call
    ∧ Statement.jmpretImm true .jmpretdN ∧ Statement.jmpretImm true .calld

/-- JMP S and the NR forms of JMPRET D,S in one shape. -/
def Sys2Proof.Statement.jmpReg (delayed : Bool) (i : Bool → Bool → CCCC → RegAddr → Instr) : Prop :=
  ∀ (wz wc : Bool) (cc : CCCC) (x : RegAddr) (s : State) (da sa : RegAddr) (c : Cog) (sv : Word),
    s.cog.pend = none → s.cog.resolve cc none (some x) = .ok (.go da sa c) → c.read sa = .ok sv →
    (delayed = true ∨ conditional cc none (some x) = false ∨ c.stepsAhead = false) →
    ∃ t, exec (i wz wc cc x) s = .next t ∧ s.Jumps t delayed (sv.extractLsb' 0 9)
      ∧ s.EndsAs t s.hub { c with
          z := if wz then sv.getLsbD 10 else c.z, c := if wc then sv.getLsbD 9 else c.c }

/-- JMP S, JMPD S and the NR forms of JMPRET D,S: the flags come from bits 9 and 10 of S, control goes to its bits
8..0, and no register is written (R324, R331). -/
def Obligations.JumpRegister : Prop :=
  Statement.jmpReg false .jmpS ∧ Statement.jmpReg true .jmpdS
    ∧ ∀ d : RegAddr, isIndAddr d = false →
      Statement.jmpReg false (fun wz wc cc x => .jmpretSNR wz wc cc d x)
      ∧ Statement.jmpReg true (fun wz wc cc x => .jmpretdSNR wz wc cc d x)

/-- JMP #n, RET and the NR forms of JMPRET D,#n in one shape; `d` is the D field. -/
def Sys2Proof.Statement.jmpImm (delayed : Bool) (d n : BitVec 9) (i : Bool → Bool → CCCC → Instr) : Prop :=
  ∀ (wz wc : Bool) (cc : CCCC) (s : State), s.cog.pend = none → condHolds cc s.cog.z s.cog.c = true →
    (delayed = true ∨ cc = 0b1111 ∨ s.cog.stepsAhead = false) →
    ∃ t, exec (i wz wc cc) s = .next t ∧ s.Jumps t delayed n
      ∧ s.EndsAs t s.hub { s.cog with
          z := if wz then d.getLsbD 1 else s.cog.z, c := if wc then d.getLsbD 0 else s.cog.c }

/-- JMP #n, RET, their delayed forms and the NR forms of JMPRET D,#n: the flags come from bits 9 and 10 of the
instruction, the two lowest bits of its D field, and control goes to n (R325, R326, R332, R333). -/
def Obligations.JumpImmediate : Prop :=
  ∀ n : BitVec 9,
    Statement.jmpImm false 0 n (fun wz wc cc => .jmpN wz wc cc n)
    ∧ Statement.jmpImm true 0 n (fun wz wc cc => .jmpdN wz wc cc n)
    ∧ Statement.jmpImm false 0 0 .ret ∧ Statement.jmpImm true 0 0 .retd
    ∧ ∀ d : BitVec 9, isIndAddr d = false →
      Statement.jmpImm false d n (fun wz wc cc => .jmpretNNR wz wc cc d n)
      ∧ Statement.jmpImm true d n (fun wz wc cc => .jmpretdNNR wz wc cc d n)

/-- TASKSW and TASKSWD in one shape. -/
def Sys2Proof.Statement.taskSwitch (delayed : Bool) (i : Instr) : Prop :=
  ∀ s : State, s.ok = true → s.cog.pend = none → s.cog.inda.isSet = true → 2 ≤ s.cog.inda.age →
    ∀ dv sv, s.cog.read s.cog.inda.ptr = .ok dv → s.cog.read s.cog.inda.inc = .ok sv →
    ∃ (t : State) (w : Word), exec i s = .next t
      ∧ Statement.Linked w dv (s.cog.pc + if delayed then 4 else 1) true true s.cog.z s.cog.c
      ∧ s.cog.Wrote t.cog s.cog.inda.ptr w ∧ s.Jumps t delayed (sv.extractLsb' 0 9)
      ∧ s.EndsAs t s.hub { s.cog.withRegs t.cog with
          inda := { s.cog.inda with ptr := s.cog.inda.inc }, z := sv.getLsbD 10, c := sv.getLsbD 9 }

/-- TASKSW, $1F8FEDF6, and TASKSWD, the same word with 010111: they save Z, C and the return address in the register INDA
points at, load them from the next one of the ring, and step INDA (R328, R335). -/
def Obligations.TaskSwitches : Prop :=
  encode .tasksw = Statement.row 0b000111 0b111 0 0b0011 0b111110110 0b111110110
    ∧ encode .taskswd = Statement.row 0b010111 0b111 0 0b0011 0b111110110 0b111110110
    ∧ Statement.taskSwitch false .tasksw ∧ Statement.taskSwitch true .taskswd

/-- Where control goes after a conditional branch: it jumps, or goes on. -/
def Sys2Proof.Statement.MayJump (s t : State) (taken delayed : Bool) (tgt : RegAddr) : Prop :=
  if taken then s.Jumps t delayed tgt else s.GoesOn t

/-- IJx and DJx in one shape: `step` is added to D, `nz` tests for a result that is not 0. -/
def Sys2Proof.Statement.countBranch (step : Word) (nz delayed : Bool) (i : Bool → CCCC → RegAddr → RegOrImm → Instr) : Prop :=
  ∀ (wr : Bool) (cc : CCCC) (d : RegAddr) (x : RegOrImm) (s : State) (da sa tgt : RegAddr) (c : Cog) (dv : Word), s.ok = true →
    s.cog.pend = none → s.cog.resolve cc (some d) x.regField = .ok (.go da sa c) → c.read da = .ok dv →
    c.target x sa = .ok tgt →
    (delayed = true ∨ ((dv + step == 0) == nz) = true ∨ ∀ g, c.result wr da (dv + step) = .ok g → g.stepsAhead = false) →
    ∃ t, exec (i wr cc d x) s = .next t ∧ c.WroteIf t.cog wr da (dv + step)
      ∧ Statement.MayJump s t ((dv + step == 0) != nz) delayed tgt
      ∧ s.EndsAs t s.hub { c.withRegs t.cog with
          z := if nz then t.cog.z else c.z, c := if delayed then t.cog.c else c.c }

/-- IJZ, IJNZ, DJZ, DJNZ and their delayed forms: D is incremented or decremented modulo 2^32, written under R, and
the jump tests the result; a flag whose bit selects the operation may hold anything, the other is unchanged
(R336..R339, R344..R347, R114). The free flags are the spec's decision D4. -/
def Obligations.CountBranches : Prop :=
  Statement.countBranch 1 false false .ijz ∧ Statement.countBranch 1 true false .ijnz
    ∧ Statement.countBranch (-1) false false .djz ∧ Statement.countBranch (-1) true false .djnz
    ∧ Statement.countBranch 1 false true .ijzd ∧ Statement.countBranch 1 true true .ijnzd
    ∧ Statement.countBranch (-1) false true .djzd ∧ Statement.countBranch (-1) true true .djnzd

/-- TJx, JPx in one shape: `taken` says from D and a free pin level whether the jump is taken. -/
def Sys2Proof.Statement.testBranch (taken : Word → Bool → Bool) (neg delayed : Bool) (i : CCCC → RegAddr → RegOrImm → Instr) : Prop :=
  ∀ (cc : CCCC) (d : RegAddr) (x : RegOrImm) (s : State) (da sa tgt : RegAddr) (c : Cog) (dv : Word),
    s.cog.pend = none → s.cog.resolve cc (some d) x.regField = .ok (.go da sa c) → c.read da = .ok dv →
    c.target x sa = .ok tgt → (delayed = true ∨ c.stepsAhead = false ∨ ∀ level, taken dv level = false) →
    ∃ (t : State) (level : Bool), exec (i cc d x) s = .next t
      ∧ Statement.MayJump s t (taken dv level) delayed tgt
      ∧ s.EndsAs t s.hub { c with z := if neg then t.cog.z else c.z, c := if delayed then t.cog.c else c.c }

/-- TJZ, TJNZ, JP, JNP and their delayed forms write no register: the jump tests D, or a pin level that may be
anything; a flag whose bit selects the operation may hold anything (R340..R343, R348..R351, R114). The free flags and
pin levels are the spec's decisions D4 and D29 (log entry 16). -/
def Obligations.TestBranches : Prop :=
  Statement.testBranch (fun dv _ => dv == 0) false false .tjz
    ∧ Statement.testBranch (fun dv _ => dv != 0) true false .tjnz
    ∧ Statement.testBranch (fun _ level => level) false false .jp
    ∧ Statement.testBranch (fun _ level => !level) true false .jnp
    ∧ Statement.testBranch (fun dv _ => dv == 0) false true .tjzd
    ∧ Statement.testBranch (fun dv _ => dv != 0) true true .tjnzd
    ∧ Statement.testBranch (fun _ level => level) false true .jpd
    ∧ Statement.testBranch (fun _ level => !level) true true .jnpd

/-! ## Instructions without an encoding -/

/-- GETSPA and GETSPB: D takes the pointer, zero-extended, under R; Z says whether it is 0, C is its bit 7 (R297,
R298). SETSPA, ADDSPA and SUBSPA are refused while XFR is in a pins_to_stack mode (R433). The refusal is the spec's
decision D38. -/
def Obligations.StackPointers : Prop :=
  (∀ (k : Ctl) (w : Which) (d : RegAddr) (s : State) (da sa : RegAddr) (c : Cog), s.ok = true →
    s.cog.resolve k.cc (some d) none = .ok (.go da sa c) → (k.wr = true → plainReg da) →
    let p : BitVec 8 := if w = .a then c.spa else c.spb
    ∃ t, execAbs k (.getsp w d) s = .next t ∧ c.WroteIf t.cog k.wr da (p.setWidth 32)
      ∧ s.Finishes t { c.withRegs t.cog with
          z := if k.wz then p == 0 else c.z, c := if k.wc then p.getLsbD 7 else c.c })
  ∧ ∀ (k : Ctl) (x : RegOrImm) (s : State) (da sa : RegAddr) (c : Cog) (v : Word), fieldOk (!x.sel) x.field →
    s.cog.resolve k.cc x.regField none = .ok (.go da sa c) → c.operand x da = .ok v → c.xfr.cfg.extractLsb' 4 2 = 3#2 →
    execAbs k (.setsp .a x) s = .refused .stackBusy ∧ execAbs k (.addsp .a x) s = .refused .stackBusy
      ∧ execAbs k (.subsp .a x) s = .refused .stackBusy

/-- An accumulator of a cog, and the cog with another in its place. -/
def Sys2Proof.Statement.acc (c : Cog) : Which → Acc
  | .a => c.acca
  | .b => c.accb

/-- The cog with an accumulator replaced. -/
def Sys2Proof.Statement.withAcc (c : Cog) (w : Which) (a : Acc) : Cog :=
  match w with
  | .a => { c with acca := a }
  | .b => { c with accb := a }

/-- MACA, MACB: the signed product of the low 20 bits of D and S is added into the accumulator modulo 2^64, and the
lower long is read next; no register and, without WZ and WC, no flag changes (R492, R493). GETACCA, GETACCB: D takes
the lower long, then the upper long, under R, and Z says whether it is 0 under WZ; a third read with no change between
is refused (R497, R577, Z by R113). The sign extension of the product, and that D is not written, are the spec's
inferences in R492, the refusal its decision D35; R497 and R577 state no flags: Z is that of the D result by the
general rule (R113, U18; log entry 22), and a C that may hold anything under WC is the model's choice (log entry 22).
-/
def Obligations.Accumulators : Prop :=
  (∀ (w : Which) (cc : CCCC) (wr : Bool) (d : RegAddr) (x : RegOrImm) (s : State) (da sa : RegAddr) (c : Cog) (dv sv : Word),
    s.cog.resolve cc (some d) x.regField = .ok (.go da sa c) → c.read da = .ok dv → c.operand x sa = .ok sv →
    let p : Int := (dv.extractLsb' 0 20).toInt * (sv.extractLsb' 0 20).toInt
    ∃ t, execAbs ⟨cc, false, false, wr⟩ (.mac w d x) s = .next t
      ∧ s.Finishes t (Statement.withAcc c w ⟨BitVec.ofInt 64 ((Statement.acc c w).val.toNat + p), .low⟩))
  ∧ ∀ (w : Which) (k : Ctl) (d : RegAddr) (s : State) (da sa : RegAddr) (c : Cog), s.ok = true →
    s.cog.resolve k.cc (some d) none = .ok (.go da sa c) → (k.wr = true → plainReg da) →
    let a := Statement.acc c w
    let ends (v : Word) (r : AccRead) : Prop :=
      ∃ t, execAbs k (.getacc w d) s = .next t ∧ c.WroteIf t.cog k.wr da v
        ∧ s.Finishes t { Statement.withAcc (c.withRegs t.cog) w ⟨a.val, r⟩ with
            z := if k.wz then v == 0 else c.z, c := if k.wc then t.cog.c else c.c }
    (a.reads = .low → ends (BitVec.ofNat 32 a.val.toNat) .high)
    ∧ (a.reads = .high → ends (BitVec.ofNat 32 (a.val.toNat / 2 ^ 32)) .spent)
    ∧ (a.reads = .spent → execAbs k (.getacc w d) s = .refused .accReadAgain)

/-- CLRACCA, CLRACCB and CLRACCS clear accumulators, SETACCA and SETACCB set the lower long to D and the upper to S; the
lower long is read next; nothing else changes (R494, R495, R572..R574). -/
def Obligations.AccumulatorSets : Prop :=
  (∀ (k : Ctl) (s : State) (da sa : RegAddr) (c : Cog), k.wz = false → k.wc = false →
    s.cog.resolve k.cc none none = .ok (.go da sa c) →
    (∃ t, execAbs k (.clracc .a) s = .next t ∧ s.Finishes t { c with acca := ⟨0, .low⟩ })
    ∧ (∃ t, execAbs k (.clracc .b) s = .next t ∧ s.Finishes t { c with accb := ⟨0, .low⟩ })
    ∧ (∃ t, execAbs k .clraccs s = .next t ∧ s.Finishes t { c with acca := ⟨0, .low⟩, accb := ⟨0, .low⟩ }))
  ∧ ∀ (k : Ctl) (d : RegAddr) (x : RegOrImm) (s : State) (da sa : RegAddr) (c : Cog) (dv sv : Word) (v : BitVec 64),
    k.wz = false → k.wc = false → s.cog.resolve k.cc (some d) x.regField = .ok (.go da sa c) →
    c.read da = .ok dv → c.operand x sa = .ok sv → v.toNat = sv.toNat * 2 ^ 32 + dv.toNat →
    (∃ t, execAbs k (.setacc .a d x) s = .next t ∧ s.Finishes t { c with acca := ⟨v, .low⟩ })
    ∧ (∃ t, execAbs k (.setacc .b d x) s = .next t ∧ s.Finishes t { c with accb := ⟨v, .low⟩ })

/-- Whether an accumulator shifted down by `e` fits 32 bits with its sign (R496). -/
def Sys2Proof.Statement.fitsAt (a : BitVec 64) (e : Nat) : Prop := -(2 ^ 31) ≤ a.toInt / 2 ^ e ∧ a.toInt / 2 ^ e < 2 ^ 31

/-- A fitted accumulator: the exponent in the upper long, the shifted value in the lower one, but for its low bit when
bits have been shifted out (R496). -/
def Sys2Proof.Statement.fittedBy (a v : BitVec 64) (e : Nat) : Prop :=
  v.extractLsb' 32 32 = BitVec.ofNat 32 e ∧ (e = 0 → v.extractLsb' 0 32 = a.extractLsb' 0 32)
    ∧ (v.extractLsb' 0 32).toNat / 2 = (a.toInt / 2 ^ e % 2 ^ 32).toNat / 2

/-- FITACCA, FITACCB and FITACCS: the exponent is the least of 0..32 with which the shifted value, with FITACCS both
shifted values, fits 32 bits with its sign; it becomes the upper long, the shifted value the lower one, of which the low
bit may be anything when the exponent is not 0; the lower long is read next (R496, R575, R576). The range of the exponent
is the spec's inference in R496. -/
def Obligations.FitExponents : Prop :=
  ∀ (k : Ctl) (s : State) (da sa : RegAddr) (c : Cog), k.wz = false → k.wc = false →
    s.cog.resolve k.cc none none = .ok (.go da sa c) →
    (∀ w : Which, ∃ (t : State) (e : Nat) (v : BitVec 64), execAbs k (.fitacc w) s = .next t
      ∧ e ≤ 32 ∧ Statement.fitsAt (Statement.acc c w).val e
      ∧ (∀ j, j < e → ¬ Statement.fitsAt (Statement.acc c w).val j)
      ∧ Statement.fittedBy (Statement.acc c w).val v e ∧ s.Finishes t (Statement.withAcc c w ⟨v, .low⟩))
    ∧ ∃ (t : State) (e : Nat) (v u : BitVec 64), execAbs k .fitaccs s = .next t
      ∧ e ≤ 32 ∧ Statement.fitsAt c.acca.val e ∧ Statement.fitsAt c.accb.val e
      ∧ (∀ j, j < e → ¬ (Statement.fitsAt c.acca.val j ∧ Statement.fitsAt c.accb.val j))
      ∧ Statement.fittedBy c.acca.val v e ∧ Statement.fittedBy c.accb.val u e
      ∧ s.Finishes t { c with acca := ⟨v, .low⟩, accb := ⟨u, .low⟩ }

/-- A GET without WC on a background unit in one shape: D takes the result under R, Z says whether it is 0 under WZ, and
the unit is done; a unit that was never started is refused (R460). -/
def Sys2Proof.Statement.unitGet (i : RegAddr → AbsInstr) (started : Cog → Bool) (done : Cog → Cog) (result : Cog → Word) :
    Prop :=
  ∀ (k : Ctl) (d : RegAddr) (s : State) (da sa : RegAddr) (c : Cog), s.ok = true → k.wc = false →
    s.cog.resolve k.cc (some d) none = .ok (.go da sa c) → (k.wr = true → plainReg da) →
    (started c = true → ∃ t, execAbs k (i d) s = .next t ∧ c.WroteIf t.cog k.wr da (result c)
      ∧ s.Finishes t { done (c.withRegs t.cog) with z := if k.wz then result c == 0 else c.z })
    ∧ (started c = false → execAbs k (i d) s = .refused .unitNotStarted)

/-- The big divider. SETDIVB divides the numerator held, N, by its operand, B, and GETDIVQ and GETDIVR return the
results. Unsigned, with B not 0 and a quotient of 32 bits, N = q * B + r with r below B; signed, the same with the
remainder smaller than B in size and of the sign of N; else the results may be anything (R470..R472, R460). A busy
divider refuses SETDIVB. Truncation toward zero is the spec's inference in R470, the refusals its decision D36. The
model's choices: SETDIVB leaves the results in place at once, where R470 sets them after the unit's time, and a GET
without WC on a busy divider ends in one step with the unit done (log entries 17 and 23); N is what the divider holds,
whether or not a SETDIVx came since the last SETDIVB (log entry 29). Z of a GET under WZ is that of the D result by
the general rule (R113; log entry 22). -/
def Obligations.DividerDivides : Prop :=
  (∀ (n : BitVec 64) (b : Word),
    (∀ signed, b = 0 → quotRem signed n b = none)
    ∧ (b ≠ 0 → n.toNat < b.toNat * 2 ^ 32 →
        ∃ q r, quotRem false n b = some (q, r) ∧ n.toNat = q.toNat * b.toNat + r.toNat ∧ r.toNat < b.toNat)
    ∧ (b ≠ 0 → b.toNat * 2 ^ 32 ≤ n.toNat → quotRem false n b = none)
    ∧ (b ≠ 0 → -(2 ^ 31) ≤ n.toInt.tdiv b.toInt → n.toInt.tdiv b.toInt < 2 ^ 31 →
        ∃ q r, quotRem true n b = some (q, r) ∧ n.toInt = q.toInt * b.toInt + r.toInt
          ∧ r.toInt.natAbs < b.toInt.natAbs ∧ (r.toInt = 0 ∨ (r.toInt < 0 ↔ n.toInt < 0)))
    ∧ (b ≠ 0 → (n.toInt.tdiv b.toInt < -(2 ^ 31) ∨ 2 ^ 31 ≤ n.toInt.tdiv b.toInt) → quotRem true n b = none))
  ∧ (∀ (k : Ctl) (x : RegOrImm) (s : State) (da sa : RegAddr) (c : Cog) (b : Word), k.wz = false → k.wc = false →
    fieldOk (!x.sel) x.field → s.cog.resolve k.cc x.regField none = .ok (.go da sa c) → c.operand x da = .ok b →
    (c.div.busy = false → ∃ (t : State) (q r : Word), execAbs k (.setdivb x) s = .next t
      ∧ (∀ p, quotRem c.div.signed (c.div.numHi ++ c.div.numLo) b = some p → p = (q, r))
      ∧ s.Finishes t { c with div := { c.div with
          den := b, busy := true, started := true, count := 0, quot := q, rem := r } })
    ∧ (c.div.busy = true → execAbs k (.setdivb x) s = .refused .unitBusy))
  ∧ Statement.unitGet .getdivq (·.div.started) (fun c => { c with div := { c.div with busy := false } }) (·.div.quot)
  ∧ Statement.unitGet .getdivr (·.div.started) (fun c => { c with div := { c.div with busy := false } }) (·.div.rem)

/-- The square rooter. SETSQRH holds the high long; SETSQRL takes the root of the high long held, or 0, above its
operand; GETSQRT returns it (R475..R477, R460). The root is the floor of the square root or one more, of which the low
32 bits are kept, and exact for a square. The two candidates are the spec's inference in R476, the refusals its
decision D36. The model's choices: SETSQRL leaves the root in place at once, where R476 sets it after the unit's time,
and a GETSQRT without WC on a busy unit ends in one step with the unit done (log entries 17 and 23). Z of a GET under
WZ is that of the D result by the general rule (R113; log entry 22). -/
def Obligations.RootIsNear : Prop :=
  (∀ (n : BitVec 64) (up : Bool),
    (∀ k : Nat, k * k = n.toNat → (rootOf n up).toNat = k)
    ∧ ∃ f : Nat, f * f ≤ n.toNat ∧ n.toNat < (f + 1) * (f + 1)
      ∧ ((rootOf n up).toNat = f ∨ (rootOf n up).toNat = (f + 1) % 2 ^ 32))
  ∧ (∀ (k : Ctl) (x : RegOrImm) (s : State) (da sa : RegAddr) (c : Cog) (v : Word), k.wz = false → k.wc = false →
    fieldOk (!x.sel) x.field → s.cog.resolve k.cc x.regField none = .ok (.go da sa c) → c.operand x da = .ok v →
    (c.sqr.busy = false →
      (∃ t, execAbs k (.setsqrh x) s = .next t ∧ s.Finishes t { c with sqr := { c.sqr with hi := v, haveHi := true } })
      ∧ ∃ (t : State) (up : Bool), execAbs k (.setsqrl x) s = .next t
        ∧ s.Finishes t { c with sqr := { c.sqr with
            lo := v, haveHi := false, busy := true, started := true,
            root := rootOf ((if c.sqr.haveHi then c.sqr.hi else 0) ++ v) up } })
    ∧ (c.sqr.busy = true →
      execAbs k (.setsqrh x) s = .refused .unitBusy ∧ execAbs k (.setsqrl x) s = .refused .unitBusy))
  ∧ Statement.unitGet .getsqrt (·.sqr.started) (fun c => { c with sqr := { c.sqr with busy := false } }) (·.sqr.root)
end

