-- ==== Sys2Proof/Laws/Cells.lean ====
section
/-! SUPPORT. Sparse memories: what a read gives after a write, and the canonical form. -/

namespace Sys2Proof.Machine

variable {w : Nat}

/-- An address below every listed one reads as 0. -/
theorem Cells.read_below {hi lo : Nat} {m : Cells w} (h : Cells.wfFrom hi lo m = true) {a : Nat} (ha : a < lo) :
    Cells.read m a = 0 := by
  induction m generalizing lo with
  | nil => rfl
  | cons p rest ih =>
    obtain ⟨k, v⟩ := p
    simp only [Cells.wfFrom, Bool.and_eq_true, decide_eq_true_eq] at h
    have hk : k ≠ a := by omega
    simp only [Cells.read, hk, if_false]
    exact ih h.2 (by omega)

/-- A canonical memory may be viewed from any lower bound. -/
theorem Cells.wfFrom_mono {hi lo lo' : Nat} {m : Cells w} (h : Cells.wfFrom hi lo m = true) (hl : lo' ≤ lo) :
    Cells.wfFrom hi lo' m = true := by
  cases m with
  | nil => rfl
  | cons p rest =>
    obtain ⟨k, v⟩ := p
    simp only [Cells.wfFrom, Bool.and_eq_true, decide_eq_true_eq] at h ⊢
    exact ⟨⟨⟨by omega, h.1.1.2⟩, h.1.2⟩, h.2⟩

/-- Reading after a write: the written cell holds the value, every other cell is as before. -/
theorem Cells.read_write {hi lo : Nat} {m : Cells w} (h : Cells.wfFrom hi lo m = true) (a b : Nat) (v : BitVec w) :
    Cells.read (Cells.write m a v) b = if b = a then v else Cells.read m b := by
  induction m generalizing lo with
  | nil =>
    by_cases hv : v = 0#w <;> by_cases hb : b = a <;> simp [Cells.write, Cells.read, hv, hb, eq_comm (a := a)]
  | cons p rest ih =>
    obtain ⟨k, u⟩ := p
    have hw := h
    simp only [Cells.wfFrom, Bool.and_eq_true, decide_eq_true_eq] at h
    obtain ⟨⟨⟨hlo, hhi⟩, hu⟩, hrest⟩ := h
    rcases Nat.lt_trichotomy a k with hak | hak | hak
    · have h0 : Cells.read ((k, u) :: rest) a = 0 :=
        Cells.read_below (hi := hi) (lo := k) (by simp [Cells.wfFrom, hhi, hrest]; exact hu) hak
      by_cases hv : v = 0#w
      · by_cases hb : b = a
        · subst hb; simp only [Cells.write, hak, hv, if_true]; exact h0
        · simp [Cells.write, hak, hv, hb]
      · by_cases hb : b = a
        · subst hb; simp [Cells.write, hak, hv, Cells.read]
        · have : ¬ a = b := fun h => hb h.symm
          simp [Cells.write, hak, hv, hb, Cells.read, this]
    · subst hak
      have h0 : Cells.read rest a = 0 := Cells.read_below hrest (Nat.lt_succ_self a)
      by_cases hv : v = 0#w
      · by_cases hb : b = a
        · subst hb; simp only [Cells.write, lt_irrefl, hv, if_true, if_false]; exact h0
        · have : ¬ a = b := fun h => hb h.symm
          simp [Cells.write, hv, hb, Cells.read, this]
      · by_cases hb : b = a
        · subst hb; simp [Cells.write, hv, Cells.read]
        · have : ¬ a = b := fun h => hb h.symm
          simp [Cells.write, hv, hb, Cells.read, this]
    · have h1 : ¬ a < k := by omega
      have h2 : ¬ a = k := by omega
      simp only [Cells.write, h1, h2, if_false, Cells.read, ih hrest]
      by_cases hb : b = a
      · subst hb; simp; intro h; omega
      · simp [hb]

/-- A write keeps the canonical form. -/
theorem Cells.wfFrom_write {hi lo : Nat} {m : Cells w} (h : Cells.wfFrom hi lo m = true) {a : Nat} (v : BitVec w)
    (hlo : lo ≤ a) (hhi : a < hi) : Cells.wfFrom hi lo (Cells.write m a v) = true := by
  induction m generalizing lo with
  | nil => by_cases hv : v = 0#w <;> simp [Cells.write, Cells.wfFrom, hv, hlo, hhi]
  | cons p rest ih =>
    obtain ⟨k, u⟩ := p
    simp only [Cells.wfFrom, Bool.and_eq_true, decide_eq_true_eq] at h
    obtain ⟨⟨⟨hlk, hkh⟩, hu⟩, hrest⟩ := h
    rcases Nat.lt_trichotomy a k with hak | hak | hak
    · by_cases hv : v = 0#w
      · simp [Cells.write, hak, hv, Cells.wfFrom, hlk, hkh, hrest]; exact hu
      · simp [Cells.write, hak, hv, Cells.wfFrom, hlo, hhi, hkh, hrest]; exact hu
    · subst hak
      by_cases hv : v = 0#w
      · simp only [Cells.write, lt_irrefl, hv, if_true, if_false]
        exact Cells.wfFrom_mono hrest (by omega)
      · simp [Cells.write, hv, Cells.wfFrom, hlo, hhi, hrest]
    · have h1 : ¬ a < k := by omega
      have h2 : ¬ a = k := by omega
      simp only [Cells.write, h1, h2, if_false, Cells.wfFrom, Bool.and_eq_true, decide_eq_true_eq]
      exact ⟨⟨⟨hlk, hkh⟩, hu⟩, ih hrest (by omega)⟩

/-- A memory built from a list of writes is canonical. -/
theorem Cells.wfFrom_ofList (lo hi : Nat) (l : List (Nat × BitVec w)) :
    Cells.wfFrom hi lo (Cells.ofList lo hi l) = true := by
  induction l with
  | nil => rfl
  | cons p rest ih =>
    obtain ⟨a, v⟩ := p
    simp only [Cells.ofList]
    split
    · rename_i h; exact Cells.wfFrom_write ih v h.1 h.2
    · exact ih

/-- Writing what a cell holds changes nothing, so equal contents are equal lists. -/
theorem Cells.write_read {hi lo : Nat} {m : Cells w} (h : Cells.wfFrom hi lo m = true) (a : Nat) :
    Cells.write m a (Cells.read m a) = m := by
  induction m generalizing lo with
  | nil => simp [Cells.read, Cells.write]
  | cons p rest ih =>
    obtain ⟨k, u⟩ := p
    simp only [Cells.wfFrom, Bool.and_eq_true, decide_eq_true_eq] at h
    obtain ⟨⟨⟨hlo, hhi⟩, hu⟩, hrest⟩ := h
    rcases Nat.lt_trichotomy a k with hak | hak | hak
    · have h0 : Cells.read ((k, u) :: rest) a = 0 :=
        Cells.read_below (lo := k) (hi := hi) (by simp [Cells.wfFrom, hhi, hrest]; exact hu) hak
      rw [h0]; simp [Cells.write, hak]
    · subst hak; simp [Cells.write, Cells.read]; exact hu
    · have h1 : ¬ a < k := by omega
      have h2 : ¬ a = k := by omega
      have h3 : ¬ k = a := by omega
      simp only [Cells.write, h1, h2, if_false, Cells.read, h3, ih hrest]

end Sys2Proof.Machine
end

