-- ==== Sys2Proof/Laws/State.lean ====
section
/-! SUPPORT. One lemma per field per update of the state, each true by `rfl`: no later proof unfolds a record update. -/

namespace Sys2Proof.Machine

/-! ## State.setCog -/

@[simp] theorem State.setCog_hub (s : State) (n : Fin 8) (c : Cog) : (s.setCog n c).hub = s.hub := rfl
@[simp] theorem State.setCog_cogs (s : State) (n : Fin 8) (c : Cog) : (s.setCog n c).cogs = s.cogs.set n.val c := rfl
@[simp] theorem State.setCog_cur (s : State) (n : Fin 8) (c : Cog) : (s.setCog n c).cur = s.cur := rfl
@[simp] theorem State.setCog_draws (s : State) (n : Fin 8) (c : Cog) : (s.setCog n c).draws = s.draws := rfl

/-! ## State.withCog -/

@[simp] theorem State.withCog_hub (s : State) (c : Cog) : (s.withCog c).hub = s.hub := rfl
@[simp] theorem State.withCog_cogs (s : State) (c : Cog) : (s.withCog c).cogs = s.cogs.set s.cur.val c := rfl
@[simp] theorem State.withCog_cur (s : State) (c : Cog) : (s.withCog c).cur = s.cur := rfl
@[simp] theorem State.withCog_draws (s : State) (c : Cog) : (s.withCog c).draws = s.draws := rfl

/-! ## State.withView -/

@[simp] theorem State.withView_hub (s : State) (v : View) : (s.withView v).hub = v.hub := rfl
@[simp] theorem State.withView_cogs (s : State) (v : View) : (s.withView v).cogs = s.cogs.set s.cur.val v.cog := rfl
@[simp] theorem State.withView_cur (s : State) (v : View) : (s.withView v).cur = s.cur := rfl
@[simp] theorem State.withView_draws (s : State) (v : View) : (s.withView v).draws = v.draws := rfl

/-! ## State.view -/

@[simp] theorem State.view_hub (s : State) : (s.view).hub = s.hub := rfl
@[simp] theorem State.view_cog (s : State) : (s.view).cog = s.cog := rfl
@[simp] theorem State.view_num (s : State) : (s.view).num = s.cur := rfl
@[simp] theorem State.view_draws (s : State) : (s.view).draws = s.draws := rfl

/-! ## State.drawn -/

@[simp] theorem State.drawn_hub (s : State) (n : Nat) : (s.drawn n).hub = s.hub := rfl
@[simp] theorem State.drawn_cogs (s : State) (n : Nat) : (s.drawn n).cogs = s.cogs := rfl
@[simp] theorem State.drawn_cur (s : State) (n : Nat) : (s.drawn n).cur = s.cur := rfl
@[simp] theorem State.drawn_draws (s : State) (n : Nat) : (s.drawn n).draws = s.draws + n := rfl

/-! ## View.withCog -/

@[simp] theorem View.withCog_hub (v : View) (c : Cog) : (v.withCog c).hub = v.hub := rfl
@[simp] theorem View.withCog_cog (v : View) (c : Cog) : (v.withCog c).cog = c := rfl
@[simp] theorem View.withCog_num (v : View) (c : Cog) : (v.withCog c).num = v.num := rfl
@[simp] theorem View.withCog_draws (v : View) (c : Cog) : (v.withCog c).draws = v.draws := rfl

/-! ## View.retire -/

@[simp] theorem View.retire_hub (v : View) (clk : Nat) : (v.retire clk).hub = v.hub := rfl
@[simp] theorem View.retire_cog (v : View) (clk : Nat) : (v.retire clk).cog = v.cog.retire clk := rfl
@[simp] theorem View.retire_num (v : View) (clk : Nat) : (v.retire clk).num = v.num := rfl
@[simp] theorem View.retire_draws (v : View) (clk : Nat) : (v.retire clk).draws = v.draws := rfl

/-! ## View.drawZ -/

@[simp] theorem View.drawZ_hub (v : View) : (v.drawZ).hub = v.hub := rfl
@[simp] theorem View.drawZ_num (v : View) : (v.drawZ).num = v.num := rfl
@[simp] theorem View.drawZ_draws (v : View) : (v.drawZ).draws = v.draws + 1 := rfl
@[simp] theorem View.drawZ_cog (v : View) : v.drawZ.cog = { v.cog with z := Config.freeBit v.draws } := rfl

/-! ## View.drawC -/

@[simp] theorem View.drawC_hub (v : View) : (v.drawC).hub = v.hub := rfl
@[simp] theorem View.drawC_num (v : View) : (v.drawC).num = v.num := rfl
@[simp] theorem View.drawC_draws (v : View) : (v.drawC).draws = v.draws + 1 := rfl
@[simp] theorem View.drawC_cog (v : View) : v.drawC.cog = { v.cog with c := Config.freeBit v.draws } := rfl

/-! ## Cog.retire -/

@[simp] theorem Cog.retire_run (c : Cog) (clk : Nat) : (c.retire clk).run = c.run := rfl
@[simp] theorem Cog.retire_ram (c : Cog) (clk : Nat) : (c.retire clk).ram = c.ram := rfl
@[simp] theorem Cog.retire_pc (c : Cog) (clk : Nat) : (c.retire clk).pc = c.advance.1 := rfl
@[simp] theorem Cog.retire_z (c : Cog) (clk : Nat) : (c.retire clk).z = c.z := rfl
@[simp] theorem Cog.retire_c (c : Cog) (clk : Nat) : (c.retire clk).c = c.c := rfl
@[simp] theorem Cog.retire_quad (c : Cog) (clk : Nat) : (c.retire clk).quad = c.quad := rfl
@[simp] theorem Cog.retire_qbase (c : Cog) (clk : Nat) : (c.retire clk).qbase = c.qbase := rfl
@[simp] theorem Cog.retire_cacheValid (c : Cog) (clk : Nat) : (c.retire clk).cacheValid = c.cacheValid := rfl
@[simp] theorem Cog.retire_cacheTag (c : Cog) (clk : Nat) : (c.retire clk).cacheTag = c.cacheTag := rfl
@[simp] theorem Cog.retire_ptra (c : Cog) (clk : Nat) : (c.retire clk).ptra = c.ptra := rfl
@[simp] theorem Cog.retire_ptrb (c : Cog) (clk : Nat) : (c.retire clk).ptrb = c.ptrb := rfl
@[simp] theorem Cog.retire_inda (c : Cog) (clk : Nat) : (c.retire clk).inda = c.inda.older := rfl
@[simp] theorem Cog.retire_indb (c : Cog) (clk : Nat) : (c.retire clk).indb = c.indb.older := rfl
@[simp] theorem Cog.retire_cogsel (c : Cog) (clk : Nat) : (c.retire clk).cogsel = c.cogsel := rfl
@[simp] theorem Cog.retire_stack (c : Cog) (clk : Nat) : (c.retire clk).stack = c.stack := rfl
@[simp] theorem Cog.retire_spa (c : Cog) (clk : Nat) : (c.retire clk).spa = c.spa := rfl
@[simp] theorem Cog.retire_spb (c : Cog) (clk : Nat) : (c.retire clk).spb = c.spb := rfl
@[simp] theorem Cog.retire_ctra (c : Cog) (clk : Nat) : (c.retire clk).ctra = c.ctra := rfl
@[simp] theorem Cog.retire_ctrb (c : Cog) (clk : Nat) : (c.retire clk).ctrb = c.ctrb := rfl
@[simp] theorem Cog.retire_dac (c : Cog) (clk : Nat) : (c.retire clk).dac = c.dac := rfl
@[simp] theorem Cog.retire_lfsr (c : Cog) (clk : Nat) : (c.retire clk).lfsr = c.lfsr := rfl
@[simp] theorem Cog.retire_vid (c : Cog) (clk : Nat) : (c.retire clk).vid = c.vid := rfl
@[simp] theorem Cog.retire_pix (c : Cog) (clk : Nat) : (c.retire clk).pix = c.pix := rfl
@[simp] theorem Cog.retire_xfr (c : Cog) (clk : Nat) : (c.retire clk).xfr = c.xfr := rfl
@[simp] theorem Cog.retire_mul (c : Cog) (clk : Nat) : (c.retire clk).mul = c.mul := rfl
@[simp] theorem Cog.retire_div (c : Cog) (clk : Nat) : (c.retire clk).div = c.div := rfl
@[simp] theorem Cog.retire_sqr (c : Cog) (clk : Nat) : (c.retire clk).sqr = c.sqr := rfl
@[simp] theorem Cog.retire_cordic (c : Cog) (clk : Nat) : (c.retire clk).cordic = c.cordic := rfl
@[simp] theorem Cog.retire_acca (c : Cog) (clk : Nat) : (c.retire clk).acca = c.acca := rfl
@[simp] theorem Cog.retire_accb (c : Cog) (clk : Nat) : (c.retire clk).accb = c.accb := rfl
@[simp] theorem Cog.retire_cntSeq (c : Cog) (clk : Nat) : (c.retire clk).cntSeq = .idle := rfl
@[simp] theorem Cog.retire_cntHi (c : Cog) (clk : Nat) : (c.retire clk).cntHi = c.cntHi := rfl
@[simp] theorem Cog.retire_cntBorrow (c : Cog) (clk : Nat) : (c.retire clk).cntBorrow = c.cntBorrow := rfl
@[simp] theorem Cog.retire_lastStored (c : Cog) (clk : Nat) : (c.retire clk).lastStored = c.lastStored := rfl
@[simp] theorem Cog.retire_pend (c : Cog) (clk : Nat) : (c.retire clk).pend = c.advance.2 := rfl
@[simp] theorem Cog.retire_haz (c : Cog) (clk : Nat) : (c.retire clk).haz = c.haz.retire clk := rfl

/-! ## Cog.skip -/

@[simp] theorem Cog.skip_run (c : Cog) : (c.skip).run = c.run := rfl
@[simp] theorem Cog.skip_ram (c : Cog) : (c.skip).ram = c.ram := rfl
@[simp] theorem Cog.skip_pc (c : Cog) : (c.skip).pc = c.advance.1 := rfl
@[simp] theorem Cog.skip_z (c : Cog) : (c.skip).z = c.z := rfl
@[simp] theorem Cog.skip_c (c : Cog) : (c.skip).c = c.c := rfl
@[simp] theorem Cog.skip_quad (c : Cog) : (c.skip).quad = c.quad := rfl
@[simp] theorem Cog.skip_qbase (c : Cog) : (c.skip).qbase = c.qbase := rfl
@[simp] theorem Cog.skip_cacheValid (c : Cog) : (c.skip).cacheValid = c.cacheValid := rfl
@[simp] theorem Cog.skip_cacheTag (c : Cog) : (c.skip).cacheTag = c.cacheTag := rfl
@[simp] theorem Cog.skip_ptra (c : Cog) : (c.skip).ptra = c.ptra := rfl
@[simp] theorem Cog.skip_ptrb (c : Cog) : (c.skip).ptrb = c.ptrb := rfl
@[simp] theorem Cog.skip_inda (c : Cog) : (c.skip).inda = c.inda.older := rfl
@[simp] theorem Cog.skip_indb (c : Cog) : (c.skip).indb = c.indb.older := rfl
@[simp] theorem Cog.skip_cogsel (c : Cog) : (c.skip).cogsel = c.cogsel := rfl
@[simp] theorem Cog.skip_stack (c : Cog) : (c.skip).stack = c.stack := rfl
@[simp] theorem Cog.skip_spa (c : Cog) : (c.skip).spa = c.spa := rfl
@[simp] theorem Cog.skip_spb (c : Cog) : (c.skip).spb = c.spb := rfl
@[simp] theorem Cog.skip_ctra (c : Cog) : (c.skip).ctra = c.ctra := rfl
@[simp] theorem Cog.skip_ctrb (c : Cog) : (c.skip).ctrb = c.ctrb := rfl
@[simp] theorem Cog.skip_dac (c : Cog) : (c.skip).dac = c.dac := rfl
@[simp] theorem Cog.skip_lfsr (c : Cog) : (c.skip).lfsr = c.lfsr := rfl
@[simp] theorem Cog.skip_vid (c : Cog) : (c.skip).vid = c.vid := rfl
@[simp] theorem Cog.skip_pix (c : Cog) : (c.skip).pix = c.pix := rfl
@[simp] theorem Cog.skip_xfr (c : Cog) : (c.skip).xfr = c.xfr := rfl
@[simp] theorem Cog.skip_mul (c : Cog) : (c.skip).mul = c.mul := rfl
@[simp] theorem Cog.skip_div (c : Cog) : (c.skip).div = c.div := rfl
@[simp] theorem Cog.skip_sqr (c : Cog) : (c.skip).sqr = c.sqr := rfl
@[simp] theorem Cog.skip_cordic (c : Cog) : (c.skip).cordic = c.cordic := rfl
@[simp] theorem Cog.skip_acca (c : Cog) : (c.skip).acca = c.acca := rfl
@[simp] theorem Cog.skip_accb (c : Cog) : (c.skip).accb = c.accb := rfl
@[simp] theorem Cog.skip_cntSeq (c : Cog) : (c.skip).cntSeq = c.cntSeq := rfl
@[simp] theorem Cog.skip_cntHi (c : Cog) : (c.skip).cntHi = c.cntHi := rfl
@[simp] theorem Cog.skip_cntBorrow (c : Cog) : (c.skip).cntBorrow = c.cntBorrow := rfl
@[simp] theorem Cog.skip_lastStored (c : Cog) : (c.skip).lastStored = c.lastStored := rfl
@[simp] theorem Cog.skip_pend (c : Cog) : (c.skip).pend = c.advance.2 := rfl
@[simp] theorem Cog.skip_haz (c : Cog) : (c.skip).haz = c.haz.retire 1 := rfl

/-! ## Cog.branchTo -/

@[simp] theorem Cog.branchTo_run (c : Cog) (tgt : RegAddr) : (c.branchTo tgt).run = c.run := rfl
@[simp] theorem Cog.branchTo_ram (c : Cog) (tgt : RegAddr) : (c.branchTo tgt).ram = c.ram := rfl
@[simp] theorem Cog.branchTo_pc (c : Cog) (tgt : RegAddr) : (c.branchTo tgt).pc = tgt := rfl
@[simp] theorem Cog.branchTo_z (c : Cog) (tgt : RegAddr) : (c.branchTo tgt).z = c.z := rfl
@[simp] theorem Cog.branchTo_c (c : Cog) (tgt : RegAddr) : (c.branchTo tgt).c = c.c := rfl
@[simp] theorem Cog.branchTo_quad (c : Cog) (tgt : RegAddr) : (c.branchTo tgt).quad = c.quad := rfl
@[simp] theorem Cog.branchTo_qbase (c : Cog) (tgt : RegAddr) : (c.branchTo tgt).qbase = c.qbase := rfl
@[simp] theorem Cog.branchTo_cacheValid (c : Cog) (tgt : RegAddr) : (c.branchTo tgt).cacheValid = c.cacheValid := rfl
@[simp] theorem Cog.branchTo_cacheTag (c : Cog) (tgt : RegAddr) : (c.branchTo tgt).cacheTag = c.cacheTag := rfl
@[simp] theorem Cog.branchTo_ptra (c : Cog) (tgt : RegAddr) : (c.branchTo tgt).ptra = c.ptra := rfl
@[simp] theorem Cog.branchTo_ptrb (c : Cog) (tgt : RegAddr) : (c.branchTo tgt).ptrb = c.ptrb := rfl
@[simp] theorem Cog.branchTo_inda (c : Cog) (tgt : RegAddr) : (c.branchTo tgt).inda = c.inda.older := rfl
@[simp] theorem Cog.branchTo_indb (c : Cog) (tgt : RegAddr) : (c.branchTo tgt).indb = c.indb.older := rfl
@[simp] theorem Cog.branchTo_cogsel (c : Cog) (tgt : RegAddr) : (c.branchTo tgt).cogsel = c.cogsel := rfl
@[simp] theorem Cog.branchTo_stack (c : Cog) (tgt : RegAddr) : (c.branchTo tgt).stack = c.stack := rfl
@[simp] theorem Cog.branchTo_spa (c : Cog) (tgt : RegAddr) : (c.branchTo tgt).spa = c.spa := rfl
@[simp] theorem Cog.branchTo_spb (c : Cog) (tgt : RegAddr) : (c.branchTo tgt).spb = c.spb := rfl
@[simp] theorem Cog.branchTo_ctra (c : Cog) (tgt : RegAddr) : (c.branchTo tgt).ctra = c.ctra := rfl
@[simp] theorem Cog.branchTo_ctrb (c : Cog) (tgt : RegAddr) : (c.branchTo tgt).ctrb = c.ctrb := rfl
@[simp] theorem Cog.branchTo_dac (c : Cog) (tgt : RegAddr) : (c.branchTo tgt).dac = c.dac := rfl
@[simp] theorem Cog.branchTo_lfsr (c : Cog) (tgt : RegAddr) : (c.branchTo tgt).lfsr = c.lfsr := rfl
@[simp] theorem Cog.branchTo_vid (c : Cog) (tgt : RegAddr) : (c.branchTo tgt).vid = c.vid := rfl
@[simp] theorem Cog.branchTo_pix (c : Cog) (tgt : RegAddr) : (c.branchTo tgt).pix = c.pix := rfl
@[simp] theorem Cog.branchTo_xfr (c : Cog) (tgt : RegAddr) : (c.branchTo tgt).xfr = c.xfr := rfl
@[simp] theorem Cog.branchTo_mul (c : Cog) (tgt : RegAddr) : (c.branchTo tgt).mul = c.mul := rfl
@[simp] theorem Cog.branchTo_div (c : Cog) (tgt : RegAddr) : (c.branchTo tgt).div = c.div := rfl
@[simp] theorem Cog.branchTo_sqr (c : Cog) (tgt : RegAddr) : (c.branchTo tgt).sqr = c.sqr := rfl
@[simp] theorem Cog.branchTo_cordic (c : Cog) (tgt : RegAddr) : (c.branchTo tgt).cordic = c.cordic := rfl
@[simp] theorem Cog.branchTo_acca (c : Cog) (tgt : RegAddr) : (c.branchTo tgt).acca = c.acca := rfl
@[simp] theorem Cog.branchTo_accb (c : Cog) (tgt : RegAddr) : (c.branchTo tgt).accb = c.accb := rfl
@[simp] theorem Cog.branchTo_cntSeq (c : Cog) (tgt : RegAddr) : (c.branchTo tgt).cntSeq = .idle := rfl
@[simp] theorem Cog.branchTo_cntHi (c : Cog) (tgt : RegAddr) : (c.branchTo tgt).cntHi = c.cntHi := rfl
@[simp] theorem Cog.branchTo_cntBorrow (c : Cog) (tgt : RegAddr) : (c.branchTo tgt).cntBorrow = c.cntBorrow := rfl
@[simp] theorem Cog.branchTo_lastStored (c : Cog) (tgt : RegAddr) : (c.branchTo tgt).lastStored = c.lastStored := rfl
@[simp] theorem Cog.branchTo_pend (c : Cog) (tgt : RegAddr) : (c.branchTo tgt).pend = c.pend := rfl
@[simp] theorem Cog.branchTo_haz (c : Cog) (tgt : RegAddr) : (c.branchTo tgt).haz = c.haz.branch := rfl

/-! ## Cog.delayTo -/

@[simp] theorem Cog.delayTo_run (c : Cog) (tgt : RegAddr) : (c.delayTo tgt).run = c.run := rfl
@[simp] theorem Cog.delayTo_ram (c : Cog) (tgt : RegAddr) : (c.delayTo tgt).ram = c.ram := rfl
@[simp] theorem Cog.delayTo_pc (c : Cog) (tgt : RegAddr) : (c.delayTo tgt).pc = c.advance.1 := rfl
@[simp] theorem Cog.delayTo_z (c : Cog) (tgt : RegAddr) : (c.delayTo tgt).z = c.z := rfl
@[simp] theorem Cog.delayTo_c (c : Cog) (tgt : RegAddr) : (c.delayTo tgt).c = c.c := rfl
@[simp] theorem Cog.delayTo_quad (c : Cog) (tgt : RegAddr) : (c.delayTo tgt).quad = c.quad := rfl
@[simp] theorem Cog.delayTo_qbase (c : Cog) (tgt : RegAddr) : (c.delayTo tgt).qbase = c.qbase := rfl
@[simp] theorem Cog.delayTo_cacheValid (c : Cog) (tgt : RegAddr) : (c.delayTo tgt).cacheValid = c.cacheValid := rfl
@[simp] theorem Cog.delayTo_cacheTag (c : Cog) (tgt : RegAddr) : (c.delayTo tgt).cacheTag = c.cacheTag := rfl
@[simp] theorem Cog.delayTo_ptra (c : Cog) (tgt : RegAddr) : (c.delayTo tgt).ptra = c.ptra := rfl
@[simp] theorem Cog.delayTo_ptrb (c : Cog) (tgt : RegAddr) : (c.delayTo tgt).ptrb = c.ptrb := rfl
@[simp] theorem Cog.delayTo_inda (c : Cog) (tgt : RegAddr) : (c.delayTo tgt).inda = c.inda.older := rfl
@[simp] theorem Cog.delayTo_indb (c : Cog) (tgt : RegAddr) : (c.delayTo tgt).indb = c.indb.older := rfl
@[simp] theorem Cog.delayTo_cogsel (c : Cog) (tgt : RegAddr) : (c.delayTo tgt).cogsel = c.cogsel := rfl
@[simp] theorem Cog.delayTo_stack (c : Cog) (tgt : RegAddr) : (c.delayTo tgt).stack = c.stack := rfl
@[simp] theorem Cog.delayTo_spa (c : Cog) (tgt : RegAddr) : (c.delayTo tgt).spa = c.spa := rfl
@[simp] theorem Cog.delayTo_spb (c : Cog) (tgt : RegAddr) : (c.delayTo tgt).spb = c.spb := rfl
@[simp] theorem Cog.delayTo_ctra (c : Cog) (tgt : RegAddr) : (c.delayTo tgt).ctra = c.ctra := rfl
@[simp] theorem Cog.delayTo_ctrb (c : Cog) (tgt : RegAddr) : (c.delayTo tgt).ctrb = c.ctrb := rfl
@[simp] theorem Cog.delayTo_dac (c : Cog) (tgt : RegAddr) : (c.delayTo tgt).dac = c.dac := rfl
@[simp] theorem Cog.delayTo_lfsr (c : Cog) (tgt : RegAddr) : (c.delayTo tgt).lfsr = c.lfsr := rfl
@[simp] theorem Cog.delayTo_vid (c : Cog) (tgt : RegAddr) : (c.delayTo tgt).vid = c.vid := rfl
@[simp] theorem Cog.delayTo_pix (c : Cog) (tgt : RegAddr) : (c.delayTo tgt).pix = c.pix := rfl
@[simp] theorem Cog.delayTo_xfr (c : Cog) (tgt : RegAddr) : (c.delayTo tgt).xfr = c.xfr := rfl
@[simp] theorem Cog.delayTo_mul (c : Cog) (tgt : RegAddr) : (c.delayTo tgt).mul = c.mul := rfl
@[simp] theorem Cog.delayTo_div (c : Cog) (tgt : RegAddr) : (c.delayTo tgt).div = c.div := rfl
@[simp] theorem Cog.delayTo_sqr (c : Cog) (tgt : RegAddr) : (c.delayTo tgt).sqr = c.sqr := rfl
@[simp] theorem Cog.delayTo_cordic (c : Cog) (tgt : RegAddr) : (c.delayTo tgt).cordic = c.cordic := rfl
@[simp] theorem Cog.delayTo_acca (c : Cog) (tgt : RegAddr) : (c.delayTo tgt).acca = c.acca := rfl
@[simp] theorem Cog.delayTo_accb (c : Cog) (tgt : RegAddr) : (c.delayTo tgt).accb = c.accb := rfl
@[simp] theorem Cog.delayTo_cntSeq (c : Cog) (tgt : RegAddr) : (c.delayTo tgt).cntSeq = .idle := rfl
@[simp] theorem Cog.delayTo_cntHi (c : Cog) (tgt : RegAddr) : (c.delayTo tgt).cntHi = c.cntHi := rfl
@[simp] theorem Cog.delayTo_cntBorrow (c : Cog) (tgt : RegAddr) : (c.delayTo tgt).cntBorrow = c.cntBorrow := rfl
@[simp] theorem Cog.delayTo_lastStored (c : Cog) (tgt : RegAddr) : (c.delayTo tgt).lastStored = c.lastStored := rfl
@[simp] theorem Cog.delayTo_pend (c : Cog) (tgt : RegAddr) : (c.delayTo tgt).pend = some ⟨tgt, 3⟩ := rfl
@[simp] theorem Cog.delayTo_haz (c : Cog) (tgt : RegAddr) : (c.delayTo tgt).haz = c.haz.retire 1 := rfl

/-! ## Cog.flagZ -/

@[simp] theorem Cog.flagZ_run (c : Cog) (wz z : Bool) : (c.flagZ wz z).run = c.run := rfl
@[simp] theorem Cog.flagZ_ram (c : Cog) (wz z : Bool) : (c.flagZ wz z).ram = c.ram := rfl
@[simp] theorem Cog.flagZ_pc (c : Cog) (wz z : Bool) : (c.flagZ wz z).pc = c.pc := rfl
@[simp] theorem Cog.flagZ_z (c : Cog) (wz z : Bool) : (c.flagZ wz z).z = if wz then z else c.z := rfl
@[simp] theorem Cog.flagZ_c (c : Cog) (wz z : Bool) : (c.flagZ wz z).c = c.c := rfl
@[simp] theorem Cog.flagZ_quad (c : Cog) (wz z : Bool) : (c.flagZ wz z).quad = c.quad := rfl
@[simp] theorem Cog.flagZ_qbase (c : Cog) (wz z : Bool) : (c.flagZ wz z).qbase = c.qbase := rfl
@[simp] theorem Cog.flagZ_cacheValid (c : Cog) (wz z : Bool) : (c.flagZ wz z).cacheValid = c.cacheValid := rfl
@[simp] theorem Cog.flagZ_cacheTag (c : Cog) (wz z : Bool) : (c.flagZ wz z).cacheTag = c.cacheTag := rfl
@[simp] theorem Cog.flagZ_ptra (c : Cog) (wz z : Bool) : (c.flagZ wz z).ptra = c.ptra := rfl
@[simp] theorem Cog.flagZ_ptrb (c : Cog) (wz z : Bool) : (c.flagZ wz z).ptrb = c.ptrb := rfl
@[simp] theorem Cog.flagZ_inda (c : Cog) (wz z : Bool) : (c.flagZ wz z).inda = c.inda := rfl
@[simp] theorem Cog.flagZ_indb (c : Cog) (wz z : Bool) : (c.flagZ wz z).indb = c.indb := rfl
@[simp] theorem Cog.flagZ_cogsel (c : Cog) (wz z : Bool) : (c.flagZ wz z).cogsel = c.cogsel := rfl
@[simp] theorem Cog.flagZ_stack (c : Cog) (wz z : Bool) : (c.flagZ wz z).stack = c.stack := rfl
@[simp] theorem Cog.flagZ_spa (c : Cog) (wz z : Bool) : (c.flagZ wz z).spa = c.spa := rfl
@[simp] theorem Cog.flagZ_spb (c : Cog) (wz z : Bool) : (c.flagZ wz z).spb = c.spb := rfl
@[simp] theorem Cog.flagZ_ctra (c : Cog) (wz z : Bool) : (c.flagZ wz z).ctra = c.ctra := rfl
@[simp] theorem Cog.flagZ_ctrb (c : Cog) (wz z : Bool) : (c.flagZ wz z).ctrb = c.ctrb := rfl
@[simp] theorem Cog.flagZ_dac (c : Cog) (wz z : Bool) : (c.flagZ wz z).dac = c.dac := rfl
@[simp] theorem Cog.flagZ_lfsr (c : Cog) (wz z : Bool) : (c.flagZ wz z).lfsr = c.lfsr := rfl
@[simp] theorem Cog.flagZ_vid (c : Cog) (wz z : Bool) : (c.flagZ wz z).vid = c.vid := rfl
@[simp] theorem Cog.flagZ_pix (c : Cog) (wz z : Bool) : (c.flagZ wz z).pix = c.pix := rfl
@[simp] theorem Cog.flagZ_xfr (c : Cog) (wz z : Bool) : (c.flagZ wz z).xfr = c.xfr := rfl
@[simp] theorem Cog.flagZ_mul (c : Cog) (wz z : Bool) : (c.flagZ wz z).mul = c.mul := rfl
@[simp] theorem Cog.flagZ_div (c : Cog) (wz z : Bool) : (c.flagZ wz z).div = c.div := rfl
@[simp] theorem Cog.flagZ_sqr (c : Cog) (wz z : Bool) : (c.flagZ wz z).sqr = c.sqr := rfl
@[simp] theorem Cog.flagZ_cordic (c : Cog) (wz z : Bool) : (c.flagZ wz z).cordic = c.cordic := rfl
@[simp] theorem Cog.flagZ_acca (c : Cog) (wz z : Bool) : (c.flagZ wz z).acca = c.acca := rfl
@[simp] theorem Cog.flagZ_accb (c : Cog) (wz z : Bool) : (c.flagZ wz z).accb = c.accb := rfl
@[simp] theorem Cog.flagZ_cntSeq (c : Cog) (wz z : Bool) : (c.flagZ wz z).cntSeq = c.cntSeq := rfl
@[simp] theorem Cog.flagZ_cntHi (c : Cog) (wz z : Bool) : (c.flagZ wz z).cntHi = c.cntHi := rfl
@[simp] theorem Cog.flagZ_cntBorrow (c : Cog) (wz z : Bool) : (c.flagZ wz z).cntBorrow = c.cntBorrow := rfl
@[simp] theorem Cog.flagZ_lastStored (c : Cog) (wz z : Bool) : (c.flagZ wz z).lastStored = c.lastStored := rfl
@[simp] theorem Cog.flagZ_pend (c : Cog) (wz z : Bool) : (c.flagZ wz z).pend = c.pend := rfl
@[simp] theorem Cog.flagZ_haz (c : Cog) (wz z : Bool) : (c.flagZ wz z).haz = c.haz := rfl

/-! ## Cog.flagC -/

@[simp] theorem Cog.flagC_run (c : Cog) (wc b : Bool) : (c.flagC wc b).run = c.run := rfl
@[simp] theorem Cog.flagC_ram (c : Cog) (wc b : Bool) : (c.flagC wc b).ram = c.ram := rfl
@[simp] theorem Cog.flagC_pc (c : Cog) (wc b : Bool) : (c.flagC wc b).pc = c.pc := rfl
@[simp] theorem Cog.flagC_z (c : Cog) (wc b : Bool) : (c.flagC wc b).z = c.z := rfl
@[simp] theorem Cog.flagC_c (c : Cog) (wc b : Bool) : (c.flagC wc b).c = if wc then b else c.c := rfl
@[simp] theorem Cog.flagC_quad (c : Cog) (wc b : Bool) : (c.flagC wc b).quad = c.quad := rfl
@[simp] theorem Cog.flagC_qbase (c : Cog) (wc b : Bool) : (c.flagC wc b).qbase = c.qbase := rfl
@[simp] theorem Cog.flagC_cacheValid (c : Cog) (wc b : Bool) : (c.flagC wc b).cacheValid = c.cacheValid := rfl
@[simp] theorem Cog.flagC_cacheTag (c : Cog) (wc b : Bool) : (c.flagC wc b).cacheTag = c.cacheTag := rfl
@[simp] theorem Cog.flagC_ptra (c : Cog) (wc b : Bool) : (c.flagC wc b).ptra = c.ptra := rfl
@[simp] theorem Cog.flagC_ptrb (c : Cog) (wc b : Bool) : (c.flagC wc b).ptrb = c.ptrb := rfl
@[simp] theorem Cog.flagC_inda (c : Cog) (wc b : Bool) : (c.flagC wc b).inda = c.inda := rfl
@[simp] theorem Cog.flagC_indb (c : Cog) (wc b : Bool) : (c.flagC wc b).indb = c.indb := rfl
@[simp] theorem Cog.flagC_cogsel (c : Cog) (wc b : Bool) : (c.flagC wc b).cogsel = c.cogsel := rfl
@[simp] theorem Cog.flagC_stack (c : Cog) (wc b : Bool) : (c.flagC wc b).stack = c.stack := rfl
@[simp] theorem Cog.flagC_spa (c : Cog) (wc b : Bool) : (c.flagC wc b).spa = c.spa := rfl
@[simp] theorem Cog.flagC_spb (c : Cog) (wc b : Bool) : (c.flagC wc b).spb = c.spb := rfl
@[simp] theorem Cog.flagC_ctra (c : Cog) (wc b : Bool) : (c.flagC wc b).ctra = c.ctra := rfl
@[simp] theorem Cog.flagC_ctrb (c : Cog) (wc b : Bool) : (c.flagC wc b).ctrb = c.ctrb := rfl
@[simp] theorem Cog.flagC_dac (c : Cog) (wc b : Bool) : (c.flagC wc b).dac = c.dac := rfl
@[simp] theorem Cog.flagC_lfsr (c : Cog) (wc b : Bool) : (c.flagC wc b).lfsr = c.lfsr := rfl
@[simp] theorem Cog.flagC_vid (c : Cog) (wc b : Bool) : (c.flagC wc b).vid = c.vid := rfl
@[simp] theorem Cog.flagC_pix (c : Cog) (wc b : Bool) : (c.flagC wc b).pix = c.pix := rfl
@[simp] theorem Cog.flagC_xfr (c : Cog) (wc b : Bool) : (c.flagC wc b).xfr = c.xfr := rfl
@[simp] theorem Cog.flagC_mul (c : Cog) (wc b : Bool) : (c.flagC wc b).mul = c.mul := rfl
@[simp] theorem Cog.flagC_div (c : Cog) (wc b : Bool) : (c.flagC wc b).div = c.div := rfl
@[simp] theorem Cog.flagC_sqr (c : Cog) (wc b : Bool) : (c.flagC wc b).sqr = c.sqr := rfl
@[simp] theorem Cog.flagC_cordic (c : Cog) (wc b : Bool) : (c.flagC wc b).cordic = c.cordic := rfl
@[simp] theorem Cog.flagC_acca (c : Cog) (wc b : Bool) : (c.flagC wc b).acca = c.acca := rfl
@[simp] theorem Cog.flagC_accb (c : Cog) (wc b : Bool) : (c.flagC wc b).accb = c.accb := rfl
@[simp] theorem Cog.flagC_cntSeq (c : Cog) (wc b : Bool) : (c.flagC wc b).cntSeq = c.cntSeq := rfl
@[simp] theorem Cog.flagC_cntHi (c : Cog) (wc b : Bool) : (c.flagC wc b).cntHi = c.cntHi := rfl
@[simp] theorem Cog.flagC_cntBorrow (c : Cog) (wc b : Bool) : (c.flagC wc b).cntBorrow = c.cntBorrow := rfl
@[simp] theorem Cog.flagC_lastStored (c : Cog) (wc b : Bool) : (c.flagC wc b).lastStored = c.lastStored := rfl
@[simp] theorem Cog.flagC_pend (c : Cog) (wc b : Bool) : (c.flagC wc b).pend = c.pend := rfl
@[simp] theorem Cog.flagC_haz (c : Cog) (wc b : Bool) : (c.flagC wc b).haz = c.haz := rfl

/-! ## Cog.markFill -/

@[simp] theorem Cog.markFill_run (c : Cog) : (c.markFill).run = c.run := rfl
@[simp] theorem Cog.markFill_ram (c : Cog) : (c.markFill).ram = c.ram := rfl
@[simp] theorem Cog.markFill_pc (c : Cog) : (c.markFill).pc = c.pc := rfl
@[simp] theorem Cog.markFill_z (c : Cog) : (c.markFill).z = c.z := rfl
@[simp] theorem Cog.markFill_c (c : Cog) : (c.markFill).c = c.c := rfl
@[simp] theorem Cog.markFill_quad (c : Cog) : (c.markFill).quad = c.quad := rfl
@[simp] theorem Cog.markFill_qbase (c : Cog) : (c.markFill).qbase = c.qbase := rfl
@[simp] theorem Cog.markFill_cacheValid (c : Cog) : (c.markFill).cacheValid = c.cacheValid := rfl
@[simp] theorem Cog.markFill_cacheTag (c : Cog) : (c.markFill).cacheTag = c.cacheTag := rfl
@[simp] theorem Cog.markFill_ptra (c : Cog) : (c.markFill).ptra = c.ptra := rfl
@[simp] theorem Cog.markFill_ptrb (c : Cog) : (c.markFill).ptrb = c.ptrb := rfl
@[simp] theorem Cog.markFill_inda (c : Cog) : (c.markFill).inda = c.inda := rfl
@[simp] theorem Cog.markFill_indb (c : Cog) : (c.markFill).indb = c.indb := rfl
@[simp] theorem Cog.markFill_cogsel (c : Cog) : (c.markFill).cogsel = c.cogsel := rfl
@[simp] theorem Cog.markFill_stack (c : Cog) : (c.markFill).stack = c.stack := rfl
@[simp] theorem Cog.markFill_spa (c : Cog) : (c.markFill).spa = c.spa := rfl
@[simp] theorem Cog.markFill_spb (c : Cog) : (c.markFill).spb = c.spb := rfl
@[simp] theorem Cog.markFill_ctra (c : Cog) : (c.markFill).ctra = c.ctra := rfl
@[simp] theorem Cog.markFill_ctrb (c : Cog) : (c.markFill).ctrb = c.ctrb := rfl
@[simp] theorem Cog.markFill_dac (c : Cog) : (c.markFill).dac = c.dac := rfl
@[simp] theorem Cog.markFill_lfsr (c : Cog) : (c.markFill).lfsr = c.lfsr := rfl
@[simp] theorem Cog.markFill_vid (c : Cog) : (c.markFill).vid = c.vid := rfl
@[simp] theorem Cog.markFill_pix (c : Cog) : (c.markFill).pix = c.pix := rfl
@[simp] theorem Cog.markFill_xfr (c : Cog) : (c.markFill).xfr = c.xfr := rfl
@[simp] theorem Cog.markFill_mul (c : Cog) : (c.markFill).mul = c.mul := rfl
@[simp] theorem Cog.markFill_div (c : Cog) : (c.markFill).div = c.div := rfl
@[simp] theorem Cog.markFill_sqr (c : Cog) : (c.markFill).sqr = c.sqr := rfl
@[simp] theorem Cog.markFill_cordic (c : Cog) : (c.markFill).cordic = c.cordic := rfl
@[simp] theorem Cog.markFill_acca (c : Cog) : (c.markFill).acca = c.acca := rfl
@[simp] theorem Cog.markFill_accb (c : Cog) : (c.markFill).accb = c.accb := rfl
@[simp] theorem Cog.markFill_cntSeq (c : Cog) : (c.markFill).cntSeq = c.cntSeq := rfl
@[simp] theorem Cog.markFill_cntHi (c : Cog) : (c.markFill).cntHi = c.cntHi := rfl
@[simp] theorem Cog.markFill_cntBorrow (c : Cog) : (c.markFill).cntBorrow = c.cntBorrow := rfl
@[simp] theorem Cog.markFill_lastStored (c : Cog) : (c.markFill).lastStored = c.lastStored := rfl
@[simp] theorem Cog.markFill_pend (c : Cog) : (c.markFill).pend = c.pend := rfl

/-! ## Cog.markMap -/

@[simp] theorem Cog.markMap_run (c : Cog) : (c.markMap).run = c.run := rfl
@[simp] theorem Cog.markMap_ram (c : Cog) : (c.markMap).ram = c.ram := rfl
@[simp] theorem Cog.markMap_pc (c : Cog) : (c.markMap).pc = c.pc := rfl
@[simp] theorem Cog.markMap_z (c : Cog) : (c.markMap).z = c.z := rfl
@[simp] theorem Cog.markMap_c (c : Cog) : (c.markMap).c = c.c := rfl
@[simp] theorem Cog.markMap_quad (c : Cog) : (c.markMap).quad = c.quad := rfl
@[simp] theorem Cog.markMap_qbase (c : Cog) : (c.markMap).qbase = c.qbase := rfl
@[simp] theorem Cog.markMap_cacheValid (c : Cog) : (c.markMap).cacheValid = c.cacheValid := rfl
@[simp] theorem Cog.markMap_cacheTag (c : Cog) : (c.markMap).cacheTag = c.cacheTag := rfl
@[simp] theorem Cog.markMap_ptra (c : Cog) : (c.markMap).ptra = c.ptra := rfl
@[simp] theorem Cog.markMap_ptrb (c : Cog) : (c.markMap).ptrb = c.ptrb := rfl
@[simp] theorem Cog.markMap_inda (c : Cog) : (c.markMap).inda = c.inda := rfl
@[simp] theorem Cog.markMap_indb (c : Cog) : (c.markMap).indb = c.indb := rfl
@[simp] theorem Cog.markMap_cogsel (c : Cog) : (c.markMap).cogsel = c.cogsel := rfl
@[simp] theorem Cog.markMap_stack (c : Cog) : (c.markMap).stack = c.stack := rfl
@[simp] theorem Cog.markMap_spa (c : Cog) : (c.markMap).spa = c.spa := rfl
@[simp] theorem Cog.markMap_spb (c : Cog) : (c.markMap).spb = c.spb := rfl
@[simp] theorem Cog.markMap_ctra (c : Cog) : (c.markMap).ctra = c.ctra := rfl
@[simp] theorem Cog.markMap_ctrb (c : Cog) : (c.markMap).ctrb = c.ctrb := rfl
@[simp] theorem Cog.markMap_dac (c : Cog) : (c.markMap).dac = c.dac := rfl
@[simp] theorem Cog.markMap_lfsr (c : Cog) : (c.markMap).lfsr = c.lfsr := rfl
@[simp] theorem Cog.markMap_vid (c : Cog) : (c.markMap).vid = c.vid := rfl
@[simp] theorem Cog.markMap_pix (c : Cog) : (c.markMap).pix = c.pix := rfl
@[simp] theorem Cog.markMap_xfr (c : Cog) : (c.markMap).xfr = c.xfr := rfl
@[simp] theorem Cog.markMap_mul (c : Cog) : (c.markMap).mul = c.mul := rfl
@[simp] theorem Cog.markMap_div (c : Cog) : (c.markMap).div = c.div := rfl
@[simp] theorem Cog.markMap_sqr (c : Cog) : (c.markMap).sqr = c.sqr := rfl
@[simp] theorem Cog.markMap_cordic (c : Cog) : (c.markMap).cordic = c.cordic := rfl
@[simp] theorem Cog.markMap_acca (c : Cog) : (c.markMap).acca = c.acca := rfl
@[simp] theorem Cog.markMap_accb (c : Cog) : (c.markMap).accb = c.accb := rfl
@[simp] theorem Cog.markMap_cntSeq (c : Cog) : (c.markMap).cntSeq = c.cntSeq := rfl
@[simp] theorem Cog.markMap_cntHi (c : Cog) : (c.markMap).cntHi = c.cntHi := rfl
@[simp] theorem Cog.markMap_cntBorrow (c : Cog) : (c.markMap).cntBorrow = c.cntBorrow := rfl
@[simp] theorem Cog.markMap_lastStored (c : Cog) : (c.markMap).lastStored = c.lastStored := rfl
@[simp] theorem Cog.markMap_pend (c : Cog) : (c.markMap).pend = c.pend := rfl

/-! ## Cog.markMac -/

@[simp] theorem Cog.markMac_run (c : Cog) : (c.markMac).run = c.run := rfl
@[simp] theorem Cog.markMac_ram (c : Cog) : (c.markMac).ram = c.ram := rfl
@[simp] theorem Cog.markMac_pc (c : Cog) : (c.markMac).pc = c.pc := rfl
@[simp] theorem Cog.markMac_z (c : Cog) : (c.markMac).z = c.z := rfl
@[simp] theorem Cog.markMac_c (c : Cog) : (c.markMac).c = c.c := rfl
@[simp] theorem Cog.markMac_quad (c : Cog) : (c.markMac).quad = c.quad := rfl
@[simp] theorem Cog.markMac_qbase (c : Cog) : (c.markMac).qbase = c.qbase := rfl
@[simp] theorem Cog.markMac_cacheValid (c : Cog) : (c.markMac).cacheValid = c.cacheValid := rfl
@[simp] theorem Cog.markMac_cacheTag (c : Cog) : (c.markMac).cacheTag = c.cacheTag := rfl
@[simp] theorem Cog.markMac_ptra (c : Cog) : (c.markMac).ptra = c.ptra := rfl
@[simp] theorem Cog.markMac_ptrb (c : Cog) : (c.markMac).ptrb = c.ptrb := rfl
@[simp] theorem Cog.markMac_inda (c : Cog) : (c.markMac).inda = c.inda := rfl
@[simp] theorem Cog.markMac_indb (c : Cog) : (c.markMac).indb = c.indb := rfl
@[simp] theorem Cog.markMac_cogsel (c : Cog) : (c.markMac).cogsel = c.cogsel := rfl
@[simp] theorem Cog.markMac_stack (c : Cog) : (c.markMac).stack = c.stack := rfl
@[simp] theorem Cog.markMac_spa (c : Cog) : (c.markMac).spa = c.spa := rfl
@[simp] theorem Cog.markMac_spb (c : Cog) : (c.markMac).spb = c.spb := rfl
@[simp] theorem Cog.markMac_ctra (c : Cog) : (c.markMac).ctra = c.ctra := rfl
@[simp] theorem Cog.markMac_ctrb (c : Cog) : (c.markMac).ctrb = c.ctrb := rfl
@[simp] theorem Cog.markMac_dac (c : Cog) : (c.markMac).dac = c.dac := rfl
@[simp] theorem Cog.markMac_lfsr (c : Cog) : (c.markMac).lfsr = c.lfsr := rfl
@[simp] theorem Cog.markMac_vid (c : Cog) : (c.markMac).vid = c.vid := rfl
@[simp] theorem Cog.markMac_pix (c : Cog) : (c.markMac).pix = c.pix := rfl
@[simp] theorem Cog.markMac_xfr (c : Cog) : (c.markMac).xfr = c.xfr := rfl
@[simp] theorem Cog.markMac_mul (c : Cog) : (c.markMac).mul = c.mul := rfl
@[simp] theorem Cog.markMac_div (c : Cog) : (c.markMac).div = c.div := rfl
@[simp] theorem Cog.markMac_sqr (c : Cog) : (c.markMac).sqr = c.sqr := rfl
@[simp] theorem Cog.markMac_cordic (c : Cog) : (c.markMac).cordic = c.cordic := rfl
@[simp] theorem Cog.markMac_acca (c : Cog) : (c.markMac).acca = c.acca := rfl
@[simp] theorem Cog.markMac_accb (c : Cog) : (c.markMac).accb = c.accb := rfl
@[simp] theorem Cog.markMac_cntSeq (c : Cog) : (c.markMac).cntSeq = c.cntSeq := rfl
@[simp] theorem Cog.markMac_cntHi (c : Cog) : (c.markMac).cntHi = c.cntHi := rfl
@[simp] theorem Cog.markMac_cntBorrow (c : Cog) : (c.markMac).cntBorrow = c.cntBorrow := rfl
@[simp] theorem Cog.markMac_lastStored (c : Cog) : (c.markMac).lastStored = c.lastStored := rfl
@[simp] theorem Cog.markMac_pend (c : Cog) : (c.markMac).pend = c.pend := rfl
@[simp] theorem Cog.markMac_haz (c : Cog) : (c.markMac).haz = { c.haz with macNow := true } := rfl
@[simp] theorem Cog.markMap_haz (c : Cog) : (c.markMap).haz = { c.haz with mapAge := 0 } := rfl
@[simp] theorem Cog.markFill_haz (c : Cog) : (c.markFill).haz = { c.haz with fillClocks := 0, fillReady := false } := rfl

/-! ## Hazard.retire and Hazard.branch -/

@[simp] theorem Hazard.retire_fresh (h : Hazard) (n : Nat) : (h.retire n).fresh = none := rfl
@[simp] theorem Hazard.retire_recent (h : Hazard) (n : Nat) : (h.retire n).recent = h.fresh :: h.recent.take 2 := rfl
@[simp] theorem Hazard.retire_fillClocks (h : Hazard) (n : Nat) : (h.retire n).fillClocks = min 3 (h.fillClocks + n) := rfl
@[simp] theorem Hazard.retire_mapAge (h : Hazard) (n : Nat) : (h.retire n).mapAge = min 4 (h.mapAge + 1) := rfl
@[simp] theorem Hazard.retire_macNow (h : Hazard) (n : Nat) : (h.retire n).macNow = false := rfl
@[simp] theorem Hazard.retire_macPrev (h : Hazard) (n : Nat) : (h.retire n).macPrev = h.macNow := rfl
@[simp] theorem Hazard.branch_recent (h : Hazard) : h.branch.recent = [] := rfl
@[simp] theorem Hazard.branch_macPrev (h : Hazard) : h.branch.macPrev = h.macNow := rfl

/-! ## Cog.stepPointers -/

@[simp] theorem Cog.stepPointers_run (c : Cog) (cc : CCCC) (d x : Option IndReg) : (c.stepPointers cc d x).run = c.run := rfl
@[simp] theorem Cog.stepPointers_ram (c : Cog) (cc : CCCC) (d x : Option IndReg) : (c.stepPointers cc d x).ram = c.ram := rfl
@[simp] theorem Cog.stepPointers_pc (c : Cog) (cc : CCCC) (d x : Option IndReg) : (c.stepPointers cc d x).pc = c.pc := rfl
@[simp] theorem Cog.stepPointers_z (c : Cog) (cc : CCCC) (d x : Option IndReg) : (c.stepPointers cc d x).z = c.z := rfl
@[simp] theorem Cog.stepPointers_c (c : Cog) (cc : CCCC) (d x : Option IndReg) : (c.stepPointers cc d x).c = c.c := rfl
@[simp] theorem Cog.stepPointers_quad (c : Cog) (cc : CCCC) (d x : Option IndReg) : (c.stepPointers cc d x).quad = c.quad := rfl
@[simp] theorem Cog.stepPointers_qbase (c : Cog) (cc : CCCC) (d x : Option IndReg) : (c.stepPointers cc d x).qbase = c.qbase := rfl
@[simp] theorem Cog.stepPointers_cacheValid (c : Cog) (cc : CCCC) (d x : Option IndReg) : (c.stepPointers cc d x).cacheValid = c.cacheValid := rfl
@[simp] theorem Cog.stepPointers_cacheTag (c : Cog) (cc : CCCC) (d x : Option IndReg) : (c.stepPointers cc d x).cacheTag = c.cacheTag := rfl
@[simp] theorem Cog.stepPointers_ptra (c : Cog) (cc : CCCC) (d x : Option IndReg) : (c.stepPointers cc d x).ptra = c.ptra := rfl
@[simp] theorem Cog.stepPointers_ptrb (c : Cog) (cc : CCCC) (d x : Option IndReg) : (c.stepPointers cc d x).ptrb = c.ptrb := rfl
@[simp] theorem Cog.stepPointers_cogsel (c : Cog) (cc : CCCC) (d x : Option IndReg) : (c.stepPointers cc d x).cogsel = c.cogsel := rfl
@[simp] theorem Cog.stepPointers_stack (c : Cog) (cc : CCCC) (d x : Option IndReg) : (c.stepPointers cc d x).stack = c.stack := rfl
@[simp] theorem Cog.stepPointers_spa (c : Cog) (cc : CCCC) (d x : Option IndReg) : (c.stepPointers cc d x).spa = c.spa := rfl
@[simp] theorem Cog.stepPointers_spb (c : Cog) (cc : CCCC) (d x : Option IndReg) : (c.stepPointers cc d x).spb = c.spb := rfl
@[simp] theorem Cog.stepPointers_ctra (c : Cog) (cc : CCCC) (d x : Option IndReg) : (c.stepPointers cc d x).ctra = c.ctra := rfl
@[simp] theorem Cog.stepPointers_ctrb (c : Cog) (cc : CCCC) (d x : Option IndReg) : (c.stepPointers cc d x).ctrb = c.ctrb := rfl
@[simp] theorem Cog.stepPointers_dac (c : Cog) (cc : CCCC) (d x : Option IndReg) : (c.stepPointers cc d x).dac = c.dac := rfl
@[simp] theorem Cog.stepPointers_lfsr (c : Cog) (cc : CCCC) (d x : Option IndReg) : (c.stepPointers cc d x).lfsr = c.lfsr := rfl
@[simp] theorem Cog.stepPointers_vid (c : Cog) (cc : CCCC) (d x : Option IndReg) : (c.stepPointers cc d x).vid = c.vid := rfl
@[simp] theorem Cog.stepPointers_pix (c : Cog) (cc : CCCC) (d x : Option IndReg) : (c.stepPointers cc d x).pix = c.pix := rfl
@[simp] theorem Cog.stepPointers_xfr (c : Cog) (cc : CCCC) (d x : Option IndReg) : (c.stepPointers cc d x).xfr = c.xfr := rfl
@[simp] theorem Cog.stepPointers_mul (c : Cog) (cc : CCCC) (d x : Option IndReg) : (c.stepPointers cc d x).mul = c.mul := rfl
@[simp] theorem Cog.stepPointers_div (c : Cog) (cc : CCCC) (d x : Option IndReg) : (c.stepPointers cc d x).div = c.div := rfl
@[simp] theorem Cog.stepPointers_sqr (c : Cog) (cc : CCCC) (d x : Option IndReg) : (c.stepPointers cc d x).sqr = c.sqr := rfl
@[simp] theorem Cog.stepPointers_cordic (c : Cog) (cc : CCCC) (d x : Option IndReg) : (c.stepPointers cc d x).cordic = c.cordic := rfl
@[simp] theorem Cog.stepPointers_acca (c : Cog) (cc : CCCC) (d x : Option IndReg) : (c.stepPointers cc d x).acca = c.acca := rfl
@[simp] theorem Cog.stepPointers_accb (c : Cog) (cc : CCCC) (d x : Option IndReg) : (c.stepPointers cc d x).accb = c.accb := rfl
@[simp] theorem Cog.stepPointers_cntSeq (c : Cog) (cc : CCCC) (d x : Option IndReg) : (c.stepPointers cc d x).cntSeq = c.cntSeq := rfl
@[simp] theorem Cog.stepPointers_cntHi (c : Cog) (cc : CCCC) (d x : Option IndReg) : (c.stepPointers cc d x).cntHi = c.cntHi := rfl
@[simp] theorem Cog.stepPointers_cntBorrow (c : Cog) (cc : CCCC) (d x : Option IndReg) : (c.stepPointers cc d x).cntBorrow = c.cntBorrow := rfl
@[simp] theorem Cog.stepPointers_lastStored (c : Cog) (cc : CCCC) (d x : Option IndReg) : (c.stepPointers cc d x).lastStored = c.lastStored := rfl
@[simp] theorem Cog.stepPointers_pend (c : Cog) (cc : CCCC) (d x : Option IndReg) : (c.stepPointers cc d x).pend = c.pend := rfl
@[simp] theorem Cog.stepPointers_haz (c : Cog) (cc : CCCC) (d x : Option IndReg) : (c.stepPointers cc d x).haz = c.haz := rfl

end Sys2Proof.Machine
end

