-- ==== Sys2Proof/Laws/Ops.lean ====
section
/-! SUPPORT. For each shared operation, once, everything it can do: later proofs cite these and unfold none of them. -/

namespace Sys2Proof.Machine

/-! ## The moving cog and views -/

@[simp] theorem State.cog_withCog (s : State) (c : Cog) : (s.withCog c).cog = c := by
  simp [State.cog]

@[simp] theorem State.cog_withView (s : State) (v : View) : (s.withView v).cog = v.cog := by
  simp [State.cog]

@[simp] theorem State.cog_drawn (s : State) (n : Nat) : (s.drawn n).cog = s.cog := rfl

@[simp] theorem State.withCog_withCog (s : State) (c g : Cog) : (s.withCog c).withCog g = s.withCog g := by
  simp [State.withCog, State.setCog]

@[simp] theorem State.withView_withCog (s : State) (c : Cog) (v : View) :
    (s.withCog c).withView v = s.withView v := by
  simp [State.withCog, State.setCog, State.withView]

@[simp] theorem State.withCog_cog (s : State) : s.withCog s.cog = s := by
  simp [State.withCog, State.setCog, State.cog]

/-- The view of a state whose moving cog was replaced. -/
@[simp] theorem State.view_withCog (s : State) (c : Cog) :
    (s.withCog c).view = { hub := s.hub, cog := c, num := s.cur, draws := s.draws } := by
  simp [State.view]

/-- Any cog of a state whose moving cog was replaced. -/
theorem State.cogs_withCog (s : State) (c : Cog) (n : Fin 8) :
    (s.withCog c).cogs[n.val] = if n = s.cur then c else s.cogs[n.val] := by
  simp only [State.withCog_cogs, Vector.getElem_set]
  by_cases h : n = s.cur
  · simp [h]
  · have : ¬ s.cur.val = n.val := fun e => h (Fin.ext e.symm)
    simp [h, this]

/-- Any cog of a state in which cog `k` was replaced. -/
theorem State.cogs_setCog (s : State) (k : Fin 8) (c : Cog) (n : Fin 8) :
    (s.setCog k c).cogs[n.val] = if n = k then c else s.cogs[n.val] := by
  simp only [State.setCog_cogs, Vector.getElem_set]
  by_cases h : n = k
  · simp [h]
  · have : ¬ k.val = n.val := fun e => h (Fin.ext e.symm)
    simp [h, this]

/-- Two states with the same parts and the same cogs are the same. -/
theorem State.ext_cogs {s t : State} (h1 : t.hub = s.hub) (h2 : ∀ n : Fin 8, t.cogs[n.val] = s.cogs[n.val])
    (h3 : t.cur = s.cur) (h4 : t.draws = s.draws) : t = s := by
  cases s; cases t
  simp only at h1 h2 h3 h4
  subst h1 h3 h4
  congr
  exact Vector.ext fun i hi => h2 ⟨i, hi⟩

/-- What stood in the moving cog before is gone when it is replaced again. -/
theorem State.withCog_setCog (s : State) (n : Fin 8) (c x g : Cog) :
    ((s.withCog c).setCog n x).withCog g = (s.setCog n x).withCog g := by
  refine State.ext_cogs rfl (fun m => ?_) rfl rfl
  rw [State.cogs_withCog, State.cogs_withCog, State.cogs_setCog, State.cogs_setCog, State.cogs_withCog]
  simp only [State.setCog_cur, State.withCog_cur]
  by_cases h1 : m = s.cur <;> by_cases h2 : m = n <;> simp [h1, h2]

/-- Replacing another cog leaves the moving one. -/
theorem State.cog_setCog {s : State} {n : Fin 8} (hn : n ≠ s.cur) (x : Cog) : (s.setCog n x).cog = s.cog := by
  have := State.cogs_setCog s n x s.cur
  rw [if_neg (Ne.symm hn)] at this
  exact this

/-- Starting another cog than the moving one. -/
theorem State.startCog_other {s : State} {n : Fin 8} (hn : n ≠ s.cur) (g : Cog) (base param : HubAddr) :
    (s.withCog g).startCog n base param =
      { (s.setCog n ((s.cogs[n.val]).start base param s.draws)).withCog g with draws := s.draws + startDraws } := by
  have hc : (s.withCog g).cogs[n.val] = s.cogs[n.val] := by rw [State.cogs_withCog, if_neg hn]
  refine State.ext_cogs rfl (fun m => ?_) rfl rfl
  show ((s.withCog g).setCog n (((s.withCog g).cogs[n.val]).start base param (s.withCog g).draws)).cogs[m.val]
    = ((s.setCog n ((s.cogs[n.val]).start base param s.draws)).withCog g).cogs[m.val]
  rw [hc, State.cogs_setCog, State.cogs_withCog, State.cogs_withCog, State.cogs_setCog, State.setCog_cur,
    State.withCog_draws]
  by_cases h1 : m = n
  · subst h1; rw [if_pos rfl, if_neg hn, if_pos rfl]
  · rw [if_neg h1, if_neg h1]

/-- The view an instruction's body gets when its operands resolve to the cog `c`. -/
def State.viewOf (s : State) (c : Cog) : View := { hub := s.hub, cog := c, num := s.cur, draws := s.draws }

@[simp] theorem State.viewOf_hub (s : State) (c : Cog) : (s.viewOf c).hub = s.hub := rfl
@[simp] theorem State.viewOf_cog (s : State) (c : Cog) : (s.viewOf c).cog = c := rfl
@[simp] theorem State.viewOf_num (s : State) (c : Cog) : (s.viewOf c).num = s.cur := rfl
@[simp] theorem State.viewOf_draws (s : State) (c : Cog) : (s.viewOf c).draws = s.draws := rfl

/-! ## The frames -/

theorem State.chipInstr_go {s : State} {cc : CCCC} {d x : Option RegAddr} {da sa : RegAddr} {c : Cog}
    (h : s.cog.resolve cc d x = .ok (.go da sa c)) (body : RegAddr → RegAddr → State → Except Refusal State) :
    s.chipInstr cc d x body = toOut (body da sa (s.withCog c)) := by
  simp only [State.chipInstr, h]

theorem State.chipInstr_skip {s : State} {cc : CCCC} {d x : Option RegAddr}
    (h : s.cog.resolve cc d x = .ok .skip) (body : RegAddr → RegAddr → State → Except Refusal State) :
    s.chipInstr cc d x body = .next (s.withCog s.cog.skip) := by
  simp only [State.chipInstr, h]

theorem State.instr_go {s : State} {cc : CCCC} {d x : Option RegAddr} {da sa : RegAddr} {c : Cog}
    (h : s.cog.resolve cc d x = .ok (.go da sa c)) (body : RegAddr → RegAddr → View → Except Refusal View) :
    s.instr cc d x body = toOut ((body da sa (s.viewOf c)).map s.withView) := by
  have hf : (fun v => (s.withCog c).withView v) = s.withView := funext fun v => s.withView_withCog c v
  simp only [State.instr, State.chipInstr_go h, State.view_withCog, State.viewOf, hf]

theorem State.instr_skip {s : State} {cc : CCCC} {d x : Option RegAddr}
    (h : s.cog.resolve cc d x = .ok .skip) (body : RegAddr → RegAddr → View → Except Refusal View) :
    s.instr cc d x body = .next (s.withCog s.cog.skip) := State.chipInstr_skip h _

/-- When the operands resolve and the body ends, so does the instruction. -/
theorem State.instr_next {s : State} {cc : CCCC} {d x : Option RegAddr} {da sa : RegAddr} {c : Cog}
    (h : s.cog.resolve cc d x = .ok (.go da sa c)) {body : RegAddr → RegAddr → View → Except Refusal View} {v : View}
    (hb : body da sa (s.viewOf c) = .ok v) : s.instr cc d x body = .next (s.withView v) := by
  rw [State.instr_go h, hb]; rfl

theorem State.instr_refused {s : State} {cc : CCCC} {d x : Option RegAddr} {da sa : RegAddr} {c : Cog}
    (h : s.cog.resolve cc d x = .ok (.go da sa c)) {body : RegAddr → RegAddr → View → Except Refusal View} {r : Refusal}
    (hb : body da sa (s.viewOf c) = .error r) : s.instr cc d x body = .refused r := by
  rw [State.instr_go h, hb]; rfl

theorem State.branchInstr_eq {s : State} (hp : s.cog.pend = none) (cc : CCCC) (d x : Option RegAddr)
    (body : RegAddr → RegAddr → View → Except Refusal View) : s.branchInstr cc d x body = s.instr cc d x body := by
  simp [State.branchInstr, hp]

theorem State.branchInstr_pending {s : State} (hp : s.cog.pend ≠ none) (cc : CCCC) (d x : Option RegAddr)
    (body : RegAddr → RegAddr → View → Except Refusal View) :
    s.branchInstr cc d x body = .refused .branchInDelaySlot := by
  cases h : s.cog.pend with
  | none => exact absurd h hp
  | some p => simp [State.branchInstr, h]

theorem State.nrInstr_eq {s : State} {d : BitVec 9} (hd : isIndAddr d = false) (cc : CCCC) (x : Option RegAddr)
    (body : RegAddr → View → Except Refusal View) :
    s.nrInstr cc d x body = s.branchInstr cc none x fun _ sa v => body sa v := by
  simp [State.nrInstr, hd]

/-- The frame of a register or immediate D, or of a register or PTR expression, whose field is no collision. -/
theorem State.fieldInstr_eq {s : State} {isReg : Bool} {f : BitVec 9} (hf : fieldOk isReg f) (cc : CCCC)
    (body : RegAddr → View → Except Refusal View) :
    s.fieldInstr cc isReg f body = s.instr cc (if isReg then some f else none) none fun da _ v => body da v := by
  cases isReg with
  | true => simp [State.fieldInstr]
  | false => simp [State.fieldInstr, hf rfl]

theorem RegOrImm.regField_eq (x : RegOrImm) : (if !x.sel then some x.field else none) = x.regField := by
  cases x <;> rfl

theorem HubOp.regField_eq (x : HubOp) : (if !x.sel then some x.field else none) = x.regField := by
  cases x <;> rfl

/-! ## Resolving operands -/

/-- Resolving changes only the indirect pointers. -/
theorem Cog.resolve_frame {c g : Cog} {cc : CCCC} {d x : Option RegAddr} {da sa : RegAddr}
    (h : c.resolve cc d x = .ok (.go da sa g)) :
    g = { c with inda := { c.inda with ptr := g.inda.ptr }, indb := { c.indb with ptr := g.indb.ptr } } := by
  unfold Cog.resolve at h
  split at h
  · split at h
    · cases h; rfl
    · cases h
  · cases ha : c.fieldAddr (d.getD 0) (formD cc) with
    | error r => rw [ha] at h; cases h
    | ok a =>
      cases hb : c.fieldAddr (x.getD 0) (formS cc) with
      | error r => rw [ha, hb] at h; cases h
      | ok b => rw [ha, hb] at h; cases h; rfl

/-- Without an indirect operand CCCC is the condition. -/
theorem Cog.resolve_direct {c : Cog} {cc : CCCC} {d x : Option RegAddr} (hd : d.bind indReg = none)
    (hx : x.bind indReg = none) :
    c.resolve cc d x = .ok (if condHolds cc c.z c.c then .go (d.getD 0) (x.getD 0) c else .skip) := by
  simp only [Cog.resolve, hd, hx]

/-! ## Ends -/

/-- An instruction that left the view `v` ends with `g` as its cog. -/
theorem State.endsAs_withView {s : State} {v : View} {h : Hub} {g : Cog} (hh : v.hub = h)
    (hg : g.withPipe v.cog = v.cog) : s.EndsAs (s.withView v) h g := by
  subst hh
  simp only [State.EndsAs, State.cog_withView, hg]
  rfl

/-- Going on is what `Cog.advance` says. -/
theorem State.goesOn_of_advance {s t : State} (h : (t.cog.pc, t.cog.pend) = s.cog.advance) : s.GoesOn t := by
  unfold Cog.advance at h
  unfold State.GoesOn
  split <;> rename_i hp <;> simp only [hp] at h
  · exact ⟨congrArg Prod.fst h, congrArg Prod.snd h⟩
  · split <;> rename_i hl <;> simp only [hl] at h
    · exact ⟨congrArg Prod.fst h, congrArg Prod.snd h⟩
    · exact ⟨congrArg Prod.fst h, congrArg Prod.snd h⟩

/-- The next address and pending branch depend on nothing else of the cog. -/
theorem Cog.advance_congr {c g : Cog} (hp : g.pc = c.pc) (hq : g.pend = c.pend) : g.advance = c.advance := by
  simp only [Cog.advance, hp, hq]

theorem State.finishes_withView {s : State} {v : View} {g : Cog} (hh : v.hub = s.hub)
    (hg : g.withPipe v.cog = v.cog) (ha : (v.cog.pc, v.cog.pend) = s.cog.advance) : s.Finishes (s.withView v) g :=
  ⟨State.endsAs_withView hh hg, State.goesOn_of_advance (by rw [State.cog_withView, ha])⟩

/-- The same for a state in which only the moving cog was replaced. -/
theorem State.endsAs_withCog {s : State} {g p : Cog} (hg : g.withPipe p = p) : s.EndsAs (s.withCog p) s.hub g := by
  simp only [State.EndsAs, State.cog_withCog, hg]
  rfl

theorem State.finishes_withCog {s : State} {g p : Cog} (hg : g.withPipe p = p)
    (ha : (p.pc, p.pend) = s.cog.advance) : s.Finishes (s.withCog p) g :=
  ⟨State.endsAs_withCog hg, State.goesOn_of_advance (by rw [State.cog_withCog, ha])⟩

/-! ## Register reads and writes -/

/-- The overlay depends on the QUAD base alone. -/
theorem Cog.quadAt_congr {c g : Cog} (h : g.qbase = c.qbase) (a : RegAddr) : g.quadAt a = c.quadAt a := by
  unfold Cog.quadAt; rw [h]

theorem Cog.x_congr {c g : Cog} (hr : g.ram = c.ram) (hq : g.quad = c.quad) (hb : g.qbase = c.qbase) (a : RegAddr) :
    g.x a = c.x a := by
  simp only [Cog.x, Cog.quadAt_congr hb a, hr, hq]

theorem Cog.quadAt_inj {c : Cog} {a b : RegAddr} {k : Fin 4} (ha : c.quadAt a = some k) (hb : c.quadAt b = some k) :
    a = b := by
  unfold Cog.quadAt at ha hb
  split at ha
  · cases ha
  · rename_i hq
    simp only [hq, if_false] at hb
    split at ha <;> [skip; cases ha]
    split at ha <;> [skip; cases ha]
    split at hb <;> [skip; cases hb]
    split at hb <;> [skip; cases hb]
    have h1 := congrArg Fin.val (Option.some.inj ha)
    have h2 := congrArg Fin.val (Option.some.inj hb)
    simp only at h1 h2
    apply BitVec.eq_of_toNat_eq
    omega

theorem Cog.write_ok (c : Cog) {a : RegAddr} (v : Word) (ha : plainReg a) :
    c.write a v = .ok { c with
      ram := Cells.write c.ram a.toNat v, quad := c.quadWrite a v, lastStored := v,
      haz := { c.haz with fresh := some a } } := by
  simp only [Cog.write, Nat.not_le.mpr ha, if_false]

theorem Cog.write_special (c : Cog) {a : RegAddr} (v : Word) (ha : ¬ plainReg a) :
    c.write a v = .error .specialRegister := by
  simp only [Cog.write, Nat.le_of_not_lt ha, if_true]

/-- A write that succeeds is to a plain register. -/
theorem Cog.write_inv {c g : Cog} {a : RegAddr} {v : Word} (h : c.write a v = .ok g) :
    plainReg a ∧ g = { c with
      ram := Cells.write c.ram a.toNat v, quad := c.quadWrite a v, lastStored := v,
      haz := { c.haz with fresh := some a } } := by
  by_cases ha : plainReg a
  · rw [Cog.write_ok c v ha] at h; exact ⟨ha, (Except.ok.inj h).symm⟩
  · rw [Cog.write_special c v ha] at h; cases h

/-- A read that succeeds is of a plain register. -/
theorem Cog.read_plain {c : Cog} {a : RegAddr} {v : Word} (h : c.read a = .ok v) : plainReg a := by
  unfold Cog.read at h
  split at h
  · cases h
  · rename_i hn; exact Nat.lt_of_not_le hn

/-- Reading depends on the registers and the hazard record alone. -/
theorem Cog.read_congr {c g : Cog} (hr : g.ram = c.ram) (hq : g.quad = c.quad) (hb : g.qbase = c.qbase)
    (hh : g.haz = c.haz) (a : RegAddr) : g.read a = c.read a := by
  simp only [Cog.read, Cog.x_congr hr hq hb a, Cog.quadAt_congr hb a, hh]

theorem Cog.ram_wf {c : Cog} (h : c.cellsOk = true) : Cells.wfFrom 512 0 c.ram = true := by
  simp only [Cog.cellsOk, Bool.and_eq_true] at h; exact h.1

/-- What `Wrote` says depends on the registers and the overlay alone. -/
theorem Cog.Wrote.congr {c g : Cog} {a : RegAddr} {v : Word} (hr : g.ram = Cells.write c.ram a.toNat v)
    (hq : g.quad = c.quadWrite a v) (hb : g.qbase = c.qbase) (hl : g.lastStored = v)
    (h : Cells.wfFrom 512 0 c.ram = true) : c.Wrote g a v := by
  have hat : ∀ b, g.quadAt b = c.quadAt b := Cog.quadAt_congr hb
  have hquad : ∀ k : Fin 4, g.quad[k.val] = if c.quadAt a = some k then v else c.quad[k.val] := by
    intro k
    rw [hq]
    unfold Cog.quadWrite
    cases hk : c.quadAt a with
    | none => simp
    | some j =>
      simp only [Vector.getElem_set, Option.some.injEq]
      by_cases hjk : j = k
      · simp [hjk]
      · have : ¬ j.val = k.val := fun e => hjk (Fin.ext e)
        simp [hjk, this]
  have hram : ∀ n, Cells.read g.ram n = if n = a.toNat then v else Cells.read c.ram n := by
    intro n; rw [hr]; exact Cells.read_write h _ _ _
  refine ⟨?_, hram, hquad, hl⟩
  intro b
  unfold Cog.x
  rw [hat b]
  cases hk : c.quadAt b with
  | none =>
    simp only
    rw [hram]
    by_cases hba : b = a
    · simp [hba]
    · have : ¬ b.toNat = a.toNat := fun e => hba (BitVec.eq_of_toNat_eq e)
      simp [hba, this]
  | some k =>
    simp only
    rw [hquad]
    by_cases hba : b = a
    · subst hba; simp [hk]
    · have : ¬ c.quadAt a = some k := fun e => hba (Cog.quadAt_inj hk e)
      simp [hba, this]

/-- A result written when asked: it goes to the register, or nothing changes. -/
theorem Cog.result_spec {c : Cog} (hw : Cells.wfFrom 512 0 c.ram = true) {wr : Bool} {da : RegAddr} (v : Word)
    (h : wr = true → plainReg da) :
    ∃ g, c.result wr da v = .ok g
      ∧ (∀ t : Cog, t.ram = g.ram → t.quad = g.quad → t.qbase = g.qbase → t.lastStored = g.lastStored →
          c.WroteIf t wr da v)
      ∧ g = { c with ram := g.ram, quad := g.quad, lastStored := g.lastStored, haz := g.haz } := by
  cases wr with
  | true => exact ⟨_, Cog.write_ok c v (h rfl), fun t h1 h2 h3 h4 => Cog.Wrote.congr h1 h2 h3 h4 hw, rfl⟩
  | false => exact ⟨c, rfl, fun t h1 h2 _ h4 => ⟨h1, h2, h4⟩, rfl⟩

/-! ## Bytes of hub memory -/

theorem Hub.setByte_frame (h : Hub) (a : Nat) (v : Byte) : h.setByte a v = { h with mem := (h.setByte a v).mem } := by
  unfold Hub.setByte; split <;> rfl

theorem Hub.setBytes_frame (h : Hub) (a : Nat) (l : List Byte) :
    h.setBytes a l = { h with mem := (h.setBytes a l).mem } := by
  induction l generalizing h a with
  | nil => rfl
  | cons b rest ih => simp only [Hub.setBytes]; rw [ih, Hub.setByte_frame]

/-- A byte write inside hub memory keeps the canonical form. -/
theorem Hub.setByte_wf {h : Hub} (hw : Memory.wf h.mem = true) {a : Nat} (ha : a < Config.hubBytes) (v : Byte) :
    Memory.wf (h.setByte a v).mem = true := by
  unfold Hub.setByte
  split
  · exact hw
  · rename_i hr; exact Cells.wfFrom_write hw v (Nat.le_of_not_lt hr) ha

theorem Hub.setBytes_wf {h : Hub} (hw : Memory.wf h.mem = true) {a : Nat} {l : List Byte}
    (ha : a + l.length ≤ Config.hubBytes) : Memory.wf (h.setBytes a l).mem = true := by
  induction l generalizing h a with
  | nil => exact hw
  | cons b rest ih =>
    simp only [List.length_cons] at ha
    exact ih (Hub.setByte_wf hw (by omega) b) (by omega)

/-- A byte after a byte write: the written one if it is RAM, else as before. -/
theorem Hub.byte_setByte {h : Hub} (hw : Memory.wf h.mem = true) (a : Nat) (v : Byte) (b : Nat) :
    (h.setByte a v).byte b = if b = a ∧ Config.ramBase ≤ b then v else h.byte b := by
  by_cases hr : a < Config.ramBase
  · have h1 : h.setByte a v = h := by simp only [Hub.setByte, hr, if_true]
    have h2 : ¬ (b = a ∧ Config.ramBase ≤ b) := by omega
    rw [h1, if_neg h2]
  · have h1 : h.setByte a v = { h with mem := Cells.write h.mem a v } := by simp only [Hub.setByte, hr, if_false]
    rw [h1]
    by_cases hb : b < Config.ramBase
    · have h2 : ¬ (b = a ∧ Config.ramBase ≤ b) := by omega
      simp only [Hub.byte, hb, if_true, h2, if_false]
    · have h2 : Config.ramBase ≤ b := Nat.le_of_not_lt hb
      simp only [Hub.byte, hb, if_false, h2, and_true]
      exact Cells.read_write hw a b v

/-- A byte after a write of consecutive bytes: one of them if it lies among them in RAM, else as before. -/
theorem Hub.byte_setBytes {h : Hub} (hw : Memory.wf h.mem = true) {a : Nat} {l : List Byte}
    (ha : a + l.length ≤ Config.hubBytes) (b : Nat) :
    (h.setBytes a l).byte b =
      if a ≤ b ∧ b < a + l.length ∧ Config.ramBase ≤ b then l.getD (b - a) 0 else h.byte b := by
  induction l generalizing h a with
  | nil =>
    have : ¬ (a ≤ b ∧ b < a + ([] : List Byte).length ∧ Config.ramBase ≤ b) := by simp only [List.length_nil]; omega
    rw [if_neg this]; rfl
  | cons v rest ih =>
    simp only [List.length_cons] at ha ⊢
    simp only [Hub.setBytes]
    rw [ih (Hub.setByte_wf hw (by omega) v) (by omega), Hub.byte_setByte hw]
    by_cases hba : b = a
    · subst hba
      have h1 : ¬ (b + 1 ≤ b ∧ b < b + 1 + rest.length ∧ Config.ramBase ≤ b) := by omega
      rw [if_neg h1]
      by_cases hr : Config.ramBase ≤ b
      · have h2 : b ≤ b ∧ b < b + (rest.length + 1) ∧ Config.ramBase ≤ b := by omega
        rw [if_pos ⟨rfl, hr⟩, if_pos h2]; simp
      · rw [if_neg (by tauto), if_neg (by tauto)]
    · by_cases hin : a ≤ b ∧ b < a + (rest.length + 1) ∧ Config.ramBase ≤ b
      · have h1 : a + 1 ≤ b ∧ b < a + 1 + rest.length ∧ Config.ramBase ≤ b := by omega
        rw [if_pos h1, if_pos hin]
        have h3 : b - a = (b - (a + 1)) + 1 := by omega
        rw [h3]; simp
      · have h1 : ¬ (a + 1 ≤ b ∧ b < a + 1 + rest.length ∧ Config.ramBase ≤ b) := by omega
        rw [if_neg h1, if_neg (by tauto), if_neg hin]

/-! ## Hub address operands -/

/-- A hub address operand changes at most the pointers. -/
theorem Cog.hubOperand_frame {c g : Cog} {x : HubOp} {sa : RegAddr} {scale : Nat} {a : HubAddr}
    (h : c.hubOperand x sa scale = .ok (a, g)) : g = { c with ptra := g.ptra, ptrb := g.ptrb } := by
  cases x with
  | reg f =>
    simp only [Cog.hubOperand] at h
    cases hr : c.read sa with
    | error r => rw [hr] at h; cases h
    | ok v => rw [hr] at h; cases h; rfl
  | ptr e =>
    simp only [Cog.hubOperand, Except.ok.injEq, Prod.mk.injEq] at h
    obtain ⟨-, rfl⟩ := h
    unfold Cog.ptrStep Cog.setPtr
    split
    · split <;> rfl
    · rfl

/-! ## Free choices -/

/-- A choice is one of its candidates. -/
theorem choose_mem (n : Nat) (first : Fin 8) (rest : List (Fin 8)) : choose n first rest ∈ first :: rest := by
  unfold choose
  have h : Config.freeNat n % (rest.length + 1) < (first :: rest).length := by
    simpa using Nat.mod_lt _ (Nat.succ_pos _)
  rw [List.getD_eq_getElem _ _ h]
  exact List.getElem_mem h

theorem State.mem_idleCogs {s : State} {n : Fin 8} : n ∈ s.idleCogs ↔ (s.cogs[n.val]).run = .idle := by
  unfold State.idleCogs
  rw [List.mem_filter]
  cases h : (s.cogs[n.val]).run <;> simp [Run.isIdle]

theorem Hub.mem_freeLocks {h : Hub} {n : Fin 8} : n ∈ h.freeLocks ↔ (h.locks[n.val]).out = false := by
  unfold Hub.freeLocks
  rw [List.mem_filter]
  simp

/-! ## Branches -/

/-- Selector bits make flags free, and nothing else (R114). -/
theorem View.selectors_eq (v : View) (bit25 bit24 : Bool) :
    v.selectors bit25 bit24 = { v with
      cog := { v.cog with
        z := if bit25 then Config.freeBit v.draws else v.cog.z,
        c := if bit24 then Config.freeBit (v.draws + bit25.toNat) else v.cog.c },
      draws := v.draws + bit25.toNat + bit24.toNat } := by
  cases bit25 <;> cases bit24 <;> rfl

/-- A branch ends in one of four ways (R320, R321, R544). -/
theorem View.branch_cases (v : View) (delayed cond taken : Bool) (tgt : RegAddr) :
    v.branch delayed cond taken tgt =
      if taken then
        if delayed then .ok (v.withCog (v.cog.delayTo tgt))
        else if cond && v.cog.stepsAhead then .error .stepAfterBranch
        else .ok (v.withCog (v.cog.branchTo tgt))
      else .ok (v.retire 1) := by
  unfold View.branch
  cases delayed <;> cases cond <;> cases hs : v.cog.stepsAhead <;> cases taken <;> simp [View.retire]

end Sys2Proof.Machine
end

