-- ==== Sys2Proof/Laws/Inv.lean ====
section
/-! SUPPORT. Each shared operation keeps memories in canonical form and cogs well formed. -/

namespace Sys2Proof.Machine

/-! ## What `ok` depends on -/

theorem State.ok_iff {s : State} :
    s.ok = true ↔ Memory.wf s.hub.mem = true ∧ ∀ n : Fin 8, (s.cogs[n.val]).ok = true := by
  simp only [State.ok, Bool.and_eq_true, List.all_eq_true, List.mem_finRange, forall_const]

theorem State.cog_ok {s : State} (h : s.ok = true) : s.cog.ok = true := (State.ok_iff.mp h).2 s.cur

theorem State.mem_ok {s : State} (h : s.ok = true) : Memory.wf s.hub.mem = true := (State.ok_iff.mp h).1

theorem Cog.ok_iff {c : Cog} :
    c.ok = true ↔ c.cellsOk = true ∧ c.quadOk = true ∧ c.pendOk = true ∧ c.loadOk = true := by
  simp only [Cog.ok, Bool.and_eq_true, and_assoc]

theorem Cog.ok_cells {c : Cog} (h : c.ok = true) : c.cellsOk = true := (Cog.ok_iff.mp h).1

theorem Cog.ok_ram {c : Cog} (h : c.ok = true) : Cells.wfFrom 512 0 c.ram = true := Cog.ram_wf (Cog.ok_cells h)

theorem Cog.ok_stack {c : Cog} (h : c.ok = true) : Cells.wfFrom 256 0 c.stack = true := by
  have := Cog.ok_cells h
  simp only [Cog.cellsOk, Bool.and_eq_true] at this
  exact this.2

/-- A cog is well formed when its parts are. -/
theorem Cog.ok_of {c g : Cog} (h : c.ok = true) (h1 : Cells.wfFrom 512 0 g.ram = true)
    (h2 : Cells.wfFrom 256 0 g.stack = true) (h3 : g.qbase = c.qbase) (h4 : g.pend = c.pend) (h5 : g.run = c.run) :
    g.ok = true := by
  obtain ⟨-, hq, hp, hl⟩ := Cog.ok_iff.mp h
  refine Cog.ok_iff.mpr ⟨?_, ?_, ?_, ?_⟩
  · simp only [Cog.cellsOk, h1, h2, Bool.and_self]
  · simpa only [Cog.quadOk, h3] using hq
  · simpa only [Cog.pendOk, h4] using hp
  · simpa only [Cog.loadOk, h5] using hl

/-- Well-formedness depends on the memories, the QUAD base, the pending branch and the run state alone. -/
theorem Cog.ok_congr {c g : Cog} (h : c.ok = true) (h1 : g.ram = c.ram) (h2 : g.stack = c.stack)
    (h3 : g.qbase = c.qbase) (h4 : g.pend = c.pend) (h5 : g.run = c.run) : g.ok = true :=
  Cog.ok_of h (h1 ▸ Cog.ok_ram h) (h2 ▸ Cog.ok_stack h) h3 h4 h5

/-! ## The parts of a state -/

theorem State.withCog_ok {s : State} {c : Cog} (h : s.ok = true) (hc : c.ok = true) : (s.withCog c).ok = true := by
  obtain ⟨hm, hs⟩ := State.ok_iff.mp h
  refine State.ok_iff.mpr ⟨hm, fun n => ?_⟩
  rw [State.cogs_withCog]
  split
  · exact hc
  · exact hs n

theorem State.setCog_ok {s : State} {k : Fin 8} {c : Cog} (h : s.ok = true) (hc : c.ok = true) :
    (s.setCog k c).ok = true := by
  obtain ⟨hm, hs⟩ := State.ok_iff.mp h
  refine State.ok_iff.mpr ⟨hm, fun n => ?_⟩
  rw [State.cogs_setCog]
  split
  · exact hc
  · exact hs n

theorem State.withView_ok {s : State} {v : View} (h : s.ok = true) (hm : Memory.wf v.hub.mem = true)
    (hc : v.cog.ok = true) : (s.withView v).ok = true := by
  have := State.ok_iff.mp (State.withCog_ok h hc)
  exact State.ok_iff.mpr ⟨hm, this.2⟩

/-! ## Cog operations -/

theorem Cog.retire_ok {c : Cog} (h : c.ok = true) (clk : Nat) : (c.retire clk).ok = true := by
  obtain ⟨hc, hq, hp, hl⟩ := Cog.ok_iff.mp h
  refine Cog.ok_iff.mpr ⟨hc, hq, ?_, hl⟩
  simp only [Cog.pendOk, Cog.retire_pend, Cog.advance] at hp ⊢
  cases hpe : c.pend with
  | none => rfl
  | some p =>
    simp only [hpe, Bool.and_eq_true, decide_eq_true_eq] at hp
    by_cases hle : p.left ≤ 1
    · simp only [hle, if_true]
    · simp only [hle, if_false, Bool.and_eq_true, decide_eq_true_eq]
      omega

theorem Cog.skip_ok {c : Cog} (h : c.ok = true) : c.skip.ok = true :=
  Cog.ok_congr (Cog.retire_ok h 1) rfl rfl rfl rfl rfl

theorem Cog.branchTo_ok {c : Cog} (h : c.ok = true) (tgt : RegAddr) : (c.branchTo tgt).ok = true :=
  Cog.ok_congr h rfl rfl rfl rfl rfl

theorem Cog.delayTo_ok {c : Cog} (h : c.ok = true) (tgt : RegAddr) : (c.delayTo tgt).ok = true := by
  obtain ⟨hc, hq, -, hl⟩ := Cog.ok_iff.mp h
  exact Cog.ok_iff.mpr ⟨hc, hq, rfl, hl⟩

theorem Cog.write_keeps {c g : Cog} {a : RegAddr} {v : Word} (h : c.ok = true) (hw : c.write a v = .ok g) :
    g.ok = true := by
  obtain ⟨-, rfl⟩ := Cog.write_inv hw
  exact Cog.ok_of h (Cells.wfFrom_write (Cog.ok_ram h) v (Nat.zero_le _) a.isLt)
    (show Cells.wfFrom 256 0 c.stack = true from Cog.ok_stack h) rfl rfl rfl

theorem Cog.result_keeps {c g : Cog} {wr : Bool} {a : RegAddr} {v : Word} (h : c.ok = true)
    (hw : c.result wr a v = .ok g) : g.ok = true := by
  cases wr with
  | true => exact Cog.write_keeps h hw
  | false => cases hw; exact h

theorem Cog.flagZ_ok {c : Cog} (h : c.ok = true) (w z : Bool) : (c.flagZ w z).ok = true :=
  Cog.ok_congr h rfl rfl rfl rfl rfl

theorem Cog.flagC_ok {c : Cog} (h : c.ok = true) (w b : Bool) : (c.flagC w b).ok = true :=
  Cog.ok_congr h rfl rfl rfl rfl rfl

theorem Cog.resolve_keeps {c g : Cog} {cc : CCCC} {d x : Option RegAddr} {da sa : RegAddr} (h : c.ok = true)
    (hr : c.resolve cc d x = .ok (.go da sa g)) : g.ok = true := by
  rw [Cog.resolve_frame hr]
  exact Cog.ok_congr h rfl rfl rfl rfl rfl

theorem Cog.hubOperand_keeps {c g : Cog} {x : HubOp} {sa : RegAddr} {scale : Nat} {a : HubAddr} (h : c.ok = true)
    (hr : c.hubOperand x sa scale = .ok (a, g)) : g.ok = true := by
  rw [Cog.hubOperand_frame hr]
  exact Cog.ok_congr h rfl rfl rfl rfl rfl

theorem Cog.link_keeps {c g : Cog} {delayed wz wc : Bool} {a : RegAddr} (h : c.ok = true)
    (hr : c.link delayed wz wc a = .ok g) : g.ok = true := by
  unfold Cog.link at hr
  cases hd : c.read a with
  | error r => rw [hd] at hr; cases hr
  | ok v => rw [hd] at hr; exact Cog.write_keeps h hr

/-! ## View operations -/

/-- The hub RAM of a view is canonical and its cog well formed. -/
def View.ok (v : View) : Prop := Memory.wf v.hub.mem = true ∧ v.cog.ok = true

theorem View.withCog_ok {v : View} (h : v.ok) {c : Cog} (hc : c.ok = true) : (v.withCog c).ok := ⟨h.1, hc⟩

theorem View.retire_ok {v : View} (h : v.ok) (clk : Nat) : (v.retire clk).ok := ⟨h.1, Cog.retire_ok h.2 clk⟩

theorem View.drawZ_ok {v : View} (h : v.ok) : v.drawZ.ok := ⟨h.1, Cog.ok_congr h.2 rfl rfl rfl rfl rfl⟩

theorem View.drawC_ok {v : View} (h : v.ok) : v.drawC.ok := ⟨h.1, Cog.ok_congr h.2 rfl rfl rfl rfl rfl⟩

theorem View.selectors_ok {v : View} (h : v.ok) (bit25 bit24 : Bool) : (v.selectors bit25 bit24).ok := by
  rw [View.selectors_eq]
  exact ⟨h.1, Cog.ok_congr h.2 rfl rfl rfl rfl rfl⟩

theorem View.branch_ok {v w : View} (h : v.ok) {delayed cond taken : Bool} {tgt : RegAddr}
    (hb : v.branch delayed cond taken tgt = .ok w) : w.ok := by
  rw [View.branch_cases] at hb
  split at hb
  · split at hb
    · cases hb; exact ⟨h.1, Cog.delayTo_ok h.2 tgt⟩
    · split at hb
      · cases hb
      · cases hb; exact ⟨h.1, Cog.branchTo_ok h.2 tgt⟩
  · cases hb; exact View.retire_ok h 1

theorem View.cacheLookup_ok {v : View} (h : v.ok) (a : HubAddr) : (v.cacheLookup a).ok := by
  unfold View.cacheLookup
  split
  · exact h
  · exact ⟨h.1, Cog.ok_congr h.2 rfl rfl rfl rfl rfl⟩

theorem View.endCached_ok {v : View} (h : v.ok) (hit : Bool) (clk : Nat) : (v.endCached hit clk).ok := by
  unfold View.endCached
  split
  · exact View.retire_ok h 1
  · exact ⟨h.1, Cog.ok_congr (Cog.retire_ok h.2 clk) rfl rfl rfl rfl rfl⟩

/-- An aligned unit of a size that divides hub memory lies in hub memory. -/
theorem aligned_add_le {n : Nat} (hn : 131072 % n = 0) (a : HubAddr) :
    aligned n a + n ≤ Config.hubBytes := by
  unfold aligned Config.hubBytes
  have ha := a.isLt
  obtain ⟨k, hk⟩ := Nat.dvd_of_mod_eq_zero hn
  have h1 : a.toNat / n < k := Nat.div_lt_of_lt_mul (by omega)
  calc a.toNat / n * n + n = (a.toNat / n + 1) * n := by ring
    _ ≤ k * n := Nat.mul_le_mul_right n h1
    _ = 131072 := by rw [hk, Nat.mul_comm]

/-! ## The frames -/

theorem State.chipInstr_ok {s t : State} (h : s.ok = true) {cc : CCCC} {d x : Option RegAddr}
    {body : RegAddr → RegAddr → State → Except Refusal State}
    (hb : ∀ da sa g t, g.ok = true → body da sa (s.withCog g) = .ok t → t.ok = true)
    (ht : s.chipInstr cc d x body = .next t) : t.ok = true := by
  unfold State.chipInstr at ht
  split at ht
  · cases ht
  · cases ht; exact State.withCog_ok h (Cog.skip_ok (State.cog_ok h))
  · rename_i da sa g hr
    cases hbo : body da sa (s.withCog g) with
    | error r => rw [hbo] at ht; cases ht
    | ok u => rw [hbo] at ht; cases ht; exact hb da sa g t (Cog.resolve_keeps (State.cog_ok h) hr) hbo

theorem State.instr_ok {s t : State} (h : s.ok = true) {cc : CCCC} {d x : Option RegAddr}
    {body : RegAddr → RegAddr → View → Except Refusal View}
    (hb : ∀ da sa (v w : View), v.ok → body da sa v = .ok w → w.ok)
    (ht : s.instr cc d x body = .next t) : t.ok = true := by
  refine State.chipInstr_ok h (fun da sa g u hg hu => ?_) ht
  simp only [State.view_withCog] at hu
  cases hbo : body da sa { hub := s.hub, cog := g, num := s.cur, draws := s.draws } with
  | error r => rw [hbo] at hu; cases hu
  | ok w =>
    rw [hbo] at hu
    cases hu
    have hw := hb da sa _ w ⟨State.mem_ok h, hg⟩ hbo
    exact State.withView_ok (State.withCog_ok h hg) hw.1 hw.2

theorem State.fieldInstr_ok {s t : State} (h : s.ok = true) {cc : CCCC} {isReg : Bool} {f : BitVec 9}
    {body : RegAddr → View → Except Refusal View} (hb : ∀ da (v w : View), v.ok → body da v = .ok w → w.ok)
    (ht : s.fieldInstr cc isReg f body = .next t) : t.ok = true := by
  unfold State.fieldInstr at ht
  split at ht
  · cases ht
  · exact State.instr_ok h (fun da _ v w => hb da v w) ht

theorem State.branchInstr_ok {s t : State} (h : s.ok = true) {cc : CCCC} {d x : Option RegAddr}
    {body : RegAddr → RegAddr → View → Except Refusal View}
    (hb : ∀ da sa (v w : View), v.ok → body da sa v = .ok w → w.ok)
    (ht : s.branchInstr cc d x body = .next t) : t.ok = true := by
  unfold State.branchInstr at ht
  split at ht
  · cases ht
  · exact State.instr_ok h hb ht

theorem State.nrInstr_ok {s t : State} (h : s.ok = true) {cc : CCCC} {d : BitVec 9} {x : Option RegAddr}
    {body : RegAddr → View → Except Refusal View} (hb : ∀ sa (v w : View), v.ok → body sa v = .ok w → w.ok)
    (ht : s.nrInstr cc d x body = .next t) : t.ok = true := by
  unfold State.nrInstr at ht
  split at ht
  · cases ht
  · exact State.branchInstr_ok h (fun _ sa v w => hb sa v w) ht

/-! ## Starting, loading and resetting -/

theorem Cog.start_ok {old : Cog} (h : old.ok = true) {base : HubAddr} (hb : base.extractLsb' 0 2 = 0)
    (param : HubAddr) (n : Nat) : (old.start base param n).ok = true := by
  refine Cog.ok_iff.mpr ⟨?_, rfl, rfl, ?_⟩
  · exact (show old.cellsOk = true from Cog.ok_cells h)
  · simp only [Cog.loadOk, Cog.start, hb]
    decide

theorem State.startCog_ok {s : State} (h : s.ok = true) (t : Fin 8) {base : HubAddr}
    (hb : base.extractLsb' 0 2 = 0) (param : HubAddr) : (s.startCog t base param).ok = true := by
  have := State.ok_iff.mp (State.setCog_ok h (k := t) (Cog.start_ok ((State.ok_iff.mp h).2 t) hb param s.draws))
  exact State.ok_iff.mpr ⟨this.1, this.2⟩

theorem Cog.loadLong_ok {c : Cog} {base : HubAddr} {k : Nat} (h : c.ok = true) (hr : c.run = .loading base k)
    (hub : Hub) : (c.loadLong hub base k).ok = true := by
  obtain ⟨-, hq, hp, hl⟩ := Cog.ok_iff.mp h
  simp only [Cog.loadOk, hr, Bool.and_eq_true, decide_eq_true_eq] at hl
  have hk : k < 512 := lt_trans hl.2 (by decide)
  refine Cog.ok_iff.mpr ⟨?_, hq, hp, ?_⟩
  · have h2 := Cells.wfFrom_write (Cog.ok_ram h) (hub.long (loadAddr base k)) (Nat.zero_le k) hk
    simp only [Cog.cellsOk, Cog.loadLong, h2, Cog.ok_stack h, Bool.and_self]
  · simp only [Cog.loadOk, Cog.loadLong]
    by_cases hkl : k + 1 < Config.loadLongs
    · simp only [hkl, if_true, hl.1, decide_true, Bool.and_self]
    · simp only [hkl, if_false]

/-- A QUAD base after a chip reset is one SETQUAD may set. -/
theorem freeBase_ok (b : RegAddr) : (decide ((freeBase b).toNat ≤ 0x1F2) || freeBase b == 0x1FF) = true := by
  unfold freeBase
  split
  · rename_i h; simp [h]
  · rfl

theorem Cog.afterReset_ok (old : Cog) (j n : Nat) : (old.afterReset j n).ok = true := by
  refine Cog.ok_iff.mpr ⟨?_, freeBase_ok _, by rfl, by rfl⟩
  simp only [Cog.cellsOk, Cog.afterReset, Cells.wfFrom_ofList, Bool.and_self]

theorem State.chipReset_ok (s : State) : s.chipReset.ok = true := by
  refine State.ok_iff.mpr ⟨Cells.wfFrom_ofList _ _ _, fun n => ?_⟩
  simp only [State.chipReset, Vector.getElem_ofFn]
  exact Cog.afterReset_ok _ _ _

/-! ## What passes between two steps -/

/-- What moving the units of a cog may change: QUADs only under a pins_to_QUADs mode of XFR, stack RAM and SPA only
under a pins_to_stack mode (R432); memories stay canonical. -/
def Cog.Near (c g : Cog) : Prop :=
  g = { c with
    ctra := g.ctra, ctrb := g.ctrb, lfsr := g.lfsr, vid := g.vid, xfr := g.xfr, mul := g.mul, div := g.div,
    sqr := g.sqr, cordic := g.cordic, quad := g.quad, stack := g.stack, spa := g.spa }
  ∧ g.xfr.cfg = c.xfr.cfg
  ∧ (c.xfr.cfg.extractLsb' 4 2 ≠ 2#2 → g.quad = c.quad)
  ∧ (c.xfr.cfg.extractLsb' 4 2 ≠ 3#2 → g.stack = c.stack ∧ g.spa = c.spa)
  ∧ (Cells.wfFrom 256 0 c.stack = true → Cells.wfFrom 256 0 g.stack = true)

theorem Cog.Near.refl (c : Cog) : c.Near c := ⟨rfl, rfl, fun _ => rfl, fun _ => ⟨rfl, rfl⟩, id⟩

theorem Cog.Near.trans {a b c : Cog} (h : a.Near b) (k : b.Near c) : a.Near c := by
  obtain ⟨h1, h2, h3, h4, h5⟩ := h
  obtain ⟨k1, k2, k3, k4, k5⟩ := k
  refine ⟨by rw [k1, h1], k2.trans h2, fun e => ?_, fun e => ?_, fun e => k5 (h5 e)⟩
  · exact (k3 (by rw [h2]; exact e)).trans (h3 e)
  · have q := k4 (by rw [h2]; exact e)
    exact ⟨q.1.trans (h4 e).1, q.2.trans (h4 e).2⟩

theorem Cog.near_xfrClock (c : Cog) (pins : BitVec 96) : c.Near (c.xfrClock pins) := by
  have hq : ∀ b : BitVec 6, b.extractLsb' 4 2 ≠ 2#2 → (b.extractLsb' 3 3).toNat ≠ 4 ∧ (b.extractLsb' 3 3).toNat ≠ 5 := by
    decide
  have hs : ∀ b : BitVec 6, b.extractLsb' 4 2 ≠ 3#2 → (b.extractLsb' 3 3).toNat ≤ 5 := by decide
  have push : ∀ v, Cells.wfFrom 256 0 c.stack = true → Cells.wfFrom 256 0 (c.xfrPush v).stack = true :=
    fun v h => Cells.wfFrom_write h _ (Nat.zero_le _) c.spa.isLt
  unfold Cog.xfrClock
  simp only
  split
  · exact .refl c
  · exact .refl c
  · exact ⟨rfl, rfl, fun _ => rfl, fun _ => ⟨rfl, rfl⟩, id⟩
  · exact ⟨rfl, rfl, fun _ => rfl, fun _ => ⟨rfl, rfl⟩, id⟩
  · rename_i h
    split
    · exact ⟨rfl, rfl, fun _ => rfl, fun _ => ⟨rfl, rfl⟩, id⟩
    · exact ⟨rfl, rfl, fun e => absurd h (hq _ e).1, fun _ => ⟨rfl, rfl⟩, id⟩
  · rename_i h
    exact ⟨rfl, rfl, fun e => absurd h (hq _ e).2, fun _ => ⟨rfl, rfl⟩, id⟩
  · rename_i h
    split
    · exact ⟨rfl, rfl, fun _ => rfl, fun _ => ⟨rfl, rfl⟩, id⟩
    · exact ⟨rfl, rfl, fun _ => rfl, fun e => absurd (hs _ e) (by omega), push _⟩
  · refine ⟨rfl, rfl, fun _ => rfl, fun e => ?_, push _⟩
    rename_i a0 a1 a2 a3 a4 a5 a6
    have hle := hs _ e
    exfalso
    revert a0 a1 a2 a3 a4 a5 a6 hle
    generalize (c.xfr.cfg.extractLsb' 3 3).toNat = m
    intro a0 a1 a2 a3 a4 a5 a6 hle
    interval_cases m <;> simp_all

theorem Cog.near_clock (c : Cog) (num t : Nat) : c.Near (c.clock num t) := by
  have h1 : c.Near (({ c with
      ctra := c.ctra.clock num t false, ctrb := c.ctrb.clock num t true,
      lfsr := Config.lfsrNext c.lfsr } : Cog).vidClock c.ctra) := by
    unfold Cog.vidClock
    split <;> exact ⟨rfl, rfl, fun _ => rfl, fun _ => ⟨rfl, rfl⟩, id⟩
  exact (h1.trans (Cog.near_xfrClock _ (Config.pins t))).trans ⟨rfl, rfl, fun _ => rfl, fun _ => ⟨rfl, rfl⟩, id⟩

theorem Cog.near_clocks (num n t : Nat) (c : Cog) : c.Near (Cog.clocks num n t c) := by
  induction n generalizing t c with
  | zero => exact .refl c
  | succ n ih => exact (Cog.near_clock c num t).trans (ih _ _)

theorem Cog.near_pass (c : Cog) (num n t : Nat) : c.Near (c.pass num n t) := by
  unfold Cog.pass
  split
  · exact Cog.near_clocks _ _ _ _
  · exact .refl c
  · exact .refl c

theorem Cog.Near.ok {c g : Cog} (h : c.Near g) (hc : c.ok = true) : g.ok = true := by
  obtain ⟨h1, -, -, -, h5⟩ := h
  refine Cog.ok_of hc ?_ (h5 (Cog.ok_stack hc)) ?_ ?_ ?_
  · rw [h1]; exact (show Cells.wfFrom 512 0 c.ram = true from Cog.ok_ram hc)
  · rw [h1]
  · rw [h1]
  · rw [h1]

theorem State.elapse_cogs (s : State) (n : Fin 8) :
    s.elapse.cogs[n.val] = (s.cogs[n.val]).pass n.val s.clocksPassed s.hub.clock := by
  simp [State.elapse]

theorem State.elapse_ok {s : State} (h : s.ok = true) : s.elapse.ok = true := by
  refine State.ok_iff.mpr ⟨(State.ok_iff.mp h).1, fun n => ?_⟩
  rw [State.elapse_cogs]
  exact (Cog.near_pass _ _ _ _).ok ((State.ok_iff.mp h).2 n)

/-- The memory right after reset is canonical. -/
theorem State.reset_memory_wf : Memory.wf State.reset.hub.mem = true := rfl

end Sys2Proof.Machine
end

