-- ==== Sys2Proof/Laws/Bodies.lean ====
section
/-! SUPPORT. What the shared bodies of instructions answer once their operands are known, and that each keeps views
well formed. -/

namespace Sys2Proof.Machine

/-- A sequence that ends has a first part that ends. -/
theorem Except.bind_ok {ε α β : Type} {x : Except ε α} {f : α → Except ε β} {b : β} (h : (x >>= f) = .ok b) :
    ∃ a, x = .ok a ∧ f a = .ok b := by
  cases x with
  | error e => cases h
  | ok a => exact ⟨a, rfl, h⟩

/-! ## Hub memory -/

theorem View.hubStore_eq {v : View} {da sa : RegAddr} {x : HubOp} {scale : Nat} {d : Word} {a : HubAddr} {g : Cog}
    (hd : v.cog.read da = .ok d) (hp : v.cog.hubOperand x sa scale = .ok (a, g)) (bytes : Word → List Byte) :
    v.hubStore da x sa scale bytes =
      .ok { v with hub := v.hub.setBytes (aligned scale a) (bytes d), cog := g.retire 1 } := by
  simp only [View.hubStore, hd, hp]; rfl

theorem View.hubLoad_eq {v : View} {da sa : RegAddr} {x : HubOp} {scale : Nat} {a : HubAddr} {g c : Cog} {wz : Bool}
    {value : Hub → HubAddr → Word} (hp : v.cog.hubOperand x sa scale = .ok (a, g))
    (hw : g.write da (value v.hub a) = .ok c) :
    v.hubLoad wz da x sa scale value = .ok ((v.withCog (c.flagZ wz (zeroFlag (value v.hub a)))).retire 3) := by
  simp only [View.hubLoad, hp]
  show (g.write da (value v.hub a) >>= _) = _
  rw [hw]; rfl

theorem View.cachedLoad_eq {v : View} {da sa : RegAddr} {x : HubOp} {scale : Nat} {a : HubAddr} {g c : Cog} {wz : Bool}
    {value : Vector Word 4 → HubAddr → Word} (hp : v.cog.hubOperand x sa scale = .ok (a, g))
    (hw : ((v.withCog g).cacheLookup a).cog.write da (value ((v.withCog g).cacheLookup a).cog.quad a) = .ok c) :
    v.cachedLoad wz da x sa scale value =
      .ok (((((v.withCog g).cacheLookup a).withCog
        (c.flagZ wz (zeroFlag (value ((v.withCog g).cacheLookup a).cog.quad a)))).drawC).endCached (g.cacheHit a) 3) := by
  simp only [View.cachedLoad, hp]
  show (((v.withCog g).cacheLookup a).cog.write da (value ((v.withCog g).cacheLookup a).cog.quad a) >>= _) = _
  rw [hw]; rfl

theorem View.hubStore_ok {v w : View} (h : v.ok) {da sa : RegAddr} {x : HubOp} {scale : Nat} {bytes : Word → List Byte}
    (hn : 131072 % scale = 0) (hl : ∀ d, (bytes d).length = scale) (hb : v.hubStore da x sa scale bytes = .ok w) :
    w.ok := by
  obtain ⟨d, -, hb⟩ := Except.bind_ok hb
  obtain ⟨p, hp, hb⟩ := Except.bind_ok hb
  cases hb
  refine ⟨Hub.setBytes_wf h.1 ?_, Cog.retire_ok (Cog.hubOperand_keeps h.2 (a := p.1) (g := p.2) hp) 1⟩
  rw [hl]
  exact aligned_add_le hn _

theorem View.hubLoad_ok {v w : View} (h : v.ok) {wz : Bool} {da sa : RegAddr} {x : HubOp} {scale : Nat}
    {value : Hub → HubAddr → Word} (hb : v.hubLoad wz da x sa scale value = .ok w) : w.ok := by
  obtain ⟨p, hp, hb⟩ := Except.bind_ok hb
  obtain ⟨c, hc, hb⟩ := Except.bind_ok hb
  cases hb
  exact View.retire_ok (View.withCog_ok h
    (Cog.flagZ_ok (Cog.write_keeps (Cog.hubOperand_keeps h.2 (a := p.1) (g := p.2) hp) hc) _ _)) 3

theorem View.cachedLoad_ok {v w : View} (h : v.ok) {wz : Bool} {da sa : RegAddr} {x : HubOp} {scale : Nat}
    {value : Vector Word 4 → HubAddr → Word} (hb : v.cachedLoad wz da x sa scale value = .ok w) : w.ok := by
  obtain ⟨p, hp, hb⟩ := Except.bind_ok hb
  have h1 := View.cacheLookup_ok (View.withCog_ok h (Cog.hubOperand_keeps h.2 (a := p.1) (g := p.2) hp)) p.1
  obtain ⟨c, hc, hb⟩ := Except.bind_ok hb
  cases hb
  exact View.endCached_ok (View.drawC_ok (View.withCog_ok h1 (Cog.flagZ_ok (Cog.write_keeps h1.2 hc) _ _))) _ _

/-! ## Pointers and QUADs -/

theorem View.getPtr_eq {v : View} {useB wz wc wr : Bool} {da : RegAddr} {c : Cog}
    (hc : v.cog.result wr da ((v.cog.ptr useB).setWidth 32) = .ok c) :
    v.getPtr useB wz wc wr da =
      .ok ((v.withCog ((c.flagZ wz (zeroFlag ((v.cog.ptr useB).setWidth 32))).flagC wc
        ((v.cog.ptr useB).getLsbD 16))).retire 1) := by
  simp only [View.getPtr, hc]; rfl

theorem View.changePtr_eq {v : View} {useB : Bool} {x : RegOrImm} {da : RegAddr} {d : Word}
    (hd : v.cog.operand x da = .ok d) (f : HubAddr → HubAddr → HubAddr) :
    v.changePtr useB x da f =
      .ok ((v.withCog (v.cog.setPtr useB (f (v.cog.ptr useB) (hubAddr d)))).retire 1) := by
  simp only [View.changePtr, hd]; rfl

theorem View.getPtr_ok {v w : View} (h : v.ok) {useB wz wc wr : Bool} {da : RegAddr}
    (hb : v.getPtr useB wz wc wr da = .ok w) : w.ok := by
  obtain ⟨c, hc, hb⟩ := Except.bind_ok hb
  cases hb
  exact View.retire_ok (View.withCog_ok h (Cog.flagC_ok (Cog.flagZ_ok (Cog.result_keeps h.2 hc) _ _) _ _)) 1

theorem View.changePtr_ok {v w : View} (h : v.ok) {useB : Bool} {x : RegOrImm} {da : RegAddr}
    {f : HubAddr → HubAddr → HubAddr} (hb : v.changePtr useB x da f = .ok w) : w.ok := by
  obtain ⟨d, -, hb⟩ := Except.bind_ok hb
  cases hb
  refine View.retire_ok (View.withCog_ok h ?_) 1
  unfold Cog.setPtr
  split <;> exact Cog.ok_congr h.2 rfl rfl rfl rfl rfl

theorem View.mapQuads_ok {v w : View} (h : v.ok) {x : RegOrImm} {da : RegAddr} {clear : Bool}
    (hb : v.mapQuads x da clear = .ok w) : w.ok := by
  obtain ⟨d, -, hb⟩ := Except.bind_ok hb
  split at hb
  · rename_i hq
    cases hb
    obtain ⟨h1, -, h3, h4⟩ := Cog.ok_iff.mp h.2
    have hc : ({ v.cog with
        qbase := d.extractLsb' 0 9, quad := if clear then Vector.replicate 4 0 else v.cog.quad } : Cog).ok = true :=
      Cog.ok_iff.mpr ⟨h1, hq, h3, h4⟩
    exact ⟨h.1, Cog.ok_congr (Cog.retire_ok hc 1) rfl rfl rfl rfl rfl⟩
  · cases hb

/-! ## Cogs and locks -/

theorem State.cogResult_ok {s t : State} (h : s.ok = true) {wz wc wr z c : Bool} {da : RegAddr} {r : Word}
    (hb : s.cogResult wz wc wr da r z c = .ok t) : t.ok = true := by
  obtain ⟨g, hg, hb⟩ := Except.bind_ok hb
  cases hb
  exact State.withCog_ok h
    (Cog.retire_ok (Cog.flagC_ok (Cog.flagZ_ok (Cog.result_keeps (State.cog_ok h) hg) _ _) _ _) _)

/-- The address COGINIT takes from D is a long address. -/
theorem loadBase_aligned (d : Word) : (loadBase d).extractLsb' 0 2 = 0 := by
  unfold loadBase
  ext i hi
  simp only [BitVec.getElem_extractLsb', Nat.zero_add]
  rw [BitVec.getLsbD_append]
  simp [hi]

theorem State.startNext_ok {s t : State} (h : s.ok = true) {wz wc wr : Bool} {da : RegAddr} {d : Word} {p : HubAddr}
    (hb : s.startNext wz wc wr da (loadBase d) p = .ok t) : t.ok = true := by
  unfold State.startNext at hb
  split at hb
  · exact State.cogResult_ok (s := s.drawn 1) h hb
  · obtain ⟨u, hu, hb⟩ := Except.bind_ok hb
    cases hb
    exact State.startCog_ok (State.cogResult_ok (s := s.drawn 1) h hu) _ (loadBase_aligned d) _

theorem State.startGiven_ok {s t : State} (h : s.ok = true) {wz wc wr : Bool} {da : RegAddr} {n : Fin 8} {d : Word}
    {p : HubAddr} (hb : s.startGiven wz wc wr da n (loadBase d) p = .ok t) : t.ok = true := by
  unfold State.startGiven at hb
  split at hb
  · cases hb
  all_goals
    obtain ⟨u, hu, hb⟩ := Except.bind_ok hb
    cases hb
    exact State.startCog_ok (State.cogResult_ok (s := s.drawn 2) h hu) _ (loadBase_aligned d) _

theorem Cog.idle_ok {c : Cog} (h : c.ok = true) : ({ c with run := .idle } : Cog).ok = true := by
  obtain ⟨h1, h2, h3, -⟩ := Cog.ok_iff.mp h
  exact Cog.ok_iff.mpr ⟨h1, h2, h3, rfl⟩

theorem State.stopCog_ok {s t : State} (h : s.ok = true) {n : Fin 8} (hb : s.stopCog n = .ok t) : t.ok = true := by
  unfold State.stopCog at hb
  split at hb
  · cases hb
  all_goals
    cases hb
    split
    · exact State.withCog_ok h (Cog.idle_ok (State.cog_ok h))
    · exact State.withCog_ok (State.setCog_ok h (Cog.idle_ok ((State.ok_iff.mp h).2 n)))
        (Cog.retire_ok (State.cog_ok h) 1)

theorem View.newLock_ok {v w : View} (h : v.ok) {wz wc busy : Bool} {da : RegAddr} {r : Word}
    (hb : v.newLock wz wc da r busy = .ok w) : w.ok := by
  obtain ⟨c, hc, hb⟩ := Except.bind_ok hb
  cases hb
  exact ⟨h.1, Cog.retire_ok (Cog.flagC_ok (Cog.flagZ_ok (Cog.write_keeps h.2 hc) _ _) _ _) 2⟩

theorem View.writeLock_ok {v w : View} (h : v.ok) {wc b : Bool} {da : RegAddr}
    (hb : v.writeLock wc da b = .ok w) : w.ok := by
  obtain ⟨n, -, hb⟩ := Except.bind_ok hb
  cases hb
  exact ⟨h.1, Cog.retire_ok (Cog.flagC_ok h.2 _ _) _⟩

/-! ## Indirect set-up, the counter and waits -/

theorem View.setInds_ok {v : View} (h : v.ok) (a b : Option Ind) : (v.setInds a b).ok :=
  ⟨h.1, Cog.ok_congr (Cog.retire_ok h.2 1) rfl rfl rfl rfl rfl⟩

theorem View.retireCnt_ok {v : View} (h : v.ok) (seq : CntSeq) : (v.retireCnt seq).ok :=
  ⟨h.1, Cog.ok_congr (Cog.retire_ok h.2 1) rfl rfl rfl rfl rfl⟩

theorem View.waitPins_eq {v : View} {da sa : RegAddr} {x : RegOrImm} {d n : Word} (hd : v.cog.read da = .ok d)
    (hn : v.cog.operand x sa = .ok n) : v.waitPins da x sa = .ok (v.drawC.drawZ.retire 1) := by
  simp only [View.waitPins, hd, hn]; rfl

theorem View.waitPins_ok {v w : View} (h : v.ok) {da sa : RegAddr} {x : RegOrImm}
    (hb : v.waitPins da x sa = .ok w) : w.ok := by
  obtain ⟨_, -, hb⟩ := Except.bind_ok hb
  obtain ⟨_, -, hb⟩ := Except.bind_ok hb
  cases hb
  exact View.retire_ok (View.drawZ_ok (View.drawC_ok h)) 1

/-! ## Branches -/

/-- A JMPRET stores the link word in a register that can be read. -/
theorem Cog.link_eq {c : Cog} {da : RegAddr} {d : Word} (hd : c.read da = .ok d) (delayed wz wc : Bool) :
    c.link delayed wz wc da = c.write da (linkWord d (c.pc + (if delayed then 4 else 1)) wz wc c.z c.c) := by
  simp only [Cog.link, hd]; rfl

/-- What lies ahead of a cog depends on its registers and its pc alone. -/
theorem Cog.stepsAhead_congr {c g : Cog} (hr : g.ram = c.ram) (hq : g.quad = c.quad) (hb : g.qbase = c.qbase)
    (hp : g.pc = c.pc) : g.stepsAhead = c.stepsAhead := by
  unfold Cog.stepsAhead
  rw [hp]
  congr 1
  funext k
  rw [Cog.x_congr hr hq hb]

theorem Cog.reload_ok {c : Cog} (h : c.ok = true) (wz wc : Bool) (w : Word) : (c.reload wz wc w).ok = true :=
  Cog.ok_congr h rfl rfl rfl rfl rfl

theorem View.jmpretReg_ok {v w : View} (h : v.ok) {delayed wz wc cond : Bool} {da sa : RegAddr}
    (hb : v.jmpretReg delayed wz wc cond da sa = .ok w) : w.ok := by
  obtain ⟨_, -, hb⟩ := Except.bind_ok hb
  obtain ⟨g, hg, hb⟩ := Except.bind_ok hb
  exact View.branch_ok (View.withCog_ok h (Cog.reload_ok (Cog.link_keeps h.2 hg) _ _ _)) hb

theorem View.jmpretImm_ok {v w : View} (h : v.ok) {delayed wz wc cond : Bool} {da : RegAddr} {n : BitVec 9}
    (hb : v.jmpretImm delayed wz wc cond da n = .ok w) : w.ok := by
  obtain ⟨g, hg, hb⟩ := Except.bind_ok hb
  exact View.branch_ok (View.withCog_ok h (Cog.link_keeps h.2 hg)) hb

theorem View.jmpReg_ok {v w : View} (h : v.ok) {delayed wz wc cond : Bool} {sa : RegAddr}
    (hb : v.jmpReg delayed wz wc cond sa = .ok w) : w.ok := by
  obtain ⟨_, -, hb⟩ := Except.bind_ok hb
  exact View.branch_ok (View.withCog_ok h (Cog.reload_ok h.2 _ _ _)) hb

theorem View.jmpImm_ok {v w : View} (h : v.ok) {delayed wz wc cond : Bool} {d n : BitVec 9}
    (hb : v.jmpImm delayed wz wc cond d n = .ok w) : w.ok :=
  View.branch_ok (View.withCog_ok h (Cog.flagZ_ok (Cog.flagC_ok h.2 _ _) _ _)) hb

theorem View.countBranch_eq {v : View} {delta d : Word} {nz delayed wr : Bool} {da sa tgt : RegAddr} {x : RegOrImm}
    {c : Cog} (hd : v.cog.read da = .ok d) (ht : v.cog.target x sa = .ok tgt)
    (hc : v.cog.result wr da (d + delta) = .ok c) :
    v.countBranch delta nz delayed wr da x sa =
      ((v.withCog c).selectors nz delayed).branch delayed true (zeroFlag (d + delta) != nz) tgt := by
  simp only [View.countBranch, hd, ht]
  show (v.cog.result wr da (d + delta) >>= _) = _
  rw [hc]; rfl

theorem View.testBranch_eq {v : View} {d : Word} {nz delayed : Bool} {da sa tgt : RegAddr} {x : RegOrImm}
    (hd : v.cog.read da = .ok d) (ht : v.cog.target x sa = .ok tgt) :
    v.testBranch nz delayed da x sa = (v.selectors nz delayed).branch delayed true (zeroFlag d != nz) tgt := by
  simp only [View.testBranch, hd, ht]; rfl

theorem View.countBranch_ok {v w : View} (h : v.ok) {delta : Word} {nz delayed wr : Bool} {da sa : RegAddr}
    {x : RegOrImm} (hb : v.countBranch delta nz delayed wr da x sa = .ok w) : w.ok := by
  obtain ⟨_, -, hb⟩ := Except.bind_ok hb
  obtain ⟨_, -, hb⟩ := Except.bind_ok hb
  obtain ⟨g, hg, hb⟩ := Except.bind_ok hb
  exact View.branch_ok (View.selectors_ok (View.withCog_ok h (Cog.result_keeps h.2 hg)) _ _) hb

theorem View.testBranch_ok {v w : View} (h : v.ok) {nz delayed : Bool} {da sa : RegAddr} {x : RegOrImm}
    (hb : v.testBranch nz delayed da x sa = .ok w) : w.ok := by
  obtain ⟨_, -, hb⟩ := Except.bind_ok hb
  obtain ⟨_, -, hb⟩ := Except.bind_ok hb
  exact View.branch_ok (View.selectors_ok h _ _) hb

theorem View.pinBranch_ok {v w : View} (h : v.ok) {low delayed : Bool} {da sa : RegAddr} {x : RegOrImm}
    (hb : v.pinBranch low delayed da x sa = .ok w) : w.ok := by
  obtain ⟨_, -, hb⟩ := Except.bind_ok hb
  obtain ⟨_, -, hb⟩ := Except.bind_ok hb
  exact View.branch_ok (View.selectors_ok (v := { v with draws := v.draws + 1 }) h _ _) hb

end Sys2Proof.Machine
end

