-- ==== Sys2Proof/Laws/Encoding.lean ====
section
/-! SUPPORT. The fields of a word: cutting a word into fields and joining fields into a word undo each other. -/

namespace Sys2Proof

theorem Bool.toNat_lt_two (b : Bool) : b.toNat < 2 := by cases b <;> decide

/-- A single bit of a number, as a number. -/
theorem testBit_toNat (n k : Nat) : (n.testBit k).toNat = n / 2 ^ k % 2 := by
  rw [Nat.testBit_eq_decide_div_mod_eq]
  rcases Nat.mod_two_eq_zero_or_one (n / 2 ^ k) with h | h <;> simp [h]

/-- A Boolean is the test of the number it was made from. -/
theorem testBit_of_digit {n k : Nat} {b : Bool} (h : n / 2 ^ k % 2 = b.toNat) : n.testBit k = b := by
  have := testBit_toNat n k
  rw [h] at this
  revert this
  cases n.testBit k <;> cases b <;> decide

/-- The number a word with given fields is. -/
theorem Fields.toWord_toNat (f : Fields) : f.toWord.toNat =
    f.t.toNat * 2 ^ 26 + f.z.toNat * 2 ^ 25 + f.c.toNat * 2 ^ 24 + f.r.toNat * 2 ^ 23
      + f.i.toNat * 2 ^ 22 + f.cc.toNat * 2 ^ 18 + f.d.toNat * 2 ^ 9 + f.s.toNat := by
  have h1 := f.t.isLt; have h2 := Bool.toNat_lt_two f.z; have h3 := Bool.toNat_lt_two f.c
  have h4 := Bool.toNat_lt_two f.r; have h5 := Bool.toNat_lt_two f.i; have h6 := f.cc.isLt
  have h7 := f.d.isLt; have h8 := f.s.isLt
  unfold Fields.toWord
  rw [BitVec.toNat_ofNat]
  apply Nat.mod_eq_of_lt
  omega

/-- Cutting a joined word gives its fields back. -/
theorem Fields.ofWord_toWord (f : Fields) : Fields.ofWord f.toWord = f := by
  have h1 := f.t.isLt; have h2 := Bool.toNat_lt_two f.z; have h3 := Bool.toNat_lt_two f.c
  have h4 := Bool.toNat_lt_two f.r; have h5 := Bool.toNat_lt_two f.i; have h6 := f.cc.isLt
  have h7 := f.d.isLt; have h8 := f.s.isLt
  have hw := Fields.toWord_toNat f
  unfold Fields.ofWord
  cases f with
  | mk t z c r i cc d s =>
    simp only at h1 h2 h3 h4 h5 h6 h7 h8 hw
    generalize (Fields.mk t z c r i cc d s).toWord = w at hw
    simp only [Fields.mk.injEq]
    refine ⟨?_, ?_, ?_, ?_, ?_, ?_, ?_, ?_⟩
    · apply BitVec.eq_of_toNat_eq; rw [BitVec.extractLsb'_toNat, hw, Nat.shiftRight_eq_div_pow]; omega
    · exact testBit_of_digit (by rw [hw]; omega)
    · exact testBit_of_digit (by rw [hw]; omega)
    · exact testBit_of_digit (by rw [hw]; omega)
    · exact testBit_of_digit (by rw [hw]; omega)
    · apply BitVec.eq_of_toNat_eq; rw [BitVec.extractLsb'_toNat, hw, Nat.shiftRight_eq_div_pow]; omega
    · apply BitVec.eq_of_toNat_eq; rw [BitVec.extractLsb'_toNat, hw, Nat.shiftRight_eq_div_pow]; omega
    · apply BitVec.eq_of_toNat_eq; rw [BitVec.extractLsb'_toNat, hw, Nat.shiftRight_eq_div_pow]; omega

/-- Joining the fields of a word gives the word back. -/
theorem Fields.toWord_ofWord (w : Word) : (Fields.ofWord w).toWord = w := by
  apply BitVec.eq_of_toNat_eq
  rw [Fields.toWord_toNat]
  have hw := w.isLt
  have hb : ∀ k, (w.getLsbD k).toNat = w.toNat / 2 ^ k % 2 := fun k => testBit_toNat _ _
  simp only [Fields.ofWord, BitVec.extractLsb'_toNat, Nat.shiftRight_eq_div_pow, hb]
  omega

/-- A PTR expression is read back from its bits. -/
theorem PtrExpr.ofBits_toBits (e : PtrExpr) : PtrExpr.ofBits e.toBits = e := by
  cases e with
  | mk b u p n =>
    revert b u p n
    decide

/-- The bits of a PTR expression are written back. -/
theorem PtrExpr.toBits_ofBits (b : BitVec 9) : (PtrExpr.ofBits b).toBits = b := by
  revert b
  decide

/-- A hub address operand is read back from its selector and field. -/
theorem HubOp.ofField_field (x : HubOp) : HubOp.ofField x.sel x.field = x := by
  cases x with
  | reg a => rfl
  | ptr e => simp only [HubOp.sel, HubOp.field, HubOp.ofField, if_true, PtrExpr.ofBits_toBits]

theorem HubOp.sel_ofField (sel : Bool) (b : BitVec 9) : (HubOp.ofField sel b).sel = sel := by
  cases sel <;> rfl

theorem HubOp.field_ofField (sel : Bool) (b : BitVec 9) : (HubOp.ofField sel b).field = b := by
  cases sel with
  | false => rfl
  | true => exact PtrExpr.toBits_ofBits b

/-- A register-or-immediate operand is read back from its selector and field. -/
theorem RegOrImm.ofField_field (x : RegOrImm) : RegOrImm.ofField x.sel x.field = x := by
  cases x <;> rfl

theorem RegOrImm.sel_ofField (sel : Bool) (b : BitVec 9) : (RegOrImm.ofField sel b).sel = sel := by
  cases sel <;> rfl

theorem RegOrImm.field_ofField (sel : Bool) (b : BitVec 9) : (RegOrImm.ofField sel b).field = b := by
  cases sel <;> rfl

end Sys2Proof
end

