-- ==== Sys2Proof/Laws/PerInstr.lean ====
section
/-! SUPPORT. The family `TableRow`: the word of every instruction has, in the places its row of spec/opcode_table.json
fixes, the bits the row gives. -/

namespace Sys2Proof.Laws

/-- What a row of spec/opcode_table.json fixes ("mask" and "match"), field by field; `none` where the field is free.
Of CCCC the mask and the value are given. -/
structure Row where
  t : BitVec 6
  z : Option Bool
  c : Option Bool
  r : Option Bool
  i : Option Bool
  cc : CCCC × CCCC
  d : Option (BitVec 9)
  s : Option (BitVec 9)
deriving DecidableEq, Repr

/-- Whether fields have what a row fixes. -/
def Row.admits (p : Row) (f : Fields) : Bool :=
  p.t == f.t && p.z.all (· == f.z) && p.c.all (· == f.c) && p.r.all (· == f.r) && p.i.all (· == f.i)
    && (p.cc.1 == 0 || f.cc &&& p.cc.1 == p.cc.2) && p.d.all (· == f.d) && p.s.all (· == f.s)

/-- The row of an instruction. -/
def rowOf : Instr → Row
  | .wrbyte .. => ⟨0b000000, some false, some false, some false, none, (0b0000, 0b0000), none, none⟩
  | .rdbyte .. => ⟨0b000000, none, some false, some true, none, (0b0000, 0b0000), none, none⟩
  | .rdbytec .. => ⟨0b000000, none, some true, some true, none, (0b0000, 0b0000), none, none⟩
  | .wrword .. => ⟨0b000001, some false, some false, some false, none, (0b0000, 0b0000), none, none⟩
  | .rdword .. => ⟨0b000001, none, some false, some true, none, (0b0000, 0b0000), none, none⟩
  | .rdwordc .. => ⟨0b000001, none, some true, some true, none, (0b0000, 0b0000), none, none⟩
  | .wrlong .. => ⟨0b000010, some false, some false, some false, none, (0b0000, 0b0000), none, none⟩
  | .rdlong .. => ⟨0b000010, none, some false, some true, none, (0b0000, 0b0000), none, none⟩
  | .rdlongc .. => ⟨0b000010, none, some true, some true, none, (0b0000, 0b0000), none, none⟩
  | .wrquad .. => ⟨0b000011, some false, some false, none, some true, (0b0000, 0b0000), none, some 0xb0⟩
  | .rdquad .. => ⟨0b000011, some false, some false, none, some true, (0b0000, 0b0000), none, some 0xb1⟩
  | .rdquadc .. => ⟨0b000011, some false, some true, none, some true, (0b0000, 0b0000), none, some 0xb1⟩
  | .getptra .. => ⟨0b000011, none, none, none, some true, (0b0000, 0b0000), none, some 0x12⟩
  | .getptrb .. => ⟨0b000011, none, none, none, some true, (0b0000, 0b0000), none, some 0x13⟩
  | .setptra .. => ⟨0b000011, some false, some false, none, some true, (0b0000, 0b0000), none, some 0xb2⟩
  | .setptrb .. => ⟨0b000011, some false, some false, none, some true, (0b0000, 0b0000), none, some 0xb3⟩
  | .addptra .. => ⟨0b000011, some false, some false, none, some true, (0b0000, 0b0000), none, some 0xb4⟩
  | .addptrb .. => ⟨0b000011, some false, some false, none, some true, (0b0000, 0b0000), none, some 0xb5⟩
  | .subptra .. => ⟨0b000011, some false, some false, none, some true, (0b0000, 0b0000), none, some 0xb6⟩
  | .subptrb .. => ⟨0b000011, some false, some false, none, some true, (0b0000, 0b0000), none, some 0xb7⟩
  | .cachex .. => ⟨0b000011, some false, some false, some false, some true, (0b0000, 0b0000), some 0, some 8⟩
  | .gettops .. => ⟨0b000011, none, some false, some true, some true, (0b0000, 0b0000), none, some 0x11⟩
  | .setquad .. => ⟨0b000011, some false, some false, none, some true, (0b0000, 0b0000), none, some 0xe2⟩
  | .setquaz .. => ⟨0b000011, some false, some true, none, some true, (0b0000, 0b0000), none, some 0xe2⟩
  | .coginit .. => ⟨0b000011, none, none, none, some false, (0b0000, 0b0000), none, none⟩
  | .clkset .. => ⟨0b000011, some false, some false, some false, some true, (0b0000, 0b0000), none, some 0⟩
  | .cogid .. => ⟨0b000011, some false, some false, some true, some true, (0b0000, 0b0000), none, some 1⟩
  | .cogstop .. => ⟨0b000011, some false, some false, some false, some true, (0b0000, 0b0000), none, some 3⟩
  | .locknew .. => ⟨0b000011, none, none, some true, some true, (0b0000, 0b0000), none, some 4⟩
  | .lockret .. => ⟨0b000011, some false, some false, some false, some true, (0b0000, 0b0000), none, some 5⟩
  | .lockset .. => ⟨0b000011, some false, none, some false, some true, (0b0000, 0b0000), none, some 6⟩
  | .lockclr .. => ⟨0b000011, some false, none, some false, some true, (0b0000, 0b0000), none, some 7⟩
  | .setinda .. => ⟨0b111000, some false, some false, some false, some false, (0b1101, 0b0001), some 0, none⟩
  | .setindb .. => ⟨0b111000, some false, some false, some false, some false, (0b0111, 0b0100), none, some 0⟩
  | .setinds .. => ⟨0b111000, some false, some false, some false, some false, (0b0101, 0b0101), none, none⟩
  | .fixinda .. => ⟨0b111001, some false, some false, some false, some false, (0b1111, 0b0001), none, none⟩
  | .fixindb .. => ⟨0b111001, some false, some false, some false, some false, (0b1111, 0b0100), none, none⟩
  | .fixinds .. => ⟨0b111001, some false, some false, some false, some false, (0b1111, 0b0101), none, none⟩
  | .mov .. => ⟨0b101000, some false, some false, some true, none, (0b0000, 0b0000), none, none⟩
  | .add .. => ⟨0b100000, some false, some false, some true, none, (0b0000, 0b0000), none, none⟩
  | .cmpcnt .. => ⟨0b000011, none, none, some false, some true, (0b0000, 0b0000), none, some 0xc⟩
  | .subcnt .. => ⟨0b000011, none, none, some true, some true, (0b0000, 0b0000), none, some 0xc⟩
  | .passcnt .. => ⟨0b000011, some false, some false, some false, some true, (0b0000, 0b0000), none, some 0xd⟩
  | .getcnt .. => ⟨0b000011, some false, some false, some true, some true, (0b0000, 0b0000), none, some 0xd⟩
  | .waitcnt .. => ⟨0b111111, some false, none, none, none, (0b0000, 0b0000), none, none⟩
  | .waitpeq .. => ⟨0b111111, some true, some true, some false, none, (0b0000, 0b0000), none, none⟩
  | .waitpne .. => ⟨0b111111, some true, some true, some true, none, (0b0000, 0b0000), none, none⟩
  | .jmpretS .. => ⟨0b000111, none, none, some true, some false, (0b0000, 0b0000), none, none⟩
  | .jmpretN .. => ⟨0b000111, none, none, some true, some true, (0b0000, 0b0000), none, none⟩
  | .jmpretSNR .. => ⟨0b000111, none, none, some false, some false, (0b0000, 0b0000), none, none⟩
  | .jmpretNNR .. => ⟨0b000111, none, none, some false, some true, (0b0000, 0b0000), none, none⟩
  | .jmpS .. => ⟨0b000111, none, none, some false, some false, (0b0000, 0b0000), some 0, none⟩
  | .jmpN .. => ⟨0b000111, none, none, some false, some true, (0b0000, 0b0000), some 0, none⟩
  | .ret .. => ⟨0b000111, none, none, some false, some true, (0b0000, 0b0000), some 0, some 0⟩
  | .call .. => ⟨0b000111, none, none, some true, some true, (0b0000, 0b0000), none, none⟩
  | .tasksw => ⟨0b000111, some true, some true, some true, some false, (0b1111, 0b0011), some 0x1f6, some 0x1f6⟩
  | .jmpretdS .. => ⟨0b010111, none, none, some true, some false, (0b0000, 0b0000), none, none⟩
  | .jmpretdN .. => ⟨0b010111, none, none, some true, some true, (0b0000, 0b0000), none, none⟩
  | .jmpretdSNR .. => ⟨0b010111, none, none, some false, some false, (0b0000, 0b0000), none, none⟩
  | .jmpretdNNR .. => ⟨0b010111, none, none, some false, some true, (0b0000, 0b0000), none, none⟩
  | .jmpdS .. => ⟨0b010111, none, none, some false, some false, (0b0000, 0b0000), some 0, none⟩
  | .jmpdN .. => ⟨0b010111, none, none, some false, some true, (0b0000, 0b0000), some 0, none⟩
  | .retd .. => ⟨0b010111, none, none, some false, some true, (0b0000, 0b0000), some 0, some 0⟩
  | .calld .. => ⟨0b010111, none, none, some true, some true, (0b0000, 0b0000), none, none⟩
  | .taskswd => ⟨0b010111, some true, some true, some true, some false, (0b1111, 0b0011), some 0x1f6, some 0x1f6⟩
  | .ijz .. => ⟨0b111100, some false, some false, none, none, (0b0000, 0b0000), none, none⟩
  | .ijnz .. => ⟨0b111100, some true, some false, none, none, (0b0000, 0b0000), none, none⟩
  | .djz .. => ⟨0b111101, some false, some false, none, none, (0b0000, 0b0000), none, none⟩
  | .djnz .. => ⟨0b111101, some true, some false, none, none, (0b0000, 0b0000), none, none⟩
  | .ijzd .. => ⟨0b111100, some false, some true, none, none, (0b0000, 0b0000), none, none⟩
  | .ijnzd .. => ⟨0b111100, some true, some true, none, none, (0b0000, 0b0000), none, none⟩
  | .djzd .. => ⟨0b111101, some false, some true, none, none, (0b0000, 0b0000), none, none⟩
  | .djnzd .. => ⟨0b111101, some true, some true, none, none, (0b0000, 0b0000), none, none⟩
  | .tjz .. => ⟨0b111110, some false, some false, some false, none, (0b0000, 0b0000), none, none⟩
  | .tjnz .. => ⟨0b111110, some true, some false, some false, none, (0b0000, 0b0000), none, none⟩
  | .jp .. => ⟨0b111110, some false, some false, some true, none, (0b0000, 0b0000), none, none⟩
  | .jnp .. => ⟨0b111110, some true, some false, some true, none, (0b0000, 0b0000), none, none⟩
  | .tjzd .. => ⟨0b111110, some false, some true, some false, none, (0b0000, 0b0000), none, none⟩
  | .tjnzd .. => ⟨0b111110, some true, some true, some false, none, (0b0000, 0b0000), none, none⟩
  | .jpd .. => ⟨0b111110, some false, some true, some true, none, (0b0000, 0b0000), none, none⟩
  | .jnpd .. => ⟨0b111110, some true, some true, some true, none, (0b0000, 0b0000), none, none⟩

/-- The word of an instruction lies in its row of the table. -/
def TableRow.Statement (i : Instr) : Prop := (rowOf i).admits (Fields.ofWord (encode i)) = true

/-- It is enough to look at the fields the encoder joins. -/
theorem TableRow.of_fields {i : Instr} (h : (rowOf i).admits i.fields = true) : TableRow.Statement i := by
  unfold TableRow.Statement encode
  rw [Fields.ofWord_toWord]
  exact h

theorem TableRow.wrbyte (cc : CCCC) (d : RegAddr) (x : HubOp) : TableRow.Statement (.wrbyte cc d x) :=
  TableRow.of_fields rfl

theorem TableRow.rdbyte (wz : Bool) (cc : CCCC) (d : RegAddr) (x : HubOp) : TableRow.Statement (.rdbyte wz cc d x) :=
  TableRow.of_fields rfl

theorem TableRow.rdbytec (wz : Bool) (cc : CCCC) (d : RegAddr) (x : HubOp) : TableRow.Statement (.rdbytec wz cc d x) :=
  TableRow.of_fields rfl

theorem TableRow.wrword (cc : CCCC) (d : RegAddr) (x : HubOp) : TableRow.Statement (.wrword cc d x) :=
  TableRow.of_fields rfl

theorem TableRow.rdword (wz : Bool) (cc : CCCC) (d : RegAddr) (x : HubOp) : TableRow.Statement (.rdword wz cc d x) :=
  TableRow.of_fields rfl

theorem TableRow.rdwordc (wz : Bool) (cc : CCCC) (d : RegAddr) (x : HubOp) : TableRow.Statement (.rdwordc wz cc d x) :=
  TableRow.of_fields rfl

theorem TableRow.wrlong (cc : CCCC) (d : RegAddr) (x : HubOp) : TableRow.Statement (.wrlong cc d x) :=
  TableRow.of_fields rfl

theorem TableRow.rdlong (wz : Bool) (cc : CCCC) (d : RegAddr) (x : HubOp) : TableRow.Statement (.rdlong wz cc d x) :=
  TableRow.of_fields rfl

theorem TableRow.rdlongc (wz : Bool) (cc : CCCC) (d : RegAddr) (x : HubOp) : TableRow.Statement (.rdlongc wz cc d x) :=
  TableRow.of_fields rfl

theorem TableRow.wrquad (cc : CCCC) (x : HubOp) : TableRow.Statement (.wrquad cc x) :=
  TableRow.of_fields rfl

theorem TableRow.rdquad (cc : CCCC) (x : HubOp) : TableRow.Statement (.rdquad cc x) :=
  TableRow.of_fields rfl

theorem TableRow.rdquadc (cc : CCCC) (x : HubOp) : TableRow.Statement (.rdquadc cc x) :=
  TableRow.of_fields rfl

theorem TableRow.getptra (wz : Bool) (wc : Bool) (wr : Bool) (cc : CCCC) (d : RegAddr) : TableRow.Statement (.getptra wz wc wr cc d) :=
  TableRow.of_fields rfl

theorem TableRow.getptrb (wz : Bool) (wc : Bool) (wr : Bool) (cc : CCCC) (d : RegAddr) : TableRow.Statement (.getptrb wz wc wr cc d) :=
  TableRow.of_fields rfl

theorem TableRow.setptra (cc : CCCC) (x : RegOrImm) : TableRow.Statement (.setptra cc x) :=
  TableRow.of_fields rfl

theorem TableRow.setptrb (cc : CCCC) (x : RegOrImm) : TableRow.Statement (.setptrb cc x) :=
  TableRow.of_fields rfl

theorem TableRow.addptra (cc : CCCC) (x : RegOrImm) : TableRow.Statement (.addptra cc x) :=
  TableRow.of_fields rfl

theorem TableRow.addptrb (cc : CCCC) (x : RegOrImm) : TableRow.Statement (.addptrb cc x) :=
  TableRow.of_fields rfl

theorem TableRow.subptra (cc : CCCC) (x : RegOrImm) : TableRow.Statement (.subptra cc x) :=
  TableRow.of_fields rfl

theorem TableRow.subptrb (cc : CCCC) (x : RegOrImm) : TableRow.Statement (.subptrb cc x) :=
  TableRow.of_fields rfl

theorem TableRow.cachex (cc : CCCC) : TableRow.Statement (.cachex cc) :=
  TableRow.of_fields rfl

theorem TableRow.gettops (wz : Bool) (cc : CCCC) (d : RegAddr) : TableRow.Statement (.gettops wz cc d) :=
  TableRow.of_fields rfl

theorem TableRow.setquad (cc : CCCC) (x : RegOrImm) : TableRow.Statement (.setquad cc x) :=
  TableRow.of_fields rfl

theorem TableRow.setquaz (cc : CCCC) (x : RegOrImm) : TableRow.Statement (.setquaz cc x) :=
  TableRow.of_fields rfl

theorem TableRow.coginit (wz : Bool) (wc : Bool) (wr : Bool) (cc : CCCC) (d : RegAddr) (x : RegAddr) : TableRow.Statement (.coginit wz wc wr cc d x) :=
  TableRow.of_fields rfl

theorem TableRow.clkset (cc : CCCC) (d : RegAddr) : TableRow.Statement (.clkset cc d) :=
  TableRow.of_fields rfl

theorem TableRow.cogid (cc : CCCC) (d : RegAddr) : TableRow.Statement (.cogid cc d) :=
  TableRow.of_fields rfl

theorem TableRow.cogstop (cc : CCCC) (d : RegAddr) : TableRow.Statement (.cogstop cc d) :=
  TableRow.of_fields rfl

theorem TableRow.locknew (wz : Bool) (wc : Bool) (cc : CCCC) (d : RegAddr) : TableRow.Statement (.locknew wz wc cc d) :=
  TableRow.of_fields rfl

theorem TableRow.lockret (cc : CCCC) (d : RegAddr) : TableRow.Statement (.lockret cc d) :=
  TableRow.of_fields rfl

theorem TableRow.lockset (wc : Bool) (cc : CCCC) (d : RegAddr) : TableRow.Statement (.lockset wc cc d) :=
  TableRow.of_fields rfl

theorem TableRow.lockclr (wc : Bool) (cc : CCCC) (d : RegAddr) : TableRow.Statement (.lockclr wc cc d) :=
  TableRow.of_fields rfl

theorem TableRow.setinda (a : IndOp) : TableRow.Statement (.setinda a) := by
  cases a <;> exact TableRow.of_fields (by simp [rowOf, Row.admits, Instr.fields, IndOp.isDelta])

theorem TableRow.setindb (b : IndOp) : TableRow.Statement (.setindb b) := by
  cases b <;> exact TableRow.of_fields (by simp [rowOf, Row.admits, Instr.fields, IndOp.isDelta])

theorem TableRow.setinds (b : IndOp) (a : IndOp) : TableRow.Statement (.setinds b a) := by
  cases a <;> cases b <;> exact TableRow.of_fields (by simp [rowOf, Row.admits, Instr.fields, IndOp.isDelta])

theorem TableRow.fixinda (terminal : RegAddr) (initial : RegAddr) : TableRow.Statement (.fixinda terminal initial) := by
  exact TableRow.of_fields (by simp [rowOf, Row.admits, Instr.fields])

theorem TableRow.fixindb (terminal : RegAddr) (initial : RegAddr) : TableRow.Statement (.fixindb terminal initial) := by
  exact TableRow.of_fields (by simp [rowOf, Row.admits, Instr.fields])

theorem TableRow.fixinds (terminal : RegAddr) (initial : RegAddr) : TableRow.Statement (.fixinds terminal initial) := by
  exact TableRow.of_fields (by simp [rowOf, Row.admits, Instr.fields])

theorem TableRow.mov (cc : CCCC) (d : RegAddr) (x : RegOrImm) : TableRow.Statement (.mov cc d x) :=
  TableRow.of_fields rfl

theorem TableRow.add (cc : CCCC) (d : RegAddr) (x : RegOrImm) : TableRow.Statement (.add cc d x) :=
  TableRow.of_fields rfl

theorem TableRow.cmpcnt (wz : Bool) (wc : Bool) (cc : CCCC) (d : RegAddr) : TableRow.Statement (.cmpcnt wz wc cc d) :=
  TableRow.of_fields rfl

theorem TableRow.subcnt (wz : Bool) (wc : Bool) (cc : CCCC) (d : RegAddr) : TableRow.Statement (.subcnt wz wc cc d) :=
  TableRow.of_fields rfl

theorem TableRow.passcnt (cc : CCCC) (d : RegAddr) : TableRow.Statement (.passcnt cc d) :=
  TableRow.of_fields rfl

theorem TableRow.getcnt (cc : CCCC) (d : RegAddr) : TableRow.Statement (.getcnt cc d) :=
  TableRow.of_fields rfl

theorem TableRow.waitcnt (wc : Bool) (wr : Bool) (cc : CCCC) (d : RegAddr) (x : RegOrImm) : TableRow.Statement (.waitcnt wc wr cc d x) :=
  TableRow.of_fields rfl

theorem TableRow.waitpeq (cc : CCCC) (d : RegAddr) (x : RegOrImm) : TableRow.Statement (.waitpeq cc d x) :=
  TableRow.of_fields rfl

theorem TableRow.waitpne (cc : CCCC) (d : RegAddr) (x : RegOrImm) : TableRow.Statement (.waitpne cc d x) :=
  TableRow.of_fields rfl

theorem TableRow.jmpretS (wz : Bool) (wc : Bool) (cc : CCCC) (d : RegAddr) (x : RegAddr) : TableRow.Statement (.jmpretS wz wc cc d x) :=
  TableRow.of_fields rfl

theorem TableRow.jmpretN (wz : Bool) (wc : Bool) (cc : CCCC) (d : RegAddr) (n : BitVec 9) : TableRow.Statement (.jmpretN wz wc cc d n) :=
  TableRow.of_fields rfl

theorem TableRow.jmpretSNR (wz : Bool) (wc : Bool) (cc : CCCC) (d : RegAddr) (x : RegAddr) : TableRow.Statement (.jmpretSNR wz wc cc d x) :=
  TableRow.of_fields rfl

theorem TableRow.jmpretNNR (wz : Bool) (wc : Bool) (cc : CCCC) (d : RegAddr) (n : BitVec 9) : TableRow.Statement (.jmpretNNR wz wc cc d n) :=
  TableRow.of_fields rfl

theorem TableRow.jmpS (wz : Bool) (wc : Bool) (cc : CCCC) (x : RegAddr) : TableRow.Statement (.jmpS wz wc cc x) :=
  TableRow.of_fields rfl

theorem TableRow.jmpN (wz : Bool) (wc : Bool) (cc : CCCC) (n : BitVec 9) : TableRow.Statement (.jmpN wz wc cc n) :=
  TableRow.of_fields rfl

theorem TableRow.ret (wz : Bool) (wc : Bool) (cc : CCCC) : TableRow.Statement (.ret wz wc cc) :=
  TableRow.of_fields rfl

theorem TableRow.call (wz : Bool) (wc : Bool) (cc : CCCC) (d : RegAddr) (n : BitVec 9) : TableRow.Statement (.call wz wc cc d n) :=
  TableRow.of_fields rfl

theorem TableRow.tasksw : TableRow.Statement (.tasksw) :=
  TableRow.of_fields rfl

theorem TableRow.jmpretdS (wz : Bool) (wc : Bool) (cc : CCCC) (d : RegAddr) (x : RegAddr) : TableRow.Statement (.jmpretdS wz wc cc d x) :=
  TableRow.of_fields rfl

theorem TableRow.jmpretdN (wz : Bool) (wc : Bool) (cc : CCCC) (d : RegAddr) (n : BitVec 9) : TableRow.Statement (.jmpretdN wz wc cc d n) :=
  TableRow.of_fields rfl

theorem TableRow.jmpretdSNR (wz : Bool) (wc : Bool) (cc : CCCC) (d : RegAddr) (x : RegAddr) : TableRow.Statement (.jmpretdSNR wz wc cc d x) :=
  TableRow.of_fields rfl

theorem TableRow.jmpretdNNR (wz : Bool) (wc : Bool) (cc : CCCC) (d : RegAddr) (n : BitVec 9) : TableRow.Statement (.jmpretdNNR wz wc cc d n) :=
  TableRow.of_fields rfl

theorem TableRow.jmpdS (wz : Bool) (wc : Bool) (cc : CCCC) (x : RegAddr) : TableRow.Statement (.jmpdS wz wc cc x) :=
  TableRow.of_fields rfl

theorem TableRow.jmpdN (wz : Bool) (wc : Bool) (cc : CCCC) (n : BitVec 9) : TableRow.Statement (.jmpdN wz wc cc n) :=
  TableRow.of_fields rfl

theorem TableRow.retd (wz : Bool) (wc : Bool) (cc : CCCC) : TableRow.Statement (.retd wz wc cc) :=
  TableRow.of_fields rfl

theorem TableRow.calld (wz : Bool) (wc : Bool) (cc : CCCC) (d : RegAddr) (n : BitVec 9) : TableRow.Statement (.calld wz wc cc d n) :=
  TableRow.of_fields rfl

theorem TableRow.taskswd : TableRow.Statement (.taskswd) :=
  TableRow.of_fields rfl

theorem TableRow.ijz (wr : Bool) (cc : CCCC) (d : RegAddr) (x : RegOrImm) : TableRow.Statement (.ijz wr cc d x) :=
  TableRow.of_fields rfl

theorem TableRow.ijnz (wr : Bool) (cc : CCCC) (d : RegAddr) (x : RegOrImm) : TableRow.Statement (.ijnz wr cc d x) :=
  TableRow.of_fields rfl

theorem TableRow.djz (wr : Bool) (cc : CCCC) (d : RegAddr) (x : RegOrImm) : TableRow.Statement (.djz wr cc d x) :=
  TableRow.of_fields rfl

theorem TableRow.djnz (wr : Bool) (cc : CCCC) (d : RegAddr) (x : RegOrImm) : TableRow.Statement (.djnz wr cc d x) :=
  TableRow.of_fields rfl

theorem TableRow.ijzd (wr : Bool) (cc : CCCC) (d : RegAddr) (x : RegOrImm) : TableRow.Statement (.ijzd wr cc d x) :=
  TableRow.of_fields rfl

theorem TableRow.ijnzd (wr : Bool) (cc : CCCC) (d : RegAddr) (x : RegOrImm) : TableRow.Statement (.ijnzd wr cc d x) :=
  TableRow.of_fields rfl

theorem TableRow.djzd (wr : Bool) (cc : CCCC) (d : RegAddr) (x : RegOrImm) : TableRow.Statement (.djzd wr cc d x) :=
  TableRow.of_fields rfl

theorem TableRow.djnzd (wr : Bool) (cc : CCCC) (d : RegAddr) (x : RegOrImm) : TableRow.Statement (.djnzd wr cc d x) :=
  TableRow.of_fields rfl

theorem TableRow.tjz (cc : CCCC) (d : RegAddr) (x : RegOrImm) : TableRow.Statement (.tjz cc d x) :=
  TableRow.of_fields rfl

theorem TableRow.tjnz (cc : CCCC) (d : RegAddr) (x : RegOrImm) : TableRow.Statement (.tjnz cc d x) :=
  TableRow.of_fields rfl

theorem TableRow.jp (cc : CCCC) (d : RegAddr) (x : RegOrImm) : TableRow.Statement (.jp cc d x) :=
  TableRow.of_fields rfl

theorem TableRow.jnp (cc : CCCC) (d : RegAddr) (x : RegOrImm) : TableRow.Statement (.jnp cc d x) :=
  TableRow.of_fields rfl

theorem TableRow.tjzd (cc : CCCC) (d : RegAddr) (x : RegOrImm) : TableRow.Statement (.tjzd cc d x) :=
  TableRow.of_fields rfl

theorem TableRow.tjnzd (cc : CCCC) (d : RegAddr) (x : RegOrImm) : TableRow.Statement (.tjnzd cc d x) :=
  TableRow.of_fields rfl

theorem TableRow.jpd (cc : CCCC) (d : RegAddr) (x : RegOrImm) : TableRow.Statement (.jpd cc d x) :=
  TableRow.of_fields rfl

theorem TableRow.jnpd (cc : CCCC) (d : RegAddr) (x : RegOrImm) : TableRow.Statement (.jnpd cc d x) :=
  TableRow.of_fields rfl

end Sys2Proof.Laws
end

