-- ==== Sys2Proof/Tests/Slice0.lean ====
section
/-! SUPPORT. Tests: ill-formed terms, a word of every constructor, single instructions on the spec's vectors, and a
witness for the hypotheses of every statement that has some. Words and values are those of 95_test_vectors, of the
opcode table, or worked by hand from the rules named. -/

namespace Sys2Proof.Tests

open Sys2Proof Sys2Proof.Machine

/-! ## Well-formedness: a term of each ill-formed kind is refused -/

/-- `JMPRET INDA,++INDA WZ,WC` and its delayed form are spelt TASKSW and TASKSWD (R328, R335). -/
theorem test_wf_taskSwitch_refused :
    Instr.wellFormed (.jmpretS true true 0b0011 0x1F6 0x1F6) = false
    ∧ Instr.wellFormed (.jmpretdS true true 0b0011 0x1F6 0x1F6) = false := by decide

/-- JMPRET D,#n with a D that is no indirect register is spelt CALL (R327, R334). -/
theorem test_wf_jmpretN_refused :
    Instr.wellFormed (.jmpretN true false 15 0x010 5) = false
    ∧ Instr.wellFormed (.jmpretdN true false 15 0x010 5) = false := by decide

/-- CALL with an indirect D is spelt JMPRET D,#n (R327, R334). -/
theorem test_wf_call_refused :
    Instr.wellFormed (.call false false 15 0x1F6 5) = false
    ∧ Instr.wellFormed (.calld false false 15 0x1F7 5) = false := by decide

/-- The NR forms with D field 0 are spelt JMP and JMPD (R324, R325, R331, R332). -/
theorem test_wf_nr_refused :
    Instr.wellFormed (.jmpretSNR false false 15 0 5) = false ∧ Instr.wellFormed (.jmpretNNR false false 15 0 5) = false
    ∧ Instr.wellFormed (.jmpretdSNR false false 15 0 5) = false
    ∧ Instr.wellFormed (.jmpretdNNR false false 15 0 5) = false := by decide

/-- JMP #0 and JMPD #0 are spelt RET and RETD (R326, R333). -/
theorem test_wf_ret_refused :
    Instr.wellFormed (.jmpN false false 15 0) = false ∧ Instr.wellFormed (.jmpdN false false 15 0) = false := by decide

/-! ## Decoding: a word of every constructor, written out from the table's encoding (R124, R125) -/

/-- WRBYTE, RDBYTE, RDBYTEC: T = 000000. -/
theorem test_decode_bytes :
    decode 0b000000_000_0_1111_000010000_000010001 = .ok (.wrbyte 15 0x010 (.reg 0x011))
    ∧ decode 0b000000_101_1_0101_000010000_011000001 = .ok (.rdbyte true 5 0x010 (.ptr ⟨false, true, true, 1⟩))
    ∧ decode 0b000000_011_0_1111_000010000_000010001 = .ok (.rdbytec false 15 0x010 (.reg 0x011)) := by decide

/-- WRWORD, RDWORD, RDWORDC: T = 000001. -/
theorem test_decode_words :
    decode 0b000001_000_1_1111_000010000_111000001 = .ok (.wrword 15 0x010 (.ptr ⟨true, true, true, 1⟩))
    ∧ decode 0b000001_001_1_1111_000010000_110110110 = .ok (.rdword false 15 0x010 (.ptr ⟨true, true, false, 0x36⟩))
    ∧ decode 0b000001_111_0_1010_000010000_000010001 = .ok (.rdwordc true 10 0x010 (.reg 0x011)) := by decide

/-- WRLONG, RDLONG, RDLONGC: T = 000010. -/
theorem test_decode_longs :
    decode 0b000010_000_0_1111_111110110_000010001 = .ok (.wrlong 15 0x1F6 (.reg 0x011))
    ∧ decode 0b000010_001_1_1111_000010000_011111111 = .ok (.rdlong false 15 0x010 (.ptr ⟨false, true, true, 0x3F⟩))
    ∧ decode 0b000010_111_1_1111_000010000_000000111 = .ok (.rdlongc true 15 0x010 (.ptr ⟨false, false, false, 7⟩)) := by
  decide

/-- WRQUAD, RDQUAD, RDQUADC: the operand is D, bit 23 selects it (R121). -/
theorem test_decode_quads :
    decode 0b000011_001_1_1111_111111101_010110000 = .ok (.wrquad 15 (.ptr ⟨true, true, true, 0x3D⟩))
    ∧ decode 0b000011_000_1_1111_000010001_010110001 = .ok (.rdquad 15 (.reg 0x011))
    ∧ decode 0b000011_010_1_1111_000010001_010110001 = .ok (.rdquadc 15 (.reg 0x011)) := by decide

/-- GETPTRx, SETPTRx, ADDPTRx, SUBPTRx. -/
theorem test_decode_pointers :
    decode 0b000011_111_1_1111_000010000_000010010 = .ok (.getptra true true true 15 0x010)
    ∧ decode 0b000011_010_1_1111_000010000_000010011 = .ok (.getptrb false true false 15 0x010)
    ∧ decode 0b000011_000_1_1111_000010000_010110010 = .ok (.setptra 15 (.reg 0x010))
    ∧ decode 0b000011_001_1_1111_111111111_010110011 = .ok (.setptrb 15 (.imm 0x1FF))
    ∧ decode 0b000011_001_1_1111_000001000_010110100 = .ok (.addptra 15 (.imm 8))
    ∧ decode 0b000011_001_1_0011_111111111_010110101 = .ok (.addptrb 3 (.imm 0x1FF))
    ∧ decode 0b000011_000_1_1111_000010000_010110110 = .ok (.subptra 15 (.reg 0x010))
    ∧ decode 0b000011_001_1_1111_000001000_010110111 = .ok (.subptrb 15 (.imm 8)) := by decide

/-- CACHEX, GETTOPS, SETQUAD, SETQUAZ. -/
theorem test_decode_cacheControl :
    decode 0b000011_000_1_1111_000000000_000001000 = .ok (.cachex 15)
    ∧ decode 0b000011_101_1_1111_000010000_000010001 = .ok (.gettops true 15 0x010)
    ∧ decode 0b000011_000_1_1111_000010000_011100010 = .ok (.setquad 15 (.reg 0x010))
    ∧ decode 0b000011_011_1_1111_100000000_011100010 = .ok (.setquaz 15 (.imm 0x100)) := by decide

/-- COGINIT, CLKSET, COGID, COGSTOP. -/
theorem test_decode_cogs :
    decode 0b000011_011_0_1111_000010000_000010001 = .ok (.coginit false true true 15 0x010 0x011)
    ∧ decode 0b000011_000_1_1111_000010000_000000000 = .ok (.clkset 15 0x010)
    ∧ decode 0b000011_001_1_1111_000010000_000000001 = .ok (.cogid 15 0x010)
    ∧ decode 0b000011_000_1_1111_000010000_000000011 = .ok (.cogstop 15 0x010) := by decide

/-- LOCKNEW, LOCKRET, LOCKSET, LOCKCLR. -/
theorem test_decode_locks :
    decode 0b000011_101_1_1111_000010000_000000100 = .ok (.locknew true false 15 0x010)
    ∧ decode 0b000011_000_1_1111_000010000_000000101 = .ok (.lockret 15 0x010)
    ∧ decode 0b000011_010_1_1111_000010000_000000110 = .ok (.lockset true 15 0x010)
    ∧ decode 0b000011_000_1_1111_000010000_000000111 = .ok (.lockclr false 15 0x010) := by decide

/-- SETINDx and FIXINDx, the source's words (R267..R272). -/
theorem test_decode_indirect :
    decode 0b111000_000_0_0001_000000000_000000101 = .ok (.setinda (.addr 5))
    ∧ decode 0b111000_000_0_0011_000000000_000000011 = .ok (.setinda (.delta 3))
    ∧ decode 0b111000_000_0_1100_111111100_000000000 = .ok (.setindb (.delta 0x1FC))
    ∧ decode 0b111000_000_0_0111_000000111_000001000 = .ok (.setinds (.addr 7) (.delta 8))
    ∧ decode 0b111001_000_0_0001_000001111_000001000 = .ok (.fixinda 15 8)
    ∧ decode 0b111001_000_0_0100_000010000_000011111 = .ok (.fixindb 16 31)
    ∧ decode 0b111001_000_0_0101_001100011_000110010 = .ok (.fixinds 99 50) := by decide

/-- MOV and ADD, two of them the source's words (R265, R273, R274). -/
theorem test_decode_movAdd :
    decode 0b101000_001_0_0011_111110110_111110110 = .ok (.mov 3 0x1F6 (.reg 0x1F6))
    ∧ decode 0b101000_001_1_1111_000010000_001100100 = .ok (.mov 15 0x010 (.imm 100))
    ∧ decode 0b100000_001_0_1100_111110111_111110111 = .ok (.add 12 0x1F7 (.reg 0x1F7)) := by decide

/-- CMPCNT, SUBCNT, PASSCNT, GETCNT, WAITCNT, WAITPEQ, WAITPNE. -/
theorem test_decode_counts :
    decode 0b000011_110_1_1111_000010000_000001100 = .ok (.cmpcnt true true 15 0x010)
    ∧ decode 0b000011_011_1_1111_000010000_000001100 = .ok (.subcnt false true 15 0x010)
    ∧ decode 0b000011_000_1_1111_000010000_000001101 = .ok (.passcnt 15 0x010)
    ∧ decode 0b000011_001_1_1111_000010000_000001101 = .ok (.getcnt 15 0x010)
    ∧ decode 0b111111_001_1_1111_000010000_111110100 = .ok (.waitcnt false true 15 0x010 (.imm 500))
    ∧ decode 0b111111_110_0_1111_000010000_000010001 = .ok (.waitpeq 15 0x010 (.reg 0x011))
    ∧ decode 0b111111_111_1_1111_000010000_000010001 = .ok (.waitpne 15 0x010 (.imm 0x011)) := by decide

/-- JMPRET and its special cases: T = 000111 (R322..R328). -/
theorem test_decode_jmpret :
    decode 0b000111_111_0_1111_000110000_000110001 = .ok (.jmpretS true true 15 0x030 0x031)
    ∧ decode 0b000111_001_1_0001_111110110_001010101 = .ok (.jmpretN false false 1 0x1F6 0x055)
    ∧ decode 0b000111_110_0_1111_000000011_000010000 = .ok (.jmpretSNR true true 15 3 0x010)
    ∧ decode 0b000111_110_1_1111_000000011_000010000 = .ok (.jmpretNNR true true 15 3 0x010)
    ∧ decode 0b000111_100_0_1111_000000000_000110001 = .ok (.jmpS true false 15 0x031)
    ∧ decode 0b000111_000_1_1100_000000000_000000001 = .ok (.jmpN false false 12 1)
    ∧ decode 0b000111_110_1_1111_000000000_000000000 = .ok (.ret true true 15)
    ∧ decode 0b000111_011_1_1111_000110000_001010101 = .ok (.call false true 15 0x030 0x055)
    ∧ decode 0b000111_111_0_0011_111110110_111110110 = .ok .tasksw := by decide

/-- JMPRETD and its special cases: T = 010111 (R329..R335). -/
theorem test_decode_jmpretd :
    decode 0b010111_101_0_1111_000110000_000110001 = .ok (.jmpretdS true false 15 0x030 0x031)
    ∧ decode 0b010111_001_1_0001_111110111_001010101 = .ok (.jmpretdN false false 1 0x1F7 0x055)
    ∧ decode 0b010111_010_0_1111_000000011_000010000 = .ok (.jmpretdSNR false true 15 3 0x010)
    ∧ decode 0b010111_000_1_1111_000000001_000000000 = .ok (.jmpretdNNR false false 15 1 0)
    ∧ decode 0b010111_000_0_0101_000000000_000110001 = .ok (.jmpdS false false 5 0x031)
    ∧ decode 0b010111_000_1_1111_000000000_000010000 = .ok (.jmpdN false false 15 0x010)
    ∧ decode 0b010111_000_1_1111_000000000_000000000 = .ok (.retd false false 15)
    ∧ decode 0b010111_001_1_1111_000110000_001010101 = .ok (.calld false false 15 0x030 0x055)
    ∧ decode 0b010111_111_0_0011_111110110_111110110 = .ok .taskswd := by decide

/-- IJx and DJx: T = 111100 and 111101 (R336..R339, R344..R347). -/
theorem test_decode_countBranches :
    decode 0b111100_001_1_1111_000110000_001000100 = .ok (.ijz true 15 0x030 (.imm 0x044))
    ∧ decode 0b111100_101_1_1111_000110000_001000100 = .ok (.ijnz true 15 0x030 (.imm 0x044))
    ∧ decode 0b111101_000_1_1111_000110000_001000100 = .ok (.djz false 15 0x030 (.imm 0x044))
    ∧ decode 0b111101_101_0_1111_000110000_000110001 = .ok (.djnz true 15 0x030 (.reg 0x031))
    ∧ decode 0b111100_010_1_1111_000110000_001000100 = .ok (.ijzd false 15 0x030 (.imm 0x044))
    ∧ decode 0b111100_111_1_1111_000110000_001000100 = .ok (.ijnzd true 15 0x030 (.imm 0x044))
    ∧ decode 0b111101_011_1_1010_000110000_001000100 = .ok (.djzd true 10 0x030 (.imm 0x044))
    ∧ decode 0b111101_111_1_1111_000110000_001000100 = .ok (.djnzd true 15 0x030 (.imm 0x044)) := by decide

/-- TJx and JPx: T = 111110 (R340..R343, R348..R351). -/
theorem test_decode_testBranches :
    decode 0b111110_000_1_1111_000110000_001000100 = .ok (.tjz 15 0x030 (.imm 0x044))
    ∧ decode 0b111110_100_0_1111_000110000_001000100 = .ok (.tjnz 15 0x030 (.reg 0x044))
    ∧ decode 0b111110_001_1_1111_000110000_001000100 = .ok (.jp 15 0x030 (.imm 0x044))
    ∧ decode 0b111110_101_1_1111_000110000_001000100 = .ok (.jnp 15 0x030 (.imm 0x044))
    ∧ decode 0b111110_010_1_1111_000110000_001000100 = .ok (.tjzd 15 0x030 (.imm 0x044))
    ∧ decode 0b111110_110_1_1111_000110000_001000100 = .ok (.tjnzd 15 0x030 (.imm 0x044))
    ∧ decode 0b111110_011_1_1100_000110000_001000100 = .ok (.jpd 12 0x030 (.imm 0x044))
    ∧ decode 0b111110_111_1_1111_000110000_001000100 = .ok (.jnpd 15 0x030 (.imm 0x044)) := by decide

/-- Words of no row are refused by name: an unlisted sub-opcode, MOV with WZ, SETIND naming neither, FIXIND with a
bad selector (R127, D13, D38). -/
theorem test_decode_unlisted :
    (decode 0x0CFC0009).isOk = false ∧ (decode 0xA2FC2001).isOk = false ∧ (decode 0xE0000005).isOk = false
    ∧ (decode 0xE40C100F).isOk = false := by decide

/-! ## Single instructions, on words and values of the spec's vectors (95_test_vectors) -/

/-- A running cog with pc $020 and some registers. -/
def cogOf (ram : Cells 32) : Cog := { Cog.reset with run := .running, pc := 0x020, ram := ram }

/-- The chip with cog 0 about to move. -/
def chipOf (c : Cog) (mem : List Host.Cell := []) : State :=
  { State.reset with hub := { State.reset.hub with mem := mem }, cogs := State.reset.cogs.set 0 c }

/-- What is seen after the instruction a word stands for, when it completes. -/
def seen {α : Type} (w : Word) (s : State) (f : State → α) : Option α :=
  match decode w with
  | .ok i => match exec i s with
    | .next t => some (f t)
    | .fault _ | .refused _ => none
  | .error _ => none

/-- Why the instruction a word stands for is refused. -/
def why (w : Word) (s : State) : Option Refusal :=
  match decode w with
  | .ok i => match exec i s with
    | .refused r => some r
    | .next _ | .fault _ => none
  | .error _ => none

/-- Registers $010 and $011. -/
def two (d s : Word) : Cog := cogOf (Cells.ofList 0 512 [(0x010, d), (0x011, s)])

/-- A register of the moving cog. -/
def reg (a : RegAddr) (t : State) : Word := t.cog.x a

/-- Bytes of hub memory from an address. -/
def bytes (a n : Nat) (t : State) : List Byte := (List.range n).map fun j => t.hub.byte (a + j)

/-- WRBYTE stores one byte, WRWORD two at the even address, WRLONG four at the long address (vectors 2.1). -/
theorem test_wr_units :
    seen 0x003C2011 (chipOf (two 0x12345678 0xFFFE1003)) (bytes 0x1000 5) = some [0, 0, 0, 0x78, 0]
    ∧ seen 0x043C2011 (chipOf (two 0x12345678 0xFFFE1003)) (bytes 0x1000 5) = some [0, 0, 0x78, 0x56, 0]
    ∧ seen 0x083C2011 (chipOf (two 0x12345678 0xFFFE1003)) (bytes 0x1000 5) = some [0x78, 0x56, 0x34, 0x12, 0] := by decide

/-- A long written at the last ROM address changes nothing, at the first RAM address it lands (vectors 2.1). -/
theorem test_wrlong_edges :
    seen 0x083C2011 (chipOf (two 0x12345678 0x00000E7F)) (fun t => t.hub.mem) = some []
    ∧ seen 0x083C2011 (chipOf (two 0x12345678 0x00000E80)) (bytes 0xE80 4) = some [0x78, 0x56, 0x34, 0x12] := by decide

/-- RDBYTE, RDWORD, RDLONG of address 9 with WZ (vectors 2.1). -/
theorem test_rd_units :
    seen 0x02BC2011 (chipOf (two 1 9)) (fun t => (reg 0x010 t, t.cog.z)) = some (0x20, false)
    ∧ seen 0x06BC2011 (chipOf (two 1 9)) (fun t => (reg 0x010 t, t.cog.z)) = some (0x2000, false)
    ∧ seen 0x0ABC2011 (chipOf (two 1 9)) (fun t => (reg 0x010 t, t.cog.z)) = some (0x0C7C2000, false) := by decide

/-- RDBYTE of a byte 0 sets Z (vectors 2.1). -/
theorem test_rdbyte_zero : seen 0x02BC2011 (chipOf (two 1 8)) (fun t => (reg 0x010 t, t.cog.z)) = some (0, true) := by decide

/-- PTRA++ wraps past the top of hub memory (vectors 2.1, R152, R78). -/
theorem test_wrlong_ptr_wraps :
    seen 0x087C20C1 (chipOf { two 0xCAFEBABE 0 with ptra := 0x1FFFE }) (fun t => (t.cog.ptra, bytes 0x1FFFC 4 t))
      = some (0x00002, [0xBE, 0xBA, 0xFE, 0xCA]) := by decide

/-- RDLONG D,PTRB--[32] (vectors 2.1) and RDLONG with U = 0, P = 1, which ignores the index (R154). -/
theorem test_rdlong_ptr :
    seen 0x08FC21E0 (chipOf { two 0 0 with ptrb := 0x00010 }) (fun t => (reg 0x010 t, t.cog.ptrb)) = some (0x0DC1FE45, 0x1FF90)
    ∧ seen 0x08FC2045 (chipOf { two 0 0 with ptra := 0x00004 }) (fun t => (reg 0x010 t, t.cog.ptra))
      = some (0x20302E32, 0x00004) := by decide

/-- The source's example WRWORD D,PTRB[7]: the index counts words, the pointer stays (vectors 1.2). -/
theorem test_wrword_ptr_index :
    seen 0x047C2107 (chipOf { two 0xA1B2C3D4 0 with ptrb := 0x02000 }) (fun t => (t.cog.ptrb, bytes 0x200E 2 t))
      = some (0x02000, [0xD4, 0xC3]) := by decide

/-- The source's example RDWORD D,--PTRB[10] (vectors 1.2). -/
theorem test_rdword_ptr :
    seen 0x04FC21B6 (chipOf { two 0 0 with ptrb := 0x02000 } [(0x1FEC, 0xEC), (0x1FED, 0x1F)])
      (fun t => (reg 0x010 t, t.cog.ptrb)) = some (0x1FEC, 0x01FEC) := by decide

/-- The quad at $00000 in the QUADs, cached. -/
def cached (c : Cog) (q : Vector Word 4) (valid : Bool) : Cog := { c with quad := q, cacheValid := valid, cacheTag := 0 }

/-- RDBYTEC hits at $0000D without a refill and refills at $0001D (vectors 2.1). -/
theorem test_rdbytec :
    seen 0x01BC2011 (chipOf (cached (two 0 0xD) #v[1, 2, 3, 0x0C7CCC03] true)) (fun t => (reg 0x010 t, t.cog.quad))
      = some (0xCC, #v[1, 2, 3, 0x0C7CCC03])
    ∧ seen 0x01BC2011 (chipOf (cached (two 0 0x1D) #v[1, 2, 3, 4] true)) (fun t => (reg 0x010 t, t.cog.quad, t.cog.cacheTag))
      = some (0xC6, #v[0x0DC1FE45, 0x0CFCB6E3, 0x0C7CC601, 0x0D7CC601], 1) := by decide

/-- RDWORDC reads a stale QUAD while the cache is valid, hub memory when it is not (vectors 2.1). -/
theorem test_rdwordc :
    seen 0x05BC2011 (chipOf (cached (two 0 6) #v[0x11111111, 0x22223333, 0, 0] true)) (reg 0x010) = some 0x2222
    ∧ seen 0x05BC2011 (chipOf (cached (two 0 6) #v[0x11111111, 0x22223333, 0, 0] false)) (reg 0x010) = some 0x2030 := by decide

/-- RDLONGC of $0001D on a miss (vectors 2.1). -/
theorem test_rdlongc : seen 0x09BC2011 (chipOf (two 0 0x1D)) (reg 0x010) = some 0x0D7CC601 := by decide

/-- WRQUAD stores the QUADs at the quad address (vectors 2.1). -/
theorem test_wrquad :
    seen 0x0C7C22B0 (chipOf (cached (two 0 0x100F) #v[0x11, 0x22, 0x33, 0x44] false)) (fun t => (t.hub.long 0x1004, t.hub.long 0x100C))
      = some (0x22, 0x44) := by decide

/-- RDQUAD of $0001F, and the source's RDQUAD ++PTRB, scaled by 16 (vectors 2.1, 1.2). -/
theorem test_rdquad :
    seen 0x0C7C22B1 (chipOf (two 0 0x1F)) (fun t => (t.cog.quad, t.cog.cacheValid, t.cog.cacheTag, t.cog.c))
      = some (#v[0x0DC1FE45, 0x0CFCB6E3, 0x0C7CC601, 0x0D7CC601], true, 1, false)
    ∧ seen 0x0CFF02B1 (chipOf { two 0 0 with ptrb := 0x02000 }) (fun t => (t.cog.ptrb, t.cog.cacheTag)) = some (0x02010, 0x0201) := by
  decide

/-- RDQUADC keeps the QUADs on a hit and fills them when the cache is invalid (vectors 2.1). -/
theorem test_rdquadc :
    seen 0x0D7C22B1 (chipOf (cached (two 0 4) #v[1, 2, 3, 4] true)) (fun t => t.cog.quad) = some #v[1, 2, 3, 4]
    ∧ seen 0x0D7C22B1 (chipOf (cached (two 0 4) #v[1, 2, 3, 4] false)) (fun t => t.cog.quad)
      = some #v[0x706F7250, 0x20302E32, 0x0C7C2000, 0x0C7CCC03] := by decide

/-- GETPTRA and GETPTRB with WZ, WC (vectors 2.2). -/
theorem test_getptr :
    seen 0x0FFC2012 (chipOf { two 7 0 with ptra := 0x10004 }) (fun t => (reg 0x010 t, t.cog.z, t.cog.c)) = some (0x10004, false, true)
    ∧ seen 0x0F7C2012 (chipOf { two 7 0 with ptra := 0x10004 }) (fun t => (reg 0x010 t, t.cog.z, t.cog.c)) = some (7, false, true)
    ∧ seen 0x0FFC2013 (chipOf (two 7 0)) (fun t => (reg 0x010 t, t.cog.z, t.cog.c)) = some (0, true, false) := by decide

/-- SETPTRA of a register, SETPTRB of an immediate, and the refused immediate $1F6 (vectors 2.2). -/
theorem test_setptr :
    seen 0x0C7C20B2 (chipOf (two 0xFFFE1234 0)) (fun t => t.cog.ptra) = some 0x01234
    ∧ seen 0x0CFFFEB3 (chipOf (two 0 0)) (fun t => t.cog.ptrb) = some 0x001FF
    ∧ why 0x0CFFECB2 (chipOf (two 0 0)) = some .indirectCollision := by decide

/-- ADDPTRA wraps (vectors 2.2). -/
theorem test_addptra :
    seen 0x0CFC10B4 (chipOf { two 0 0 with ptra := 0x1FFFC }) (fun t => t.cog.ptra) = some 0x00004
    ∧ seen 0x0C7C20B4 (chipOf { two 0xFFFFFFFF 0 with ptra := 0x1FFFC }) (fun t => t.cog.ptra) = some 0x1FFFB := by decide

/-- ADDPTRB, SUBPTRA, SUBPTRB (vectors 2.2). -/
theorem test_addptrb_subptr :
    seen 0x0CFFFEB5 (chipOf { two 0 0 with ptrb := 0x00004 }) (fun t => t.cog.ptrb) = some 0x00203
    ∧ seen 0x0CFC02B6 (chipOf { two 0 0 with ptra := 0x1FFFC }) (fun t => t.cog.ptra) = some 0x1FFFB
    ∧ seen 0x0CFC10B7 (chipOf { two 0 0 with ptrb := 0x00004 }) (fun t => t.cog.ptrb) = some 0x1FFFC
    ∧ seen 0x0C7C20B7 (chipOf { two 0xFFFFFFFF 0 with ptrb := 0x00004 }) (fun t => t.cog.ptrb) = some 0x00005 := by decide

/-- GETTOPS and CACHEX (vectors 2.2). -/
theorem test_gettops_cachex :
    seen 0x0EFC2011 (chipOf (cached (two 0 0) #v[0x11AAAAAA, 0x22BBBBBB, 0x33CCCCCC, 0x44DDDDDD] true))
      (fun t => (reg 0x010 t, t.cog.z)) = some (0x44332211, false)
    ∧ seen 0x0C7C0008 (chipOf (cached (two 0 0) #v[1, 2, 3, 4] true)) (fun t => (t.cog.cacheValid, t.cog.quad))
      = some (false, #v[1, 2, 3, 4]) := by decide

/-- SETQUAD: a register's low nine bits, the last window, and the first refused base (vectors 2.2). -/
theorem test_setquad :
    seen 0x0C7C20E2 (chipOf (two 0xFFFFF020 0)) (fun t => t.cog.qbase) = some 0x020
    ∧ seen 0x0CFFE4E2 (chipOf (two 0 0)) (fun t => t.cog.qbase) = some 0x1F2
    ∧ why 0x0CFFE6E2 (chipOf (two 0 0)) = some .quadBase := by decide

/-- SETQUAZ clears the QUADs and keeps the cache (vectors 2.2). -/
theorem test_setquaz :
    seen 0x0DFE00E2 (chipOf (cached (two 0 0) #v[1, 2, 3, 4] true)) (fun t => (t.cog.qbase, t.cog.quad, t.cog.cacheValid))
      = some (0x100, #v[0, 0, 0, 0], true) := by decide

/-- COGINIT of a chosen cog: the base is D's long address, the parameter S's low 17 bits (vectors 2.3). -/
theorem test_coginit :
    seen 0x0C3C2011 (chipOf { two 0x1003 0xFFFF2345 with cogsel := 3 })
      (fun t => ((t.cogs[3]).run, (t.cogs[3]).ptra, (t.cogs[3]).ptrb, reg 0x010 t)) = some (.loading 0x1000 0, 0x12345, 0x1000, 0x1003) := by
  decide

/-- CLKSET: an accepted PLL setting, and the refused one (vectors 2.3). -/
theorem test_clkset :
    seen 0x0C7C2000 (chipOf (two 0xFFFFFE6B 0)) (fun t => t.hub.clkreg) = some 0x06B
    ∧ why 0x0C7C2000 (chipOf (two 3 0)) = some .clockMode := by decide

/-- COGID, and COGSTOP of another cog, of itself and of number 8 (vectors 2.3). -/
theorem test_cogid_cogstop :
    seen 0x0CFC2001 (chipOf (two 7 0)) (reg 0x010) = some 0
    ∧ seen 0x0C7C2003 (chipOf (two 2 0)) (fun t => (t.cogs[2]).run) = some .idle
    ∧ seen 0x0C7C2003 (chipOf (two 0 0)) (fun t => t.cog.run) = some .idle
    ∧ why 0x0C7C2003 (chipOf (two 8 0)) = some .cogNumber := by decide

/-- The chip with its locks set as given. -/
def lockedChip (c : Cog) (l : Lock) : State :=
  let s := chipOf c
  { s with hub := { s.hub with locks := Vector.replicate 8 l } }

/-- LOCKNEW with every lock checked out sets C; LOCKRET frees a lock (vectors 2.3). -/
theorem test_locknew_lockret :
    seen 0x0DFC2004 (lockedChip (two 3 0) ⟨false, true⟩) (fun t => t.cog.c) = some true
    ∧ seen 0x0C7C2005 (lockedChip (two 3 0) ⟨true, true⟩) (fun t => t.hub.locks[3]) = some ⟨true, false⟩ := by decide

/-- LOCKSET and LOCKCLR return the prior state in C (vectors 2.3). -/
theorem test_lockset_lockclr :
    seen 0x0D7C2006 (lockedChip (two 5 0) ⟨true, true⟩) (fun t => (t.cog.c, t.hub.locks[5])) = some (true, ⟨true, true⟩)
    ∧ seen 0x0D7C2007 (lockedChip (two 5 0) ⟨true, true⟩) (fun t => (t.cog.c, t.hub.locks[5])) = some (true, ⟨false, true⟩)
    ∧ seen 0x0C7C2006 (lockedChip (two 5 0) ⟨false, true⟩) (fun t => (t.cog.c, t.hub.locks[5])) = some (false, ⟨true, true⟩) := by
  decide

/-- An indirect register that was set two instructions ago. -/
def indOf (p b t : BitVec 9) : Ind := ⟨p, b, t, true, 2⟩

/-- The start of vectors 2.4, SETINDx and FIXINDx. -/
def indStart : State := chipOf { cogOf [] with inda := indOf 0x1FE 0x010 0x020, indb := indOf 0x002 0 0x1FF }

/-- SETINDA ++3, SETINDB --4, SETINDS #7,++8 (vectors 2.4). -/
theorem test_setind :
    seen 0xE00C0003 indStart (fun t => (t.cog.inda.ptr, t.cog.inda.bot, t.cog.inda.top)) = some (0x001, 0, 0x1FF)
    ∧ seen 0xE033F800 indStart (fun t => t.cog.indb.ptr) = some 0x1FE
    ∧ seen 0xE01C0E08 indStart (fun t => (t.cog.indb.ptr, t.cog.inda.ptr)) = some (0x007, 0x006) := by decide

/-- FIXINDA #8,#15 orders the limits; FIXINDB and FIXINDS (vectors 2.4). -/
theorem test_fixind :
    seen 0xE404100F indStart (fun t => (t.cog.inda.ptr, t.cog.inda.bot, t.cog.inda.top)) = some (0x00F, 0x008, 0x00F)
    ∧ seen 0xE410201F indStart (fun t => (t.cog.indb.ptr, t.cog.indb.bot, t.cog.indb.top)) = some (0x01F, 0x010, 0x01F)
    ∧ seen 0xE414C632 indStart (fun t => (t.cog.inda.ptr, t.cog.indb.ptr, t.cog.indb.top)) = some (0x032, 0x032, 0x063) := by
  decide

/-- The start of vectors 2.4, indirect operands. -/
def indRow : State :=
  chipOf { cogOf (Cells.ofList 0 512 [(0x010, 0x100), (0x011, 0x101), (0x012, 0x102), (0x013, 0x103), (0x01F, 0x1F1F),
      (0x020, 0x2020), (0x021, 0x2121), (0x030, 0x3030)]) with
    inda := indOf 0x013 0x010 0x013, indb := indOf 0x020 0 0x1FF }

/-- MOV INDA,++INDA and MOV $030,INDA-- (vectors 2.4). -/
theorem test_mov_indirect :
    seen 0xA08FEDF6 indRow (fun t => (reg 0x013 t, t.cog.inda.ptr)) = some (0x100, 0x010)
    ∧ seen 0xA08861F6 indRow (fun t => (reg 0x030 t, t.cog.inda.ptr)) = some (0x103, 0x012) := by decide

/-- ADD ++INDB,INDB; MOV INDB++,INDA-- steps both pointers (vectors 2.4). -/
theorem test_add_indirect :
    seen 0x80B3EFF7 indRow (fun t => (reg 0x021 t, t.cog.indb.ptr)) = some (0x4141, 0x021)
    ∧ seen 0xA09BEFF6 indRow (fun t => (reg 0x020 t, t.cog.inda.ptr, t.cog.indb.ptr)) = some (0x103, 0x012, 0x021) := by decide

/-- ADD wraps; IF_Z with Z = 0 does nothing; MOV to $1F8 is refused (vectors 2.4). -/
theorem test_mov_add_plain :
    seen 0x80BC2011 (chipOf (two 0xFFFFFFFF 2)) (reg 0x010) = some 1
    ∧ seen 0x80A82011 (chipOf (two 5 2)) (fun t => (reg 0x010 t, t.cog.pc)) = some (5, 0x021)
    ∧ why 0xA0FFF001 (chipOf (two 0 0)) = some .specialRegister := by decide

/-- The chip with a value of CNT. -/
def atCnt (c : Cog) (cnt : BitVec 64) : State :=
  let s := chipOf c
  { s with hub := { s.hub with cnt := cnt } }

/-- GETCNT: CNTL, then the CNTH of the same reading (vectors 2.5). -/
theorem test_getcnt :
    seen 0x0CFC200D (atCnt (two 0 0) 0x00000001_FFFFFFF0) (fun t => (reg 0x010 t, t.cog.cntHi)) = some (0xFFFFFFF0, 1)
    ∧ seen 0x0CFC220D (atCnt { two 0 0 with cntSeq := .gotLow, cntHi := 1 } 0x2_00000000) (reg 0x011) = some 1 := by decide

/-- SUBCNT: a borrow from the low long goes into the high one and into C (vectors 2.5). -/
theorem test_subcnt :
    seen 0x0DFC200C (atCnt (two 0xFFFFFFF0 0) 0x2_00000010) (fun t => (reg 0x010 t, t.cog.c)) = some (0x20, true)
    ∧ seen 0x0CFC220C (atCnt { two 0 1 with cntSeq := .subLow, cntHi := 2, cntBorrow := true } 0x2_00000011) (reg 0x011) = some 0 := by
  decide

/-- CMPCNT compares D with CNTL, unsigned (vectors 2.5). -/
theorem test_cmpcnt :
    seen 0x0F7C200C (atCnt (two 0x1000 0) 0x0FFF) (fun t => (t.cog.c, t.cog.z)) = some (true, false)
    ∧ seen 0x0F7C200C (atCnt (two 0x1000 0) 0x1000) (fun t => (t.cog.c, t.cog.z)) = some (false, true) := by decide

/-- PASSCNT passes and stays (vectors 2.5). -/
theorem test_passcnt :
    seen 0x0C7C200D (atCnt (two 0xFFFFFFF0 0) 0x10) (fun t => t.cog.pc) = some 0x021
    ∧ seen 0x0C7C200D (atCnt (two 0x10 0) 0xFFFFFFF0) (fun t => t.cog.pc) = some 0x020 := by decide

/-- WAITCNT, with and without its result, and refused with WC (vectors 2.5). -/
theorem test_waitcnt :
    seen 0xFCFC21F4 (chipOf (two 0x1000 0)) (reg 0x010) = some 0x11F4
    ∧ seen 0xFC7C21F4 (chipOf (two 0x1000 0)) (reg 0x010) = some 0x1000
    ∧ why 0xFDFC21F4 (chipOf (two 0x1000 0)) = some .waitcntLong := by decide

/-- WAITPEQ and WAITPNE end and write no register (vectors 2.5). -/
theorem test_waitpins :
    seen 0xFF3C2011 (chipOf (two 3 4)) (fun t => (t.cog.pc, t.cog.ram)) = some (0x021, (two 3 4).ram)
    ∧ seen 0xFFBC2011 (chipOf (two 3 4)) (fun t => (t.cog.pc, t.cog.ram)) = some (0x021, (two 3 4).ram) := by decide

/-- The start of vectors 2.6, the JMPRET group. -/
def jumpStart : State := chipOf { cogOf [(0x030, 0xFFFFF800), (0x031, 0x655)] with c := true }

/-- JMPRET $030,$031 WZ,WC saves the old flags and takes the new ones; JMPRET $030,$030 (vectors 2.6). -/
theorem test_jmpret :
    seen 0x1FBC6031 jumpStart (fun t => (t.cog.pc, reg 0x030 t, t.cog.c, t.cog.z)) = some (0x055, 0xFFFFFA21, true, true)
    ∧ seen 0x1CBC6030 jumpStart (fun t => (t.cog.pc, reg 0x030 t)) = some (0x000, 0xFFFFF821) := by decide

/-- JMPRET $030,#$055, which is CALL, at PC = $1F5 (vectors 2.6); JMPRET INDA,#$055 saves through the pointer. -/
theorem test_call :
    seen 0x1FFC6055 (jumpStart.withCog { jumpStart.cog with pc := 0x1F5 }) (fun t => (t.cog.pc, reg 0x030 t, t.cog.c)) = some (0x055, 0xFFFFFBF6, true)
    ∧ seen 0x1CC3EC55 indRow (fun t => (t.cog.pc, reg 0x013 t)) = some (0x055, 0x021) := by decide

/-- JMP $031, JMP #$010 and JMP #$010 with D field 3 (vectors 2.6). -/
theorem test_jmp :
    seen 0x1F3C0031 jumpStart (fun t => (t.cog.pc, t.cog.z, t.cog.c)) = some (0x055, true, true)
    ∧ seen 0x1C7C0010 jumpStart (fun t => (t.cog.pc, t.cog.z, t.cog.c)) = some (0x010, false, true)
    ∧ seen 0x1F7C0610 jumpStart (fun t => (t.cog.pc, t.cog.z, t.cog.c)) = some (0x010, true, true) := by decide

/-- RET never patched, IF_NC JMP with C = 1, JMPRET $003,$031 with NR (vectors 2.6). -/
theorem test_ret :
    seen 0x1C7C0000 jumpStart (fun t => t.cog.pc) = some 0x000
    ∧ seen 0x1C4C0010 jumpStart (fun t => t.cog.pc) = some 0x021
    ∧ seen 0x1C3C0631 jumpStart (fun t => (t.cog.pc, reg 0x003 t)) = some (0x055, 0) := by decide

/-- JMPRETD and CALLD save PC + 4 and leave a pending branch (vectors 2.6). -/
theorem test_jmpretd :
    seen 0x5FBC6031 jumpStart (fun t => (t.cog.pc, reg 0x030 t, t.cog.pend)) = some (0x021, 0xFFFFFA24, some ⟨0x055, 3⟩)
    ∧ seen 0x5CFC6055 jumpStart (fun t => (t.cog.pc, reg 0x030 t, t.cog.pend)) = some (0x021, 0xFFFFF824, some ⟨0x055, 3⟩) := by
  decide

/-- JMPD #$010, RETD, JMPD $031, JMPRETD $003,$031 with NR (R331..R333). -/
theorem test_jmpd :
    seen 0x5C7C0010 jumpStart (fun t => (t.cog.pc, t.cog.pend)) = some (0x021, some ⟨0x010, 3⟩)
    ∧ seen 0x5C7C0000 jumpStart (fun t => (t.cog.pc, t.cog.pend)) = some (0x021, some ⟨0x000, 3⟩)
    ∧ seen 0x5C3C0031 jumpStart (fun t => (t.cog.pc, t.cog.pend)) = some (0x021, some ⟨0x055, 3⟩)
    ∧ seen 0x5C3C0631 jumpStart (fun t => (reg 0x003 t, t.cog.pend)) = some (0, some ⟨0x055, 3⟩) := by decide

/-- JMPRETD INDA,#$055 and JMPRETD #n with NR and D field 3, whose low bits are the flags (R330, R332). -/
theorem test_jmpretd_immediate :
    seen 0x5CC3EC55 indRow (fun t => (reg 0x013 t, t.cog.pend)) = some (0x024, some ⟨0x055, 3⟩)
    ∧ seen 0x5F7C0655 jumpStart (fun t => (t.cog.z, t.cog.c, t.cog.pend)) = some (true, true, some ⟨0x055, 3⟩) := by decide

/-- The start of the TASKSW vectors (2.6). -/
def taskStart : State :=
  chipOf { cogOf [(0x040, 0x500), (0x042, 0xABCDE000)] with z := true, inda := indOf 0x042 0x040 0x042 }

/-- TASKSW and TASKSWD (vectors 2.6). -/
theorem test_tasksw :
    seen 0x1F8FEDF6 taskStart (fun t => (t.cog.pc, t.cog.z, t.cog.c, reg 0x042 t, t.cog.inda.ptr))
      = some (0x100, true, false, 0xABCDE421, 0x040)
    ∧ seen 0x5F8FEDF6 taskStart (fun t => (t.cog.pc, t.cog.pend, reg 0x042 t, t.cog.inda.ptr))
      = some (0x021, some ⟨0x100, 3⟩, 0xABCDE424, 0x040) := by decide

/-- Register $030 holds a value. -/
def with30 (v : Word) : State := chipOf (cogOf (Cells.ofList 0 512 [(0x030, v), (0x031, 0xFFFFFE44)]))

/-- D and the next address. -/
def stepped (t : State) : Word × RegAddr := (reg 0x030 t, t.cog.pc)

/-- IJZ and IJNZ with D = $FFFFFFFF and 0 (vectors 2.6). -/
theorem test_ij :
    seen 0xF0FC6044 (with30 0xFFFFFFFF) stepped = some (0, 0x044) ∧ seen 0xF0FC6044 (with30 0) stepped = some (1, 0x021)
    ∧ seen 0xF2FC6044 (with30 0xFFFFFFFF) stepped = some (0, 0x021) ∧ seen 0xF2FC6044 (with30 0) stepped = some (1, 0x044) := by decide

/-- DJZ and DJNZ (vectors 2.6). -/
theorem test_dj :
    seen 0xF4FC6044 (with30 1) stepped = some (0, 0x044) ∧ seen 0xF4FC6044 (with30 0) stepped = some (0xFFFFFFFF, 0x021)
    ∧ seen 0xF6BC6031 (with30 2) stepped = some (1, 0x044) ∧ seen 0xF67C6044 (with30 1) stepped = some (1, 0x021) := by decide

/-- D, the next address and the pending branch. -/
def delayed (t : State) : Word × RegAddr × Option Pend := (reg 0x030 t, t.cog.pc, t.cog.pend)

/-- IJZD, IJNZD, DJZD, DJNZD (vectors 2.6). -/
theorem test_countBranchDelayed :
    seen 0xF1FC6044 (with30 0xFFFFFFFF) delayed = some (0, 0x021, some ⟨0x044, 3⟩)
    ∧ seen 0xF3FC6044 (with30 0xFFFFFFFF) delayed = some (0, 0x021, none)
    ∧ seen 0xF5FC6044 (with30 1) delayed = some (0, 0x021, some ⟨0x044, 3⟩)
    ∧ seen 0xF7FC6044 (with30 1) delayed = some (0, 0x021, none)
    ∧ seen 0xF7FC6044 (with30 2) delayed = some (1, 0x021, some ⟨0x044, 3⟩) := by decide

/-- TJZ, TJNZ and their delayed forms (vectors 2.6). -/
theorem test_tj :
    seen 0xF87C6044 (with30 0) stepped = some (0, 0x044) ∧ seen 0xF87C6044 (with30 7) stepped = some (7, 0x021)
    ∧ seen 0xFA7C6044 (with30 7) stepped = some (7, 0x044) ∧ seen 0xFA7C6044 (with30 0) stepped = some (0, 0x021)
    ∧ seen 0xF97C6044 (with30 0) delayed = some (0, 0x021, some ⟨0x044, 3⟩)
    ∧ seen 0xFB7C6044 (with30 7) delayed = some (7, 0x021, some ⟨0x044, 3⟩) := by decide

/-- JP, JNP, JPD, JNPD complete, whatever the pin level (vectors 2.6). -/
theorem test_jp :
    seen 0xF8FC6044 (with30 7) (fun _ => true) = some true ∧ seen 0xFAFC6044 (with30 7) (fun _ => true) = some true
    ∧ seen 0xF9FC6044 (with30 7) (fun _ => true) = some true ∧ seen 0xFBFC6044 (with30 7) (fun _ => true) = some true := by decide

/-- Any branch in the slots of a delayed branch is refused (D22). -/
theorem test_branch_in_slot :
    why 0x1C7C0010 (chipOf { cogOf [] with pend := some ⟨0x055, 1⟩ }) = some .branchInDelaySlot
    ∧ why 0xF87C6044 (chipOf { cogOf [(0x030, 7)] with pend := some ⟨0x055, 3⟩ }) = some .branchInDelaySlot := by decide

/-- The link of P2's CALL: return $003, C = 0, Z = 1 (vectors part 3). -/
theorem test_link_p2 :
    seen 0x1FFC0E05 (chipOf { cogOf [(0x007, 0x1F7C0000)] with pc := 0x002, z := true }) (fun t => (t.cog.pc, reg 0x007 t))
      = some (0x005, 0x1F7C0403) := by decide

/-- A step fetches, decodes and executes: P2's first word, SETPTRA #0, and a fetch at $1F6 (vectors 2.9). -/
theorem test_step :
    (match step (State.reset.withFetchWord 32 0x0CFC00B2) with | .next _ => true | _ => false) = true
    ∧ (match step (chipOf { cogOf [] with pc := 0x1F6 }) with | .refused r => some r | _ => none) = some .specialFetch := by decide

/-- MACA sums (vectors 2.8). -/
theorem test_maca :
    macProduct 0x80000 0x7FFFF = 0xFFFFFFC000080000
    ∧ macProduct 0xFFF00003 5 = 0xF := by decide

/-- FITACCx exponents (vectors 2.8). -/
theorem test_fitacc :
    fitExponent (fits 0x80000000) = 1 ∧ fitExponent (fits 0xFFFFFFFF80000000) = 0 ∧ fitExponent (fits 0x1234567800) = 6
    ∧ fitExponent (fits 0x7FFFFFFFFFFFFFFF) = 32 := by decide

/-- The divider's rows: 2^32 div 3, -100 div 7, and a quotient that does not fit (vectors 2.8). -/
theorem test_quotRem :
    quotRem false 0x100000000 3 = some (0x55555555, 1) ∧ quotRem true 0xFFFFFFFFFFFFFF9C 7 = some (0xFFFFFFF2, 0xFFFFFFFE)
    ∧ quotRem true 100 0xFFFFFFF9 = some (0xFFFFFFF2, 2) ∧ quotRem false 0x300000000 3 = none
    ∧ quotRem true 0xFFFFFFFF80000000 0xFFFFFFFF = none := by decide

/-- A word in no row with CCCC = 0000 is passed over (vectors 1.1, R128). -/
theorem test_never :
    (match State.reset.execWord 0x0DC1FE45 with | .next t => some t.cog.pc | _ => none) = some 0x001 := by decide

/-- GETACCA right after MACA takes three clocks, otherwise one (R546, R547). -/
theorem test_accClocks :
    Cog.accClocks { Cog.reset with haz := { Hazard.clear with macPrev := true } } 1 = 3
    ∧ Cog.accClocks Cog.reset 1 = 1 ∧ (({ Cog.reset with haz := Hazard.clear }).markMac.retire 1).haz.macPrev = true := by decide

/-- FITACCA shifts $FFFFFFFE by one to $7FFFFFFF, but for its low bit (R496). -/
theorem test_fitted_bits : (fitted 0xFFFFFFFE 1 0).extractLsb' 1 31 = 0x3FFFFFFF := by
  unfold fitted
  rw [if_neg (by decide)]
  generalize Config.freeBit 0 = b
  cases b <;> decide

/-- The exact roots, and the floor and one more (vectors 2.8). -/
theorem test_rootOf :
    rootOf 1000000 true = 0x3E8 ∧ rootOf 0x400000000 false = 0x20000 ∧ rootOf 17 false = 4 ∧ rootOf 17 true = 5
    ∧ rootOf 0xFFFFFFFFFFFFFFFF false = 0xFFFFFFFF ∧ rootOf 0xFFFFFFFFFFFFFFFF true = 0 := by decide +kernel

/-- Each QLOG row of R488 lies at the floor of the logarithm or one above, but for the two ends. -/
theorem test_logFloor :
    (logRows.drop 1).all (fun p => logFloor p.1.toNat == p.2.toNat || logFloor p.1.toNat + 1 == p.2.toNat) = true := by
  decide +kernel

/-- QUADs_to_16_pins on pins 31..16 in its second clock, the high word of QUAD0; none with PPP = %110 (R431, R432). -/
theorem test_xfrOut :
    (let c := { Cog.reset with quad := #v[0xABCD1234, 0, 0, 0], xfr := { Cog.reset.xfr with cfg := 0b010001, pos := 1 } }
     c.xfrOut) = some ⟨0xFFFF0000, 0xABCD0000⟩
    ∧ (let c := { Cog.reset with xfr := { Cog.reset.xfr with cfg := 0b010110 } }
       c.xfrOut) = none := by decide

/-- A cycle of PHS[31] is eight of the oscillator, so with divider 8 one edge of each kind and with divider 1 eight (R384);
an oscillator that has caught up waits for the next one. -/
theorem test_pll :
    [2, 3, 4, 5, 6, 7].map (fun m : BitVec 8 => edges true ({ Ctr.reset with mode := m } : Ctr).divider 0 64)
      = [1, 2, 4, 8, 16, 32]
    ∧ edges true 3 0 16 = 1 ∧ edges false 3 0 16 = 1 ∧ edges true 0 0 16 = 8
    ∧ (Pll.clock ⟨false, 0, 0⟩ true true 0) = ⟨true, 0, 16⟩ ∧ (Pll.clock ⟨true, 0, 16⟩ true true 5) = ⟨true, 0, 16⟩ := by
  decide

/-- A borrow of the encoder shows in POLCTRx at most and does not end a SYNCTRx (R381, R382). -/
theorem test_subFrq :
    (let c := { Ctr.reset with frq := 1, sync := .waiting }
     ((c.subFrq true).phs, (c.subFrq true).rolled, (c.subFrq true).sync)) = (0xFFFFFFFF, true, .waiting) := by decide

/-- An angle of 45 degrees, $20000000, from the point (1, 1) (R486). -/
theorem test_angleOf : angleOf 1 1 = 0x20000000 ∧ angleOf (-1) 0 = 0x80000000 := by decide +kernel

/-- atanh(3/5) = ln 2, whose angle is ln(2) / 2pi of a turn, 473811343 (by hand); its sign follows that of Y / X (R486). -/
theorem test_hyperAngleOf : hyperAngleOf 5 3 = 473811343 ∧ hyperAngleOf (-5) 3 = -473811343 := by decide +kernel

/-- cosh(ln 2) = 5/4 and sinh(ln 2) = 3/4, to 44 bits below the point, cut downward (by hand, ln 2 with 64 fraction bits). -/
theorem test_coshSinh :
    (coshSinh 12786308645202655659).1 / 2 ^ 20 = 0x13FFFFFFFFFF
    ∧ (coshSinh 12786308645202655659).2 / 2 ^ 20 = 0xBFFFFFFFFFF := by decide +kernel

/-! ## Witnesses: a state and operands that meet the hypotheses of each statement -/

theorem next_of {o : Out State} (h : (match o with | .next _ => true | .fault _ | .refused _ => false) = true) :
    ∃ t, o = .next t := by
  cases o with
  | next t => exact ⟨t, rfl⟩
  | fault _ => cases h
  | refused _ => cases h

theorem notLoading {r : Run} (h : (match r with | .loading _ _ => false | .idle | .running => true) = true) (base : HubAddr) (k : Nat) :
    r ≠ .loading base k := by
  rintro rfl; cases h

theorem link_of {o : Except Refusal Cog} (h : (match o with | .ok g => g.stepsAhead | .error _ => false) = false) (g : Cog)
    (e : o = .ok g) : g.stepsAhead = false := by
  subst e; exact h

/-- The cog of the hub witnesses: $1F5 holds a value, $011 the top hub address, PTRA the first RAM address. -/
def hubCog : Cog :=
  { cogOf (Cells.ofList 0 512 [(0x1F5, 0x12345678), (0x011, 0x1FFFF), (0x010, 0x7FFFFFFF)]) with ptra := 0x00E80 }

/-- Whether a word is in no row of the table. -/
def unlisted (w : Word) : Bool :=
  match decode w with
  | .ok _ => false
  | .error _ => true

/-- A fetched word, COGID $010; a fetch at $1F6; a word in no row with CCCC = 0000, and two with CCCC = 1111. -/
theorem witness_StepRunsDecoded :
    (let s := State.reset.withFetchWord 32 0x0CFC2001
     s.cog.run = .running ∧ s.cog.fetch = .ok 0x0CFC2001 ∧ decode 0x0CFC2001 = .ok (.cogid 15 0x010))
    ∧ (chipOf { cogOf [] with pc := 0x1F6 }).cog.fetch = .error .specialFetch
    ∧ (let s := State.reset.withFetchWord 32 0x0DC1FE45
       s.cog.run = .running ∧ s.cog.fetch = .ok 0x0DC1FE45 ∧ unlisted 0x0DC1FE45 = true ∧ Statement.never 0x0DC1FE45)
    ∧ (let s := State.reset.withFetchWord 32 0x0CFC0009
       s.cog.run = .running ∧ s.cog.fetch = .ok 0x0CFC0009 ∧ unlisted 0x0CFC0009 = true ∧ ¬ Statement.never 0x0CFC0009) := by
  unfold Statement.never; decide

/-- pc $1F5 and $1F6; $1F5 written by the third instruction before; a QUAD at $1F5 mapped three instructions ago, and
one that may be executed; MOV $1F5,$011, CACHEX and JMP #n. -/
theorem witness_FetchReadsPc :
    (let c := { Cog.reset with pc := 0x1F5 }
     c.pc.toNat < 0x1F6 ∧ some c.pc ∉ c.haz.recent ∧ c.quadAt c.pc = none)
    ∧ (let c := { Cog.reset with pc := 0x1F5, qbase := 0x1F2 }
       c.pc.toNat < 0x1F6 ∧ some c.pc ∉ c.haz.recent ∧ c.quadAt c.pc = some 3 ∧ c.haz.fillReady = true ∧ 4 ≤ c.haz.mapAge)
    ∧ (let c := { Cog.reset with pc := 0x1F6 }
       0x1F6 ≤ c.pc.toNat)
    ∧ (let c := { Cog.reset with pc := 0x1F5, haz := { Hazard.clear with recent := [none, none, some 0x1F5] } }
       c.pc.toNat < 0x1F6 ∧ some c.pc ∈ c.haz.recent)
    ∧ (let c := { Cog.reset with pc := 0x1F5, qbase := 0x1F2, haz := { Hazard.clear with mapAge := 3 } }
       c.pc.toNat < 0x1F6 ∧ some c.pc ∉ c.haz.recent ∧ c.quadAt c.pc ≠ none
         ∧ ¬ (c.haz.fillReady = true ∧ 4 ≤ c.haz.mapAge))
    ∧ ((chipOf hubCog).cog.resolve 15 (some 0x1F5) (RegOrImm.reg 0x011).regField = .ok (.go 0x1F5 0x011 hubCog)
      ∧ plainReg 0x1F5 ∧ hubCog.operand (.reg 0x011) 0x011 = .ok 0x1FFFF)
    ∧ (chipOf hubCog).cog.haz.fresh = none ∧ condHolds 0b0011 (chipOf hubCog).cog.z (chipOf hubCog).cog.c = true
    ∧ (chipOf hubCog).cog.pend = none := by
  unfold plainReg; decide

/-- An idle cog; a cog loading its first and its last long. -/
theorem witness_IdleAndLoadingTurns :
    (chipOf Cog.reset).cog.run = .idle
    ∧ (let s := chipOf { Cog.reset with run := .loading 0x1FFFC 0 }
       s.ok = true ∧ s.cog.run = .loading 0x1FFFC 0)
    ∧ (let s := chipOf { Cog.reset with run := .loading 0x1FFFC 0x1F7 }
       s.ok = true ∧ s.cog.run = .loading 0x1FFFC 0x1F7) := by decide

/-- XFR in a pins_to_stack mode leaves the QUADs, in a pins_to_QUADs mode the stack; an idle cog. -/
theorem witness_TimeMovesOnlyUnits :
    (let s := chipOf { Cog.reset with xfr := { Cog.reset.xfr with cfg := 0b110000 } }
     (s.cogs[0]).xfr.cfg.extractLsb' 4 2 ≠ 2#2)
    ∧ (let s := chipOf { Cog.reset with xfr := { Cog.reset.xfr with cfg := 0b100000 } }
       (s.cogs[0]).xfr.cfg.extractLsb' 4 2 ≠ 3#2)
    ∧ (chipOf Cog.reset).cogs[0].run ≠ .running := by decide

/-- A step from a well-formed state: WRLONG at the top of hub RAM. -/
theorem witness_StepKeepsOk :
    (chipOf { (two 5 0x1FFFF) with ram := Cells.write (two 5 0x1FFFF).ram 0x020 0x083C2011 }).ok = true
    ∧ ∃ t, step (chipOf { (two 5 0x1FFFF) with ram := Cells.write (two 5 0x1FFFF).ram 0x020 0x083C2011 }) = .next t :=
  ⟨by decide, next_of (by decide)⟩

/-- Instructions at the ends of their operand ranges. -/
theorem witness_DecodeEncode :
    Instr.wellFormed (.jmpretS true true 0b0011 0x1F6 0x1F5) = true ∧ Instr.wellFormed (.call true true 0 0x1FF 0x1FF) = true
    ∧ Instr.wellFormed (.jmpretNNR false false 15 1 0) = true ∧ Instr.wellFormed (.jmpN false false 15 1) = true := by decide

/-- Words that decode: the first of the table and TASKSWD. -/
theorem witness_EncodeDecode : decode 0 = .ok (.wrbyte 0 0 (.reg 0)) ∧ decode 0x5F8FEDF6 = .ok .taskswd := by decide

/-- IF_NEVER ADD, and a branch whose condition is false. -/
theorem witness_FalseConditionSkips :
    (let i : Instr := .add 0b1010 0x1F5 (.reg 0x1F8)
     let s := chipOf { cogOf [] with pend := some ⟨0, 1⟩ }
     (instrFields i).2.1.bind indReg = none ∧ (instrFields i).2.2.bind indReg = none
       ∧ condHolds (instrFields i).1 s.cog.z s.cog.c = false ∧ Statement.collides i = false ∧ Statement.isBranch i = false)
    ∧ (let i : Instr := .jmpN false false 0 5
       let s := chipOf (cogOf [])
       (instrFields i).2.1.bind indReg = none ∧ (instrFields i).2.2.bind indReg = none
       ∧ condHolds (instrFields i).1 s.cog.z s.cog.c = false ∧ Statement.collides i = false ∧ s.cog.pend = none) := by decide

/-- SETPTRA #$1F6, RDQUAD with a PTR expression $1F7, JMP with D field $1F6. -/
theorem witness_FieldCollisionsRefused :
    Statement.collides (.setptra 15 (.imm 0x1F6)) = true
    ∧ Statement.collides (.rdquad 15 (.ptr ⟨true, true, true, 0x37⟩)) = true
    ∧ Statement.collides (.jmpretNNR false false 15 0x1F6 0x010) = true := by decide

/-- The addresses on both sides of INDA and INDB. -/
theorem witness_ConditionTable :
    (some (0x1F5 : RegAddr)).bind indReg = none ∧ (some (0x1F8 : RegAddr)).bind indReg = none
    ∧ (none : Option RegAddr).bind indReg = none := by decide

/-- MOV INDA++,INDA-- on vectors 2.4's registers; MOV $030,++INDB whose pointer is the last that may be addressed;
++INDA from $1FF to $000. -/
theorem witness_IndirectOperands :
    ((some indaAddr).bind indReg = some .a
      ∧ Statement.indRefused (indRow.cog.ind .a) (formD 0b0110) = none
      ∧ Statement.indRefused (indRow.cog.ind .a) (formS 0b0110) = none
      ∧ indRow.cog.resolve 0b0110 (some indaAddr) (some indaAddr)
        = .ok (.go 0x013 0x013 { indRow.cog with inda := { indRow.cog.inda with ptr := 0x010 } }))
    ∧ (let c := { Cog.reset with indb := indOf 0x1F4 0 0x1FF }
       (some (0x030 : RegAddr)).bind indReg = none ∧ (some indbAddr).bind indReg = some .b
        ∧ Statement.indRefused (c.ind .b) (formS 0b0011) = none)
    ∧ (let c := { Cog.reset with inda := indOf 0x1FF 0 0x0FF }
       Statement.indRefused (c.ind .a) (formD 0b1100) = none
        ∧ c.resolve 0b1100 (some indaAddr) none = .ok (.go 0 0 { c with inda := { c.inda with ptr := 0 } })) := by decide

/-- INDB never set; set one instruction ago; pointing at $1F5 with ++, at $1F6 without; $1FF in both forms; D good and S not; MOV $1F5,$011. -/
theorem witness_IndirectRefusals :
    (some indbAddr).bind indReg = some .b
    ∧ Statement.indRefused (Cog.reset.ind .b) 1 = some .indirectUnset
    ∧ Statement.indRefused ({ Cog.reset with indb := { indOf 5 0 0x1FF with age := 1 } }.ind .b) 1 = some .indirectTooSoon
    ∧ Statement.indRefused ({ Cog.reset with indb := indOf 0x1F5 0 0x1FF }.ind .b) 3 = some .indirectSpecial
    ∧ Statement.indRefused ({ Cog.reset with indb := indOf 0x1F6 0 0x1FF }.ind .b) 1 = some .indirectSpecial
    ∧ (let c := { Cog.reset with indb := indOf 0x1FF 0 0x0FF }
       Statement.indRefused (c.ind .b) 1 = some .indirectSpecial ∧ Statement.indRefused (c.ind .b) 3 = none)
    ∧ (let c := { Cog.reset with inda := indOf 0x1F5 0 0x1FF }
       (some indaAddr).bind indReg = some .a ∧ Statement.indRefused (c.ind .a) (formD 0b0101) = none
        ∧ Statement.indRefused (c.ind .b) (formS 0b0101) = some .indirectUnset)
    ∧ ((chipOf hubCog).cog.resolve 15 (some 0x1F5) (RegOrImm.reg 0x011).regField = .ok (.go 0x1F5 0x011 hubCog)
      ∧ plainReg 0x1F5 ∧ hubCog.operand (.reg 0x011) 0x011 = .ok 0x1FFFF) := by
  unfold plainReg; decide

/-- RDQUAD --PTRB[32] from $00010, which wraps below 0, and PTRA[31] from the top; a register above 17 bits, and $1F8. -/
theorem witness_PtrExpressions :
    { Cog.reset with ptrb := 0x10 }.hubOperand (.ptr ⟨true, true, false, 0x20⟩) 0 16
      = .ok (0x1FE10, { Cog.reset with ptrb := 0x1FE10 })
    ∧ { Cog.reset with ptra := 0x1FFFF }.hubOperand (.ptr ⟨false, false, false, 0x1F⟩) 0 1
      = .ok (0x0001E, { Cog.reset with ptra := 0x1FFFF })
    ∧ hubCog.read 0x1F5 = .ok 0x12345678 ∧ hubCog.hubOperand (.reg 0x1F5) 0x1F5 4 = .ok (0x05678, hubCog)
    ∧ hubCog.read 0x1F8 = .error .specialRegister := by decide

/-- $1F6; $1F5 plain; $1F5 as QUAD 3, the last of the highest window; $1F2 as QUAD 0; RDQUAD and RDLONGC of the top of
hub memory; SETQUAD #$1F2. -/
theorem witness_RegisterReads :
    0x1F6 ≤ (0x1F6 : RegAddr).toNat
    ∧ ((0x1F5 : RegAddr).toNat < 0x1F6 ∧ Cog.reset.quadAt 0x1F5 = none)
    ∧ ((0x1F5 : RegAddr).toNat < 0x1F6 ∧ { Cog.reset with qbase := 0x1F2 }.quadAt 0x1F5 = some 3)
    ∧ ({ Cog.reset with qbase := 0x1F2 }.quadAt 0x1F2 = some 0 ∧ { Cog.reset with qbase := 0x1F2 }.quadAt 0x1F1 = none)
    ∧ hubCog.read 0x1F5 = .ok 0x12345678 ∧ hubCog.read 0x1F6 = .error .specialRegister
    ∧ (fieldOk (!(HubOp.reg 0x011).sel) (HubOp.reg 0x011).field
      ∧ (chipOf hubCog).cog.resolve 15 (HubOp.reg 0x011).regField none = .ok (.go 0x011 0 hubCog)
      ∧ hubCog.hubOperand (.reg 0x011) 0x011 16 = .ok (0x1FFFF, hubCog))
    ∧ ((chipOf hubCog).cog.resolve 15 (some 0x1F5) (HubOp.reg 0x011).regField = .ok (.go 0x1F5 0x011 hubCog) ∧ plainReg 0x1F5
      ∧ hubCog.hubOperand (.reg 0x011) 0x011 4 = .ok (0x1FFFF, hubCog)
      ∧ ¬ (hubCog.cacheValid = true ∧ hubCog.cacheTag = (0x1FFFF : HubAddr).extractLsb' 4 13))
    ∧ (fieldOk (!(RegOrImm.imm 0x1F2).sel) (RegOrImm.imm 0x1F2).field
      ∧ (chipOf hubCog).cog.resolve 15 (RegOrImm.imm 0x1F2).regField none = .ok (.go 0 0 hubCog)
      ∧ hubCog.operand (.imm 0x1F2) 0 = .ok 0x1F2 ∧ (0x1F2 : Word).toNat % 512 ≤ 0x1F2) := by
  unfold fieldOk plainReg; decide

/-- Canonical registers; $1F6 and $1F5. -/
theorem witness_RegisterWrites :
    (two 1 2).cellsOk = true ∧ 0x1F6 ≤ (0x1F6 : RegAddr).toNat ∧ (0x1F5 : RegAddr).toNat < 0x1F6 := by decide

/-- The top unit of hub memory through a register, the first RAM unit through PTRA. -/
theorem witness_HubWritesStore :
    (chipOf hubCog).ok = true ∧ hubCog.read 0x1F5 = .ok 0x12345678
    ∧ (chipOf hubCog).cog.resolve 15 (some 0x1F5) (HubOp.reg 0x011).regField = .ok (.go 0x1F5 0x011 hubCog)
    ∧ (chipOf hubCog).cog.resolve 15 (some 0x1F5) (HubOp.ptr ⟨false, false, false, 0⟩).regField = .ok (.go 0x1F5 0 hubCog)
    ∧ (∀ n ∈ [1, 2, 4], hubCog.hubOperand (.reg 0x011) 0x011 n = .ok (0x1FFFF, hubCog)
        ∧ hubCog.hubOperand (.ptr ⟨false, false, false, 0⟩) 0 n = .ok (0x00E80, hubCog)) := by decide

theorem witness_HubReadsLoad :
    (chipOf hubCog).ok = true ∧ plainReg 0x1F5
    ∧ (chipOf hubCog).cog.resolve 15 (some 0x1F5) (HubOp.reg 0x011).regField = .ok (.go 0x1F5 0x011 hubCog)
    ∧ (∀ n ∈ [1, 2, 4], hubCog.hubOperand (.reg 0x011) 0x011 n = .ok (0x1FFFF, hubCog)) := by
  unfold plainReg; decide

/-- The last long of a quad that the cache does not hold. -/
theorem witness_CachedReadsLoad :
    (chipOf hubCog).ok = true ∧ plainReg 0x1F5
    ∧ (chipOf hubCog).cog.resolve 15 (some 0x1F5) (HubOp.reg 0x011).regField = .ok (.go 0x1F5 0x011 hubCog)
    ∧ 0 = (Statement.looked (chipOf hubCog).hub hubCog 0x1FFFF).quad[((0x1FFFF : HubAddr).extractLsb' 2 2).toNat]
    ∧ (∀ n ∈ [1, 2, 4], hubCog.hubOperand (.reg 0x011) 0x011 n = .ok (0x1FFFF, hubCog)) := by
  unfold plainReg; decide

theorem witness_QuadInstructions :
    (chipOf hubCog).ok = true ∧ fieldOk (!(HubOp.reg 0x011).sel) (HubOp.reg 0x011).field
    ∧ (chipOf hubCog).cog.resolve 15 (HubOp.reg 0x011).regField none = .ok (.go 0x011 0 hubCog)
    ∧ hubCog.hubOperand (.reg 0x011) 0x011 16 = .ok (0x1FFFF, hubCog)
    ∧ fieldOk (!(HubOp.ptr ⟨true, true, true, 0x38⟩).sel) (HubOp.ptr ⟨true, true, true, 0x38⟩).field := by
  unfold fieldOk; decide

/-- With R the destination is $1F5, without it $1F6 would do. -/
theorem witness_GetPointers :
    (chipOf hubCog).ok = true ∧ (true = true → plainReg 0x1F5)
    ∧ (chipOf hubCog).cog.resolve 15 (some 0x1F5) none = .ok (.go 0x1F5 0 hubCog)
    ∧ (false = true → plainReg 0x1F8)
    ∧ (chipOf hubCog).cog.resolve 15 (some 0x1F8) none = .ok (.go 0x1F8 0 hubCog) := by
  unfold plainReg; decide

/-- A register and the immediate next to $1F7. -/
theorem witness_ChangePointers :
    (fieldOk (!(RegOrImm.reg 0x1F5).sel) (RegOrImm.reg 0x1F5).field
      ∧ (chipOf hubCog).cog.resolve 15 (RegOrImm.reg 0x1F5).regField none = .ok (.go 0x1F5 0 hubCog)
      ∧ hubCog.operand (.reg 0x1F5) 0x1F5 = .ok 0x12345678)
    ∧ (fieldOk (!(RegOrImm.imm 0x1F8).sel) (RegOrImm.imm 0x1F8).field
      ∧ (chipOf hubCog).cog.resolve 15 (RegOrImm.imm 0x1F8).regField none = .ok (.go 0 0 hubCog)
      ∧ hubCog.operand (.imm 0x1F8) 0 = .ok 0x1F8) := by
  unfold fieldOk; decide

theorem witness_CacheAndTops :
    (chipOf hubCog).cog.resolve 15 none none = .ok (.go 0 0 hubCog)
    ∧ (let g := cached hubCog #v[0x11AAAAAA, 0x22BBBBBB, 0x33CCCCCC, 0x44DDDDDD] true
       (chipOf g).ok = true ∧ (chipOf g).cog.resolve 15 (some 0x1F5) none = .ok (.go 0x1F5 0 g) ∧ plainReg 0x1F5
        ∧ ∀ k : Fin 4, byteOf 0x44332211 k.val = (g.quad[k.val]).extractLsb' 24 8) := by
  unfold plainReg; decide

/-- The bases $1F2, $1F3, $1FE and $1FF. -/
theorem witness_MapQuads :
    (∀ n ∈ [(0x1F2 : BitVec 9), 0x1F3, 0x1FE, 0x1FF], fieldOk (!(RegOrImm.imm n).sel) (RegOrImm.imm n).field
      ∧ (chipOf hubCog).cog.resolve 15 (RegOrImm.imm n).regField none = .ok (.go 0 0 hubCog)
      ∧ hubCog.operand (.imm n) 0 = .ok (n.setWidth 32))
    ∧ ((0x1F2 : RegAddr).toNat ≤ 0x1F2 ∧ (0x1FF : RegAddr).toNat = 0x1FF)
    ∧ (0x1F3 ≤ (0x1F3 : RegAddr).toNat ∧ (0x1FE : RegAddr).toNat ≤ 0x1FE) := by
  unfold fieldOk; decide

/-- A cog whose COGINIT takes the next idle cog. -/
def anyCog : Cog := { hubCog with cogsel := 0b1000 }

/-- The chip with every other cog in one run state. -/
def othersRun (c : Cog) (r : Run) : State :=
  { State.reset with cogs := (Vector.replicate 8 { Cog.reset with run := r }).set 0 c }

theorem witness_CoginitNextIdle :
    (chipOf anyCog).ok = true ∧ (chipOf anyCog).cog.run = .running
    ∧ (chipOf anyCog).cog.resolve 15 (some 0x1F5) (some 0x011) = .ok (.go 0x1F5 0x011 anyCog)
    ∧ anyCog.read 0x1F5 = .ok 0x12345678 ∧ anyCog.read 0x011 = .ok 0x1FFFF ∧ anyCog.cogsel.getLsbD 3 = true
    ∧ ∃ n : Fin 8, ((chipOf anyCog).cogs[n.val]).run = .idle := by decide

theorem witness_CoginitNoneIdle :
    (othersRun anyCog .running).ok = true
    ∧ (othersRun anyCog .running).cog.resolve 15 (some 0x1F5) (some 0x011) = .ok (.go 0x1F5 0x011 anyCog)
    ∧ anyCog.read 0x1F5 = .ok 0x12345678 ∧ anyCog.read 0x011 = .ok 0x1FFFF ∧ anyCog.cogsel.getLsbD 3 = true
    ∧ ∀ n : Fin 8, ((othersRun anyCog .running).cogs[n.val]).run ≠ .idle := by decide

/-- The named cog is itself (0), an idle one (7), or a loading one (7). -/
theorem witness_CoginitGiven :
    ((chipOf hubCog).ok = true ∧ (chipOf hubCog).cog.run = .running
      ∧ (chipOf hubCog).cog.resolve 15 (some 0x1F5) (some 0x011) = .ok (.go 0x1F5 0x011 hubCog)
      ∧ hubCog.read 0x1F5 = .ok 0x12345678 ∧ hubCog.read 0x011 = .ok 0x1FFFF ∧ hubCog.cogsel.toNat = (chipOf hubCog).cur.val)
    ∧ (let c := { hubCog with cogsel := 7 }
       (chipOf c).ok = true ∧ (chipOf c).cog.run = .running
        ∧ (chipOf c).cog.resolve 15 (some 0x1F5) (some 0x011) = .ok (.go 0x1F5 0x011 c)
        ∧ c.read 0x1F5 = .ok 0x12345678 ∧ c.read 0x011 = .ok 0x1FFFF ∧ c.cogsel.toNat = (7 : Fin 8).val
        ∧ (7 : Fin 8) ≠ (chipOf c).cur)
    ∧ (∀ base k, ((chipOf hubCog).cogs[(0 : Fin 8).val]).run ≠ .loading base k)
    ∧ (∀ base k, ((chipOf { hubCog with cogsel := 7 }).cogs[(7 : Fin 8).val]).run ≠ .loading base k)
    ∧ (let c := { hubCog with cogsel := 7 }
       (othersRun c (.loading 0 5)).ok = true ∧ (othersRun c (.loading 0 5)).cog.run = .running
        ∧ (othersRun c (.loading 0 5)).cog.resolve 15 (some 0x1F5) (some 0x011) = .ok (.go 0x1F5 0x011 c)
        ∧ ((othersRun c (.loading 0 5)).cogs[(7 : Fin 8).val]).run = .loading 0 5) :=
  ⟨by decide, by decide, notLoading (by decide), notLoading (by decide), by decide⟩

theorem witness_CogidNumbers :
    (chipOf hubCog).ok = true ∧ (chipOf hubCog).cog.resolve 15 (some 0x1F5) none = .ok (.go 0x1F5 0 hubCog)
    ∧ plainReg 0x1F5 := by
  unfold plainReg; decide

/-- Only register $010 holds a value. -/
def one (v : Word) : Cog := cogOf [(0x010, v)]

theorem one_resolve (v : Word) : (chipOf (one v)).cog.resolve 15 (some 0x010) none = .ok (.go 0x010 0 (one v)) :=
  (Cog.resolve_direct (c := one v) (cc := 15) (d := some 0x010) (x := none) (by decide) rfl).trans
    (congrArg Except.ok (if_pos (show condHolds 15 false false = true by decide)))

theorem one_both (v : Word) : (chipOf (one v)).cog.resolve 15 (some 0x010) (some 0x010) = .ok (.go 0x010 0x010 (one v)) :=
  (Cog.resolve_direct (c := one v) (cc := 15) (d := some 0x010) (x := some 0x010) (by decide) (by decide)).trans
    (congrArg Except.ok (if_pos (show condHolds 15 false false = true by decide)))

theorem one_stepsAhead (v : Word) : (one v).stepsAhead = false := by
  have h (k : RegAddr) (hk : k ∈ [1, 2, 3]) : (one v).x (0x020 + k) = 0 := by
    fin_cases hk <;> rfl
  have hd : decode 0 = .ok (.wrbyte 0 0 (.reg 0)) := by decide
  unfold Cog.stepsAhead
  rw [List.any_eq_false]
  intro k hk
  have : (one v).x ((one v).pc + k) = 0 := h k hk
  rw [this, hd]; simp [stepsPointer, instrFields, indReg, indaAddr, indbAddr, HubOp.regField]

theorem one_ok (v : Word) (h : v ≠ 0) : (chipOf (one v)).ok = true := by
  rw [State.ok_iff]; refine ⟨rfl, fun n => ?_⟩
  have e : (one v).ok = true := by
    refine Cog.ok_iff.mpr ⟨?_, rfl, rfl, rfl⟩
    have : decide (v ≠ 0) = true := decide_eq_true h
    simp only [Cog.cellsOk, one, cogOf, Cells.wfFrom, this]; rfl
  fin_cases n
  · exact e
  all_goals rfl

theorem one_read (v : Word) : (one v).read 0x010 = .ok v := rfl

/-- Numbers 8 and 7, and the own number 0. -/
theorem witness_CogstopStops :
    (∀ v : Word, (chipOf (one v)).cog.resolve 15 (some 0x010) none = .ok (.go 0x010 0 (one v))
      ∧ (one v).read 0x010 = .ok v)
    ∧ 8 ≤ (8 : Word).toNat ∧ (7 : Word).toNat = (7 : Fin 8).val
    ∧ ((othersRun (one 7) (.loading 0 5)).cogs[(7 : Fin 8).val]).run = .loading 0 5
    ∧ (∀ base k, ((chipOf (one 0)).cogs[(0 : Fin 8).val]).run ≠ .loading base k)
    ∧ (∀ base k, ((chipOf (one 7)).cogs[(7 : Fin 8).val]).run ≠ .loading base k) :=
  ⟨fun v => ⟨one_resolve v, one_read v⟩, by decide, by decide, by decide, notLoading (by decide), notLoading (by decide)⟩

/-- An accepted setting, two refused ones, the reset bit, and the reset bit with a mode that is refused without it. -/
theorem witness_ClksetSetsClock :
    (∀ v : Word, (chipOf (one v)).cog.resolve 15 (some 0x010) none = .ok (.go 0x010 0 (one v))
      ∧ (one v).read 0x010 = .ok v)
    ∧ ((0x06B : Word).getLsbD 8 = false ∧ ¬ ((2 ≤ (0x06B : Word).toNat % 4 ∧ (0x06B : Word).toNat / 4 % 4 = 0)
        ∨ ((0x06B : Word).toNat % 4 = 3 ∧ (0x06B : Word).toNat / 16 % 16 = 0)))
    ∧ ((2 : Word).getLsbD 8 = false ∧ 2 ≤ (2 : Word).toNat % 4 ∧ (2 : Word).toNat / 4 % 4 = 0)
    ∧ ((0x00B : Word).getLsbD 8 = false ∧ (0x00B : Word).toNat % 4 = 3 ∧ (0x00B : Word).toNat / 16 % 16 = 0)
    ∧ (0x100 : Word).getLsbD 8 = true
    ∧ ((0x102 : Word).getLsbD 8 = true ∧ 2 ≤ (0x102 : Word).toNat % 4 ∧ (0x102 : Word).toNat / 4 % 4 = 0) :=
  ⟨fun v => ⟨one_resolve v, one_read v⟩, by decide⟩

/-- Lock 7 alone free, and no lock free. -/
theorem witness_LocknewTakesFree :
    (let s := { chipOf hubCog with hub := { State.reset.hub with locks := (Vector.replicate 8 (⟨false, true⟩ : Lock)).set 7 ⟨true, false⟩ } }
     s.ok = true ∧ s.cog.resolve 15 (some 0x1F5) none = .ok (.go 0x1F5 0 hubCog) ∧ (s.hub.locks[(7 : Fin 8).val]).out = false)
    ∧ plainReg 0x1F5
    ∧ ((lockedChip hubCog ⟨false, true⟩).ok = true
      ∧ (lockedChip hubCog ⟨false, true⟩).cog.resolve 15 (some 0x1F5) none = .ok (.go 0x1F5 0 hubCog)
      ∧ ∀ n : Fin 8, ((lockedChip hubCog ⟨false, true⟩).hub.locks[n.val]).out = true) := by
  unfold plainReg; decide

/-- Numbers 8 and 7. -/
theorem witness_LocksWork :
    (∀ v : Word, (chipOf (one v)).cog.resolve 15 (some 0x010) none = .ok (.go 0x010 0 (one v))
      ∧ (one v).read 0x010 = .ok v)
    ∧ 8 ≤ (8 : Word).toNat ∧ (7 : Word).toNat = (7 : Fin 8).val :=
  ⟨fun v => ⟨one_resolve v, one_read v⟩, by decide⟩

/-- ADD $1F5,#$1FF, and MOV through a pointer at $1F5. -/
theorem witness_MovAndAdd :
    ((chipOf hubCog).ok = true ∧ plainReg 0x1F5
      ∧ (chipOf hubCog).cog.resolve 15 (some 0x1F5) (RegOrImm.imm 0x1FF).regField = .ok (.go 0x1F5 0 hubCog)
      ∧ hubCog.operand (.imm 0x1FF) 0 = .ok 0x1FF ∧ hubCog.read 0x1F5 = .ok 0x12345678)
    ∧ (let c := { hubCog with inda := indOf 0x1F5 0x1F5 0x1F5 }
       (chipOf c).ok = true
       ∧ (chipOf c).cog.resolve 0b0100 (some 0x1F6) (RegOrImm.reg 0x011).regField = .ok (.go 0x1F5 0x011 c)
       ∧ c.operand (.reg 0x011) 0x011 = .ok 0x1FFFF) := by
  unfold plainReg; decide

/-- A cog with a CNT sequence. -/
def seqCog (q : CntSeq) : Cog := { hubCog with cntSeq := q }

/-- After a GETCNT of CNTL, after nothing, after SUBCNTs. -/
theorem witness_GetcntReads :
    plainReg 0x1F5
    ∧ (∀ q ∈ [CntSeq.gotLow, .idle, .gotHigh, .subLow, .subHigh], (chipOf (seqCog q)).ok = true
      ∧ (chipOf (seqCog q)).cog.resolve 15 (some 0x1F5) none = .ok (.go 0x1F5 0 (seqCog q)) ∧ (seqCog q).cntSeq = q) := by
  unfold plainReg; decide

/-- After a SUBCNT of CNTL, after nothing, after GETCNTs. -/
theorem witness_SubcntSubtracts :
    ∀ q ∈ [CntSeq.subLow, .idle, .subHigh, .gotLow, .gotHigh], (chipOf (seqCog q)).ok = true
      ∧ (chipOf (seqCog q)).cog.resolve 15 (some 0x1F5) none = .ok (.go 0x1F5 0 (seqCog q))
      ∧ (seqCog q).read 0x1F5 = .ok 0x12345678 ∧ (seqCog q).cntSeq = q := by decide

/-- After a GETCNT, and after a CMPCNT. -/
theorem witness_CmpcntCompares :
    ∀ q ∈ [CntSeq.gotLow, .compared], (chipOf (seqCog q)).cog.resolve 15 (some 0x1F5) none = .ok (.go 0x1F5 0 (seqCog q))
      ∧ (seqCog q).read 0x1F5 = .ok 0x12345678 ∧ (seqCog q).cntSeq = q := by decide

/-- CNT is 0 and D is 2^31 + 1 or 2^31: the last difference that passes, the first that does not. -/
theorem witness_PasscntWaits :
    (∀ v : Word, (chipOf (one v)).cog.resolve 15 (some 0x010) none = .ok (.go 0x010 0 (one v))
      ∧ (one v).read 0x010 = .ok v)
    ∧ ((chipOf (one 0x80000001)).hub.cnt.toNat + (2 ^ 32 - (0x80000001 : Word).toNat)) % 2 ^ 32 < 2 ^ 31
    ∧ 2 ^ 31 ≤ ((chipOf (one 0x80000000)).hub.cnt.toNat + (2 ^ 32 - (0x80000000 : Word).toNat)) % 2 ^ 32 :=
  ⟨fun v => ⟨one_resolve v, one_read v⟩, by decide⟩

theorem witness_WaitcntAdds :
    (chipOf hubCog).ok = true
    ∧ (chipOf hubCog).cog.resolve 15 (some 0x1F5) (RegOrImm.imm 0x1FF).regField = .ok (.go 0x1F5 0 hubCog)
    ∧ hubCog.read 0x1F5 = .ok 0x12345678 ∧ hubCog.operand (.imm 0x1FF) 0 = .ok 0x1FF := by decide

theorem witness_WaitpinsEnd :
    (chipOf hubCog).cog.resolve 15 (some 0x1F5) (RegOrImm.reg 0x011).regField = .ok (.go 0x1F5 0x011 hubCog)
    ∧ hubCog.read 0x1F5 = .ok 0x12345678 ∧ hubCog.operand (.reg 0x011) 0x011 = .ok 0x1FFFF := by decide

/-- Three addresses ahead of a cog lies MOV $030,INDA++. -/
def aheadCog (v : Word) : Cog := cogOf (Cells.ofList 0 512 [(0x010, v), (0x023, 0xA08461F6)])

/-- RETD in the last slot. Ahead lies a stepping operand: JMPRET $010,$010, JMP #n and RET under IF_NC; a counting branch
taken; a testing branch. -/
theorem witness_BranchesRefused :
    (Statement.isBranch (.retd false false 0) = true ∧ Statement.collides (.retd false false 0) = false
      ∧ (chipOf { cogOf [] with pend := some ⟨0, 1⟩ }).cog.pend ≠ none)
    ∧ ((chipOf (aheadCog 1)).cog.pend = none ∧ (0b0011 : CCCC) ≠ 0b1111 ∧ indReg 0x010 = none
      ∧ (aheadCog 1).read 0x010 = .ok 1 ∧ condHolds 0b0011 (aheadCog 1).z (aheadCog 1).c = true
      ∧ (match (aheadCog 1).link false true true 0x010 with | .ok g => g.stepsAhead | .error _ => false) = true
      ∧ (aheadCog 1).stepsAhead = true)
    ∧ ((chipOf (aheadCog 2)).cog.resolve 15 (some 0x010) (RegOrImm.imm 0x1FF).regField = .ok (.go 0x010 0 (aheadCog 2))
      ∧ (aheadCog 2).read 0x010 = .ok 2 ∧ (aheadCog 2).target (.imm 0x1FF) 0 = .ok 0x1FF
      ∧ (match (aheadCog 2).result true 0x010 (2 + 1) with | .ok g => g.stepsAhead | .error _ => false) = true
      ∧ (((2 : Word) + 1 == 0) != true) = true ∧ (((0xFFFFFFFF : Word) + 1 == 0) != false) = true) := by decide

/-- JMPRET $1F5,$011: always, and IF_NC with no stepping operand ahead; JMPRETD. -/
theorem witness_JmpretRegister :
    ((chipOf hubCog).ok = true ∧ (chipOf hubCog).cog.pend = none
      ∧ (chipOf hubCog).cog.resolve 15 (some 0x1F5) (some 0x011) = .ok (.go 0x1F5 0x011 hubCog)
      ∧ hubCog.read 0x1F5 = .ok 0x12345678 ∧ hubCog.read 0x011 = .ok 0x1FFFF
      ∧ conditional 15 (some 0x1F5) (some 0x011) = false)
    ∧ (chipOf hubCog).cog.resolve 0b0011 (some 0x1F5) (some 0x011) = .ok (.go 0x1F5 0x011 hubCog)
    ∧ ∀ g, hubCog.link false true true 0x1F5 = .ok g → g.stepsAhead = false :=
  ⟨by decide, by decide, link_of (by decide)⟩

/-- JMPRET $1F5,#n in the same two ways. -/
theorem witness_JmpretImmediate :
    ((chipOf hubCog).ok = true ∧ (chipOf hubCog).cog.pend = none
      ∧ (chipOf hubCog).cog.resolve 15 (some 0x1F5) none = .ok (.go 0x1F5 0 hubCog)
      ∧ hubCog.read 0x1F5 = .ok 0x12345678 ∧ conditional 15 (some 0x1F5) none = false)
    ∧ (chipOf hubCog).cog.resolve 0b0011 (some 0x1F5) none = .ok (.go 0x1F5 0 hubCog)
    ∧ ∀ g, hubCog.link false true true 0x1F5 = .ok g → g.stepsAhead = false :=
  ⟨by decide, by decide, link_of (by decide)⟩

/-- JMP $011, always and IF_NC; the D field $1F5 is no indirect address. -/
theorem witness_JumpRegister :
    ((chipOf hubCog).cog.pend = none ∧ hubCog.read 0x011 = .ok 0x1FFFF
      ∧ (chipOf hubCog).cog.resolve 15 none (some 0x011) = .ok (.go 0 0x011 hubCog) ∧ conditional 15 none (some 0x011) = false)
    ∧ ((chipOf hubCog).cog.resolve 0b0011 none (some 0x011) = .ok (.go 0 0x011 hubCog) ∧ hubCog.stepsAhead = false)
    ∧ isIndAddr 0x1F5 = false ∧ isIndAddr 0x1F8 = false := by decide

/-- JMP #n, always and IF_NC. -/
theorem witness_JumpImmediate :
    (chipOf hubCog).cog.pend = none ∧ condHolds 15 (chipOf hubCog).cog.z (chipOf hubCog).cog.c = true
    ∧ condHolds 0b0011 (chipOf hubCog).cog.z (chipOf hubCog).cog.c = true ∧ (chipOf hubCog).cog.stepsAhead = false
    ∧ isIndAddr 0x1F5 = false ∧ isIndAddr 0x1F8 = false := by decide

/-- The ring of vectors 2.6, its pointer at the top limit. -/
theorem witness_TaskSwitches :
    taskStart.ok = true ∧ taskStart.cog.pend = none ∧ taskStart.cog.inda.isSet = true ∧ 2 ≤ taskStart.cog.inda.age
    ∧ taskStart.cog.read taskStart.cog.inda.ptr = .ok 0xABCDE000 ∧ taskStart.cog.read taskStart.cog.inda.inc = .ok 0x500 := by
  decide

/-- D wraps from $FFFFFFFF to 0; a result that is not 0. -/
theorem witness_CountBranches :
    (∀ v : Word, v ≠ 0 → (chipOf (one v)).ok = true ∧ (chipOf (one v)).cog.pend = none
      ∧ (chipOf (one v)).cog.resolve 15 (some 0x010) (RegOrImm.imm 0x1FF).regField = .ok (.go 0x010 0 (one v))
      ∧ (one v).read 0x010 = .ok v ∧ (one v).target (.imm 0x1FF) 0 = .ok 0x1FF)
    ∧ (((0xFFFFFFFF : Word) + 1 == 0) == true) = true ∧ (((2 : Word) - 1 == 0) == false) = true
    ∧ ∀ g, (one 0xFFFFFFFF).result true 0x010 (0xFFFFFFFF + 1) = .ok g → g.stepsAhead = false :=
  ⟨fun v h => ⟨one_ok v h, rfl, one_resolve v, rfl, rfl⟩, by decide, by decide, link_of (by decide)⟩

/-- No stepping operand ahead; one ahead of a TJNZ that is not taken. -/
theorem witness_TestBranches :
    (∀ v : Word, (chipOf (one v)).cog.pend = none
      ∧ (chipOf (one v)).cog.resolve 15 (some 0x010) (RegOrImm.reg 0x010).regField = .ok (.go 0x010 0x010 (one v))
      ∧ (one v).read 0x010 = .ok v ∧ (one v).target (.reg 0x010) 0x010 = .ok (v.setWidth 9)
      ∧ (one v).stepsAhead = false)
    ∧ (let c := { aheadCog 0 with ram := [(0x023, 0xA08461F6)] }
       (chipOf c).cog.resolve 15 (some 0x010) (RegOrImm.imm 0x1FF).regField = .ok (.go 0x010 0 c)
        ∧ c.read 0x010 = .ok 0 ∧ c.stepsAhead = true ∧ ((0 : Word) != 0) = false) :=
  ⟨fun v => ⟨rfl, one_both v, rfl, rfl, one_stepsAhead v⟩, by decide⟩

/-- GETSPA $1F5; SETSPA $1F5 in a pins_to_stack mode. -/
theorem witness_StackPointers :
    ((chipOf hubCog).ok = true ∧ (chipOf hubCog).cog.resolve 15 (some 0x1F5) none = .ok (.go 0x1F5 0 hubCog)
      ∧ (true = true → plainReg 0x1F5))
    ∧ (let c := { hubCog with xfr := { Cog.reset.xfr with cfg := 0b110000 } }
       fieldOk (!(RegOrImm.reg 0x1F5).sel) (RegOrImm.reg 0x1F5).field
       ∧ (chipOf c).cog.resolve 15 (RegOrImm.reg 0x1F5).regField none = .ok (.go 0x1F5 0 c)
       ∧ c.operand (.reg 0x1F5) 0x1F5 = .ok 0x12345678 ∧ c.xfr.cfg.extractLsb' 4 2 = 3#2) := by
  unfold plainReg fieldOk; decide

/-- MACA $010,$011 with -2^19 and 2^19 - 1; GETACCA $1F5 with an accumulator in each reading state. -/
theorem witness_Accumulators :
    ((chipOf (two 0x80000 0x7FFFF)).cog.resolve 15 (some 0x010) (RegOrImm.reg 0x011).regField
        = .ok (.go 0x010 0x011 (two 0x80000 0x7FFFF))
      ∧ (two 0x80000 0x7FFFF).read 0x010 = .ok 0x80000 ∧ (two 0x80000 0x7FFFF).operand (.reg 0x011) 0x011 = .ok 0x7FFFF)
    ∧ (∀ r ∈ [AccRead.low, .high, .spent],
        let c := { hubCog with acca := ⟨5, r⟩ }
        (chipOf c).ok = true ∧ (chipOf c).cog.resolve 15 (some 0x1F5) none = .ok (.go 0x1F5 0 c)
        ∧ (true = true → plainReg 0x1F5) ∧ (Statement.acc c .a).reads = r) := by
  unfold plainReg; decide

/-- CLRACCA always; SETACCA $1F5,$011. -/
theorem witness_AccumulatorSets :
    (chipOf hubCog).cog.resolve 15 none none = .ok (.go 0 0 hubCog)
    ∧ (chipOf hubCog).cog.resolve 15 (some 0x1F5) (RegOrImm.reg 0x011).regField = .ok (.go 0x1F5 0x011 hubCog)
    ∧ hubCog.read 0x1F5 = .ok 0x12345678 ∧ hubCog.operand (.reg 0x011) 0x011 = .ok 0x1FFFF
    ∧ (0x0001FFFF12345678 : BitVec 64).toNat = (0x1FFFF : Word).toNat * 2 ^ 32 + (0x12345678 : Word).toNat := by decide

/-- FITACCA of any accumulator; one that fits as it is, and one that does not, whose low bit is shifted out. -/
theorem witness_FitExponents :
    (∀ v : BitVec 64, let c := { hubCog with acca := ⟨v, .low⟩ }
      (chipOf c).cog.resolve 15 none none = .ok (.go 0 0 c))
    ∧ Statement.fitsAt 0x7FFFFFFF 0 ∧ ¬ Statement.fitsAt 0x80000001 0 ∧ Statement.fitsAt 0x80000001 1 := by
  refine ⟨fun v => ?_, by unfold Statement.fitsAt; decide⟩
  exact (Cog.resolve_direct (c := { hubCog with acca := ⟨v, .low⟩ }) (cc := 15) (d := none) (x := none) rfl rfl).trans
    (congrArg Except.ok (if_pos (show condHolds 15 false false = true by decide)))

/-- Denominator 0; the largest quotient that fits and the smallest that does not; signed at both ends and just past one;
SETDIVB $1F5 of a divider that is not busy and of a busy one; GETDIVQ $1F5 of one that was started and of one that was
not. -/
theorem witness_DividerDivides :
    ((0 : Word) = 0
      ∧ ((3 : Word) ≠ 0 ∧ (0x2FFFFFFFF : BitVec 64).toNat < (3 : Word).toNat * 2 ^ 32)
      ∧ ((3 : Word) ≠ 0 ∧ (3 : Word).toNat * 2 ^ 32 ≤ (0x300000000 : BitVec 64).toNat)
      ∧ ((1 : Word) ≠ 0 ∧ -(2 ^ 31) ≤ (0xFFFFFFFF80000000 : BitVec 64).toInt.tdiv (1 : Word).toInt
        ∧ (0xFFFFFFFF80000000 : BitVec 64).toInt.tdiv (1 : Word).toInt < 2 ^ 31)
      ∧ (-(2 ^ 31) ≤ (0x7FFFFFFF : BitVec 64).toInt.tdiv (1 : Word).toInt
        ∧ (0x7FFFFFFF : BitVec 64).toInt.tdiv (1 : Word).toInt < 2 ^ 31)
      ∧ ((0xFFFFFFFF : Word) ≠ 0 ∧ 2 ^ 31 ≤ (0xFFFFFFFF80000000 : BitVec 64).toInt.tdiv (0xFFFFFFFF : Word).toInt))
    ∧ (∀ b : Bool,
        let c := { hubCog with div := { Cog.reset.div with numLo := 100, busy := b, started := b } }
        (chipOf c).ok = true ∧ fieldOk (!(RegOrImm.reg 0x1F5).sel) (RegOrImm.reg 0x1F5).field
        ∧ (chipOf c).cog.resolve 15 (RegOrImm.reg 0x1F5).regField none = .ok (.go 0x1F5 0 c)
        ∧ (chipOf c).cog.resolve 15 (some 0x1F5) none = .ok (.go 0x1F5 0 c) ∧ (true = true → plainReg 0x1F5)
        ∧ c.operand (.reg 0x1F5) 0x1F5 = .ok 0x12345678 ∧ c.div.busy = b ∧ c.div.started = b) := by
  unfold plainReg fieldOk; decide

/-- The greatest square below 2^64; SETSQRL $1F5 of a square rooter that is not busy and of a busy one; GETSQRT $1F5 of
one that was started and of one that was not. -/
theorem witness_RootIsNear :
    0xFFFFFFFF * 0xFFFFFFFF = (0xFFFFFFFE00000001 : BitVec 64).toNat
    ∧ (∀ b : Bool,
        let c := { hubCog with sqr := { Cog.reset.sqr with hi := 5, haveHi := b, busy := b, started := b } }
        (chipOf c).ok = true ∧ fieldOk (!(RegOrImm.reg 0x1F5).sel) (RegOrImm.reg 0x1F5).field
        ∧ (chipOf c).cog.resolve 15 (RegOrImm.reg 0x1F5).regField none = .ok (.go 0x1F5 0 c)
        ∧ (chipOf c).cog.resolve 15 (some 0x1F5) none = .ok (.go 0x1F5 0 c) ∧ (true = true → plainReg 0x1F5)
        ∧ c.operand (.reg 0x1F5) 0x1F5 = .ok 0x12345678 ∧ c.sqr.busy = b ∧ c.sqr.started = b) := by
  unfold plainReg fieldOk; decide
end Sys2Proof.Tests
end

section
/-! PROOFS. Hub control: COGID (R236). -/

namespace Sys2Proof

/-! ## Words of the table's layout -/

/-- The number of a joined word: the high part counts in units of the low part's width. -/
theorem toNat_append_eq_add {m n : Nat} (x : BitVec m) (y : BitVec n) :
    (x ++ y).toNat = x.toNat * 2 ^ n + y.toNat := by
  rw [BitVec.toNat_append, ← Nat.shiftLeft_add_eq_or_of_lt y.isLt, Nat.shiftLeft_eq]

/-- The encoder's sum of fields is the concatenation the table's layout names (R111). -/
theorem Fields.toWord_eq_row (f : Fields) : f.toWord =
    Statement.row f.t (BitVec.ofBool f.z ++ BitVec.ofBool f.c ++ BitVec.ofBool f.r) (BitVec.ofBool f.i) f.cc f.d f.s := by
  apply BitVec.eq_of_toNat_eq
  unfold Statement.row
  simp only [Fields.toWord_toNat, toNat_append_eq_add, BitVec.toNat_ofBool]
  omega

end Sys2Proof

namespace Sys2Proof.Machine

/-! ## A resolved instruction that writes one register -/

/-- Resolving operands leaves the next address and the pending branch. -/
theorem Cog.resolve_advance {c g : Cog} {cc : CCCC} {d x : Option RegAddr} {da sa : RegAddr}
    (h : c.resolve cc d x = .ok (.go da sa g)) : g.advance = c.advance := by
  rw [Cog.resolve_frame h]
  exact Cog.advance_congr rfl rfl

/-- A write to a plain register succeeds; the cog it leaves, once retired, has that register written and differs from
the old one in the registers and the pipeline bookkeeping alone. -/
theorem Cog.write_retire {c : Cog} (hc : c.ok = true) {da : RegAddr} (v : Word) (ha : plainReg da) (clk : Nat) :
    ∃ g, c.write da v = .ok g ∧ c.Wrote (g.retire clk) da v ∧ g.advance = c.advance
      ∧ (c.withRegs (g.retire clk)).withPipe (g.retire clk) = g.retire clk :=
  ⟨_, Cog.write_ok c v ha, Cog.Wrote.congr rfl rfl rfl rfl (Cog.ok_ram hc), Cog.advance_congr rfl rfl, rfl⟩

/-! ## COGID -/

theorem encode_cogid (cc : CCCC) (d : RegAddr) :
    encode (.cogid cc d) = Statement.row 0b000011 0b001 1 cc d 0b000000001 := by
  have hzcr : BitVec.ofBool false ++ BitVec.ofBool false ++ BitVec.ofBool true = 0b001#3 := by decide
  calc encode (.cogid cc d) = _ := Fields.toWord_eq_row (Fields.single false false true cc d 0b000000001)
    _ = Statement.row 0b000011 0b001 1 cc d 0b000000001 := congrArg (Statement.row 0b000011 · 1 cc d 0b000000001) hzcr

theorem exec_cogid (cc : CCCC) (d : RegAddr) (s : State) : exec (.cogid cc d) s = execCogid cc d s := rfl

/-- COGID ends by retiring the cog in which D was written. -/
theorem execCogid_next {cc : CCCC} {d : RegAddr} {s : State} {da sa : RegAddr} {c g : Cog}
    (hr : s.cog.resolve cc (some d) none = .ok (.go da sa c))
    (hw : c.write da (BitVec.ofNat 32 s.cur.val) = .ok g) :
    execCogid cc d s = .next (s.withView (((s.viewOf c).withCog g).retire 2)) := by
  apply State.instr_next hr
  simp only [State.viewOf_cog, State.viewOf_num, hw]
  rfl

/-- Settles O33: what a retired register write leaves, for the number of the moving cog. -/
theorem cogidNumbers : Obligations.CogidNumbers := by
  unfold Obligations.CogidNumbers
  refine ⟨encode_cogid, fun cc d s da sa c hs hr ha => ?_⟩
  have hc : c.ok = true := Cog.resolve_keeps (State.cog_ok hs) hr
  obtain ⟨g, hw, hwrote, hadv, hframe⟩ := Cog.write_retire hc (BitVec.ofNat 32 s.cur.val) ha 2
  refine ⟨_, (exec_cogid cc d s).trans (execCogid_next hr hw), ?_⟩
  rw [State.cog_withView]
  exact ⟨hwrote, State.finishes_withView rfl hframe (hadv.trans (Cog.resolve_advance hr))⟩

end Sys2Proof.Machine
end

section
/-! PROOFS. Setting the indirect pointers: SETINDx and FIXINDx (R267..R272). -/

namespace Sys2Proof

/-! ## The words -/

/-- The word of a row whose ZCR is 000 and whose I is 0, as the rows of SETINDx and FIXINDx are (R123). -/
theorem Fields.toWord_zcr_zero (t : BitVec 6) (cc : CCCC) (d x : BitVec 9) :
    (Fields.mk t false false false false cc d x).toWord = Statement.row t 0b000 0 cc d x := by
  have hzcr : BitVec.ofBool false ++ BitVec.ofBool false ++ BitVec.ofBool false = 0b000#3 := by decide
  rw [Fields.toWord_eq_row, hzcr]
  rfl

theorem encode_setinda (a : IndOp) :
    encode (.setinda a) = Statement.row 0b111000 0b000 0 (if a.isDelta then 0b0011 else 0b0001) 0 a.field :=
  Fields.toWord_zcr_zero ..

theorem encode_setindb (b : IndOp) :
    encode (.setindb b) = Statement.row 0b111000 0b000 0 (if b.isDelta then 0b1100 else 0b0100) b.field 0 :=
  Fields.toWord_zcr_zero ..

theorem encode_setinds (b a : IndOp) :
    encode (.setinds b a) = Statement.row 0b111000 0b000 0
      (if b.isDelta then (if a.isDelta then 0b1111 else 0b1101) else (if a.isDelta then 0b0111 else 0b0101))
      b.field a.field :=
  Fields.toWord_zcr_zero ..

theorem encode_fixinda (t i : RegAddr) : encode (.fixinda t i) = Statement.row 0b111001 0b000 0 0b0001 t i :=
  Fields.toWord_zcr_zero ..

theorem encode_fixindb (t i : RegAddr) : encode (.fixindb t i) = Statement.row 0b111001 0b000 0 0b0100 t i :=
  Fields.toWord_zcr_zero ..

theorem encode_fixinds (t i : RegAddr) : encode (.fixinds t i) = Statement.row 0b111001 0b000 0 0b0101 t i :=
  Fields.toWord_zcr_zero ..

end Sys2Proof

namespace Sys2Proof.Machine

/-! ## The new pointers -/

/-- SETINDx gives the pointer of its operand and the limits $000 and $1FF; adding a delta is addition modulo 512. -/
theorem Ind.set_eq (i : Ind) (x : IndOp) : i.set x = Statement.ind (Statement.indPtr i x) 0 0x1FF := by
  cases x with
  | addr a => rfl
  | delta n =>
    simp only [Ind.set, BitVec.add_def]
    rfl

theorem Ind.fix_eq (terminal initial : BitVec 9) :
    Ind.fix terminal initial = Statement.ind initial (if initial.toNat ≤ terminal.toNat then initial else terminal)
      (if initial.toNat ≤ terminal.toNat then terminal else initial) := rfl

/-- Up to its age, an indirect register that is not set again is as it was before the instruction. -/
theorem Ind.getD_older (i : Ind) (x : Option Ind) :
    { x.getD i with age := (x.getD i.older).age } = x.getD i.older := by
  cases x with
  | none => rfl
  | some j => rfl

/-! ## The shared end of the six instructions -/

/-- CCCC 1111 is the condition that always holds (R115). -/
theorem condHolds_always (z c : Bool) : condHolds 0b1111 z c = true := by
  revert z c
  decide

/-- With CCCC 1111 and no register operand an instruction always executes. -/
theorem Cog.resolve_always (c : Cog) : c.resolve 0b1111 none none = .ok (.go 0 0 c) := by
  rw [Cog.resolve_direct rfl rfl, if_pos (condHolds_always c.z c.c)]
  rfl

/-- Setting the indirect registers changes them alone, up to the pipeline bookkeeping. -/
theorem State.finishes_setInds (s : State) (a b : Option Ind) :
    s.Finishes (s.withView (s.view.setInds a b))
      { s.cog with inda := a.getD s.cog.inda, indb := b.getD s.cog.indb } := by
  have hframe : ({ s.cog with inda := a.getD s.cog.inda, indb := b.getD s.cog.indb } : Cog).withPipe
      (s.view.setInds a b).cog = (s.view.setInds a b).cog := by
    simp only [Cog.withPipe, View.setInds, View.withCog_cog, State.view_cog, Cog.retire_inda, Cog.retire_indb,
      Ind.getD_older]
    rfl
  exact State.finishes_withView rfl hframe rfl

/-- An instruction that always executes and sets indirect registers from what its cog holds ends with them set. -/
theorem State.instr_setInds (s : State) (a b : View → Option Ind) :
    ∃ t, (s.instr 0b1111 none none fun _ _ v => .ok (v.setInds (a v) (b v))) = .next t
      ∧ s.Finishes t { s.cog with inda := (a s.view).getD s.cog.inda, indb := (b s.view).getD s.cog.indb } :=
  ⟨_, State.instr_next s.cog.resolve_always rfl, s.finishes_setInds (a s.view) (b s.view)⟩

/-! ## SETINDx -/

theorem setinda_finishes (a : IndOp) (s : State) :
    ∃ t, exec (.setinda a) s = .next t ∧ s.Finishes t { s.cog with inda := s.cog.inda.set a } :=
  s.instr_setInds (fun v => some (v.cog.inda.set a)) fun _ => none

theorem setindb_finishes (b : IndOp) (s : State) :
    ∃ t, exec (.setindb b) s = .next t ∧ s.Finishes t { s.cog with indb := s.cog.indb.set b } :=
  s.instr_setInds (fun _ => none) fun v => some (v.cog.indb.set b)

theorem setinds_finishes (b a : IndOp) (s : State) :
    ∃ t, exec (.setinds b a) s = .next t
      ∧ s.Finishes t { s.cog with inda := s.cog.inda.set a, indb := s.cog.indb.set b } :=
  s.instr_setInds (fun v => some (v.cog.inda.set a)) fun v => some (v.cog.indb.set b)

/-- Settles O38: the words by their rows, the effects by the shared end with the pointers SETINDx forms. -/
theorem setindSets : Obligations.SetindSets := by
  unfold Obligations.SetindSets
  refine ⟨fun a b => ?words, fun a b s => ?effects⟩
  case words =>
    exact ⟨encode_setinda (.addr a), encode_setinda (.delta a), encode_setindb (.addr b), encode_setindb (.delta b),
      encode_setinds (.addr b) (.addr a), encode_setinds (.addr b) (.delta a), encode_setinds (.delta b) (.addr a),
      encode_setinds (.delta b) (.delta a)⟩
  case effects =>
    simp only [← Ind.set_eq]
    exact ⟨setinda_finishes a s, setindb_finishes b s, setinds_finishes b a s⟩

/-! ## FIXINDx -/

theorem fixinda_finishes (terminal initial : RegAddr) (s : State) :
    ∃ t, exec (.fixinda terminal initial) s = .next t ∧ s.Finishes t { s.cog with inda := .fix terminal initial } :=
  s.instr_setInds (fun _ => some (.fix terminal initial)) fun _ => none

theorem fixindb_finishes (terminal initial : RegAddr) (s : State) :
    ∃ t, exec (.fixindb terminal initial) s = .next t ∧ s.Finishes t { s.cog with indb := .fix terminal initial } :=
  s.instr_setInds (fun _ => none) fun _ => some (.fix terminal initial)

theorem fixinds_finishes (terminal initial : RegAddr) (s : State) :
    ∃ t, exec (.fixinds terminal initial) s = .next t
      ∧ s.Finishes t { s.cog with inda := .fix terminal initial, indb := .fix terminal initial } :=
  s.instr_setInds (fun _ => some (.fix terminal initial)) fun _ => some (.fix terminal initial)

/-- Settles O39: the words by their rows, the effects by the shared end with the pointer and limits FIXINDx forms. -/
theorem fixindSets : Obligations.FixindSets := by
  unfold Obligations.FixindSets
  refine ⟨fun t i => ⟨encode_fixinda t i, encode_fixindb t i, encode_fixinds t i⟩, fun terminal initial s => ?_⟩
  rw [← Ind.fix_eq]
  exact ⟨fixinda_finishes terminal initial s, fixindb_finishes terminal initial s,
    fixinds_finishes terminal initial s⟩

end Sys2Proof.Machine
end

section
/-! PROOFS. Decoding and encoding undo each other (30_encoding). -/

-- The check compiles one text under a memory limit that bounds the threads: elaborate in order.
set_option Elab.async false

namespace Sys2Proof

/-! ## From the instruction to its word and back -/

/-- The decoder reads back the fields that the encoder gives a well-formed instruction. -/
theorem decodeFields_fields (i : Instr) (h : i.wellFormed = true) : decodeFields i.fields = .ok i := by
  cases i
  case wrbyte | rdbyte | rdbytec | wrword | rdword | rdwordc | wrlong | rdlong | rdlongc =>
    simp [Instr.fields, decodeFields, decodeHub, HubOp.ofField_field]
  case mov | add | waitcnt | waitpeq | waitpne =>
    simp [Instr.fields, decodeFields, decode001, RegOrImm.ofField_field]
  case ijz | ijnz | djz | djnz | ijzd | ijnzd | djzd | djnzd | tjz | tjnz | jp | jnp | tjzd | tjnzd | jpd | jnpd =>
    simp [Instr.fields, decodeFields, RegOrImm.ofField_field]
  case wrquad | rdquad | rdquadc =>
    simp [Instr.fields, decodeFields, Fields.single, decodeSingle, HubOp.ofField_field]
  case setptra | setptrb | addptra | addptrb | subptra | subptrb | setquad | setquaz =>
    simp [Instr.fields, decodeFields, Fields.single, decodeSingle, decode00R, RegOrImm.ofField_field]
  case coginit | getptra | getptrb | cachex | gettops | clkset | cogid | cogstop | locknew | lockret | lockset
      | lockclr | cmpcnt | subcnt | passcnt | getcnt => rfl
  case setinda x | setindb x => cases x <;> rfl
  case setinds b a => cases b <;> cases a <;> rfl
  case fixinda | fixindb | fixinds | tasksw | taskswd | jmpS | jmpdS | ret | retd => rfl
  -- the rows that share words: well-formedness says that no more special row takes the word
  case jmpretS | jmpretdS | jmpretN | jmpretdN | call | calld | jmpretSNR | jmpretNNR | jmpretdSNR | jmpretdNNR
      | jmpN | jmpdN =>
    simp_all [Instr.wellFormed, Instr.fields, decodeFields, decodeJmpret, decodeJmpretd]

/-- Settles O8: cutting a joined word gives its fields, and these decode to the instruction. -/
theorem decodeEncode : Obligations.DecodeEncode := by
  unfold Obligations.DecodeEncode
  intro i h
  rw [decode, encode, Fields.ofWord_toWord]
  exact decodeFields_fields i h

/-! ## From the word to its instruction and back -/

/-- An instruction is well formed and has the fields `f`. -/
def Instr.Spells (i : Instr) (f : Fields) : Prop := i.wellFormed = true ∧ i.fields = f

theorem decodeHub_spells {f : Fields} {i : Instr} {wr : CCCC → RegAddr → HubOp → Instr}
    {rd rdc : Bool → CCCC → RegAddr → HubOp → Instr}
    (hwr : ∀ cc d x, (wr cc d x).Spells ⟨f.t, false, false, false, x.sel, cc, d, x.field⟩)
    (hrd : ∀ z cc d x, (rd z cc d x).Spells ⟨f.t, z, false, true, x.sel, cc, d, x.field⟩)
    (hrdc : ∀ z cc d x, (rdc z cc d x).Spells ⟨f.t, z, true, true, x.sel, cc, d, x.field⟩)
    (h : decodeHub f wr rd rdc = .ok i) : i.Spells f := by
  obtain ⟨t, z, c, r, sel, cc, d, s⟩ := f
  have h1 := hwr cc d (.ofField sel s)
  have h2 := hrd z cc d (.ofField sel s)
  have h3 := hrdc z cc d (.ofField sel s)
  rw [HubOp.sel_ofField, HubOp.field_ofField] at h1 h2 h3
  unfold decodeHub at h
  split at h <;> simp_all

theorem decodeSingle_spells {f : Fields} {i : Instr} (ht : f.t = 0b000011) (hi : f.i = true)
    (h : decodeSingle f = .ok i) : i.Spells f := by
  obtain ⟨t, z, c, r, sel, cc, d, s⟩ := f
  simp only at ht hi
  subst ht hi
  unfold decodeSingle decode000 decode00R at h
  simp only at h
  split at h
  -- the code in S fixes the instruction, up to the bits Z, C, R that its row leaves free
  all_goals
    rename_i hs
    (repeat' split at h) <;> cases h <;>
      exact ⟨rfl, by simp_all [Instr.fields, Fields.single, ← BitVec.toNat_inj, HubOp.sel_ofField,
        HubOp.field_ofField, RegOrImm.sel_ofField, RegOrImm.field_ofField]⟩

theorem decode001_spells {f : Fields} {i : Instr} {mk : CCCC → RegAddr → RegOrImm → Instr}
    (hmk : ∀ cc d x, (mk cc d x).Spells ⟨f.t, false, false, true, x.sel, cc, d, x.field⟩)
    (h : decode001 f mk = .ok i) : i.Spells f := by
  obtain ⟨t, z, c, r, sel, cc, d, s⟩ := f
  have h1 := hmk cc d (.ofField sel s)
  rw [RegOrImm.sel_ofField, RegOrImm.field_ofField] at h1
  unfold decode001 at h
  split at h <;> simp_all

theorem decodeSetind_spells {f : Fields} {i : Instr} (ht : f.t = 0b111000) (h : decodeSetind f = .ok i) :
    i.Spells f := by
  obtain ⟨t, z, c, r, sel, cc, d, s⟩ := f
  simp only at ht
  subst ht
  unfold decodeSetind at h
  split at h <;> [skip; cases h]
  split at h
  all_goals
    rename_i hcc
    (repeat' split at h) <;> cases h <;>
      exact ⟨rfl, by simp_all [Instr.fields, IndOp.isDelta, IndOp.field, ← BitVec.toNat_inj]⟩

theorem decodeFixind_spells {f : Fields} {i : Instr} (ht : f.t = 0b111001) (h : decodeFixind f = .ok i) :
    i.Spells f := by
  obtain ⟨t, z, c, r, sel, cc, d, s⟩ := f
  simp only at ht
  subst ht
  unfold decodeFixind at h
  split at h <;> [skip; cases h]
  split at h
  all_goals
    rename_i hcc
    cases h <;> exact ⟨rfl, by simp_all [Instr.fields, ← BitVec.toNat_inj]⟩

theorem isTaskSwitch_iff {wz wc : Bool} {cc : CCCC} {d x : RegAddr} :
    isTaskSwitch wz wc cc d x = true ↔ wz = true ∧ wc = true ∧ cc = 0b0011 ∧ d = indaAddr ∧ x = indaAddr := by
  simp [isTaskSwitch, and_assoc]

theorem decodeJmpret_spells {f : Fields} (ht : f.t = 0b000111) : (decodeJmpret f).Spells f := by
  obtain ⟨t, z, c, r, sel, cc, d, s⟩ := f
  simp only at ht
  subst ht
  unfold decodeJmpret
  split
  · split
    · rename_i htask
      obtain ⟨rfl, rfl, rfl, rfl, rfl⟩ := isTaskSwitch_iff.mp htask
      simp_all [Instr.Spells, Instr.wellFormed, Instr.fields]
    · simp_all [Instr.Spells, Instr.wellFormed, Instr.fields]
  all_goals (repeat' split) <;> simp_all [Instr.Spells, Instr.wellFormed, Instr.fields]

theorem decodeJmpretd_spells {f : Fields} (ht : f.t = 0b010111) : (decodeJmpretd f).Spells f := by
  obtain ⟨t, z, c, r, sel, cc, d, s⟩ := f
  simp only at ht
  subst ht
  unfold decodeJmpretd
  split
  · split
    · rename_i htask
      obtain ⟨rfl, rfl, rfl, rfl, rfl⟩ := isTaskSwitch_iff.mp htask
      simp_all [Instr.Spells, Instr.wellFormed, Instr.fields]
    · simp_all [Instr.Spells, Instr.wellFormed, Instr.fields]
  all_goals (repeat' split) <;> simp_all [Instr.Spells, Instr.wellFormed, Instr.fields]

/-- An instruction that the decoder gives is well formed and has the fields it was read from. -/
theorem decodeFields_spells {f : Fields} {i : Instr} (h : decodeFields f = .ok i) : i.Spells f := by
  unfold decodeFields at h
  split at h
  all_goals rename_i hn
  case h_1 | h_2 | h_3 =>
    have ht : f.t = BitVec.ofNat 6 f.t.toNat := by simp
    rw [hn] at ht
    refine decodeHub_spells (fun _ _ _ => ⟨rfl, ?_⟩) (fun _ _ _ _ => ⟨rfl, ?_⟩) (fun _ _ _ _ => ⟨rfl, ?_⟩) h <;>
      rw [ht] <;> rfl
  case h_4 =>
    have ht : f.t = 0b000011 := BitVec.eq_of_toNat_eq hn
    split at h
    · exact decodeSingle_spells ht ‹_› h
    · cases h
      cases f
      exact ⟨rfl, by simp_all [Instr.fields]⟩
  case h_5 => cases h; exact decodeJmpret_spells (BitVec.eq_of_toNat_eq hn)
  case h_6 => cases h; exact decodeJmpretd_spells (BitVec.eq_of_toNat_eq hn)
  case h_7 | h_8 =>
    have ht : f.t = BitVec.ofNat 6 f.t.toNat := by simp
    rw [hn] at ht
    exact decode001_spells (fun _ _ _ => ⟨rfl, by rw [ht]; rfl⟩) h
  case h_9 => exact decodeSetind_spells (BitVec.eq_of_toNat_eq hn) h
  case h_10 => exact decodeFixind_spells (BitVec.eq_of_toNat_eq hn) h
  -- IJx and DJx, TJx and JPx, the waits: bits Z, C, R select the operation
  case h_11 | h_12 | h_13 | h_14 =>
    obtain ⟨t, z, c, r, sel, cc, d, s⟩ := f
    (try simp only [Except.ok.injEq] at h)
    split at h <;> cases h <;>
      exact ⟨rfl, by simp_all [Instr.fields, RegOrImm.sel_ofField, RegOrImm.field_ofField, ← BitVec.toNat_inj]⟩
  case h_15 => cases h

/-- Settles O9: the fields of the instruction are those of the word, and joining them gives the word. -/
theorem encodeDecode : Obligations.EncodeDecode := by
  unfold Obligations.EncodeDecode
  intro w i h
  obtain ⟨hwf, hfields⟩ := decodeFields_spells h
  refine ⟨hwf, ?_⟩
  rw [encode, hfields, Fields.toWord_ofWord]

/-- Settles O10: each word decodes by evaluation. -/
theorem specWordsDecode : Obligations.SpecWordsDecode := by
  unfold Obligations.SpecWordsDecode
  decide

end Sys2Proof
end

section
/-! PROOFS. Every step keeps the state well formed; the state after reset. -/

-- The check compiles one text under a memory limit that bounds the threads: elaborate in order.
set_option Elab.async false

namespace Sys2Proof.Machine

theorem Except.map_ok {ε α β : Type} {x : Except ε α} {f : α → β} {b : β} (h : x.map f = .ok b) :
    ∃ a, x = .ok a ∧ f a = b := by
  cases x with
  | error e => cases h
  | ok a => exact ⟨a, rfl, by cases h; rfl⟩

/-! ## Instructions with a body of their own -/

section
variable {s t : State} (hs : s.ok = true)
include hs

theorem execWrquad_ok {cc : CCCC} {x : HubOp} (h : execWrquad cc x s = .next t) : t.ok = true := by
  refine State.fieldInstr_ok hs (fun da v w hv hb => ?_) h
  obtain ⟨p, hp, hw⟩ := Except.bind_ok hb
  cases hw
  exact ⟨Hub.setBytes_wf hv.1 (aligned_add_le rfl p.1),
    Cog.retire_ok (Cog.hubOperand_keeps (a := p.1) (g := p.2) hv.2 hp) 1⟩

theorem execRdquad_ok {cc : CCCC} {x : HubOp} (h : execRdquad cc x s = .next t) : t.ok = true := by
  refine State.fieldInstr_ok hs (fun da v w hv hb => ?_) h
  obtain ⟨p, hp, hw⟩ := Except.bind_ok hb
  cases hw
  have hg := Cog.hubOperand_keeps (a := p.1) (g := p.2) hv.2 hp
  exact View.endCached_ok (v := (v.withCog p.2).fillQuads p.1) ⟨hv.1, Cog.ok_congr hg rfl rfl rfl rfl rfl⟩ false 1

theorem execRdquadc_ok {cc : CCCC} {x : HubOp} (h : execRdquadc cc x s = .next t) : t.ok = true := by
  refine State.fieldInstr_ok hs (fun da v w hv hb => ?_) h
  obtain ⟨p, hp, hw⟩ := Except.bind_ok hb
  cases hw
  have hg := View.withCog_ok hv (Cog.hubOperand_keeps (a := p.1) (g := p.2) hv.2 hp)
  exact View.endCached_ok (View.drawC_ok (View.cacheLookup_ok hg p.1)) _ 1

theorem execGettops_ok {wz : Bool} {cc : CCCC} {d : RegAddr} (h : execGettops wz cc d s = .next t) :
    t.ok = true := by
  refine State.instr_ok hs (fun da _ v w hv hb => ?_) h
  obtain ⟨c, hc, hw⟩ := Except.bind_ok hb
  cases hw
  exact View.retire_ok (View.withCog_ok hv (Cog.flagZ_ok (Cog.write_keeps hv.2 hc) _ _)) 1

theorem execCogid_ok {cc : CCCC} {d : RegAddr} (h : execCogid cc d s = .next t) : t.ok = true := by
  refine State.instr_ok hs (fun da _ v w hv hb => ?_) h
  obtain ⟨c, hc, hw⟩ := Except.bind_ok hb
  cases hw
  exact View.retire_ok (View.withCog_ok hv (Cog.write_keeps hv.2 hc)) 2

theorem execCoginit_ok {wz wc wr : Bool} {cc : CCCC} {d x : RegAddr} (h : execCoginit wz wc wr cc d x s = .next t) :
    t.ok = true := by
  refine State.chipInstr_ok hs (fun da sa g u hg hb => ?_) h
  obtain ⟨dv, -, hb⟩ := Except.bind_ok hb
  obtain ⟨sv, -, hb⟩ := Except.bind_ok hb
  split at hb
  · exact State.startNext_ok (State.withCog_ok hs hg) hb
  · exact State.startGiven_ok (State.withCog_ok hs hg) hb

theorem execCogstop_ok {cc : CCCC} {d : RegAddr} (h : execCogstop cc d s = .next t) : t.ok = true := by
  refine State.chipInstr_ok hs (fun da sa g u hg hb => ?_) h
  obtain ⟨dv, -, hb⟩ := Except.bind_ok hb
  split at hb
  · exact State.stopCog_ok (State.withCog_ok hs hg) hb
  · cases hb

theorem execClkset_ok {cc : CCCC} {d : RegAddr} (h : execClkset cc d s = .next t) : t.ok = true := by
  refine State.chipInstr_ok hs (fun da sa g u hg hb => ?_) h
  have hsg := State.withCog_ok hs hg
  obtain ⟨dv, -, hb⟩ := Except.bind_ok hb
  split at hb
  · cases hb; exact State.chipReset_ok _
  · split at hb
    · cases hb
    · cases hb
      exact State.ok_iff.mpr (State.ok_iff.mp (State.withCog_ok hsg (Cog.retire_ok (State.cog_ok hsg) 1)))

theorem execLocknew_ok {wz wc : Bool} {cc : CCCC} {d : RegAddr} (h : execLocknew wz wc cc d s = .next t) :
    t.ok = true := by
  refine State.instr_ok hs (fun da _ v w hv hb => ?_) h
  split at hb
  · exact View.newLock_ok hv hb
  · obtain ⟨u, hu, hw⟩ := Except.bind_ok hb
    cases hw
    have hu := View.newLock_ok hv hu
    exact ⟨hu.1, hu.2⟩

theorem execLockret_ok {cc : CCCC} {d : RegAddr} (h : execLockret cc d s = .next t) : t.ok = true := by
  refine State.instr_ok hs (fun da _ v w hv hb => ?_) h
  obtain ⟨n, -, hw⟩ := Except.bind_ok hb
  cases hw
  exact ⟨hv.1, Cog.retire_ok hv.2 1⟩

theorem execMov_ok {cc : CCCC} {d : RegAddr} {x : RegOrImm} (h : execMov cc d x s = .next t) : t.ok = true := by
  refine State.instr_ok hs (fun da sa v w hv hb => ?_) h
  obtain ⟨sv, -, hb⟩ := Except.bind_ok hb
  obtain ⟨c, hc, hw⟩ := Except.bind_ok hb
  cases hw
  exact View.retire_ok (View.withCog_ok hv (Cog.write_keeps hv.2 hc)) 1

theorem execAdd_ok {cc : CCCC} {d : RegAddr} {x : RegOrImm} (h : execAdd cc d x s = .next t) : t.ok = true := by
  refine State.instr_ok hs (fun da sa v w hv hb => ?_) h
  obtain ⟨dv, -, hb⟩ := Except.bind_ok hb
  obtain ⟨sv, -, hb⟩ := Except.bind_ok hb
  obtain ⟨c, hc, hw⟩ := Except.bind_ok hb
  cases hw
  exact View.retire_ok (View.withCog_ok hv (Cog.write_keeps hv.2 hc)) 1

theorem execGetcnt_ok {cc : CCCC} {d : RegAddr} (h : execGetcnt cc d s = .next t) : t.ok = true := by
  refine State.instr_ok hs (fun da _ v w hv hb => ?_) h
  split at hb
  · cases hb
  · cases hb
  all_goals
    obtain ⟨c, hc, hw⟩ := Except.bind_ok hb
    cases hw
    exact ⟨hv.1, Cog.ok_congr (Cog.retire_ok (Cog.write_keeps hv.2 hc) 1) rfl rfl rfl rfl rfl⟩

theorem execSubcnt_ok {wz wc : Bool} {cc : CCCC} {d : RegAddr} (h : execSubcnt wz wc cc d s = .next t) :
    t.ok = true := by
  refine State.instr_ok hs (fun da _ v w hv hb => ?_) h
  split at hb
  · cases hb
  · cases hb
  all_goals
    obtain ⟨dv, -, hb⟩ := Except.bind_ok hb
    obtain ⟨c, hc, hw⟩ := Except.bind_ok hb
    cases hw
    exact ⟨hv.1, Cog.ok_congr (Cog.retire_ok (Cog.write_keeps hv.2 hc) 1) rfl rfl rfl rfl rfl⟩

theorem execCmpcnt_ok {wz wc : Bool} {cc : CCCC} {d : RegAddr} (h : execCmpcnt wz wc cc d s = .next t) :
    t.ok = true := by
  refine State.instr_ok hs (fun da _ v w hv hb => ?_) h
  split at hb
  · cases hb
  all_goals
    obtain ⟨dv, -, hw⟩ := Except.bind_ok hb
    cases hw
    exact View.retireCnt_ok (View.withCog_ok hv (Cog.flagC_ok (Cog.flagZ_ok hv.2 _ _) _ _)) _

/-- PASSCNT goes on, or leaves the state it found. -/
theorem execPasscnt_ok {cc : CCCC} {d : RegAddr} (h : execPasscnt cc d s = .next t) : t.ok = true := by
  refine State.instr_ok hs (fun da _ v w hv hb => ?_) h
  obtain ⟨dv, -, hw⟩ := Except.bind_ok hb
  cases hw
  split
  · exact View.retire_ok hv 1
  · exact ⟨State.mem_ok hs, State.cog_ok hs⟩

theorem execWaitcnt_ok {wc wr : Bool} {cc : CCCC} {d : RegAddr} {x : RegOrImm}
    (h : execWaitcnt wc wr cc d x s = .next t) : t.ok = true := by
  refine State.instr_ok hs (fun da sa v w hv hb => ?_) h
  split at hb
  · cases hb
  · obtain ⟨dv, -, hb⟩ := Except.bind_ok hb
    obtain ⟨sv, -, hb⟩ := Except.bind_ok hb
    obtain ⟨c, hc, hw⟩ := Except.bind_ok hb
    cases hw
    exact View.retire_ok (View.withCog_ok hv (Cog.result_keeps hv.2 hc)) 1

/-! ## Every instruction, every step -/

theorem exec_ok (i : Instr) (h : exec i s = .next t) : t.ok = true := by
  cases i <;> dsimp only [exec] at h
  case wrbyte | wrword | wrlong =>
    refine State.instr_ok hs ?_ h
    exact fun _ _ _ _ hv => View.hubStore_ok hv (by decide) fun _ => rfl
  case rdbyte | rdword | rdlong =>
    refine State.instr_ok hs ?_ h
    exact fun _ _ _ _ hv => View.hubLoad_ok hv
  case rdbytec | rdwordc | rdlongc =>
    refine State.instr_ok hs ?_ h
    exact fun _ _ _ _ hv => View.cachedLoad_ok hv
  case wrquad => exact execWrquad_ok hs h
  case rdquad => exact execRdquad_ok hs h
  case rdquadc => exact execRdquadc_ok hs h
  case getptra | getptrb =>
    refine State.instr_ok hs ?_ h
    exact fun _ _ _ _ hv => View.getPtr_ok hv
  case setptra | setptrb | addptra | addptrb | subptra | subptrb =>
    refine State.fieldInstr_ok hs ?_ h
    exact fun _ _ _ hv => View.changePtr_ok hv
  case cachex =>
    refine State.instr_ok hs (fun _ _ _ w hv hb => ?_) h
    cases hb
    exact View.retire_ok ⟨hv.1, Cog.ok_congr hv.2 rfl rfl rfl rfl rfl⟩ 1
  case gettops => exact execGettops_ok hs h
  case setquad =>
    refine State.fieldInstr_ok hs ?_ h
    exact fun _ _ _ hv => View.mapQuads_ok hv
  case setquaz =>
    refine State.fieldInstr_ok hs (fun _ _ _ hv hb => ?_) h
    obtain ⟨u, hu, rfl⟩ := Except.map_ok hb
    exact View.drawC_ok (View.mapQuads_ok hv hu)
  case coginit => exact execCoginit_ok hs h
  case clkset => exact execClkset_ok hs h
  case cogid => exact execCogid_ok hs h
  case cogstop => exact execCogstop_ok hs h
  case locknew => exact execLocknew_ok hs h
  case lockret => exact execLockret_ok hs h
  case lockset | lockclr =>
    refine State.instr_ok hs ?_ h
    exact fun _ _ _ _ hv => View.writeLock_ok hv
  case setinda | setindb | setinds | fixinda | fixindb | fixinds =>
    refine State.instr_ok hs (fun _ _ _ _ hv hb => ?_) h
    cases hb
    exact View.setInds_ok hv _ _
  case mov => exact execMov_ok hs h
  case add => exact execAdd_ok hs h
  case cmpcnt => exact execCmpcnt_ok hs h
  case subcnt => exact execSubcnt_ok hs h
  case passcnt => exact execPasscnt_ok hs h
  case getcnt => exact execGetcnt_ok hs h
  case waitcnt => exact execWaitcnt_ok hs h
  case waitpeq | waitpne =>
    refine State.instr_ok hs ?_ h
    exact fun _ _ _ _ hv => View.waitPins_ok hv
  case jmpretS | jmpretdS | tasksw | taskswd =>
    refine State.branchInstr_ok hs ?_ h
    exact fun _ _ _ _ hv => View.jmpretReg_ok hv
  case jmpretN | jmpretdN | call | calld =>
    refine State.branchInstr_ok hs ?_ h
    exact fun _ _ _ _ hv => View.jmpretImm_ok hv
  case jmpretSNR | jmpretdSNR | jmpS | jmpdS =>
    refine State.nrInstr_ok hs ?_ h
    exact fun _ _ _ hv => View.jmpReg_ok hv
  case jmpretNNR | jmpretdNNR | jmpN | jmpdN | ret | retd =>
    refine State.nrInstr_ok hs ?_ h
    exact fun _ _ _ hv => View.jmpImm_ok hv
  case ijz | ijnz | djz | djnz | ijzd | ijnzd | djzd | djnzd =>
    refine State.branchInstr_ok hs ?_ h
    exact fun _ _ _ _ hv => View.countBranch_ok hv
  case tjz | tjnz | tjzd | tjnzd =>
    refine State.branchInstr_ok hs ?_ h
    exact fun _ _ _ _ hv => View.testBranch_ok hv
  case jp | jnp | jpd | jnpd =>
    refine State.branchInstr_ok hs ?_ h
    exact fun _ _ _ _ hv => View.pinBranch_ok hv

theorem State.execWord_ok {w : Word} (h : s.execWord w = .next t) : t.ok = true := by
  unfold State.execWord at h
  split at h
  · unfold State.unlisted at h
    split at h
    · cases h; exact State.withCog_ok hs (Cog.skip_ok (State.cog_ok hs))
    · cases h
  · exact exec_ok hs _ h

end

/-- Settles O5: an idle cog keeps the state, a loading cog keeps its loader, an instruction keeps the state by
`exec_ok`; then time passes. -/
theorem stepKeepsOk : Obligations.StepKeepsOk := by
  unfold Obligations.StepKeepsOk
  intro s t hs h
  unfold step at h
  split at h
  · cases h; exact State.elapse_ok hs
  · rename_i base k hrun
    cases h
    exact State.elapse_ok (State.withCog_ok hs (Cog.loadLong_ok (State.cog_ok hs) hrun s.hub))
  · split at h
    · cases h
    · split at h
      · rename_i hw
        cases h
        exact State.elapse_ok (State.execWord_ok hs hw)
      · cases h
      · cases h

/-! ## After reset -/

/-- Settles O6: by evaluation. -/
theorem resetOk : Obligations.ResetOk := by
  unfold Obligations.ResetOk
  decide

/-- Settles O7: the clock register of the reset state is the literal 0. -/
theorem resetClearsClock : Obligations.ResetClearsClock := rfl

end Sys2Proof.Machine
end

section
/-! PROOFS. Shared lemmas: how the body of a resolved instruction is run, what a written result leaves, and the ends of
instructions. -/

-- The check compiles one text under a memory limit that bounds the threads: elaborate in order.
set_option Elab.async false

namespace Sys2Proof.Machine

/-! ## Bodies -/

/-- The first part of a sequence has its value: the rest goes on with it. -/
@[simp] theorem Except.ok_bind {ε α β : Type} (a : α) (f : α → Except ε β) : (Except.ok a >>= f) = f a := rfl

@[simp] theorem Except.error_bind {ε α β : Type} (e : ε) (f : α → Except ε β) :
    ((Except.error e : Except ε α) >>= f) = .error e := rfl

@[simp] theorem Except.ok_map {ε α β : Type} (a : α) (f : α → β) : (Except.ok a : Except ε α).map f = .ok (f a) := rfl

@[simp] theorem Except.error_map {ε α β : Type} (e : ε) (f : α → β) :
    (Except.error e : Except ε α).map f = .error e := rfl

theorem State.fieldInstr_next {s : State} {cc : CCCC} {isReg : Bool} {f : BitVec 9} {da sa : RegAddr} {c : Cog}
    (hf : fieldOk isReg f) (hr : s.cog.resolve cc (if isReg then some f else none) none = .ok (.go da sa c))
    {body : RegAddr → View → Except Refusal View} {v : View} (hb : body da (s.viewOf c) = .ok v) :
    s.fieldInstr cc isReg f body = .next (s.withView v) := by
  rw [State.fieldInstr_eq hf]
  exact State.instr_next hr hb

theorem State.fieldInstr_refused {s : State} {cc : CCCC} {isReg : Bool} {f : BitVec 9} {da sa : RegAddr} {c : Cog}
    (hf : fieldOk isReg f) (hr : s.cog.resolve cc (if isReg then some f else none) none = .ok (.go da sa c))
    {body : RegAddr → View → Except Refusal View} {r : Refusal} (hb : body da (s.viewOf c) = .error r) :
    s.fieldInstr cc isReg f body = .refused r := by
  rw [State.fieldInstr_eq hf]
  exact State.instr_refused hr hb

/-! ## Results -/

/-- A result that may be written: the cog has the registers and the hazard record of some `p`, and any cog with these
registers has the result written. -/
theorem Cog.result_regs {c : Cog} (hc : c.ok = true) {wr : Bool} {da : RegAddr} (v : Word)
    (ha : wr = true → plainReg da) :
    ∃ p : Cog, c.result wr da v = .ok { c.withRegs p with haz := p.haz }
      ∧ ∀ t : Cog, t.ram = p.ram → t.quad = p.quad → t.qbase = c.qbase → t.lastStored = p.lastStored →
        c.WroteIf t wr da v := by
  obtain ⟨g, hg, hwrote, hframe⟩ := Cog.result_spec (Cog.ok_ram hc) v ha
  refine ⟨g, hg.trans (congrArg _ hframe), fun t hram hquad hbase hlast => hwrote t hram hquad (hbase.trans ?_) hlast⟩
  rw [hframe]

/-- The same for a write. -/
theorem Cog.write_regs {c : Cog} (hc : c.ok = true) {da : RegAddr} (v : Word) (ha : plainReg da) :
    ∃ p : Cog, c.write da v = .ok { c.withRegs p with haz := p.haz }
      ∧ ∀ t : Cog, t.ram = p.ram → t.quad = p.quad → t.qbase = c.qbase → t.lastStored = p.lastStored →
        c.Wrote t da v :=
  Cog.result_regs hc (wr := true) v fun _ => ha

/-! ## Ends -/

/-- An instruction of the resolved cog `c` that ends as others do: nothing else has changed, and the cog at the end has
the next address and the pending branch that follow those of `c`. -/
theorem State.finishes_resolved {s : State} {v : View} {cc : CCCC} {d x : Option RegAddr} {da sa : RegAddr} {c g : Cog}
    (hr : s.cog.resolve cc d x = .ok (.go da sa c)) (hh : v.hub = s.hub) (hg : g.withPipe v.cog = v.cog)
    (ha : (v.cog.pc, v.cog.pend) = c.advance) : s.Finishes (s.withView v) g :=
  State.finishes_withView hh hg (ha.trans (Cog.resolve_advance hr))

end Sys2Proof.Machine
end

section
/-! PROOFS. The machine: what a step runs, what a fetch reads, the turns of idle and loading cogs, the passing of time. -/

-- The check compiles one text under a memory limit that bounds the threads: elaborate in order.
set_option Elab.async false

namespace Sys2Proof.Machine

/-! ## A step of a running cog -/

theorem step_running {s : State} (hrun : s.cog.run = .running) {w : Word} (hf : s.cog.fetch = .ok w) :
    step s = match s.execWord w with
      | .next t => .next t.elapse
      | .fault f => .fault f
      | .refused r => .refused r := by
  unfold step
  simp only [hrun, hf] <;> rfl

theorem step_fetch_refused {s : State} (hrun : s.cog.run = .running) {r : Refusal} (hf : s.cog.fetch = .error r) :
    step s = .refused r := by
  simp only [step, hrun, hf]

theorem isIndAddr_eq_false {a : RegAddr} : isIndAddr a = false ↔ a ≠ 0x1F6 ∧ a ≠ 0x1F7 := by
  simp [isIndAddr, indaAddr, indbAddr]

/-- The words that the model passes over are those whose CCCC is a condition that never holds. -/
theorem neverExecutes_iff (w : Word) : neverExecutes w = true ↔ Statement.never w := by
  simp [neverExecutes, Statement.never, Fields.ofWord, isIndAddr_eq_false, and_assoc]

/-- An instruction that is passed over changes nothing but the next address. -/
theorem State.finishes_skip (s : State) : s.Finishes (s.withCog s.cog.skip) s.cog :=
  State.finishes_withCog rfl rfl

/-- Settles O1: by the outcome of the fetch, then of the decoder, then of the test for words that never execute. -/
theorem stepRunsDecoded : Obligations.StepRunsDecoded := by
  unfold Obligations.StepRunsDecoded
  intro s hrun
  refine ⟨fun w i hf hd => ?listed, fun r hf => step_fetch_refused hrun hf, fun w why hf hd => ?unlisted⟩
  case listed =>
    have hw : s.execWord w = exec i s := by simp only [State.execWord, hd]
    rw [step_running hrun hf, hw] <;> rfl
  case unlisted =>
    have hw : s.execWord w = s.unlisted w why := by simp only [State.execWord, hd]
    rw [step_running hrun hf, hw, ← neverExecutes_iff]
    refine ⟨fun h => ⟨_, ?_, s.finishes_skip⟩, fun h => ?_⟩
    · simp only [State.unlisted, h, if_true]
    · simp only [State.unlisted, h]
      rfl

/-! ## The fetch and its record -/

/-- The record that an instruction of one clock leaves. -/
theorem onRecord_retire {h : Hazard} {w : Option RegAddr} (hw : h.fresh = w) : Statement.onRecord h (h.retire 1) w :=
  ⟨by rw [Hazard.retire_recent, hw], rfl, rfl, rfl⟩

theorem execMov_next {cc : CCCC} {d : RegAddr} {x : RegOrImm} {s : State} {da sa : RegAddr} {c g : Cog} {v : Word}
    (hr : s.cog.resolve cc (some d) x.regField = .ok (.go da sa c)) (hv : c.operand x sa = .ok v)
    (hw : c.write da v = .ok g) :
    execMov cc d x s = .next (s.withView (((s.viewOf c).withCog g).retire 1)) :=
  State.instr_next hr (by simp only [State.viewOf_cog, hv, hw, Except.ok_bind]; rfl)

theorem Cog.resolve_haz {c g : Cog} {cc : CCCC} {d x : Option RegAddr} {da sa : RegAddr}
    (h : c.resolve cc d x = .ok (.go da sa g)) : g.haz = c.haz := by
  rw [Cog.resolve_frame h]

/-- A fetch reads or is refused by the first of the three hazards that is there. -/
theorem Cog.fetch_eq (c : Cog) :
    c.fetch = if 0x1F6 ≤ c.pc.toNat then .error .specialFetch
      else if some c.pc ∈ c.haz.recent then .error .staleFetch
      else if c.quadAt c.pc ≠ none ∧ ¬ (c.haz.fillReady = true ∧ 4 ≤ c.haz.mapAge) then .error .quadFetchTooSoon
      else .ok (c.x c.pc) := by
  have hquad : ((c.quadAt c.pc).isSome && !c.haz.fetchable) = true
      ↔ c.quadAt c.pc ≠ none ∧ ¬ (c.haz.fillReady = true ∧ 4 ≤ c.haz.mapAge) := by
    cases hf : c.haz.fillReady <;> simp [Hazard.fetchable, hf, Option.isSome_iff_ne_none]
  simp only [Cog.fetch, specialBase, List.contains_iff_mem, hquad]

theorem execCachex_next {cc : CCCC} {s : State} {da sa : RegAddr} {c : Cog}
    (hr : s.cog.resolve cc none none = .ok (.go da sa c)) :
    execCachex cc s = .next (s.withView (((s.viewOf c).withCog { c with cacheValid := false }).retire 1)) :=
  State.instr_next hr rfl

/-- A taken normal branch whose CCCC is "always" is not refused for what lies ahead (R544). -/
theorem execJmpN_always_next {wz wc : Bool} {n : BitVec 9} {s : State} (hp : s.cog.pend = none) :
    execJmpN wz wc 0b1111 n s = .next (s.withView ((s.viewOf s.cog).withCog
      (((s.cog.flagC wc false).flagZ wz false).branchTo n))) := by
  unfold execJmpN
  rw [State.nrInstr_eq rfl, State.branchInstr_eq hp]
  refine State.instr_next s.cog.resolve_always ?_
  rw [View.jmpImm, View.branch_cases]
  rfl

/-- Settles O2: the cases of a fetch, then the record that MOV, CACHEX and JMP leave. -/
theorem fetchReadsPc : Obligations.FetchReadsPc := by
  unfold Obligations.FetchReadsPc
  refine ⟨fun c => ?fetch, fun cc d x s da sa c v hr ha hv => ?mov, fun cc s hfresh hcc => ?cachex,
    fun wz wc n s hp => ?jmp⟩
  case fetch =>
    rw [Cog.fetch_eq]
    refine ⟨fun h1 h2 h3 => ?_, fun h1 => if_pos h1, fun h1 h2 => ?_, fun h1 h2 h3 h4 => ?_⟩
    · rw [if_neg (Nat.not_le.mpr h1), if_neg h2, if_neg (by tauto)]
    · rw [if_neg (Nat.not_le.mpr h1), if_pos h2]
    · rw [if_neg (Nat.not_le.mpr h1), if_neg h2, if_pos ⟨h3, h4⟩]
  case mov =>
    refine ⟨_, execMov_next hr hv (Cog.write_ok c v ha), ?_⟩
    rw [State.cog_withView, ← Cog.resolve_haz hr]
    exact onRecord_retire (h := { c.haz with fresh := some da }) rfl
  case cachex =>
    have hr : s.cog.resolve cc none none = .ok (.go 0 0 s.cog) := by
      rw [Cog.resolve_direct rfl rfl, if_pos hcc]; rfl
    refine ⟨_, execCachex_next hr, ?_⟩
    rw [State.cog_withView]
    exact onRecord_retire hfresh
  case jmp =>
    refine ⟨_, execJmpN_always_next hp, ?_⟩
    rw [State.cog_withView]
    rfl

/-! ## Idle and loading cogs -/

/-- After the last of the 504 longs, $1F7, the cog runs. -/
theorem Cog.loadLong_run {c : Cog} {h : Hub} {base : HubAddr} {k : Nat} (hk : k < Config.loadLongs) :
    (c.loadLong h base k).run = if k = 0x1F7 then .running else .loading base (k + 1) := by
  have hlast : k + 1 < Config.loadLongs ↔ k ≠ 0x1F7 := by
    unfold Config.loadLongs at hk ⊢
    omega
  simp only [Cog.loadLong, hlast, ite_not]

/-- Settles O3: the turn of a loading cog writes one cell of a canonical register RAM. -/
theorem idleAndLoadingTurns : Obligations.IdleAndLoadingTurns := by
  unfold Obligations.IdleAndLoadingTurns
  refine ⟨fun s hrun => by simp only [step, hrun], fun s base k hs hrun => ?_⟩
  obtain ⟨-, -, -, hload⟩ := Cog.ok_iff.mp (State.cog_ok hs)
  simp only [Cog.loadOk, hrun, Bool.and_eq_true, decide_eq_true_eq] at hload
  refine ⟨s.withCog (s.cog.loadLong s.hub base k), by simp only [step, hrun], rfl, ?_⟩
  rw [State.cog_withCog, Cog.loadLong_run hload.2]
  refine ⟨fun n => ?_, rfl, rfl, ?_⟩
  · exact Cells.read_write (Cog.ok_ram (State.cog_ok hs)) k n _
  · rw [← Cog.loadLong_run (c := s.cog) (h := s.hub) (base := base) hload.2]
    rfl

/-! ## Time -/

/-- A cog that does not run stands still. -/
theorem Cog.pass_of_not_running {c : Cog} (h : c.run ≠ .running) (num n t : Nat) : c.pass num n t = c := by
  unfold Cog.pass
  split
  · contradiction
  · rfl
  · rfl

/-- Settles O4: what moving the units may change, from `Cog.Near`. -/
theorem timeMovesOnlyUnits : Obligations.TimeMovesOnlyUnits := by
  unfold Obligations.TimeMovesOnlyUnits
  refine fun s => ⟨⟨Nat.le_add_right 1 _, rfl⟩, fun n => ?_⟩
  rw [State.elapse_cogs]
  obtain ⟨hframe, -, hquad, hstack, -⟩ := Cog.near_pass s.cogs[n.val] n.val s.clocksPassed s.hub.clock
  exact ⟨fun h => Cog.pass_of_not_running h _ _ _, hframe, hquad, hstack⟩

end Sys2Proof.Machine
end

section
/-! PROOFS. Conditions, indirect operands, and what is refused or skipped before an instruction's body runs. -/

-- The check compiles one text under a memory limit that bounds the threads: elaborate in order.
set_option Elab.async false

namespace Sys2Proof.Machine

/-! ## Conditions -/

/-- Bit `2*C + Z` of CCCC is the condition that CCCC stands for (R115, R116). -/
theorem condHolds_eq_condition (cc : CCCC) (z c : Bool) : condHolds cc z c = Statement.condition cc z c := by
  revert cc z c
  decide

/-- Settles O11: without an indirect operand CCCC is the condition. -/
theorem conditionTable : Obligations.ConditionTable := by
  unfold Obligations.ConditionTable
  intro c cc d x hd hx
  rw [Cog.resolve_direct hd hx, condHolds_eq_condition]

theorem State.branchInstr_skip {s : State} {cc : CCCC} {d x : Option RegAddr}
    (h : s.cog.resolve cc d x = .ok .skip) (hp : s.cog.pend = none)
    (body : RegAddr → RegAddr → View → Except Refusal View) :
    s.branchInstr cc d x body = .next (s.withCog s.cog.skip) := by
  rw [State.branchInstr_eq hp, State.instr_skip h]

theorem State.nrInstr_skip {s : State} {cc : CCCC} {d : BitVec 9} {x : Option RegAddr}
    (h : s.cog.resolve cc none x = .ok .skip) (hp : s.cog.pend = none) (hd : isIndAddr d = false)
    (body : RegAddr → View → Except Refusal View) : s.nrInstr cc d x body = .next (s.withCog s.cog.skip) := by
  rw [State.nrInstr_eq hd, State.branchInstr_skip h hp]

/-- A field that may name a register is no collision when it does, or is neither $1F6 nor $1F7. -/
theorem fieldOk_of_collides {sel : Bool} {f : BitVec 9} (h : (sel && isIndAddr f) = false) : fieldOk (!sel) f := by
  intro hsel
  cases sel with
  | false => cases hsel
  | true => exact h

theorem State.fieldInstr_skip {s : State} {cc : CCCC} {sel : Bool} {f : BitVec 9}
    (h : s.cog.resolve cc (if !sel then some f else none) none = .ok .skip) (hf : (sel && isIndAddr f) = false)
    (body : RegAddr → View → Except Refusal View) : s.fieldInstr cc (!sel) f body = .next (s.withCog s.cog.skip) := by
  rw [State.fieldInstr_eq (fieldOk_of_collides hf), State.instr_skip h]

/-- An instruction whose operands resolve to a false condition is passed over. -/
theorem exec_skip {i : Instr} {s : State}
    (h : s.cog.resolve (instrFields i).1 (instrFields i).2.1 (instrFields i).2.2 = .ok .skip)
    (hc : Statement.collides i = false) (hp : s.cog.pend = none ∨ Statement.isBranch i = false) :
    exec i s = .next (s.withCog s.cog.skip) := by
  cases i
  all_goals dsimp only [instrFields] at h; dsimp only [exec]
  case wrbyte | rdbyte | rdbytec | wrword | rdword | rdwordc | wrlong | rdlong | rdlongc | getptra | getptrb | cachex
      | gettops | cogid | locknew | lockret | lockset | lockclr | setinda | setindb | setinds | fixinda | fixindb
      | fixinds | mov | add | cmpcnt | subcnt | passcnt | getcnt | waitcnt | waitpeq | waitpne =>
    exact State.instr_skip h _
  case coginit | clkset | cogstop => exact State.chipInstr_skip h _
  case wrquad cc x | rdquad cc x | rdquadc cc x =>
    rw [← HubOp.regField_eq] at h
    exact State.fieldInstr_skip h hc _
  case setptra cc x | setptrb cc x | addptra cc x | addptrb cc x | subptra cc x | subptrb cc x | setquad cc x
      | setquaz cc x =>
    rw [← RegOrImm.regField_eq] at h
    exact State.fieldInstr_skip h hc _
  all_goals replace hp := hp.resolve_right (by intro hb; cases hb)
  case jmpretSNR | jmpretNNR | jmpretdSNR | jmpretdNNR => exact State.nrInstr_skip h hp hc _
  case jmpS | jmpN | ret | jmpdS | jmpdN | retd => exact State.nrInstr_skip h hp rfl _
  all_goals exact State.branchInstr_skip h hp _

/-- Settles O12: what is passed over changes the next address alone. -/
theorem falseConditionSkips : Obligations.FalseConditionSkips := by
  unfold Obligations.FalseConditionSkips
  intro i s hd hx hcc hc hp
  have hr : s.cog.resolve (instrFields i).1 (instrFields i).2.1 (instrFields i).2.2 = .ok .skip := by
    rw [Cog.resolve_direct hd hx, hcc]
    rfl
  exact ⟨_, exec_skip hr hc hp, s.finishes_skip⟩

/-! ## Fields that collide -/

theorem State.fieldInstr_collides {s : State} {sel : Bool} {f : BitVec 9} (h : (sel && isIndAddr f) = true) (cc : CCCC)
    (body : RegAddr → View → Except Refusal View) :
    s.fieldInstr cc (!sel) f body = .refused .indirectCollision := by
  unfold State.fieldInstr
  rw [Bool.not_not, if_pos h]

theorem State.nrInstr_collides {s : State} {d : BitVec 9} (h : isIndAddr d = true) (cc : CCCC) (x : Option RegAddr)
    (body : RegAddr → View → Except Refusal View) : s.nrInstr cc d x body = .refused .indirectCollision :=
  if_pos h

/-- Settles O13: the two frames whose D field may be no register look at it first. -/
theorem fieldCollisionsRefused : Obligations.FieldCollisionsRefused := by
  unfold Obligations.FieldCollisionsRefused
  intro i s h
  cases i
  case wrquad | rdquad | rdquadc | setptra | setptrb | addptra | addptrb | subptra | subptrb | setquad | setquaz =>
    exact State.fieldInstr_collides h _ _
  case jmpretSNR | jmpretNNR | jmpretdSNR | jmpretdNNR => exact State.nrInstr_collides h _ _ _
  all_goals cases h

/-! ## Indirect pointers -/

/-- Settles O14: the equality of pointers is that of their numbers; stepping is addition modulo 512. -/
theorem pointerStepping : Obligations.PointerStepping := by
  unfold Obligations.PointerStepping
  intro i
  constructor
  · simp only [Ind.inc, ← BitVec.toNat_inj]
    split <;> simp [BitVec.toNat_add]
  · simp only [Ind.dec, ← BitVec.toNat_inj]
    split <;> simp [BitVec.toNat_sub]
    omega

/-- An indirect operand is refused for the reasons the statements list, or addresses the register they name. -/
theorem Ind.addr_eq (i : Ind) (form : BitVec 2) :
    i.addr form = match Statement.indRefused i form with
      | some e => .error e
      | none => .ok (Statement.indAddr i form) := by
  have haddr : (if form = 3 then i.inc else i.ptr) = Statement.indAddr i form := rfl
  simp only [Ind.addr, Statement.indRefused, haddr, Bool.not_eq_true', specialBase]
  split_ifs <;> rfl

theorem Cog.fieldAddr_refused {c : Cog} {d : Option RegAddr} {r : IndReg} {form : BitVec 2} {e : Refusal}
    (hd : d.bind indReg = some r) (he : Statement.indRefused (c.ind r) form = some e) :
    c.fieldAddr (d.getD 0) form = .error e := by
  obtain ⟨f, rfl, hf⟩ := Option.bind_eq_some_iff.mp hd
  simp only [Cog.fieldAddr, Option.getD_some, hf, Ind.addr_eq, he]

theorem Cog.fieldAddr_indirect {c : Cog} {d : Option RegAddr} {r : IndReg} {form : BitVec 2}
    (hd : d.bind indReg = some r) (he : Statement.indRefused (c.ind r) form = none) :
    c.fieldAddr (d.getD 0) form = .ok (Statement.indAddr (c.ind r) form) := by
  obtain ⟨f, rfl, hf⟩ := Option.bind_eq_some_iff.mp hd
  simp only [Cog.fieldAddr, Option.getD_some, hf, Ind.addr_eq, he]

theorem Cog.fieldAddr_direct {c : Cog} {d : Option RegAddr} {form : BitVec 2} (hd : d.bind indReg = none) :
    c.fieldAddr (d.getD 0) form = .ok (d.getD 0) := by
  have hf : indReg (d.getD 0) = none := by
    cases d with
    | none => rfl
    | some f => exact hd
  simp only [Cog.fieldAddr, hf]

/-- An operand that is not refused has an address. -/
theorem Cog.fieldAddr_ok {c : Cog} {d : Option RegAddr} {form : BitVec 2}
    (h : ∀ r, d.bind indReg = some r → Statement.indRefused (c.ind r) form = none) :
    ∃ a, c.fieldAddr (d.getD 0) form = .ok a
      ∧ (∀ r, d.bind indReg = some r → a = Statement.indAddr (c.ind r) form) ∧ (d.bind indReg = none → a = d.getD 0) := by
  cases hd : d.bind indReg with
  | none => exact ⟨_, Cog.fieldAddr_direct hd, fun _ hr => (nomatch hr), fun _ => rfl⟩
  | some r =>
    refine ⟨_, Cog.fieldAddr_indirect hd (h r hd), fun q hq => ?_, fun hn => (nomatch hn)⟩
    cases hq
    rfl

/-- With an indirect operand an instruction executes at the addresses of its fields, or is refused. -/
theorem Cog.resolve_indirect {c : Cog} {cc : CCCC} {d x : Option RegAddr}
    (h : d.bind indReg ≠ none ∨ x.bind indReg ≠ none) :
    c.resolve cc d x = (do
      let da ← c.fieldAddr (d.getD 0) (formD cc)
      let sa ← c.fieldAddr (x.getD 0) (formS cc)
      pure (.go da sa (c.stepPointers cc (d.bind indReg) (x.bind indReg)))) := by
  unfold Cog.resolve
  split
  · simp_all
  · rfl

/-- What a form makes of a pointer. -/
theorem Ind.stepped_ptr (i : Ind) (form : BitVec 2) :
    (i.stepped form).ptr = match form with
      | 0 => i.ptr
      | 2 => i.dec
      | _ => i.inc := by
  have hform : form = 0 ∨ form = 1 ∨ form = 2 ∨ form = 3 := by revert form; decide
  rcases hform with rfl | rfl | rfl | rfl <;> rfl

/-- The pointers after an instruction: each is stepped by the forms of the operands that go through it (R265). -/
theorem Cog.ind_stepPointers (c : Cog) (cc : CCCC) (d x : Option IndReg) (r : IndReg) :
    (c.stepPointers cc d x).ind r = (c.ind r).stepped (stepForm r cc d x) := by
  cases r <;> rfl

/-- Settles O15: the addresses of the two fields, and the pointers stepped by their forms. -/
theorem indirectOperands : Obligations.IndirectOperands := by
  unfold Obligations.IndirectOperands
  intro c cc d x h
  rw [Cog.resolve_indirect h]
  refine ⟨fun hskip => ?_, fun hd hx => ?_⟩
  · obtain ⟨da, -, hskip⟩ := Except.bind_ok hskip
    obtain ⟨sa, -, hskip⟩ := Except.bind_ok hskip
    cases hskip
  · obtain ⟨da, hda, hdr, hdn⟩ := Cog.fieldAddr_ok hd
    obtain ⟨sa, hsa, hsr, hsn⟩ := Cog.fieldAddr_ok hx
    refine ⟨da, sa, _, by rw [hda, hsa]; rfl, hdr, hdn, hsr, hsn, rfl, fun r => ?_⟩
    rw [Cog.ind_stepPointers, Ind.stepped_ptr]
    rfl

/-- An instruction that always executes and sets indirect registers ends with the view in which they are set. -/
theorem State.instr_setInds_next (s : State) (a b : View → Option Ind) :
    s.instr 0b1111 none none (fun _ _ v => .ok (v.setInds (a v) (b v)))
      = .next (s.withView (s.view.setInds (a s.view) (b s.view))) :=
  State.instr_next s.cog.resolve_always rfl

/-- Resolving leaves the ages of the pointers. -/
theorem Cog.resolve_age {c g : Cog} {cc : CCCC} {d x : Option RegAddr} {da sa : RegAddr}
    (h : c.resolve cc d x = .ok (.go da sa g)) : g.inda.age = c.inda.age ∧ g.indb.age = c.indb.age := by
  rw [Cog.resolve_frame h]
  exact ⟨rfl, rfl⟩

/-- Settles O16: the first refused field refuses the instruction; the ages are those the record of each instruction
gives. -/
theorem indirectRefusals : Obligations.IndirectRefusals := by
  unfold Obligations.IndirectRefusals
  refine ⟨fun c cc d x r e => ⟨fun hd he => ?_, fun hq hx he => ?_⟩, fun s => ⟨fun a => ?_, fun b => ?_, fun a b => ?_,
    fun m n => ?_, fun m n => ?_, fun m n => ?_, fun cc d x da sa c v hr ha hv => ?_⟩⟩
  · rw [Cog.resolve_indirect (.inl (by simp [hd])), Cog.fieldAddr_refused hd he]
    rfl
  · obtain ⟨da, hda, -, -⟩ := Cog.fieldAddr_ok hq
    rw [Cog.resolve_indirect (.inr (by simp [hx])), hda, Cog.fieldAddr_refused hx he]
    rfl
  · refine ⟨_, s.instr_setInds_next (fun v => some (v.cog.inda.set a)) fun _ => none, ?_⟩
    rw [State.cog_withView]
    exact ⟨rfl, rfl⟩
  · refine ⟨_, s.instr_setInds_next (fun _ => none) fun v => some (v.cog.indb.set b), ?_⟩
    rw [State.cog_withView]
    exact ⟨rfl, rfl⟩
  · refine ⟨_, s.instr_setInds_next (fun v => some (v.cog.inda.set a)) fun v => some (v.cog.indb.set b), ?_⟩
    rw [State.cog_withView]
    exact ⟨rfl, rfl⟩
  · refine ⟨_, s.instr_setInds_next (fun _ => some (.fix m n)) fun _ => none, ?_⟩
    rw [State.cog_withView]
    exact ⟨rfl, rfl⟩
  · refine ⟨_, s.instr_setInds_next (fun _ => none) fun _ => some (.fix m n), ?_⟩
    rw [State.cog_withView]
    exact ⟨rfl, rfl⟩
  · refine ⟨_, s.instr_setInds_next (fun _ => some (.fix m n)) fun _ => some (.fix m n), ?_⟩
    rw [State.cog_withView]
    exact ⟨rfl, rfl⟩
  · refine ⟨_, execMov_next hr hv (Cog.write_ok c v ha), ?_⟩
    rw [State.cog_withView, ← (Cog.resolve_age hr).1, ← (Cog.resolve_age hr).2]
    exact ⟨rfl, rfl⟩

end Sys2Proof.Machine
end

section
/-! PROOFS. PTR expressions, register reads and writes through the QUAD overlay, and the frames of QUAD fills. -/

-- The check compiles one text under a memory limit that bounds the threads: elaborate in order.
set_option Elab.async false

namespace Sys2Proof.Machine

/-! ## PTR expressions -/

/-- The sum of a PTR expression is that of the numbers, modulo 2^17 (R152, D27). -/
theorem Cog.ptrSum_toNat (c : Cog) (e : PtrExpr) (scale : Nat) :
    (c.ptrSum e scale).toNat = ((((c.ptr e.useB).toNat : Int) + e.index.toInt * scale) % 2 ^ 17).toNat := by
  have hsum : c.ptrSum e scale = BitVec.ofInt 17 ((c.ptr e.useB).toNat + e.index.toInt * scale) := by
    rw [BitVec.ofInt_add, BitVec.ofInt_mul, BitVec.ofInt_natCast, BitVec.ofInt_natCast, BitVec.ofNat_toNat,
      BitVec.setWidth_eq]
    rfl
  rw [hsum, BitVec.toNat_ofInt]
  rfl

@[simp] theorem Cog.ptr_setPtr (c : Cog) (useB : Bool) (a : HubAddr) : (c.setPtr useB a).ptr useB = a := by
  cases useB <;> rfl

@[simp] theorem Cog.ptr_setPtr_other (c : Cog) (useB : Bool) (a : HubAddr) :
    (c.setPtr useB a).ptr (!useB) = c.ptr (!useB) := by
  cases useB <;> rfl

/-- The pointer that a PTR expression names, after it. -/
theorem Cog.ptr_ptrStep (c : Cog) (e : PtrExpr) (scale : Nat) :
    (c.ptrStep e scale).ptr e.useB = if e.update then c.ptrSum e scale else c.ptr e.useB := by
  unfold Cog.ptrStep
  split
  · exact c.ptr_setPtr _ _
  · rfl

/-- The other pointer, after a PTR expression. -/
theorem Cog.ptr_ptrStep_other (c : Cog) (e : PtrExpr) (scale : Nat) :
    (c.ptrStep e scale).ptr (!e.useB) = c.ptr (!e.useB) := by
  unfold Cog.ptrStep
  split
  · exact c.ptr_setPtr_other _ _
  · rfl

theorem Cog.ptr_not (c : Cog) (useB : Bool) : c.ptr (!useB) = if useB then c.ptra else c.ptrb := by
  cases useB <;> rfl

/-- Settles O17: the address and the pointers are those of `ptrAddr` and `ptrStep`, whose sum is that of the numbers. -/
theorem ptrExpressions : Obligations.PtrExpressions := by
  unfold Obligations.PtrExpressions
  refine ⟨fun c e sa scale _ => ?ptr, fun c f sa scale => ⟨fun v hv => ?reg, fun e he => ?refused⟩⟩
  case ptr =>
    refine ⟨c.ptrAddr e scale, c.ptrStep e scale, rfl, ?_, ?_, ?_, Cog.hubOperand_frame (x := .ptr e) (sa := sa) rfl⟩
    · unfold Cog.ptrAddr
      rw [apply_ite BitVec.toNat, Cog.ptrSum_toNat]
      rfl
    · refine (congrArg BitVec.toNat (c.ptr_ptrStep e scale)).trans ?_
      rw [apply_ite BitVec.toNat, Cog.ptrSum_toNat]
      rfl
    · rw [← Cog.ptr_not, ← Cog.ptr_not, Cog.ptr_ptrStep_other]
  case reg =>
    refine ⟨hubAddr v, ?_, ?_⟩
    · simp only [Cog.hubOperand, hv, Except.ok_map]
    · simp [hubAddr]
  case refused => simp only [Cog.hubOperand, he, Except.error_map]

/-! ## Reads -/

/-- QUAD k lies over register `qbase + k` (R30). -/
theorem Cog.quadAt_eq_some {c : Cog} {a : RegAddr} {k : Fin 4} :
    c.quadAt a = some k ↔ c.qbase ≠ 0x1FF ∧ a.toNat = c.qbase.toNat + k.val := by
  unfold Cog.quadAt
  have hk := k.isLt
  split_ifs <;> simp_all [Fin.ext_iff] <;> omega

theorem Cog.x_of_none {c : Cog} {a : RegAddr} (h : c.quadAt a = none) : c.x a = Cells.read c.ram a.toNat := by
  simp only [Cog.x, h]

theorem Cog.x_of_some {c : Cog} {a : RegAddr} {k : Fin 4} (h : c.quadAt a = some k) : c.x a = c.quad[k.val] := by
  simp only [Cog.x, h]

/-- A read of a plain register gives the register, but for a mapped QUAD that is not ready yet. -/
theorem Cog.read_of_plain {c : Cog} {a : RegAddr} (h : plainReg a) :
    c.read a = if c.quadAt a ≠ none ∧ ¬ (3 ≤ c.haz.fillClocks ∧ 2 ≤ c.haz.mapAge) then .error .quadReadTooSoon
      else .ok (c.x a) := by
  have hquad : ((c.quadAt a).isSome && !c.haz.readable) = true
      ↔ c.quadAt a ≠ none ∧ ¬ (3 ≤ c.haz.fillClocks ∧ 2 ≤ c.haz.mapAge) := by
    simp only [Hazard.readable, Bool.and_eq_true, Option.isSome_iff_ne_none, Bool.not_eq_true', Bool.and_eq_false_iff,
      decide_eq_false_iff_not, not_and_or, ne_eq]
  simp only [Cog.read, Nat.not_le.mpr h, if_false, hquad]

theorem Cog.target_reg {c : Cog} {f a : RegAddr} {v : Word} (h : c.read a = .ok v) :
    c.target (.reg f) a = .ok (v.extractLsb' 0 9) := by
  simp only [Cog.target, h, Except.ok_map]

theorem Cog.target_refused {c : Cog} {f a : RegAddr} {e : Refusal} (h : c.read a = .error e) :
    c.target (.reg f) a = .error e := by
  simp only [Cog.target, h, Except.error_map]

/-! ## Fills and mappings of the QUADs -/

/-- RDQUAD ends with the QUADs filled. -/
theorem execRdquad_next {cc : CCCC} {x : HubOp} {s : State} {da sa : RegAddr} {c g : Cog} {a : HubAddr}
    (hf : fieldOk (!x.sel) x.field) (hr : s.cog.resolve cc x.regField none = .ok (.go da sa c))
    (hp : c.hubOperand x da 16 = .ok (a, g)) :
    execRdquad cc x s = .next (s.withView ((((s.viewOf c).withCog g).fillQuads a).endCached false 1)) := by
  rw [← HubOp.regField_eq] at hr
  refine State.fieldInstr_next hf hr ?_
  simp only [State.viewOf_cog, hp, Except.ok_bind]
  rfl

/-- A cached read of a resolved address ends with its value written. -/
theorem State.cachedLoad_next {wz : Bool} {cc : CCCC} {d : RegAddr} {x : HubOp} {s : State} {da sa : RegAddr}
    {c g p : Cog} {a : HubAddr} {scale : Nat} {value : Vector Word 4 → HubAddr → Word}
    (hr : s.cog.resolve cc (some d) x.regField = .ok (.go da sa c)) (hp : c.hubOperand x sa scale = .ok (a, g))
    (hw : (((s.viewOf c).withCog g).cacheLookup a).cog.write da
      (value (((s.viewOf c).withCog g).cacheLookup a).cog.quad a) = .ok p) :
    s.instr cc (some d) x.regField (fun da sa v => v.cachedLoad wz da x sa scale value) =
      .next (s.withView ((((((s.viewOf c).withCog g).cacheLookup a).withCog
        (p.flagZ wz (zeroFlag (value (((s.viewOf c).withCog g).cacheLookup a).cog.quad a)))).drawC).endCached
          (g.cacheHit a) 3)) :=
  State.instr_next hr (View.cachedLoad_eq hp hw)

theorem Cog.cacheHit_iff {c : Cog} {a : HubAddr} :
    c.cacheHit a = true ↔ c.cacheValid = true ∧ c.cacheTag = a.extractLsb' 4 13 := by
  simp [Cog.cacheHit, cacheTagOf]

/-- The spec's allowed QUAD bases, by number (R212, D25). -/
theorem quadBaseOk_iff {b : RegAddr} : quadBaseOk b = true ↔ b.toNat ≤ 0x1F2 ∨ b.toNat = 0x1FF := by
  simp [quadBaseOk, ← BitVec.toNat_inj]

theorem View.mapQuads_eq {v : View} {x : RegOrImm} {da : RegAddr} {d : Word} (hd : v.cog.operand x da = .ok d)
    (hb : quadBaseOk (d.extractLsb' 0 9) = true) (clear : Bool) :
    v.mapQuads x da clear = .ok (v.withCog ({ v.cog with
      qbase := d.extractLsb' 0 9, quad := if clear then Vector.replicate 4 0 else v.cog.quad }.retire 1).markMap) := by
  simp only [View.mapQuads, hd, Except.ok_bind, hb, if_true]
  rfl

theorem View.mapQuads_refused {v : View} {x : RegOrImm} {da : RegAddr} {d : Word} (hd : v.cog.operand x da = .ok d)
    (hb : quadBaseOk (d.extractLsb' 0 9) = false) (clear : Bool) : v.mapQuads x da clear = .error .quadBase := by
  simp only [View.mapQuads, hd, Except.ok_bind, hb]
  rfl

theorem execSetquad_next {cc : CCCC} {x : RegOrImm} {s : State} {da sa : RegAddr} {c : Cog} {d : Word}
    (hf : fieldOk (!x.sel) x.field) (hr : s.cog.resolve cc x.regField none = .ok (.go da sa c))
    (hd : c.operand x da = .ok d) (hb : quadBaseOk (d.extractLsb' 0 9) = true) :
    execSetquad cc x s = .next (s.withView ((s.viewOf c).withCog
      (({ c with qbase := d.extractLsb' 0 9 } : Cog).retire 1).markMap)) := by
  rw [← RegOrImm.regField_eq] at hr
  exact State.fieldInstr_next hf hr (View.mapQuads_eq (v := s.viewOf c) hd hb false)

/-- Settles O18: the overlay and the reads by their equations; a fill and a mapping mark the record. -/
theorem registerReads : Obligations.RegisterReads := by
  unfold Obligations.RegisterReads
  refine ⟨fun c a => ?reads, fun cc x s da sa c g a hf hr hp => ?rdquad,
    fun wz cc d x s da sa c g a hr ha hp hmiss => ?rdlongc, fun cc x s da sa c v hf hr hv hb => ?setquad⟩
  case reads =>
    refine ⟨fun k => Cog.quadAt_eq_some, Cog.x_of_none, fun k => Cog.x_of_some, fun h => if_pos h, fun h hn => ?_,
      fun h hn => ?_, fun f => rfl, fun f v => Cog.target_reg, fun f e => Cog.target_refused, fun n => ⟨?_, rfl⟩⟩
    · rw [Cog.read_of_plain h, if_neg fun hq => hq.1 hn]
    · simp only [Cog.read_of_plain h, hn, ne_eq, not_false_eq_true, true_and, ite_not]
    · simp only [Cog.operand, BitVec.ofNat_toNat]
  case rdquad =>
    refine ⟨_, execRdquad_next hf hr hp, ?_⟩
    rw [State.cog_withView]
    exact ⟨rfl, rfl⟩
  case rdlongc =>
    have hh : g.cacheHit a = false := by rwa [← Bool.not_eq_true, Cog.cacheHit_iff,
      show g.cacheValid = c.cacheValid by rw [Cog.hubOperand_frame hp],
      show g.cacheTag = c.cacheTag by rw [Cog.hubOperand_frame hp]]
    refine ⟨_, State.cachedLoad_next hr hp (Cog.write_ok _ _ ha), ?_⟩
    rw [State.cog_withView, hh]
    exact ⟨rfl, rfl⟩
  case setquad =>
    have hq : quadBaseOk (v.extractLsb' 0 9) = true := quadBaseOk_iff.mpr (.inl (by simpa using hb))
    refine ⟨_, execSetquad_next hf hr hv hq, ?_⟩
    rw [State.cog_withView]
    rfl

/-- Settles O19: a write is refused, or leaves the registers that `Wrote` names. -/
theorem registerWrites : Obligations.RegisterWrites := by
  unfold Obligations.RegisterWrites
  refine fun c a v hc => ⟨fun h => if_pos h, fun h => ⟨_, Cog.write_ok c v h, ?_⟩⟩
  exact Cog.Wrote.congr rfl rfl rfl rfl (Cog.ram_wf hc)

end Sys2Proof.Machine
end

section
/-! PROOFS. Hub memory: stores, loads, the read cache and the QUAD instructions (R155..R167). -/

-- The check compiles one text under a memory limit that bounds the threads: elaborate in order.
set_option Elab.async false

namespace Sys2Proof.Machine

theorem Cog.hubOperand_advance {c g : Cog} {x : HubOp} {sa : RegAddr} {scale : Nat} {a : HubAddr}
    (h : c.hubOperand x sa scale = .ok (a, g)) : g.advance = c.advance := by
  rw [Cog.hubOperand_frame h]
  exact Cog.advance_congr rfl rfl

theorem aligned_one (a : HubAddr) : aligned 1 a = a.toNat := by
  rw [aligned, Nat.div_one, Nat.mul_one]

/-! ## The bytes of a long and of the QUADs -/

theorem byteOf_eq_extractLsb' (v : Word) (j : Nat) : byteOf v j = v.extractLsb' (8 * j) 8 := by
  ext i hi
  simp [byteOf]

theorem longBytes_eq (v : Word) : longBytes v = [byteOf v 0, byteOf v 1, byteOf v 2, byteOf v 3] := by
  simp only [byteOf_eq_extractLsb']
  rfl

theorem wordBytes_eq (v : Word) : wordBytes (v.extractLsb' 0 16) = [byteOf v 0, byteOf v 1] := by
  simp only [byteOf_eq_extractLsb', wordBytes, BitVec.extractLsb'_extractLsb'_of_le (show 0 + 8 ≤ 16 by decide),
    BitVec.extractLsb'_extractLsb'_of_le (show 8 + 8 ≤ 16 by decide)]

/-- Byte `j` of the sixteen bytes of the QUADs is byte `j mod 4` of QUAD `j / 4` (R73, R74). -/
theorem quadBytes_getD (q : Vector Word 4) {j : Nat} (hj : j < 16) :
    (quadBytes q).getD j 0 = byteOf (q[j / 4 % 4]'(Nat.mod_lt _ (by decide))) (j % 4) := by
  simp only [quadBytes, longBytes_eq]
  interval_cases j <;> rfl

/-! ## Stores -/

/-- An instruction that stores the bytes `l` in hub memory stores byte `j` of them as `v j`. -/
theorem State.stores_resolved {s : State} {cc : CCCC} {d x : Option RegAddr} {da sa : RegAddr} {c g : Cog}
    (hs : s.ok = true) (hr : s.cog.resolve cc d x = .ok (.go da sa c)) (hg : g.advance = c.advance) {start : Nat}
    {l : List Byte} (hl : start + l.length ≤ Config.hubBytes) {v : Nat → Byte}
    (hv : ∀ j, j < l.length → l.getD j 0 = v j) :
    s.Stores (s.withView { s.viewOf c with hub := s.hub.setBytes start l, cog := g.retire 1 }) g start l.length v := by
  refine ⟨State.endsAs_withView (Hub.setBytes_frame _ _ _) rfl, State.goesOn_of_advance ?_, fun b => ?_⟩
  · rw [State.cog_withView]
    exact hg.trans (Cog.resolve_advance hr)
  · refine (Hub.byte_setBytes (State.mem_ok hs) hl b).trans ?_
    split_ifs with hb
    · exact hv _ (by omega)
    · rfl

/-- A hub write of `n` bytes of D. -/
theorem State.hubStore_stores {s : State} {cc : CCCC} {d : RegAddr} {x : HubOp} {da sa : RegAddr} {c g : Cog} {v : Word}
    {a : HubAddr} {n : Nat} {bytes : Word → List Byte} (hs : s.ok = true)
    (hr : s.cog.resolve cc (some d) x.regField = .ok (.go da sa c)) (hd : c.read da = .ok v)
    (hp : c.hubOperand x sa n = .ok (a, g)) (hn : 131072 % n = 0) (hl : (bytes v).length = n)
    (hv : ∀ j, j < (bytes v).length → (bytes v).getD j 0 = byteOf v j) :
    ∃ t, s.instr cc (some d) x.regField (fun da sa v => v.hubStore da x sa n bytes) = .next t
      ∧ s.Stores t g (aligned n a) n (byteOf v) := by
  have hin : aligned n a + (bytes v).length ≤ Config.hubBytes := hl ▸ aligned_add_le hn a
  refine ⟨_, State.instr_next hr (View.hubStore_eq (v := s.viewOf c) hd hp bytes), ?_⟩
  have hstores := State.stores_resolved hs hr (Cog.hubOperand_advance hp) hin hv
  rw [hl] at hstores
  exact hstores

/-- Settles O20: the bytes that each width stores, lowest first. -/
theorem hubWritesStore : Obligations.HubWritesStore := by
  unfold Obligations.HubWritesStore
  intro cc d x s da sa c g v a hs hr hd
  refine ⟨fun hp => ?byte, fun hp => ?word, fun hp => ?long⟩
  case byte =>
    have hbyte : [v.extractLsb' 0 8] = [byteOf v 0] := by rw [byteOf_eq_extractLsb']
    obtain ⟨t, ht, hstores⟩ := State.hubStore_stores (bytes := fun w => [w.extractLsb' 0 8]) hs hr hd hp (by decide) rfl
      (by simp [hbyte])
    rw [aligned_one] at hstores
    exact ⟨t, ht, hstores⟩
  case word =>
    refine State.hubStore_stores (bytes := fun w => wordBytes (w.extractLsb' 0 16)) hs hr hd hp (by decide) rfl ?_
    intro j hj
    replace hj : j < 2 := hj
    simp only [wordBytes_eq]
    interval_cases j <;> rfl
  case long =>
    refine State.hubStore_stores (bytes := longBytes) hs hr hd hp (by decide) rfl ?_
    intro j hj
    replace hj : j < 4 := hj
    simp only [longBytes_eq]
    interval_cases j <;> rfl

/-! ## Loads -/

/-- An uncached hub read leaves its value in D, and Z under WZ. -/
theorem State.hubLoad_loads {s : State} {wz : Bool} {cc : CCCC} {d : RegAddr} {x : HubOp} {da sa : RegAddr} {c g : Cog}
    {a : HubAddr} {n : Nat} {value : Hub → HubAddr → Word} {v : Word} (hs : s.ok = true)
    (hr : s.cog.resolve cc (some d) x.regField = .ok (.go da sa c)) (ha : plainReg da)
    (hp : c.hubOperand x sa n = .ok (a, g)) (hv : value s.hub a = v) :
    ∃ t, s.instr cc (some d) x.regField (fun da sa v => v.hubLoad wz da x sa n value) = .next t ∧ g.Wrote t.cog da v
      ∧ s.Finishes t { g.withRegs t.cog with z := if wz then v == 0 else g.z } := by
  subst hv
  have hg : g.ok = true := Cog.hubOperand_keeps (Cog.resolve_keeps (State.cog_ok hs) hr) hp
  obtain ⟨p, hw, hwrote⟩ := Cog.write_regs hg (value s.hub a) ha
  refine ⟨_, State.instr_next hr (View.hubLoad_eq (v := s.viewOf c) hp hw), ?_⟩
  rw [State.cog_withView]
  have hadv := Cog.hubOperand_advance hp
  exact ⟨hwrote _ rfl rfl rfl rfl, State.finishes_resolved hr rfl rfl hadv⟩

/-- Settles O21: the value of each width. -/
theorem hubReadsLoad : Obligations.HubReadsLoad := by
  unfold Obligations.HubReadsLoad
  refine fun wz cc d x s da sa c g a hs hr ha => ⟨fun hp => ?_, fun hp => State.hubLoad_loads hs hr ha hp rfl,
    fun hp => State.hubLoad_loads hs hr ha hp rfl⟩
  refine State.hubLoad_loads hs hr ha hp ?_
  rw [Hub.readByte, aligned_one]

/-! ## The read cache -/

/-- A lookup leaves the QUADs and the tag that the statements name. -/
theorem View.cacheLookup_eq (v : View) (a : HubAddr) :
    v.cacheLookup a = v.withCog (Statement.looked v.hub v.cog a) := by
  unfold View.cacheLookup Statement.looked
  by_cases h : v.cog.cacheHit a = true
  · rw [if_pos h, if_pos (Cog.cacheHit_iff.mp h)]
    rfl
  · rw [if_neg h, if_neg (mt Cog.cacheHit_iff.mpr h)]
    rfl

theorem Statement.looked_frame (h : Hub) (g : Cog) (a : HubAddr) : Statement.looked h g a = { g with
    quad := (Statement.looked h g a).quad, cacheValid := (Statement.looked h g a).cacheValid,
    cacheTag := (Statement.looked h g a).cacheTag } := by
  unfold Statement.looked
  split <;> rfl

theorem Statement.looked_ok {g : Cog} (hg : g.ok = true) (h : Hub) (a : HubAddr) :
    (Statement.looked h g a).ok = true := by
  rw [Statement.looked_frame]
  exact Cog.ok_congr hg rfl rfl rfl rfl rfl

theorem Statement.looked_advance {c g : Cog} (hg : g.advance = c.advance) (h : Hub) (a : HubAddr) :
    (Statement.looked h g a).advance = c.advance := by
  rw [Statement.looked_frame]
  exact hg

/-- A cached read leaves its value, of the QUADs after the lookup, in D, and Z under WZ. -/
theorem State.cachedLoad_loads {s : State} {wz : Bool} {cc : CCCC} {d : RegAddr} {x : HubOp} {da sa : RegAddr}
    {c g : Cog} {a : HubAddr} {n : Nat} {value : Vector Word 4 → HubAddr → Word} {v : Word} (hs : s.ok = true)
    (hr : s.cog.resolve cc (some d) x.regField = .ok (.go da sa c)) (ha : plainReg da)
    (hp : c.hubOperand x sa n = .ok (a, g)) (hv : value (Statement.looked s.hub g a).quad a = v) :
    ∃ t, s.instr cc (some d) x.regField (fun da sa v => v.cachedLoad wz da x sa n value) = .next t
      ∧ (Statement.looked s.hub g a).Wrote t.cog da v
      ∧ s.Finishes t { (Statement.looked s.hub g a).withRegs t.cog with z := if wz then v == 0 else g.z, c := t.cog.c } := by
  subst hv
  have hg : g.ok = true := Cog.hubOperand_keeps (Cog.resolve_keeps (State.cog_ok hs) hr) hp
  have hadv := Statement.looked_advance (Cog.hubOperand_advance hp) s.hub a
  have hz : (Statement.looked s.hub g a).z = g.z := by rw [Statement.looked_frame]
  obtain ⟨p, hw, hwrote⟩ := Cog.write_regs (Statement.looked_ok hg s.hub a)
    (value (Statement.looked s.hub g a).quad a) ha
  have hlook : ((s.viewOf c).withCog g).cacheLookup a = (s.viewOf c).withCog (Statement.looked s.hub g a) :=
    View.cacheLookup_eq _ a
  refine ⟨_, State.cachedLoad_next (p := { (Statement.looked s.hub g a).withRegs p with haz := p.haz }) hr hp
    (by rw [hlook]; exact hw), ?_⟩
  rw [State.cog_withView, hlook, ← hz]
  cases g.cacheHit a with
  | true => exact ⟨hwrote _ rfl rfl rfl rfl, State.finishes_resolved hr rfl rfl hadv⟩
  | false => exact ⟨hwrote _ rfl rfl rfl rfl, State.finishes_resolved hr rfl rfl hadv⟩

theorem quadLong_select {q : Vector Word 4} {a : HubAddr} {l : Word}
    (h : l = q[(a.extractLsb' 2 2).toNat]'(a.extractLsb' 2 2).isLt) : quadLong q a = l := h.symm

theorem quadWord_eq (q : Vector Word 4) (a : HubAddr) :
    quadWord q a = ((quadLong q a >>> (16 * (a.toNat / 2 % 2))).setWidth 16).setWidth 32 := by
  simp [quadWord, Nat.shiftRight_eq_div_pow]

theorem quadByte_eq (q : Vector Word 4) (a : HubAddr) :
    quadByte q a = ((quadLong q a >>> (8 * (a.toNat % 4))).setWidth 8).setWidth 32 := by
  simp [quadByte]

/-- Settles O22: the value that each width selects. -/
theorem cachedReadsLoad : Obligations.CachedReadsLoad := by
  unfold Obligations.CachedReadsLoad
  intro wz cc d x s da sa c g a q hs hr ha hq
  have hsel : quadLong (Statement.looked s.hub g a).quad a = q := quadLong_select hq
  refine ⟨fun hp => ?byte, fun hp => ?word, fun hp => ?long⟩
  case byte => exact State.cachedLoad_loads hs hr ha hp (by rw [quadByte_eq, hsel])
  case word => exact State.cachedLoad_loads hs hr ha hp (by rw [quadWord_eq, hsel])
  case long => exact State.cachedLoad_loads hs hr ha hp hsel

/-! ## A miss agrees with an uncached read -/

/-- The longs of a quad, in address order (R74). -/
theorem Hub.quad_getElem (h : Hub) (b : Nat) {i : Nat} (hi : i < 4) : (h.quad b)[i] = h.long (b + 4 * i) := by
  interval_cases i <;> rfl

/-- The bytes of a long, in address order (R73). -/
theorem Hub.byteOf_long (h : Hub) (b : Nat) {k : Nat} (hk : k < 4) : byteOf (h.long b) k = h.byte (b + k) := by
  interval_cases k <;> ext i hi <;> simp [byteOf, Hub.long] <;> grind

/-- The words of a long, in address order (R73). -/
theorem Hub.setWidth_long (h : Hub) (b : Nat) {k : Nat} (hk : k < 2) :
    (h.long b >>> (16 * k)).setWidth 16 = h.word (b + 2 * k) := by
  interval_cases k <;> ext i hi <;> simp [Hub.word, Hub.long] <;> grind

/-- The long that the quad of an address holds for it. -/
theorem Hub.quadLong_quad (h : Hub) (a : HubAddr) : quadLong (h.quad (aligned 16 a)) a = h.readLong a := by
  have hsum : aligned 16 a + 4 * (a.extractLsb' 2 2).toNat = aligned 4 a := by
    simp [aligned, Nat.shiftRight_eq_div_pow]
    omega
  rw [quadLong, Hub.quad_getElem, hsum, Hub.readLong]

/-- Settles O23: the long that the quad holds is the one in memory, and so are its words and bytes. -/
theorem cacheMissAgrees : Obligations.CacheMissAgrees := by
  unfold Obligations.CacheMissAgrees
  refine fun h a => ⟨?byte, ?word, h.quadLong_quad a⟩
  case byte =>
    have hsum : aligned 4 a + a.toNat % 4 = aligned 1 a := by
      simp only [aligned]
      omega
    have hbyte := Hub.byteOf_long h (aligned 4 a) (Nat.mod_lt a.toNat (by decide : 4 > 0))
    rw [quadByte_eq, Hub.quadLong_quad, Hub.readLong, Hub.readByte, ← hsum, ← hbyte, byteOf]
  case word =>
    have hsum : aligned 4 a + 2 * (a.toNat / 2 % 2) = aligned 2 a := by
      simp only [aligned]
      omega
    rw [quadWord_eq, Hub.quadLong_quad, Hub.readLong, Hub.readWord, ← hsum,
      Hub.setWidth_long h _ (Nat.mod_lt _ (by decide))]

/-! ## The QUAD instructions -/

theorem execWrquad_next {cc : CCCC} {x : HubOp} {s : State} {da sa : RegAddr} {c g : Cog} {a : HubAddr}
    (hf : fieldOk (!x.sel) x.field) (hr : s.cog.resolve cc x.regField none = .ok (.go da sa c))
    (hp : c.hubOperand x da 16 = .ok (a, g)) :
    execWrquad cc x s = .next (s.withView
      { s.viewOf c with hub := s.hub.setBytes (aligned 16 a) (quadBytes g.quad), cog := g.retire 1 }) := by
  rw [← HubOp.regField_eq] at hr
  refine State.fieldInstr_next hf hr ?_
  simp only [State.viewOf_cog, hp, Except.ok_bind]
  rfl

theorem execRdquadc_next {cc : CCCC} {x : HubOp} {s : State} {da sa : RegAddr} {c g : Cog} {a : HubAddr}
    (hf : fieldOk (!x.sel) x.field) (hr : s.cog.resolve cc x.regField none = .ok (.go da sa c))
    (hp : c.hubOperand x da 16 = .ok (a, g)) :
    execRdquadc cc x s = .next (s.withView
      ((((s.viewOf c).withCog (Statement.looked s.hub g a)).drawC).endCached (g.cacheHit a) 1)) := by
  rw [← HubOp.regField_eq] at hr
  refine State.fieldInstr_next hf hr ?_
  simp only [State.viewOf_cog, hp, Except.ok_bind, View.cacheLookup_eq]
  rfl

/-- Settles O24: WRQUAD by the bytes it stores, RDQUAD and RDQUADC by the lookup. -/
theorem quadInstructions : Obligations.QuadInstructions := by
  unfold Obligations.QuadInstructions
  intro cc x s da sa c g a hs hf hr hp
  have hadv := Cog.hubOperand_advance hp
  refine ⟨⟨_, execWrquad_next hf hr hp, ?wrquad⟩, ⟨_, execRdquad_next hf hr hp, ?rdquad⟩,
    ⟨_, execRdquadc_next hf hr hp, ?rdquadc⟩⟩
  case wrquad => exact State.stores_resolved hs hr hadv (aligned_add_le (n := 16) (by decide) a) fun j hj => quadBytes_getD _ hj
  case rdquad =>
    have hlook : Statement.looked s.hub { g with cacheValid := false } a
        = (((s.viewOf c).withCog g).fillQuads a).cog := if_neg fun h => Bool.false_ne_true h.1
    rw [hlook]
    exact State.finishes_resolved hr rfl rfl hadv
  case rdquadc =>
    have hlook := Statement.looked_advance hadv s.hub a
    rw [State.cog_withView]
    cases g.cacheHit a with
    | true => exact State.finishes_resolved hr rfl rfl hlook
    | false => exact State.finishes_resolved hr rfl rfl hlook

end Sys2Proof.Machine
end

section
/-! PROOFS. PTRA, PTRB and the QUAD instructions (R200..R213). -/

-- The check compiles one text under a memory limit that bounds the threads: elaborate in order.
set_option Elab.async false

namespace Sys2Proof

/-- The word of a single-operand row whose ZCR is 00R. -/
theorem Fields.toWord_single (r : Bool) (cc : CCCC) (d x : BitVec 9) :
    (Fields.single false false r cc d x).toWord = Statement.row 0b000011 (if r then 0b001 else 0b000) 1 cc d x := by
  have hzcr : BitVec.ofBool false ++ BitVec.ofBool false ++ BitVec.ofBool r = if r then 0b001#3 else 0b000#3 := by
    cases r <;> decide
  refine Eq.trans ?_ (congrArg (Statement.row 0b000011 · 1 cc d x) hzcr)
  exact Fields.toWord_eq_row (Fields.single false false r cc d x)

end Sys2Proof

namespace Sys2Proof.Machine

/-- Whether a value is 0 does not depend on the width it is extended to. -/
theorem zeroFlag_setWidth {w : Nat} (hw : w ≤ 32) (p : BitVec w) : zeroFlag (p.setWidth 32) = (p == 0) := by
  have hp : p.toNat % 2 ^ 32 = p.toNat := Nat.mod_eq_of_lt (p.isLt.trans_le (Nat.pow_le_pow_right (by decide) hw))
  rw [zeroFlag, Bool.eq_iff_iff, beq_iff_eq, beq_iff_eq, ← BitVec.toNat_inj, ← BitVec.toNat_inj, BitVec.toNat_setWidth, hp]
  rfl

/-! ## Getting the pointers -/

theorem State.getPtr_finishes {s : State} {useB wz wc wr : Bool} {cc : CCCC} {d : RegAddr} {da sa : RegAddr} {c : Cog}
    (hs : s.ok = true) (hr : s.cog.resolve cc (some d) none = .ok (.go da sa c)) (ha : wr = true → plainReg da) :
    ∃ t, s.instr cc (some d) none (fun da _ v => v.getPtr useB wz wc wr da) = .next t
      ∧ c.WroteIf t.cog wr da ((c.ptr useB).setWidth 32)
      ∧ s.Finishes t { c.withRegs t.cog with
          z := if wz then c.ptr useB == 0 else c.z, c := if wc then (c.ptr useB).getLsbD 16 else c.c } := by
  obtain ⟨p, hw, hwrote⟩ := Cog.result_regs (Cog.resolve_keeps (State.cog_ok hs) hr) ((c.ptr useB).setWidth 32) ha
  refine ⟨_, State.instr_next hr (View.getPtr_eq (v := s.viewOf c) hw), ?_⟩
  rw [State.cog_withView, ← zeroFlag_setWidth (by decide) (c.ptr useB)]
  exact ⟨hwrote _ rfl rfl rfl rfl, State.finishes_resolved hr rfl rfl rfl⟩

/-- Settles O25: the two instructions differ in the pointer they take. -/
theorem getPointers : Obligations.GetPointers := by
  unfold Obligations.GetPointers
  intro wz wc wr useB cc d s da sa c hs hr ha
  cases useB with
  | false => exact State.getPtr_finishes (useB := false) hs hr ha
  | true => exact State.getPtr_finishes (useB := true) hs hr ha

/-! ## Changing the pointers -/

theorem State.changePtr_finishes {s : State} {useB : Bool} {cc : CCCC} {x : RegOrImm} {da sa : RegAddr} {c : Cog}
    {v : Word} (hf : fieldOk (!x.sel) x.field) (hr : s.cog.resolve cc x.regField none = .ok (.go da sa c))
    (hv : c.operand x da = .ok v) {f : HubAddr → HubAddr → HubAddr} {a : HubAddr}
    (ha : f (c.ptr useB) (hubAddr v) = a) :
    ∃ t, s.fieldInstr cc (!x.sel) x.field (fun da v => v.changePtr useB x da f) = .next t
      ∧ s.Finishes t (c.setPtr useB a) := by
  subst ha
  have hadv : (c.setPtr useB (f (c.ptr useB) (hubAddr v))).advance = c.advance := by
    cases useB <;> exact Cog.advance_congr rfl rfl
  have hr' := hr
  rw [← RegOrImm.regField_eq] at hr'
  exact ⟨_, State.fieldInstr_next hf hr' (View.changePtr_eq (v := s.viewOf c) hv f),
    State.finishes_resolved hr rfl rfl hadv⟩

theorem hubAddr_eq_ofNat (v : Word) : hubAddr v = BitVec.ofNat 17 v.toNat := rfl

theorem add_hubAddr_eq_ofNat (p : HubAddr) (v : Word) : p + hubAddr v = BitVec.ofNat 17 (p.toNat + v.toNat) := by
  rw [hubAddr_eq_ofNat, BitVec.ofNat_add, BitVec.ofNat_toNat (x := p), BitVec.setWidth_eq]

theorem sub_hubAddr_eq_ofNat (p : HubAddr) (v : Word) :
    p - hubAddr v = BitVec.ofNat 17 (p.toNat + (2 ^ 32 - v.toNat)) := by
  apply BitVec.eq_of_toNat_eq
  have hv := v.isLt
  simp only [BitVec.toNat_sub, hubAddr_eq_ofNat, BitVec.toNat_ofNat]
  omega

/-- Settles O26: the words by their rows; the effects by the shared change of a pointer. -/
theorem changePointers : Obligations.ChangePointers := by
  unfold Obligations.ChangePointers
  refine ⟨fun cc a n => ⟨?regWords, ?immWords⟩, fun useB cc x s da sa c v hf hr hv => ?effects⟩
  case regWords =>
    rw [show Statement.row 0b000011 0b000 1 cc a = _ from funext fun x => (Fields.toWord_single false cc a x).symm]
    rfl
  case immWords =>
    rw [show Statement.row 0b000011 0b001 1 cc n = _ from funext fun x => (Fields.toWord_single true cc n x).symm]
    rfl
  case effects =>
    have hset := hubAddr_eq_ofNat v
    have hadd := add_hubAddr_eq_ofNat (c.ptr useB) v
    have hsub := sub_hubAddr_eq_ofNat (c.ptr useB) v
    cases useB with
    | false => exact ⟨State.changePtr_finishes hf hr hv (f := fun _ n => n) hset,
        State.changePtr_finishes hf hr hv (f := fun p n => p + n) hadd,
        State.changePtr_finishes hf hr hv (f := fun p n => p - n) hsub⟩
    | true => exact ⟨State.changePtr_finishes hf hr hv (f := fun _ n => n) hset,
        State.changePtr_finishes hf hr hv (f := fun p n => p + n) hadd,
        State.changePtr_finishes hf hr hv (f := fun p n => p - n) hsub⟩

/-! ## CACHEX and GETTOPS -/

/-- A long is its four bytes, the highest first. -/
theorem append_byteOf (v : Word) : byteOf v 3 ++ byteOf v 2 ++ byteOf v 1 ++ byteOf v 0 = v := by
  simp only [byteOf_eq_extractLsb']
  rw [BitVec.extractLsb'_append_extractLsb'_eq_extractLsb' (start₁ := 8 * 2) (by decide),
    BitVec.extractLsb'_append_extractLsb'_eq_extractLsb' (start₁ := 8 * 1) (by decide),
    BitVec.extractLsb'_append_extractLsb'_eq_extractLsb' (start₁ := 8 * 0) (by decide)]
  exact BitVec.extractLsb'_eq_self

/-- The long whose bytes are the top bytes of the QUADs. -/
theorem topBytes_eq {q : Vector Word 4} {v : Word} (h : ∀ k : Fin 4, byteOf v k.val = (q[k.val]).extractLsb' 24 8) :
    topBytes q = v := by
  calc topBytes q = byteOf v 3 ++ byteOf v 2 ++ byteOf v 1 ++ byteOf v 0 := by
        rw [show byteOf v 3 = _ from h 3, show byteOf v 2 = _ from h 2, show byteOf v 1 = _ from h 1,
          show byteOf v 0 = _ from h 0]
        rfl
    _ = v := append_byteOf v

theorem execGettops_next {wz : Bool} {cc : CCCC} {d : RegAddr} {s : State} {da sa : RegAddr} {c g : Cog}
    (hr : s.cog.resolve cc (some d) none = .ok (.go da sa c)) (hw : c.write da (topBytes c.quad) = .ok g) :
    execGettops wz cc d s =
      .next (s.withView (((s.viewOf c).withCog (g.flagZ wz (zeroFlag (topBytes c.quad)))).retire 1)) :=
  State.instr_next hr (by simp only [State.viewOf_cog, hw, Except.ok_bind]; rfl)

/-- Settles O27: CACHEX changes one field; GETTOPS writes the long that has the top bytes of the QUADs. -/
theorem cacheAndTops : Obligations.CacheAndTops := by
  unfold Obligations.CacheAndTops
  refine ⟨fun cc s da sa c hr => ⟨_, execCachex_next hr, State.finishes_resolved hr rfl rfl rfl⟩,
    fun wz cc d s da sa c v hs hr ha hv => ?_⟩
  have htop := topBytes_eq hv
  obtain ⟨p, hw, hwrote⟩ := Cog.write_regs (Cog.resolve_keeps (State.cog_ok hs) hr) (topBytes c.quad) ha
  refine ⟨_, execGettops_next hr hw, ?_⟩
  rw [State.cog_withView, htop]
  rw [htop] at hwrote
  exact ⟨hwrote _ rfl rfl rfl rfl, State.finishes_resolved hr rfl rfl rfl⟩

/-! ## SETQUAD and SETQUAZ -/

theorem execSetquaz_next {cc : CCCC} {x : RegOrImm} {s : State} {da sa : RegAddr} {c : Cog} {d : Word}
    (hf : fieldOk (!x.sel) x.field) (hr : s.cog.resolve cc x.regField none = .ok (.go da sa c))
    (hd : c.operand x da = .ok d) (hb : quadBaseOk (d.extractLsb' 0 9) = true) :
    execSetquaz cc x s = .next (s.withView ((s.viewOf c).withCog
      (({ c with qbase := d.extractLsb' 0 9, quad := #v[0, 0, 0, 0] } : Cog).retire 1).markMap).drawC) := by
  rw [← RegOrImm.regField_eq] at hr
  refine State.fieldInstr_next hf hr ?_
  rw [View.mapQuads_eq (v := s.viewOf c) hd hb true]
  rfl

/-- Settles O28: an allowed base is set, another refused. -/
theorem mapQuads : Obligations.MapQuads := by
  unfold Obligations.MapQuads
  intro cc x s da sa c v hf hr hv
  refine ⟨fun hb => ?allowed, fun hlo hhi => ?refused⟩
  case allowed =>
    have hq := quadBaseOk_iff.mpr hb
    refine ⟨⟨_, execSetquad_next hf hr hv hq, State.finishes_resolved hr rfl rfl rfl⟩,
      ⟨_, execSetquaz_next hf hr hv hq, ?_⟩⟩
    rw [State.cog_withView]
    exact State.finishes_resolved hr rfl rfl rfl
  case refused =>
    have hq : quadBaseOk (v.extractLsb' 0 9) = false := by
      rw [← Bool.not_eq_true, quadBaseOk_iff]
      omega
    have hr' := hr
    rw [← RegOrImm.regField_eq] at hr'
    refine ⟨State.fieldInstr_refused hf hr' (View.mapQuads_refused (v := s.viewOf c) hv hq false),
      State.fieldInstr_refused hf hr' ?_⟩
    rw [View.mapQuads_refused (v := s.viewOf c) hv hq true]
    rfl

end Sys2Proof.Machine
end

section
/-! PROOFS. MOV and ADD, the system counter and the waits (R273, R274, R301..R308), the stack pointers (R297, R298,
R433). -/

-- The check compiles one text under a memory limit that bounds the threads: elaborate in order.
set_option Elab.async false

namespace Sys2Proof.Machine

theorem add_eq_ofNat {w : Nat} (a b : BitVec w) : a + b = BitVec.ofNat w (a.toNat + b.toNat) := by
  rw [BitVec.add_def]

/-! ## MOV and ADD -/

theorem execAdd_next {cc : CCCC} {d : RegAddr} {x : RegOrImm} {s : State} {da sa : RegAddr} {c g : Cog} {dv sv : Word}
    (hr : s.cog.resolve cc (some d) x.regField = .ok (.go da sa c)) (hd : c.read da = .ok dv)
    (hv : c.operand x sa = .ok sv) (hw : c.write da (dv + sv) = .ok g) :
    execAdd cc d x s = .next (s.withView (((s.viewOf c).withCog g).retire 1)) :=
  State.instr_next hr (by simp only [State.viewOf_cog, hd, hv, hw, Except.ok_bind]; rfl)

/-- Settles O40: each writes one register and goes on. -/
theorem movAndAdd : Obligations.MovAndAdd := by
  unfold Obligations.MovAndAdd
  intro cc d x s da sa c sv hs hr ha hv
  have hc := Cog.resolve_keeps (State.cog_ok hs) hr
  refine ⟨?mov, fun dv hd => ?add⟩
  case mov =>
    obtain ⟨p, hw, hwrote⟩ := Cog.write_regs hc sv ha
    refine ⟨_, execMov_next hr hv hw, ?_⟩
    rw [State.cog_withView]
    exact ⟨hwrote _ rfl rfl rfl rfl, State.finishes_resolved hr rfl rfl rfl⟩
  case add =>
    obtain ⟨p, hw, hwrote⟩ := Cog.write_regs hc (dv + sv) ha
    refine ⟨_, execAdd_next hr hd hv hw, ?_⟩
    rw [State.cog_withView, ← add_eq_ofNat]
    exact ⟨hwrote _ rfl rfl rfl rfl, State.finishes_resolved hr rfl rfl rfl⟩

/-! ## The halves of CNT -/

theorem cntLong_low (h : Hub) : Statement.cntLong h false = h.cntl := by
  rw [Statement.cntLong, Hub.cntl, BitVec.extractLsb']
  rfl

theorem cntLong_high (h : Hub) : Statement.cntLong h true = h.cnth := by
  rw [Statement.cntLong, Hub.cnth, BitVec.extractLsb', Nat.shiftRight_eq_div_pow]
  rfl

/-! ## GETCNT -/

theorem execGetcnt_second {cc : CCCC} {d : RegAddr} {s : State} {da sa : RegAddr} {c g : Cog}
    (hr : s.cog.resolve cc (some d) none = .ok (.go da sa c)) (hseq : c.cntSeq = .gotLow)
    (hw : c.write da c.cntHi = .ok g) :
    execGetcnt cc d s = .next (s.withView (((s.viewOf c).withCog g).retireCnt .gotHigh)) :=
  State.instr_next hr (by simp only [State.viewOf_cog, hseq, hw, Except.ok_bind]; rfl)

theorem execGetcnt_first {cc : CCCC} {d : RegAddr} {s : State} {da sa : RegAddr} {c g : Cog}
    (hr : s.cog.resolve cc (some d) none = .ok (.go da sa c))
    (h1 : c.cntSeq ≠ .gotLow) (h2 : c.cntSeq ≠ .subLow) (h3 : c.cntSeq ≠ .subHigh)
    (hw : c.write da s.hub.cntl = .ok g) :
    execGetcnt cc d s =
      .next (s.withView (((s.viewOf c).withCog { g with cntHi := s.hub.cnth }).retireCnt .gotLow)) := by
  refine State.instr_next hr ?_
  have hw' : c.write da (s.viewOf c).hub.cntl = .ok g := hw
  cases hseq : c.cntSeq with
  | gotLow | subLow | subHigh => contradiction
  | idle | gotHigh | compared => simp only [State.viewOf_cog, hseq, hw', Except.ok_bind]; rfl

theorem execGetcnt_refused {cc : CCCC} {d : RegAddr} {s : State} {da sa : RegAddr} {c : Cog}
    (hr : s.cog.resolve cc (some d) none = .ok (.go da sa c)) (hseq : c.cntSeq = .subLow ∨ c.cntSeq = .subHigh) :
    execGetcnt cc d s = .refused .cntMixture := by
  refine State.instr_refused hr ?_
  rcases hseq with hseq | hseq <;> simp only [State.viewOf_cog, hseq]

/-- Settles O41: by what the last CNT instruction was. -/
theorem getcntReads : Obligations.GetcntReads := by
  unfold Obligations.GetcntReads
  intro cc d s da sa c hs hr ha
  have hc := Cog.resolve_keeps (State.cog_ok hs) hr
  refine ⟨fun hseq => ?second, fun h1 h2 h3 => ?first, fun hseq => execGetcnt_refused hr hseq⟩
  case second =>
    obtain ⟨p, hw, hwrote⟩ := Cog.write_regs hc c.cntHi ha
    refine ⟨_, execGetcnt_second hr hseq hw, ?_⟩
    rw [Statement.cntEnds, State.cog_withView]
    exact ⟨hwrote _ rfl rfl rfl rfl, State.finishes_resolved hr rfl rfl rfl, rfl⟩
  case first =>
    obtain ⟨p, hw, hwrote⟩ := Cog.write_regs hc s.hub.cntl ha
    refine ⟨_, execGetcnt_first hr h1 h2 h3 hw, ?_⟩
    rw [Statement.cntEnds, State.cog_withView, cntLong_low, cntLong_high]
    exact ⟨hwrote _ rfl rfl rfl rfl, State.finishes_resolved hr rfl rfl rfl, rfl⟩

/-! ## SUBCNT -/

theorem execSubcnt_second {wz wc : Bool} {cc : CCCC} {d : RegAddr} {s : State} {da sa : RegAddr} {c g : Cog} {dv r : Word}
    (hr : s.cog.resolve cc (some d) none = .ok (.go da sa c)) (hseq : c.cntSeq = .subLow) (hd : c.read da = .ok dv)
    (hres : c.cntHi - dv - (BitVec.ofBool c.cntBorrow).setWidth 32 = r) (hw : c.write da r = .ok g) :
    execSubcnt wz wc cc d s = .next (s.withView (((s.viewOf c).withCog
      ((g.flagZ wz (zeroFlag r)).flagC wc (borrow c.cntHi dv c.cntBorrow))).retireCnt .subHigh)) := by
  subst hres
  exact State.instr_next hr (by simp only [State.viewOf_cog, hseq, hd, hw, Except.ok_bind]; rfl)

theorem execSubcnt_first {wz wc : Bool} {cc : CCCC} {d : RegAddr} {s : State} {da sa : RegAddr} {c g : Cog} {dv : Word}
    (hr : s.cog.resolve cc (some d) none = .ok (.go da sa c))
    (h1 : c.cntSeq ≠ .subLow) (h2 : c.cntSeq ≠ .gotLow) (h3 : c.cntSeq ≠ .gotHigh) (hd : c.read da = .ok dv)
    (hw : c.write da (s.hub.cntl - dv) = .ok g) :
    execSubcnt wz wc cc d s = .next (s.withView (((s.viewOf c).withCog
      { (g.flagZ wz (zeroFlag (s.hub.cntl - dv))).flagC wc (borrow s.hub.cntl dv false) with
        cntHi := s.hub.cnth, cntBorrow := borrow s.hub.cntl dv false }).retireCnt .subLow)) := by
  refine State.instr_next hr ?_
  have hw' : c.write da ((s.viewOf c).hub.cntl - dv) = .ok g := hw
  cases hseq : c.cntSeq with
  | subLow | gotLow | gotHigh => contradiction
  | idle | subHigh | compared => simp only [State.viewOf_cog, hseq, hd, hw', Except.ok_bind]; rfl

theorem execSubcnt_refused {wz wc : Bool} {cc : CCCC} {d : RegAddr} {s : State} {da sa : RegAddr} {c : Cog}
    (hr : s.cog.resolve cc (some d) none = .ok (.go da sa c)) (hseq : c.cntSeq = .gotLow ∨ c.cntSeq = .gotHigh) :
    execSubcnt wz wc cc d s = .refused .cntMixture := by
  refine State.instr_refused hr ?_
  rcases hseq with hseq | hseq <;> simp only [State.viewOf_cog, hseq]

theorem ofBool_setWidth (b : Bool) : (BitVec.ofBool b).setWidth 32 = if b then 1 else 0 := by
  cases b <;> rfl

theorem borrow_eq (a b : Word) (carry : Bool) :
    borrow a b carry = decide (a.toNat < b.toNat + if carry then 1 else 0) := by
  cases carry <;> rfl

/-- Settles O42: by what the last CNT instruction was. -/
theorem subcntSubtracts : Obligations.SubcntSubtracts := by
  unfold Obligations.SubcntSubtracts
  intro wz wc cc d s da sa c dv hs hr hd
  have hc := Cog.resolve_keeps (State.cog_ok hs) hr
  have ha := Cog.read_plain hd
  refine ⟨fun hseq => ?second, fun h1 h2 h3 => ?first, fun hseq => execSubcnt_refused hr hseq⟩
  case second =>
    obtain ⟨p, hw, hwrote⟩ := Cog.write_regs hc (c.cntHi - dv - if c.cntBorrow then 1 else 0) ha
    refine ⟨_, execSubcnt_second hr hseq hd (by rw [ofBool_setWidth]) hw, ?_⟩
    rw [Statement.cntEnds, State.cog_withView, ← borrow_eq]
    exact ⟨hwrote _ rfl rfl rfl rfl, State.finishes_resolved hr rfl rfl rfl, rfl⟩
  case first =>
    obtain ⟨p, hw, hwrote⟩ := Cog.write_regs hc (s.hub.cntl - dv) ha
    have hb : borrow s.hub.cntl dv false = decide (s.hub.cntl.toNat < dv.toNat) := borrow_eq _ _ _
    refine ⟨_, execSubcnt_first hr h1 h2 h3 hd hw, ?_⟩
    rw [Statement.cntEnds, State.cog_withView, cntLong_low, cntLong_high, ← hb]
    exact ⟨hwrote _ rfl rfl rfl rfl, State.finishes_resolved hr rfl rfl rfl, rfl⟩

/-! ## CMPCNT -/

theorem execCmpcnt_next {wz wc : Bool} {cc : CCCC} {d : RegAddr} {s : State} {da sa : RegAddr} {c : Cog} {dv : Word}
    (hr : s.cog.resolve cc (some d) none = .ok (.go da sa c)) (hseq : c.cntSeq ≠ .compared) (hd : c.read da = .ok dv) :
    execCmpcnt wz wc cc d s = .next (s.withView (((s.viewOf c).withCog
      ((c.flagZ wz (s.hub.cntl == dv)).flagC wc (decide (s.hub.cntl.toNat < dv.toNat)))).retireCnt .compared)) := by
  refine State.instr_next hr ?_
  cases hc : c.cntSeq with
  | compared => contradiction
  | idle | gotLow | gotHigh | subLow | subHigh => simp only [State.viewOf_cog, hc, hd, Except.ok_bind]; rfl

theorem execCmpcnt_refused {wz wc : Bool} {cc : CCCC} {d : RegAddr} {s : State} {da sa : RegAddr} {c : Cog}
    (hr : s.cog.resolve cc (some d) none = .ok (.go da sa c)) (hseq : c.cntSeq = .compared) :
    execCmpcnt wz wc cc d s = .refused .cntMixture :=
  State.instr_refused hr (by simp only [State.viewOf_cog, hseq])

/-- Settles O43: only the flags change. -/
theorem cmpcntCompares : Obligations.CmpcntCompares := by
  unfold Obligations.CmpcntCompares
  intro wz wc cc d s da sa c dv hr hd
  refine ⟨fun hseq => ⟨_, execCmpcnt_next hr hseq hd, ?_⟩, fun hseq => execCmpcnt_refused hr hseq⟩
  rw [Statement.cntEnds, State.cog_withView, cntLong_low, BEq.comm]
  exact ⟨State.finishes_resolved hr rfl rfl rfl, rfl⟩

/-! ## The waits -/

/-- The moving cog put back where it is. -/
theorem State.withView_view (s : State) : s.withView s.view = s := by
  simp only [State.withView, State.view, State.cog, Vector.set_getElem_self]

theorem execPasscnt_next {cc : CCCC} {d : RegAddr} {s : State} {da sa : RegAddr} {c : Cog} {dv : Word}
    (hr : s.cog.resolve cc (some d) none = .ok (.go da sa c)) (hd : c.read da = .ok dv) :
    execPasscnt cc d s = .next (s.withView (if passed s.hub.cntl dv then (s.viewOf c).retire 1 else s.view)) :=
  State.instr_next hr (by simp only [State.viewOf_cog, hd, Except.ok_bind]; rfl)

theorem passed_iff (h : Hub) (d : Word) :
    passed h.cntl d = true ↔ (h.cnt.toNat + (2 ^ 32 - d.toNat)) % 2 ^ 32 < 2 ^ 31 := by
  have hd := d.isLt
  have hsum : (h.cntl - d).toNat = (h.cnt.toNat + (2 ^ 32 - d.toNat)) % 2 ^ 32 := by
    rw [BitVec.toNat_sub, Hub.cntl, BitVec.extractLsb'_toNat, Nat.shiftRight_zero]
    omega
  rw [passed, decide_eq_true_eq, hsum]

/-- Settles O44: the comparison is that of the numbers; a cog that stays leaves the state as it was. -/
theorem passcntWaits : Obligations.PasscntWaits := by
  unfold Obligations.PasscntWaits
  intro cc d s da sa c dv hr hd
  refine ⟨fun h => ⟨_, execPasscnt_next hr hd, ?pass⟩, fun h => (execPasscnt_next hr hd).trans ?stay⟩
  case pass =>
    rw [if_pos ((passed_iff s.hub dv).mpr h)]
    exact State.finishes_resolved hr rfl rfl rfl
  case stay =>
    rw [if_neg (mt (passed_iff s.hub dv).mp (Nat.not_lt.mpr h)), State.withView_view]

theorem execWaitcnt_next {wr : Bool} {cc : CCCC} {d : RegAddr} {x : RegOrImm} {s : State} {da sa : RegAddr}
    {c g : Cog} {dv sv : Word} (hr : s.cog.resolve cc (some d) x.regField = .ok (.go da sa c))
    (hd : c.read da = .ok dv) (hv : c.operand x sa = .ok sv) (hw : c.result wr da (dv + sv) = .ok g) :
    execWaitcnt false wr cc d x s = .next (s.withView (((s.viewOf c).withCog g).retire 1)) :=
  State.instr_next hr (by simp only [State.viewOf_cog, hd, hv, hw, Except.ok_bind]; rfl)

theorem execWaitcnt_refused {wr : Bool} {cc : CCCC} {d : RegAddr} {x : RegOrImm} {s : State} {da sa : RegAddr}
    {c : Cog} (hr : s.cog.resolve cc (some d) x.regField = .ok (.go da sa c)) :
    execWaitcnt true wr cc d x s = .refused .waitcntLong :=
  State.instr_refused hr rfl

/-- Settles O45: the result is written under R alone. -/
theorem waitcntAdds : Obligations.WaitcntAdds := by
  unfold Obligations.WaitcntAdds
  intro wr cc d x s da sa c dv sv hs hr hd hv
  obtain ⟨p, hw, hwrote⟩ := Cog.result_regs (wr := wr) (Cog.resolve_keeps (State.cog_ok hs) hr) (dv + sv)
    fun _ => Cog.read_plain hd
  refine ⟨⟨_, execWaitcnt_next hr hd hv hw, ?_⟩, execWaitcnt_refused hr⟩
  rw [State.cog_withView, ← add_eq_ofNat]
  exact ⟨hwrote _ rfl rfl rfl rfl, State.finishes_resolved hr rfl rfl rfl⟩

theorem State.waitPins_finishes {cc : CCCC} {d : RegAddr} {x : RegOrImm} {s : State} {da sa : RegAddr} {c : Cog}
    {dv sv : Word} (hr : s.cog.resolve cc (some d) x.regField = .ok (.go da sa c)) (hd : c.read da = .ok dv)
    (hv : c.operand x sa = .ok sv) :
    ∃ t, s.instr cc (some d) x.regField (fun da sa v => v.waitPins da x sa) = .next t
      ∧ s.Finishes t { c with z := t.cog.z, c := t.cog.c } := by
  refine ⟨_, State.instr_next hr (View.waitPins_eq (v := s.viewOf c) hd hv), ?_⟩
  rw [State.cog_withView]
  exact State.finishes_resolved hr rfl rfl rfl

/-- Settles O46: both waits have one body. -/
theorem waitpinsEnd : Obligations.WaitpinsEnd := by
  unfold Obligations.WaitpinsEnd
  exact fun cc d x s da sa c dv sv hr hd hv => ⟨State.waitPins_finishes hr hd hv, State.waitPins_finishes hr hd hv⟩

/-! ## The stack pointers -/

theorem execGetsp_next {k : Ctl} {w : Which} {d : RegAddr} {s : State} {da sa : RegAddr} {c g : Cog}
    (hr : s.cog.resolve k.cc (some d) none = .ok (.go da sa c)) (hw : c.result k.wr da ((c.sp w).setWidth 32) = .ok g) :
    execGetsp k w d s = .next (s.withView (((s.viewOf c).withCog
      ((g.flagZ k.wz (c.sp w == 0)).flagC k.wc ((c.sp w).getLsbD 7))).retire 1)) := by
  unfold execGetsp State.absGetFlags
  exact State.instr_next hr (by simp only [State.viewOf_cog, hw, Except.ok_bind]; rfl)

/-- An instruction of one operand whose change of the cog is refused is refused. -/
theorem State.absSet_refused {k : Ctl} {x : RegOrImm} {s : State} {da sa : RegAddr} {c : Cog} {v : Word} {e : Refusal}
    (hf : fieldOk (!x.sel) x.field) (hr : s.cog.resolve k.cc x.regField none = .ok (.go da sa c))
    (hv : c.operand x da = .ok v) {f : Word → View → Except Refusal Cog} (he : f v (s.viewOf c) = .error e) :
    s.absSet k x f = .refused e := by
  rw [← RegOrImm.regField_eq] at hr
  exact State.fieldInstr_refused hf hr (by simp only [State.viewOf_cog, hv, he, Except.ok_bind, Except.error_bind])

theorem Cog.setSp_refused {c : Cog} (h : c.xfr.cfg.extractLsb' 4 2 = 3#2) (p : BitVec 8) :
    c.setSp .a p = .error .stackBusy :=
  if_pos (beq_iff_eq.mpr h)

/-- Settles O55: the shared body of GETSPx, and the test before SPA is written. -/
theorem stackPointers : Obligations.StackPointers := by
  unfold Obligations.StackPointers
  refine ⟨fun k w d s da sa c hs hr ha => ?get, fun k x s da sa c v hf hr hv hx => ?set⟩
  case get =>
    have hsp : (if w = .a then c.spa else c.spb) = c.sp w := by cases w <;> rfl
    obtain ⟨p, hw, hwrote⟩ := Cog.result_regs (Cog.resolve_keeps (State.cog_ok hs) hr) ((c.sp w).setWidth 32) ha
    refine ⟨_, execGetsp_next hr hw, ?_⟩
    rw [State.cog_withView, hsp]
    exact ⟨hwrote _ rfl rfl rfl rfl, State.finishes_resolved hr rfl rfl rfl⟩
  case set =>
    exact ⟨State.absSet_refused hf hr hv (Cog.setSp_refused hx _), State.absSet_refused hf hr hv (Cog.setSp_refused hx _),
      State.absSet_refused hf hr hv (Cog.setSp_refused hx _)⟩

end Sys2Proof.Machine
end

section
/-! PROOFS. Hub control: starting and stopping cogs, the clock, the locks (R230..R241, R530, R531). -/

-- The check compiles one text under a memory limit that bounds the threads: elaborate in order.
set_option Elab.async false

namespace Sys2Proof.Machine

/-! ## Frames of instructions that act on other cogs -/

theorem State.chipInstr_next {s t : State} {cc : CCCC} {d x : Option RegAddr} {da sa : RegAddr} {c : Cog}
    (h : s.cog.resolve cc d x = .ok (.go da sa c)) {body : RegAddr → RegAddr → State → Except Refusal State}
    (hb : body da sa (s.withCog c) = .ok t) : s.chipInstr cc d x body = .next t := by
  rw [State.chipInstr_go h, hb]
  rfl

/-- How many free values were used is left open at the end of an instruction. -/
theorem State.Finishes.draws {s t : State} {g : Cog} (h : s.Finishes t g) (n : Nat) :
    s.Finishes { t with draws := n } g := by
  obtain ⟨hends, hgoes⟩ := h
  unfold State.EndsAs at hends
  exact ⟨congrArg (fun u : State => ({ u with draws := n } : State)) hends, hgoes⟩

theorem Cog.resolve_run {c g : Cog} {cc : CCCC} {d x : Option RegAddr} {da sa : RegAddr}
    (h : c.resolve cc d x = .ok (.go da sa g)) : g.run = c.run := by
  rw [Cog.resolve_frame h]

/-- Resolving operands leaves which cogs run. -/
theorem State.run_withCog_resolved {s : State} {cc : CCCC} {d x : Option RegAddr} {da sa : RegAddr} {c : Cog}
    (h : s.cog.resolve cc d x = .ok (.go da sa c)) (n : Fin 8) : ((s.withCog c).cogs[n.val]).run = (s.cogs[n.val]).run := by
  rw [State.cogs_withCog]
  split
  · next hn =>
    rw [hn, Cog.resolve_run h]
    rfl
  · rfl

/-! ## The values of a cog start -/

/-- The high part of a joined word. -/
theorem extractLsb'_append_high {m n : Nat} (x : BitVec m) (y : BitVec n) : (x ++ y).extractLsb' n m = x := by
  ext i hi
  simp [BitVec.getLsbD_append, BitVec.getLsbD_eq_getElem hi]

/-- Settles O32: each value is a field of `Cog.start`. -/
theorem cogStartValues : Obligations.CogStartValues := by
  unfold Obligations.CogStartValues
  intro c base param n
  exact ⟨rfl, rfl, rfl, rfl, rfl, rfl, rfl, rfl, rfl, rfl, rfl, rfl, rfl, rfl, extractLsb'_append_high _ _,
    extractLsb'_append_high _ _, rfl, rfl, rfl, rfl⟩

/-! ## COGINIT -/

/-- The cog that a COGINIT leaves where it ran, results written. -/
def Cog.coginitEnd (g : Cog) (wz wc wr z c : Bool) : Cog :=
  ((g.flagZ wz z).flagC wc c).retire (if wz || wc || wr then 2 else 1)

theorem State.cogResult_eq {s : State} {c g : Cog} {wr : Bool} {da : RegAddr} {r : Word}
    (hw : c.result wr da r = .ok g) (k : Nat) (wz wc z b : Bool) :
    ((s.withCog c).drawn k).cogResult wz wc wr da r z b = .ok ((s.drawn k).withCog (g.coginitEnd wz wc wr z b)) := by
  simp only [State.cogResult, State.cog_drawn, State.cog_withCog, hw, Except.ok_bind]
  exact congrArg Except.ok ((s.drawn k).withCog_withCog c _)

/-- Starting a cog leaves another one. -/
theorem State.cogs_startCog_other {s : State} {n m : Fin 8} (hm : m ≠ n) (base param : HubAddr) :
    (s.startCog n base param).cogs[m.val] = s.cogs[m.val] := by
  refine (State.cogs_setCog s n _ m).trans ?_
  rw [if_neg hm]

theorem State.cogs_startCog_self (s : State) (n : Fin 8) (base param : HubAddr) :
    (s.startCog n base param).cogs[n.val] = (s.cogs[n.val]).start base param s.draws := by
  refine (State.cogs_setCog s n _ n).trans ?_
  rw [if_pos rfl]

/-- Another cog than the moving one was started while the moving one ended as `p`. -/
theorem State.cogs_startCog_drawn {s : State} {n : Fin 8} (hn : n ≠ s.cur) (p : Cog) (k : Nat) (base param : HubAddr) :
    (((s.drawn k).withCog p).startCog n base param).cogs[n.val] = (s.cogs[n.val]).start base param (s.draws + k)
      ∧ (((s.drawn k).withCog p).startCog n base param).cog = p := by
  constructor
  · rw [State.cogs_startCog_self, State.cogs_withCog, if_neg (by exact hn)]
    rfl
  · refine (State.cogs_startCog_other (Ne.symm hn) base param).trans ?_
    rw [State.cogs_withCog, if_pos (by rfl)]

theorem State.startCog_finishes {s : State} {n : Fin 8} (hn : n ≠ s.cur) {g p : Cog} (hg : g.withPipe p = p)
    (ha : (p.pc, p.pend) = s.cog.advance) (k : Nat) (base param : HubAddr) :
    ({ s with cogs := s.cogs.set n.val ((((s.drawn k).withCog p).startCog n base param).cogs[n.val]) } : State).Finishes
      (((s.drawn k).withCog p).startCog n base param) g := by
  obtain ⟨hstart, -⟩ := State.cogs_startCog_drawn hn p k base param
  rw [hstart, State.startCog_other (s := s.drawn k) hn]
  refine State.Finishes.draws (t := (s.setCog n _).withCog p) (State.finishes_withCog hg ?_) _
  rw [State.cog_setCog hn, ha]

/-- An idle cog is another one than the running one that moves. -/
theorem State.ne_cur_of_idle {s : State} {n : Fin 8} (hrun : s.cog.run = .running) (hn : (s.cogs[n.val]).run = .idle) :
    n ≠ s.cur := by
  rintro rfl
  exact absurd (hrun.symm.trans hn) (by decide)

theorem State.startNext_eq {s : State} {c g : Cog} {wr : Bool} {da : RegAddr} {first : Fin 8} {rest : List (Fin 8)}
    (hi : (s.withCog c).idleCogs = first :: rest)
    (hw : c.result wr da (BitVec.ofNat 32 (choose s.draws first rest).val) = .ok g) (wz wc : Bool)
    (base param : HubAddr) :
    (s.withCog c).startNext wz wc wr da base param = .ok (((s.drawn 1).withCog
      (g.coginitEnd wz wc wr ((choose s.draws first rest).val == 0) false)).startCog (choose s.draws first rest)
        base param) := by
  simp only [State.startNext, hi, State.withCog_draws, State.cogResult_eq hw, Except.ok_bind]
  rfl

theorem State.startNext_none {s : State} {c g : Cog} {wr : Bool} {da : RegAddr} (hi : (s.withCog c).idleCogs = [])
    (hw : c.result wr da (Config.freeWord s.draws) = .ok g) (wz wc : Bool) (base param : HubAddr) :
    (s.withCog c).startNext wz wc wr da base param =
      .ok ((s.drawn 1).withCog (g.coginitEnd wz wc wr (zeroFlag (Config.freeWord s.draws)) true)) := by
  simp only [State.startNext, hi, State.withCog_draws, State.cogResult_eq hw]

theorem State.startGiven_eq {s : State} {c g : Cog} {wr : Bool} {da : RegAddr} {n : Fin 8}
    (hn : ∀ base k, ((s.withCog c).cogs[n.val]).run ≠ .loading base k)
    (hw : c.result wr da (Config.freeWord s.draws) = .ok g) (wz wc : Bool) (base param : HubAddr) :
    (s.withCog c).startGiven wz wc wr da n base param = .ok (((s.drawn 2).withCog (g.coginitEnd wz wc wr
      (Config.freeBit s.draws) (Config.freeBit (s.draws + 1)))).startCog n base param) := by
  unfold State.startGiven
  cases hrun : ((s.withCog c).cogs[n.val]).run with
  | loading b k => exact absurd hrun (hn b k)
  | idle | running => simp only [State.withCog_draws, State.cogResult_eq hw, Except.ok_bind]; rfl

theorem State.startGiven_refused {s : State} {n : Fin 8} {b : HubAddr} {k : Nat}
    (hn : (s.cogs[n.val]).run = .loading b k) (wz wc wr : Bool) (da : RegAddr) (base param : HubAddr) :
    s.startGiven wz wc wr da n base param = .error .cogLoading := by
  simp only [State.startGiven, hn]

theorem execCoginit_nextIdle {wz wc wr : Bool} {cc : CCCC} {d x : RegAddr} {s t : State} {da sa : RegAddr} {c : Cog}
    {dv sv : Word} (hr : s.cog.resolve cc (some d) (some x) = .ok (.go da sa c)) (hd : c.read da = .ok dv)
    (hv : c.read sa = .ok sv) (hsel : c.cogsel.getLsbD 3 = true)
    (ht : (s.withCog c).startNext wz wc wr da (loadBase dv) (hubAddr sv) = .ok t) :
    execCoginit wz wc wr cc d x s = .next t :=
  State.chipInstr_next hr (by simp only [State.cog_withCog, hd, hv, Except.ok_bind, hsel, if_true, ht])

/-- A selector %0xxx names the cog of its number. -/
theorem Cog.selected_eq {c : Cog} {n : Fin 8} (h : c.cogsel.toNat = n.val) :
    c.cogsel.getLsbD 3 = false ∧ c.selected = n := by
  have hn := n.isLt
  constructor
  · rw [BitVec.getLsbD, h, Nat.testBit_eq_false_of_lt (by omega)]
  · apply Fin.ext
    simp only [Cog.selected, BitVec.extractLsb'_toNat, h, Nat.shiftRight_zero]
    omega

theorem execCoginit_given {wz wc wr : Bool} {cc : CCCC} {d x : RegAddr} {s : State} {da sa : RegAddr} {c : Cog}
    {dv sv : Word} {n : Fin 8} (hr : s.cog.resolve cc (some d) (some x) = .ok (.go da sa c)) (hd : c.read da = .ok dv)
    (hv : c.read sa = .ok sv) (hsel : c.cogsel.toNat = n.val) :
    execCoginit wz wc wr cc d x s = toOut ((s.withCog c).startGiven wz wc wr da n (loadBase dv) (hubAddr sv)) := by
  obtain ⟨hbit, hcog⟩ := Cog.selected_eq hsel
  refine (State.chipInstr_go hr _).trans ?_
  simp only [State.cog_withCog, hd, hv, Except.ok_bind, hbit, hcog]
  rfl

/-- Settles O29: the candidate chosen is among the idle cogs, and starting it leaves the others. -/
theorem coginitNextIdle : Obligations.CoginitNextIdle := by
  unfold Obligations.CoginitNextIdle
  intro wz wc wr cc d x s da sa c dv sv hs hrun hr hd hv hsel hidle
  obtain ⟨first, rest, hi⟩ : ∃ first rest, (s.withCog c).idleCogs = first :: rest := by
    obtain ⟨m, hm⟩ := hidle
    rw [← State.run_withCog_resolved hr, ← State.mem_idleCogs] at hm
    exact List.exists_cons_of_ne_nil (List.ne_nil_of_mem hm)
  have hn : (s.cogs[(choose s.draws first rest).val]).run = .idle := by
    rw [← State.run_withCog_resolved hr, ← State.mem_idleCogs, hi]
    exact choose_mem _ _ _
  have hne := State.ne_cur_of_idle hrun hn
  obtain ⟨p, hw, hwrote⟩ := Cog.result_regs (wr := wr) (Cog.resolve_keeps (State.cog_ok hs) hr)
    (BitVec.ofNat 32 (choose s.draws first rest).val) fun _ => Cog.read_plain hd
  refine ⟨_, choose s.draws first rest, execCoginit_nextIdle hr hd hv hsel (State.startNext_eq hi hw wz wc _ _), hne, hn,
    ?_⟩
  obtain ⟨hstart, hcog⟩ := State.cogs_startCog_drawn hne (Cog.coginitEnd { c.withRegs p with haz := p.haz } wz wc wr
    ((choose s.draws first rest).val == 0) false) 1 (loadBase dv) (hubAddr sv)
  rw [hcog]
  exact ⟨hstart, hwrote _ rfl rfl rfl rfl, State.startCog_finishes hne rfl (Cog.resolve_advance hr) _ _ _⟩

/-- Settles O30: with no candidate nothing is started. -/
theorem coginitNoneIdle : Obligations.CoginitNoneIdle := by
  unfold Obligations.CoginitNoneIdle
  intro wz wc wr cc d x s da sa c dv sv hs hr hd hv hsel hidle
  have hi : (s.withCog c).idleCogs = [] := by
    refine List.eq_nil_iff_forall_not_mem.mpr fun n hn => hidle n ?_
    rwa [State.mem_idleCogs, State.run_withCog_resolved hr] at hn
  obtain ⟨p, hw, hwrote⟩ := Cog.result_regs (wr := wr) (Cog.resolve_keeps (State.cog_ok hs) hr)
    (Config.freeWord s.draws) fun _ => Cog.read_plain hd
  refine ⟨_, Config.freeWord s.draws, execCoginit_nextIdle hr hd hv hsel (State.startNext_none hi hw wz wc _ _), ?_⟩
  have hadv := Cog.resolve_advance hr
  rw [State.cog_withCog]
  refine ⟨hwrote _ rfl rfl rfl rfl, State.Finishes.draws (t := s.withCog _) (State.finishes_withCog rfl hadv) _⟩

/-- Settles O31: a cog that is not loading is started, the moving one among them. -/
theorem coginitGiven : Obligations.CoginitGiven := by
  unfold Obligations.CoginitGiven
  intro wz wc wr cc d x s da sa c dv sv n hs hrun hr hd hv hsel
  refine ⟨fun hn => ?started, fun b k hn => ?refused⟩
  case refused =>
    have hl : ((s.withCog c).cogs[n.val]).run = .loading b k := by rw [State.run_withCog_resolved hr, hn]
    rw [show exec (.coginit wz wc wr cc d x) s = _ from execCoginit_given hr hd hv hsel, State.startGiven_refused hl]
    rfl
  case started =>
    have hl : ∀ b k, ((s.withCog c).cogs[n.val]).run ≠ .loading b k := by
      rw [State.run_withCog_resolved hr]
      exact hn
    obtain ⟨p, hw, hwrote⟩ := Cog.result_regs (wr := wr) (Cog.resolve_keeps (State.cog_ok hs) hr)
      (Config.freeWord s.draws) fun _ => Cog.read_plain hd
    have hgiven := State.startGiven_eq hl hw wz wc (loadBase dv) (hubAddr sv)
    refine ⟨_, Config.freeWord s.draws, (execCoginit_given hr hd hv hsel).trans (congrArg toOut hgiven), rfl, rfl,
      fun m hm hcur => ?others, fun hcur => ?itself, fun hcur => ?another⟩
    case others => rw [State.cogs_startCog_other hm, State.cogs_withCog, if_neg (by exact hcur)]; rfl
    case itself =>
      refine ⟨Cog.coginitEnd { c.withRegs p with haz := p.haz } wz wc wr (Config.freeBit s.draws)
        (Config.freeBit (s.draws + 1)), hwrote _ rfl rfl rfl rfl, rfl, ?_⟩
      rw [State.cogs_startCog_self, State.cogs_withCog, if_pos (by exact hcur)]
      rfl
    case another =>
      obtain ⟨hstart, hcog⟩ := State.cogs_startCog_drawn hcur (Cog.coginitEnd { c.withRegs p with haz := p.haz } wz wc wr
        (Config.freeBit s.draws) (Config.freeBit (s.draws + 1))) 2 (loadBase dv) (hubAddr sv)
      rw [hcog]
      refine ⟨hstart, hwrote _ rfl rfl rfl rfl, State.startCog_finishes hcur ?_ (Cog.resolve_advance hr) _ _ _⟩
      cases wz <;> cases wc <;> rfl

/-! ## COGSTOP -/

theorem State.stopCog_refused {s : State} {n : Fin 8} {b : HubAddr} {k : Nat} (hn : (s.cogs[n.val]).run = .loading b k) :
    s.stopCog n = .error .cogLoading := by
  simp only [State.stopCog, hn]

theorem State.stopCog_eq {s : State} {n : Fin 8} (hn : ∀ b k, (s.cogs[n.val]).run ≠ .loading b k) :
    s.stopCog n = .ok (if n = s.cur then s.withCog { s.cog with run := .idle }
      else (s.setCog n { s.cogs[n.val] with run := .idle }).withCog (s.cog.retire 1)) := by
  unfold State.stopCog
  cases hrun : (s.cogs[n.val]).run with
  | loading b k => exact absurd hrun (hn b k)
  | idle | running => rfl

theorem execCogstop_eq {cc : CCCC} {d : RegAddr} {s : State} {da sa : RegAddr} {c : Cog} {v : Word}
    (hr : s.cog.resolve cc (some d) none = .ok (.go da sa c)) (hv : c.read da = .ok v) :
    execCogstop cc d s =
      toOut (if h : v.toNat < 8 then (s.withCog c).stopCog ⟨v.toNat, h⟩ else .error .cogNumber) := by
  refine (State.chipInstr_go hr _).trans ?_
  simp only [State.cog_withCog, hv, Except.ok_bind]

theorem execCogstop_of_lt {cc : CCCC} {d : RegAddr} {s : State} {da sa : RegAddr} {c : Cog} {v : Word} {n : Fin 8}
    (hr : s.cog.resolve cc (some d) none = .ok (.go da sa c)) (hv : c.read da = .ok v) (hn : v.toNat = n.val) :
    execCogstop cc d s = toOut ((s.withCog c).stopCog n) := by
  rw [execCogstop_eq hr hv, dif_pos (hn ▸ n.isLt)]
  exact congrArg (fun m => toOut ((s.withCog c).stopCog m)) (Fin.ext hn)

/-- Settles O34: the number, then what the cog does, decides. -/
theorem cogstopStops : Obligations.CogstopStops := by
  unfold Obligations.CogstopStops
  intro cc d s da sa c v hr hv
  refine ⟨fun h8 => ?number, fun n hn => ⟨fun b k hl => ?loading, fun hl => ⟨fun hcur => ?itself, fun hcur => ?another⟩⟩⟩
  case number =>
    refine (execCogstop_eq hr hv).trans ?_
    rw [dif_neg (Nat.not_lt.mpr h8)]
    rfl
  case loading =>
    refine (execCogstop_of_lt hr hv hn).trans ?_
    rw [State.stopCog_refused (by rw [State.run_withCog_resolved hr, hl])]
    rfl
  all_goals
    have hl' : ∀ b k, ((s.withCog c).cogs[n.val]).run ≠ .loading b k := by
      rw [State.run_withCog_resolved hr]
      exact hl
    have hstop := (execCogstop_of_lt hr hv hn).trans (congrArg toOut (State.stopCog_eq hl'))
  case itself =>
    refine hstop.trans ?_
    rw [if_pos (by exact hcur), State.withCog_withCog, State.cog_withCog]
    rfl
  case another =>
    have hcog : (s.withCog c).cogs[n.val] = s.cogs[n.val] := by rw [State.cogs_withCog, if_neg hcur]
    refine ⟨(s.setCog n { s.cogs[n.val] with run := .idle }).withCog (c.retire 1), hstop.trans ?_,
      State.finishes_withCog rfl ?_⟩
    · rw [if_neg (by exact hcur), State.withCog_setCog, State.cog_withCog, hcog]
      rfl
    · have hadv := Cog.resolve_advance hr
      rw [← State.cog_setCog hcur { s.cogs[n.val] with run := .idle }] at hadv
      exact hadv

/-! ## CLKSET -/

/-- An instruction of the moving cog that changes the hub. -/
theorem State.endsAs_hub {s : State} {h : Hub} {g p : Cog} (hg : g.withPipe p = p) :
    s.EndsAs (({ s with hub := h } : State).withCog p) h g := by
  simp only [State.EndsAs, State.cog_withCog, hg]
  rfl

/-- The modes that are refused, by number (R235). -/
theorem clockRefused_iff (v : Word) : clockRefused (v.extractLsb' 0 9) = true
    ↔ (2 ≤ v.toNat % 4 ∧ v.toNat / 4 % 4 = 0) ∨ (v.toNat % 4 = 3 ∧ v.toNat / 16 % 16 = 0) := by
  have hbit : (v.extractLsb' 0 9).getLsbD 1 = true ↔ 2 ≤ v.toNat % 4 := by
    rw [BitVec.getLsbD, Nat.testBit_eq_decide_div_mod_eq, decide_eq_true_eq, BitVec.extractLsb'_toNat]
    omega
  have hfield (k n : Nat) (b : BitVec n) : (((v.extractLsb' 0 9).extractLsb' k n == b) = true)
      ↔ v.toNat % 512 / 2 ^ k % 2 ^ n = b.toNat := by
    rw [beq_iff_eq, ← BitVec.toNat_inj, BitVec.extractLsb'_toNat, BitVec.extractLsb'_toNat, Nat.shiftRight_zero,
      Nat.shiftRight_eq_div_pow]
  have h3 : (3 : BitVec 2).toNat = 3 := rfl
  have hosc : (0 : BitVec 2).toNat = 0 := rfl
  have hpll : (0 : BitVec 4).toNat = 0 := rfl
  simp only [clockRefused, Bool.or_eq_true, Bool.and_eq_true, hbit, hfield, h3, hosc, hpll]
  omega

theorem execClkset_eq {cc : CCCC} {d : RegAddr} {s : State} {da sa : RegAddr} {c : Cog} {v : Word}
    (hr : s.cog.resolve cc (some d) none = .ok (.go da sa c)) (hv : c.read da = .ok v) :
    execClkset cc d s = toOut (if v.getLsbD 8 then .ok (s.withCog c).chipReset
      else if clockRefused (v.extractLsb' 0 9) then .error .clockMode
      else .ok (({ s.withCog c with hub := { s.hub with clkreg := v.extractLsb' 0 9 } } : State).withCog (c.retire 1))) := by
  refine (State.chipInstr_go hr _).trans ?_
  simp only [State.cog_withCog, hv, Except.ok_bind]
  rfl

/-- Settles O35: bit 8 decides, then the mode. -/
theorem clksetSetsClock : Obligations.ClksetSetsClock := by
  unfold Obligations.ClksetSetsClock
  intro cc d s da sa c v hr hv
  simp only [← clockRefused_iff]
  refine ⟨fun h8 hm => ?set, fun h8 hm => ?refused, fun h8 => ?reset⟩
  case set =>
    refine ⟨(({ s with hub := { s.hub with clkreg := v.extractLsb' 0 9 } } : State).withCog (c.retire 1)),
      (execClkset_eq hr hv).trans ?_, State.endsAs_hub rfl, ?_⟩
    · simp only [h8, hm, Bool.false_eq_true, if_false]
      exact congrArg Host.Outcome.next (State.withCog_withCog { s with hub := _ } c _)
    · refine State.goesOn_of_advance ?_
      rw [State.cog_withCog]
      exact Cog.resolve_advance hr
  case refused =>
    refine (execClkset_eq hr hv).trans ?_
    simp only [h8, hm, Bool.false_eq_true, if_false, if_true]
    rfl
  case reset =>
    refine ⟨_, (execClkset_eq hr hv).trans (by rw [if_pos h8]; rfl), rfl, fun n => ?_⟩
    simp only [State.chipReset, Vector.getElem_ofFn]
    rfl

/-! ## Locks -/

theorem View.newLock_eq {v : View} {da : RegAddr} {r : Word} {g : Cog} (hw : v.cog.write da r = .ok g)
    (wz wc busy : Bool) : v.newLock wz wc da r busy = .ok { v with
      cog := ((g.flagZ wz (zeroFlag r)).flagC wc busy).retire 2, draws := v.draws + 1 } := by
  simp only [View.newLock, hw, Except.ok_bind]
  rfl

theorem execLocknew_free {wz wc : Bool} {cc : CCCC} {d : RegAddr} {s : State} {da sa : RegAddr} {c g : Cog}
    {first : Fin 8} {rest : List (Fin 8)} {n : Fin 8} (hr : s.cog.resolve cc (some d) none = .ok (.go da sa c))
    (hfree : s.hub.freeLocks = first :: rest) (hn : choose s.draws first rest = n)
    (hw : c.write da (BitVec.ofNat 32 n.val) = .ok g) :
    execLocknew wz wc cc d s = .next (s.withView { s.viewOf c with
      hub := s.hub.checkLock n true, draws := s.draws + 1,
      cog := ((g.flagZ wz (zeroFlag (BitVec.ofNat 32 n.val))).flagC wc false).retire 2 }) := by
  subst hn
  refine State.instr_next hr ?_
  simp only [show (s.viewOf c).hub.freeLocks = _ from hfree]
  exact congrArg (· >>= _) (View.newLock_eq (v := s.viewOf c) hw wz wc false)

theorem execLocknew_busy {wz wc : Bool} {cc : CCCC} {d : RegAddr} {s : State} {da sa : RegAddr} {c g : Cog}
    (hr : s.cog.resolve cc (some d) none = .ok (.go da sa c)) (hfree : s.hub.freeLocks = [])
    (hw : c.write da (Config.freeWord s.draws) = .ok g) :
    execLocknew wz wc cc d s = .next (s.withView { s.viewOf c with
      draws := s.draws + 1, cog := ((g.flagZ wz (zeroFlag (Config.freeWord s.draws))).flagC wc true).retire 2 }) := by
  refine State.instr_next hr ?_
  simp only [show (s.viewOf c).hub.freeLocks = _ from hfree]
  exact View.newLock_eq (v := s.viewOf c) hw wz wc true

/-- Whether the long of a cog's or lock's number is 0. -/
theorem zeroFlag_ofNat (n : Fin 8) : zeroFlag (BitVec.ofNat 32 n.val) = (n.val == 0) := by
  revert n
  decide

/-- Settles O36: the candidate chosen is among the free locks. -/
theorem locknewTakesFree : Obligations.LocknewTakesFree := by
  unfold Obligations.LocknewTakesFree
  intro wz wc cc d s da sa c hs hr ha
  have hc := Cog.resolve_keeps (State.cog_ok hs) hr
  have hadv := Cog.resolve_advance hr
  refine ⟨fun hfree => ?free, fun hbusy => ?busy⟩
  case free =>
    obtain ⟨first, rest, hlist⟩ : ∃ first rest, s.hub.freeLocks = first :: rest := by
      obtain ⟨m, hm⟩ := hfree
      exact List.exists_cons_of_ne_nil (List.ne_nil_of_mem (Hub.mem_freeLocks.mpr hm))
    obtain ⟨n, hn⟩ : ∃ n, choose s.draws first rest = n := ⟨_, rfl⟩
    have hout : (s.hub.locks[n.val]).out = false :=
      Hub.mem_freeLocks.mp (by rw [hlist, ← hn]; exact choose_mem _ _ _)
    obtain ⟨p, hw, hwrote⟩ := Cog.write_regs hc (BitVec.ofNat 32 n.val) ha
    refine ⟨_, n, execLocknew_free hr hlist hn hw, hout, ?_⟩
    rw [State.cog_withView, zeroFlag_ofNat]
    refine ⟨hwrote _ rfl rfl rfl rfl, State.goesOn_of_advance ?_, State.endsAs_withView rfl rfl⟩
    rw [State.cog_withView]
    exact hadv
  case busy =>
    have hlist : s.hub.freeLocks = [] := by
      refine List.eq_nil_iff_forall_not_mem.mpr fun n hn => ?_
      rw [Hub.mem_freeLocks, hbusy n] at hn
      cases hn
    obtain ⟨p, hw, hwrote⟩ := Cog.write_regs hc (Config.freeWord s.draws) ha
    refine ⟨_, Config.freeWord s.draws, execLocknew_busy hr hlist hw, ?_⟩
    rw [State.cog_withView]
    exact ⟨hwrote _ rfl rfl rfl rfl, State.finishes_resolved hr rfl rfl rfl⟩

theorem Cog.lockOf_refused {c : Cog} {da : RegAddr} {v : Word} (hv : c.read da = .ok v) (h8 : 8 ≤ v.toNat) :
    c.lockOf da = .error .lockNumber := by
  simp only [Cog.lockOf, hv, Except.ok_bind, Nat.not_lt.mpr h8, dif_neg, not_false_eq_true]

theorem Cog.lockOf_eq {c : Cog} {da : RegAddr} {v : Word} {n : Fin 8} (hv : c.read da = .ok v) (hn : v.toNat = n.val) :
    c.lockOf da = .ok n := by
  have h8 : v.toNat < 8 := hn ▸ n.isLt
  simp only [Cog.lockOf, hv, Except.ok_bind, h8, dif_pos]
  exact congrArg Except.ok (Fin.ext hn)

/-- Reading the lock's number is the first thing that LOCKRET, LOCKSET and LOCKCLR do. -/
theorem lockInstr_refused {wc : Bool} {cc : CCCC} {d : RegAddr} {s : State} {da sa : RegAddr} {c : Cog} {e : Refusal}
    (hr : s.cog.resolve cc (some d) none = .ok (.go da sa c)) (hl : c.lockOf da = .error e) :
    execLockret cc d s = .refused e ∧ execLockset wc cc d s = .refused e ∧ execLockclr wc cc d s = .refused e := by
  refine ⟨State.instr_refused hr ?_, State.instr_refused hr ?_, State.instr_refused hr ?_⟩ <;>
    simp only [View.writeLock, State.viewOf_cog, hl, Except.error_bind]

theorem execLockret_next {cc : CCCC} {d : RegAddr} {s : State} {da sa : RegAddr} {c : Cog} {n : Fin 8}
    (hr : s.cog.resolve cc (some d) none = .ok (.go da sa c)) (hl : c.lockOf da = .ok n) :
    execLockret cc d s =
      .next (s.withView { s.viewOf c with hub := s.hub.checkLock n false, cog := c.retire 1 }) :=
  State.instr_next hr (by simp only [State.viewOf_cog, hl, Except.ok_bind]; rfl)

theorem View.writeLock_eq {v : View} {da : RegAddr} {n : Fin 8} (hl : v.cog.lockOf da = .ok n) (wc b : Bool) :
    v.writeLock wc da b = .ok { v with
      hub := v.hub.setLock n b,
      cog := (v.cog.flagC wc (v.hub.locks[n.val]).set).retire (if wc then 2 else 1) } := by
  simp only [View.writeLock, hl, Except.ok_bind]
  rfl

/-- LOCKSET and LOCKCLR. -/
theorem State.writeLock_ends {wc b : Bool} {cc : CCCC} {d : RegAddr} {s : State} {da sa : RegAddr} {c : Cog} {n : Fin 8}
    (hr : s.cog.resolve cc (some d) none = .ok (.go da sa c)) (hl : c.lockOf da = .ok n) :
    ∃ t, s.instr cc (some d) none (fun da _ v => v.writeLock wc da b) = .next t ∧ s.GoesOn t
      ∧ s.EndsAs t { s.hub with locks := s.hub.locks.set n.val ⟨b, (s.hub.locks[n.val]).out⟩ }
        { c with c := if wc then (s.hub.locks[n.val]).set else c.c } := by
  have hadv := Cog.resolve_advance hr
  refine ⟨_, State.instr_next hr (View.writeLock_eq (v := s.viewOf c) hl wc b), State.goesOn_of_advance ?_,
    State.endsAs_withView rfl rfl⟩
  rw [State.cog_withView]
  exact hadv

/-- Settles O37: the number decides; the three differ in the bit of the lock they change. -/
theorem locksWork : Obligations.LocksWork := by
  unfold Obligations.LocksWork
  intro wc cc d s da sa c v hr hv
  refine ⟨fun h8 => lockInstr_refused hr (Cog.lockOf_refused hv h8), fun n hn => ?_⟩
  have hl := Cog.lockOf_eq hv hn
  have hadv := Cog.resolve_advance hr
  refine ⟨⟨_, execLockret_next hr hl, State.goesOn_of_advance ?_, State.endsAs_withView rfl rfl⟩,
    State.writeLock_ends hr hl, State.writeLock_ends hr hl⟩
  rw [State.cog_withView]
  exact hadv

end Sys2Proof.Machine
end

section
/-! PROOFS. Branches (R320..R351). -/

-- The check compiles one text under a memory limit that bounds the threads: elaborate in order.
set_option Elab.async false

namespace Sys2Proof.Machine

/-! ## The end of a branch -/

/-- The cog after a taken branch (R320, R321). -/
def Cog.branchEnd (c : Cog) (delayed : Bool) (tgt : RegAddr) : Cog := if delayed then c.delayTo tgt else c.branchTo tgt

theorem View.branch_taken {v : View} {delayed cond : Bool}
    (h : delayed = true ∨ cond = false ∨ v.cog.stepsAhead = false) (tgt : RegAddr) :
    v.branch delayed cond true tgt = .ok (v.withCog (v.cog.branchEnd delayed tgt)) := by
  rw [View.branch_cases, if_pos rfl]
  cases delayed with
  | true => rfl
  | false =>
    have hahead : (cond && v.cog.stepsAhead) = false := by
      rcases h with h | h | h
      · cases h
      · rw [h, Bool.false_and]
      · rw [h, Bool.and_false]
    rw [hahead]
    rfl

theorem View.branch_ahead {v : View} (h : v.cog.stepsAhead = true) (tgt : RegAddr) :
    v.branch false true true tgt = .error .stepAfterBranch := by
  rw [View.branch_cases, h]
  rfl

theorem View.branch_passed (v : View) (delayed cond : Bool) (tgt : RegAddr) :
    v.branch delayed cond false tgt = .ok (v.retire 1) := by
  rw [View.branch_cases]
  rfl

theorem State.branchInstr_next {s : State} {cc : CCCC} {d x : Option RegAddr} {da sa : RegAddr} {c : Cog}
    (hp : s.cog.pend = none) (hr : s.cog.resolve cc d x = .ok (.go da sa c))
    {body : RegAddr → RegAddr → View → Except Refusal View} {v : View} (hb : body da sa (s.viewOf c) = .ok v) :
    s.branchInstr cc d x body = .next (s.withView v) := by
  rw [State.branchInstr_eq hp]
  exact State.instr_next hr hb

theorem State.branchInstr_refused {s : State} {cc : CCCC} {d x : Option RegAddr} {da sa : RegAddr} {c : Cog}
    (hp : s.cog.pend = none) (hr : s.cog.resolve cc d x = .ok (.go da sa c))
    {body : RegAddr → RegAddr → View → Except Refusal View} {e : Refusal} (hb : body da sa (s.viewOf c) = .error e) :
    s.branchInstr cc d x body = .refused e := by
  rw [State.branchInstr_eq hp]
  exact State.instr_refused hr hb

theorem State.nrInstr_next {s : State} {cc : CCCC} {d : BitVec 9} {x : Option RegAddr} {da sa : RegAddr} {c : Cog}
    (hd : isIndAddr d = false) (hp : s.cog.pend = none) (hr : s.cog.resolve cc none x = .ok (.go da sa c))
    {body : RegAddr → View → Except Refusal View} {v : View} (hb : body sa (s.viewOf c) = .ok v) :
    s.nrInstr cc d x body = .next (s.withView v) := by
  rw [State.nrInstr_eq hd]
  exact State.branchInstr_next hp hr hb

theorem State.nrInstr_refused {s : State} {cc : CCCC} {d : BitVec 9} {x : Option RegAddr} {da sa : RegAddr} {c : Cog}
    (hd : isIndAddr d = false) (hp : s.cog.pend = none) (hr : s.cog.resolve cc none x = .ok (.go da sa c))
    {body : RegAddr → View → Except Refusal View} {e : Refusal} (hb : body sa (s.viewOf c) = .error e) :
    s.nrInstr cc d x body = .refused e := by
  rw [State.nrInstr_eq hd]
  exact State.branchInstr_refused hp hr hb

/-- Resolving operands leaves the address and the pending branch. -/
theorem Cog.resolve_pc {c g : Cog} {cc : CCCC} {d x : Option RegAddr} {da sa : RegAddr}
    (h : c.resolve cc d x = .ok (.go da sa g)) : g.pc = c.pc ∧ g.pend = c.pend := by
  rw [Cog.resolve_frame h]
  exact ⟨rfl, rfl⟩

/-- A taken branch of a cog with no delayed branch pending goes to its target (R320, R321). -/
theorem State.jumps_branchEnd {s : State} {v : View} (hp : s.cog.pend = none)
    (hg : v.cog.pc = s.cog.pc ∧ v.cog.pend = s.cog.pend) (delayed : Bool) (tgt : RegAddr) :
    s.Jumps (s.withView (v.withCog (v.cog.branchEnd delayed tgt))) delayed tgt := by
  obtain ⟨hpc, hpend⟩ := hg
  unfold State.Jumps
  rw [State.cog_withView]
  cases delayed with
  | true =>
    refine ⟨?_, rfl⟩
    show v.cog.advance.1 = s.cog.pc + 1
    simp only [Cog.advance, hpend.trans hp, hpc]
  | false => exact ⟨rfl, hpend⟩

/-! ## JMPRET -/

theorem linkWord_toNat (d : Word) (back : RegAddr) (wz wc z c : Bool) :
    (linkWord d back wz wc z c).toNat = d.toNat / 2 ^ 11 * 2 ^ 11 + (if wz then z else d.getLsbD 10).toNat * 2 ^ 10
      + (if wc then c else d.getLsbD 9).toNat * 2 ^ 9 + back.toNat := by
  have hd := d.isLt
  unfold linkWord
  simp only [toNat_append_eq_add, BitVec.toNat_ofBool, BitVec.extractLsb'_toNat, Nat.shiftRight_eq_div_pow]
  omega

/-- The parts of a stored link word (R322). -/
theorem linked_linkWord (d : Word) (back : RegAddr) (wz wc z c : Bool) :
    Statement.Linked (linkWord d back wz wc z c) d back wz wc z c := by
  have hw := linkWord_toNat d back wz wc z c
  have hback := back.isLt
  have hz := Bool.toNat_lt_two (if wz then z else d.getLsbD 10)
  have hc := Bool.toNat_lt_two (if wc then c else d.getLsbD 9)
  refine ⟨?_, testBit_of_digit ?_, testBit_of_digit ?_, ?_⟩
  · apply BitVec.eq_of_toNat_eq
    rw [BitVec.extractLsb'_toNat, hw, Nat.shiftRight_eq_div_pow]
    omega
  · rw [hw]
    omega
  · rw [hw]
    omega
  · apply BitVec.eq_of_toNat_eq
    rw [BitVec.extractLsb'_toNat, BitVec.extractLsb'_toNat, hw, Nat.shiftRight_eq_div_pow, Nat.shiftRight_eq_div_pow]
    omega

theorem View.jmpretReg_eq {v : View} {delayed wz wc : Bool} {da sa : RegAddr} {sv : Word} {g : Cog}
    (hv : v.cog.read sa = .ok sv) (hl : v.cog.link delayed wz wc da = .ok g) (cond : Bool) :
    v.jmpretReg delayed wz wc cond da sa =
      (v.withCog (g.reload wz wc sv)).branch delayed cond true (sv.extractLsb' 0 9) := by
  simp only [View.jmpretReg, hv, hl, Except.ok_bind]

theorem View.jmpretImm_eq {v : View} {delayed wz wc : Bool} {da : RegAddr} {g : Cog}
    (hl : v.cog.link delayed wz wc da = .ok g) (cond : Bool) (n : BitVec 9) :
    v.jmpretImm delayed wz wc cond da n = (v.withCog g).branch delayed cond true n := by
  simp only [View.jmpretImm, hl, Except.ok_bind]

theorem View.jmpReg_eq {v : View} {sa : RegAddr} {sv : Word} (hv : v.cog.read sa = .ok sv) (delayed wz wc cond : Bool) :
    v.jmpReg delayed wz wc cond sa =
      (v.withCog (v.cog.reload wz wc sv)).branch delayed cond true (sv.extractLsb' 0 9) := by
  simp only [View.jmpReg, hv, Except.ok_bind]

theorem View.jmpImm_eq (v : View) (delayed wz wc cond : Bool) (d n : BitVec 9) :
    v.jmpImm delayed wz wc cond d n =
      (v.withCog ((v.cog.flagC wc (d.getLsbD 0)).flagZ wz (d.getLsbD 1))).branch delayed cond true n := rfl

/-- Reloading the flags leaves what lies ahead. -/
theorem Cog.stepsAhead_reload (c : Cog) (wz wc : Bool) (w : Word) : (c.reload wz wc w).stepsAhead = c.stepsAhead :=
  Cog.stepsAhead_congr rfl rfl rfl rfl

/-- A link stores the link word in D. -/
theorem Cog.link_regs {c : Cog} (hc : c.ok = true) {da : RegAddr} {dv : Word} (hd : c.read da = .ok dv)
    (delayed wz wc : Bool) :
    ∃ p : Cog, c.link delayed wz wc da = .ok { c.withRegs p with haz := p.haz }
      ∧ ∀ t : Cog, t.ram = p.ram → t.quad = p.quad → t.qbase = c.qbase → t.lastStored = p.lastStored →
        c.Wrote t da (linkWord dv (c.pc + if delayed then 4 else 1) wz wc c.z c.c) := by
  obtain ⟨p, hw, hwrote⟩ := Cog.write_regs hc (linkWord dv (c.pc + if delayed then 4 else 1) wz wc c.z c.c)
    (Cog.read_plain hd)
  exact ⟨p, (Cog.link_eq hd delayed wz wc).trans hw, hwrote⟩

/-- JMPRET D,S of a resolved cog, whatever decides whether it is conditional. -/
theorem State.jmpretReg_ends {delayed wz wc cond : Bool} {cc : CCCC} {d x : Option RegAddr} {s : State} {da sa : RegAddr}
    {c : Cog} {dv sv : Word} (hs : s.ok = true) (hp : s.cog.pend = none)
    (hr : s.cog.resolve cc d x = .ok (.go da sa c)) (hd : c.read da = .ok dv) (hv : c.read sa = .ok sv)
    (hahead : delayed = true ∨ cond = false ∨ ∀ g, c.link delayed wz wc da = .ok g → g.stepsAhead = false) :
    ∃ (t : State) (w : Word),
      s.branchInstr cc d x (fun da sa v => v.jmpretReg delayed wz wc cond da sa) = .next t
      ∧ Statement.Linked w dv (s.cog.pc + if delayed then 4 else 1) wz wc c.z c.c ∧ c.Wrote t.cog da w
      ∧ s.Jumps t delayed (sv.extractLsb' 0 9)
      ∧ s.EndsAs t s.hub { c.withRegs t.cog with
          z := if wz then sv.getLsbD 10 else c.z, c := if wc then sv.getLsbD 9 else c.c } := by
  obtain ⟨p, hl, hwrote⟩ := Cog.link_regs (Cog.resolve_keeps (State.cog_ok hs) hr) hd delayed wz wc
  have hpc := Cog.resolve_pc hr
  have hbody := (View.jmpretReg_eq (v := s.viewOf c) hv hl cond).trans (View.branch_taken
    (hahead.imp_right fun h => h.imp_right fun h => (Cog.stepsAhead_reload _ _ _ _).trans (h _ hl)) _)
  refine ⟨_, linkWord dv (c.pc + if delayed then 4 else 1) wz wc c.z c.c, State.branchInstr_next hp hr hbody, ?_, ?_, State.jumps_branchEnd hp (by exact hpc) _ _, ?_⟩
  · rw [← hpc.1]
    exact linked_linkWord _ _ _ _ _ _
  · rw [State.cog_withView]
    cases delayed <;> exact hwrote _ rfl rfl rfl rfl
  · rw [State.cog_withView]
    cases delayed <;> exact State.endsAs_withView rfl rfl

/-- Settles O48: the two instructions have one body. -/
theorem jmpretRegister : Obligations.JmpretRegister := by
  unfold Obligations.JmpretRegister
  constructor <;> exact fun wz wc cc d x s da sa c dv sv hs hp hr hd hv hahead => State.jmpretReg_ends hs hp hr hd hv hahead

theorem State.jmpretImm_ends {delayed wz wc : Bool} {cc : CCCC} {d : RegAddr} {n : BitVec 9} {s : State}
    {da sa : RegAddr} {c : Cog} {dv : Word} (hs : s.ok = true) (hp : s.cog.pend = none)
    (hr : s.cog.resolve cc (some d) none = .ok (.go da sa c)) (hd : c.read da = .ok dv)
    (hahead : delayed = true ∨ conditional cc (some d) none = false
      ∨ ∀ g, c.link delayed wz wc da = .ok g → g.stepsAhead = false) :
    ∃ (t : State) (w : Word),
      s.branchInstr cc (some d) none (fun da _ v =>
        v.jmpretImm delayed wz wc (conditional cc (some d) none) da n) = .next t
      ∧ Statement.Linked w dv (s.cog.pc + if delayed then 4 else 1) wz wc c.z c.c ∧ c.Wrote t.cog da w
      ∧ s.Jumps t delayed n ∧ s.EndsAs t s.hub (c.withRegs t.cog) := by
  obtain ⟨p, hl, hwrote⟩ := Cog.link_regs (Cog.resolve_keeps (State.cog_ok hs) hr) hd delayed wz wc
  have hpc := Cog.resolve_pc hr
  have hbody := (View.jmpretImm_eq (v := s.viewOf c) hl (conditional cc (some d) none) n).trans
    (View.branch_taken (hahead.imp_right fun h => h.imp_right fun h => h _ hl) _)
  refine ⟨_, linkWord dv (c.pc + if delayed then 4 else 1) wz wc c.z c.c, State.branchInstr_next hp hr hbody, ?_, ?_, State.jumps_branchEnd hp (by exact hpc) _ _, ?_⟩
  · rw [← hpc.1]
    exact linked_linkWord _ _ _ _ _ _
  · rw [State.cog_withView]
    cases delayed <;> exact hwrote _ rfl rfl rfl rfl
  · rw [State.cog_withView]
    cases delayed <;> exact State.endsAs_withView rfl rfl

/-- Settles O49: the four instructions have one body. -/
theorem jmpretImmediate : Obligations.JmpretImmediate := by
  unfold Obligations.JmpretImmediate
  refine ⟨?_, ?_, ?_, ?_⟩ <;>
    exact fun wz wc cc d n s da sa c dv hs hp hr hd hahead => State.jmpretImm_ends hs hp hr hd hahead

/-! ## JMP -/

theorem State.jmpReg_ends {delayed wz wc : Bool} {cc : CCCC} {d : BitVec 9} {x : RegAddr} {s : State} {da sa : RegAddr}
    {c : Cog} {sv : Word} (hind : isIndAddr d = false) (hp : s.cog.pend = none)
    (hr : s.cog.resolve cc none (some x) = .ok (.go da sa c)) (hv : c.read sa = .ok sv)
    (hahead : delayed = true ∨ conditional cc none (some x) = false ∨ c.stepsAhead = false) :
    ∃ t, s.nrInstr cc d (some x) (fun sa v => v.jmpReg delayed wz wc (conditional cc none (some x)) sa) = .next t
      ∧ s.Jumps t delayed (sv.extractLsb' 0 9)
      ∧ s.EndsAs t s.hub { c with
          z := if wz then sv.getLsbD 10 else c.z, c := if wc then sv.getLsbD 9 else c.c } := by
  have hpc := Cog.resolve_pc hr
  have hbody := (View.jmpReg_eq (v := s.viewOf c) hv delayed wz wc (conditional cc none (some x))).trans
    (View.branch_taken (hahead.imp_right fun h => h.imp_right fun h => (Cog.stepsAhead_reload _ _ _ _).trans h) _)
  refine ⟨_, State.nrInstr_next hind hp hr hbody, State.jumps_branchEnd hp (by exact hpc) _ _, ?_⟩
  cases delayed <;> exact State.endsAs_withView rfl rfl

/-- Settles O50: the six instructions have one body. -/
theorem jumpRegister : Obligations.JumpRegister := by
  unfold Obligations.JumpRegister
  have hzero : isIndAddr 0 = false := by decide
  refine ⟨?_, ?_, fun d hd => ⟨?_, ?_⟩⟩
  · exact fun wz wc cc x s da sa c sv hp hr hv hahead => State.jmpReg_ends hzero hp hr hv hahead
  · exact fun wz wc cc x s da sa c sv hp hr hv hahead => State.jmpReg_ends hzero hp hr hv hahead
  · exact fun wz wc cc x s da sa c sv hp hr hv hahead => State.jmpReg_ends hd hp hr hv hahead
  · exact fun wz wc cc x s da sa c sv hp hr hv hahead => State.jmpReg_ends hd hp hr hv hahead

/-- An instruction without register fields whose condition holds. -/
theorem Cog.resolve_cond {c : Cog} {cc : CCCC} (h : condHolds cc c.z c.c = true) :
    c.resolve cc none none = .ok (.go 0 0 c) := by
  rw [Cog.resolve_direct rfl rfl, if_pos h]
  rfl

theorem State.jmpImm_ends {delayed wz wc : Bool} {cc : CCCC} {d n : BitVec 9} {s : State} (hind : isIndAddr d = false)
    (hp : s.cog.pend = none) (hcc : condHolds cc s.cog.z s.cog.c = true)
    (hahead : delayed = true ∨ cc = 0b1111 ∨ s.cog.stepsAhead = false) :
    ∃ t, s.nrInstr cc d none (fun _ v => v.jmpImm delayed wz wc (conditional cc none none) d n) = .next t
      ∧ s.Jumps t delayed n
      ∧ s.EndsAs t s.hub { s.cog with
          z := if wz then d.getLsbD 1 else s.cog.z, c := if wc then d.getLsbD 0 else s.cog.c } := by
  have hr := Cog.resolve_cond hcc
  have hsteps : ((s.cog.flagC wc (d.getLsbD 0)).flagZ wz (d.getLsbD 1)).stepsAhead = s.cog.stepsAhead :=
    Cog.stepsAhead_congr rfl rfl rfl rfl
  have hcond : cc = 0b1111 → conditional cc none none = false := by
    rintro rfl
    rfl
  have hstay : delayed = true ∨ conditional cc none none = false
      ∨ ((s.cog.flagC wc (d.getLsbD 0)).flagZ wz (d.getLsbD 1)).stepsAhead = false :=
    hahead.imp_right (Or.imp hcond hsteps.trans)
  have hbody := (View.jmpImm_eq (s.viewOf s.cog) delayed wz wc (conditional cc none none) d n).trans
    (View.branch_taken (v := (s.viewOf s.cog).withCog _) hstay n)
  refine ⟨_, State.nrInstr_next hind hp hr hbody, State.jumps_branchEnd hp ⟨rfl, rfl⟩ _ _, ?_⟩
  cases delayed <;> exact State.endsAs_withView rfl rfl

/-- Settles O51: the six instructions have one body. -/
theorem jumpImmediate : Obligations.JumpImmediate := by
  unfold Obligations.JumpImmediate
  have hzero : isIndAddr 0 = false := by decide
  refine fun n => ⟨?_, ?_, ?_, ?_, fun d hd => ⟨?_, ?_⟩⟩
  · exact fun wz wc cc s hp hcc hahead => State.jmpImm_ends hzero hp hcc hahead
  · exact fun wz wc cc s hp hcc hahead => State.jmpImm_ends hzero hp hcc hahead
  · exact fun wz wc cc s hp hcc hahead => State.jmpImm_ends hzero hp hcc hahead
  · exact fun wz wc cc s hp hcc hahead => State.jmpImm_ends hzero hp hcc hahead
  · exact fun wz wc cc s hp hcc hahead => State.jmpImm_ends hd hp hcc hahead
  · exact fun wz wc cc s hp hcc hahead => State.jmpImm_ends hd hp hcc hahead

/-! ## TASKSW -/

theorem encode_tasksw : encode .tasksw = Statement.row 0b000111 0b111 0 0b0011 0b111110110 0b111110110 := by
  decide

theorem encode_taskswd : encode .taskswd = Statement.row 0b010111 0b111 0 0b0011 0b111110110 0b111110110 := by
  decide

theorem indRefused_none {i : Ind} {form : BitVec 2} (hset : i.isSet = true) (hage : 2 ≤ i.age)
    (h : plainReg (Statement.indAddr i form)) : Statement.indRefused i form = none := by
  unfold Statement.indRefused
  rw [if_neg (by simp [hset]), if_neg (Nat.not_lt.mpr hage), if_neg (by exact Nat.not_le.mpr h)]

/-- The operands INDA,++INDA: D is the register the pointer is at, S the next one of the ring, and the pointer moves
there (R263..R265). -/
theorem Cog.resolve_taskSwitch {c : Cog} (hset : c.inda.isSet = true) (hage : 2 ≤ c.inda.age)
    (hd : plainReg c.inda.ptr) (hx : plainReg c.inda.inc) :
    c.resolve 0b0011 (some indaAddr) (some indaAddr)
      = .ok (.go c.inda.ptr c.inda.inc { c with inda := { c.inda with ptr := c.inda.inc } }) := by
  have hfield : (some indaAddr).bind indReg = some .a := by decide
  have hptr : c.fieldAddr ((some indaAddr).getD 0) (formD 0b0011) = .ok c.inda.ptr :=
    Cog.fieldAddr_indirect hfield (indRefused_none hset hage hd)
  have hinc : c.fieldAddr ((some indaAddr).getD 0) (formS 0b0011) = .ok c.inda.inc :=
    Cog.fieldAddr_indirect hfield (indRefused_none hset hage hx)
  rw [Cog.resolve_indirect (.inl (by decide)), hptr, hinc]
  rfl

theorem State.taskSwitch_ends {delayed : Bool} {s : State} (hs : s.ok = true) (hp : s.cog.pend = none)
    (hset : s.cog.inda.isSet = true) (hage : 2 ≤ s.cog.inda.age) {dv sv : Word}
    (hd : s.cog.read s.cog.inda.ptr = .ok dv) (hv : s.cog.read s.cog.inda.inc = .ok sv) :
    ∃ (t : State) (w : Word),
      s.branchInstr 0b0011 (some indaAddr) (some indaAddr)
        (fun da sa v => v.jmpretReg delayed true true false da sa) = .next t
      ∧ Statement.Linked w dv (s.cog.pc + if delayed then 4 else 1) true true s.cog.z s.cog.c
      ∧ s.cog.Wrote t.cog s.cog.inda.ptr w ∧ s.Jumps t delayed (sv.extractLsb' 0 9)
      ∧ s.EndsAs t s.hub { s.cog.withRegs t.cog with
          inda := { s.cog.inda with ptr := s.cog.inda.inc }, z := sv.getLsbD 10, c := sv.getLsbD 9 } :=
  State.jmpretReg_ends hs hp (Cog.resolve_taskSwitch hset hage (Cog.read_plain hd) (Cog.read_plain hv)) hd hv
    (.inr (.inl rfl))

/-- Settles O52: a JMPRET whose operands are INDA and ++INDA. -/
theorem taskSwitches : Obligations.TaskSwitches := by
  unfold Obligations.TaskSwitches
  refine ⟨encode_tasksw, encode_taskswd, ?_, ?_⟩
  · exact fun s hs hp hset hage dv sv hd hv => State.taskSwitch_ends hs hp hset hage hd hv
  · exact fun s hs hp hset hage dv sv hd hv => State.taskSwitch_ends hs hp hset hage hd hv

end Sys2Proof.Machine
end

section
/-! PROOFS. Conditional branches (R336..R351), and the refusals of branches (R321, R544). -/

-- The check compiles one text under a memory limit that bounds the threads: elaborate in order.
set_option Elab.async false

namespace Sys2Proof.Machine

/-! ## Branches that test -/

theorem View.pinBranch_eq {v : View} {d : Word} {low delayed : Bool} {da sa tgt : RegAddr} {x : RegOrImm}
    (hd : v.cog.read da = .ok d) (ht : v.cog.target x sa = .ok tgt) :
    v.pinBranch low delayed da x sa = (({ v with draws := v.draws + 1 } : View).selectors low delayed).branch delayed true
      (Config.freeBit v.draws != low) tgt := by
  simp only [View.pinBranch, hd, ht, Except.ok_bind]

/-- Free flags leave what lies ahead. -/
theorem View.stepsAhead_selectors (v : View) (nz delayed : Bool) :
    (v.selectors nz delayed).cog.stepsAhead = v.cog.stepsAhead := by
  rw [View.selectors_eq]
  exact Cog.stepsAhead_congr rfl rfl rfl rfl

theorem View.testBranch_ahead {v : View} (h : v.cog.stepsAhead = true) (nz : Bool) (tgt : RegAddr) :
    (v.selectors nz false).branch false true true tgt = .error .stepAfterBranch :=
  View.branch_ahead ((View.stepsAhead_selectors v nz false).trans h) tgt

theorem State.goesOn_retire {s : State} {v : View} (h : v.cog.advance = s.cog.advance) (clk : Nat) :
    s.GoesOn (s.withView (v.retire clk)) := by
  refine State.goesOn_of_advance ?_
  rw [State.cog_withView]
  exact h

/-- What the end of a conditional branch leaves: the registers and, up to the free flags, the cog. -/
structure TestEnd (s : State) (v w : View) (nz delayed taken : Bool) (tgt : RegAddr) : Prop where
  next : (v.selectors nz delayed).branch delayed true taken tgt = .ok w
  ram : w.cog.ram = v.cog.ram
  quad : w.cog.quad = v.cog.quad
  qbase : w.cog.qbase = v.cog.qbase
  lastStored : w.cog.lastStored = v.cog.lastStored
  jump : Statement.MayJump s (s.withView w) taken delayed tgt
  ends : s.EndsAs (s.withView w) s.hub
    { v.cog with z := if nz then w.cog.z else v.cog.z, c := if delayed then w.cog.c else v.cog.c }

/-- A conditional branch that is not refused jumps or goes on. -/
theorem View.testEnd {s : State} {v : View} (hh : v.hub = s.hub) (hp : s.cog.pend = none)
    (hpc : v.cog.pc = s.cog.pc ∧ v.cog.pend = s.cog.pend) (nz : Bool) {delayed taken : Bool} (tgt : RegAddr)
    (hahead : delayed = true ∨ taken = false ∨ v.cog.stepsAhead = false) :
    ∃ w, TestEnd s v w nz delayed taken tgt := by
  have hsel := View.selectors_eq v nz delayed
  cases taken with
  | true =>
    have hstay : delayed = true ∨ true = false ∨ (v.selectors nz delayed).cog.stepsAhead = false :=
      hahead.imp_right fun h => .inr ((View.stepsAhead_selectors v nz delayed).trans
        (h.resolve_left fun h => nomatch h))
    refine ⟨_, View.branch_taken hstay tgt, ?_, ?_, ?_, ?_, State.jumps_branchEnd hp (by rw [hsel]; exact hpc) _ _, ?_⟩
    all_goals rw [hsel]
    · cases delayed <;> rfl
    · cases delayed <;> rfl
    · cases delayed <;> rfl
    · cases delayed <;> rfl
    · cases delayed <;> cases nz <;> exact State.endsAs_withView hh rfl
  | false =>
    have hadv : v.cog.advance = s.cog.advance := Cog.advance_congr hpc.1 hpc.2
    refine ⟨_, View.branch_passed _ _ _ tgt, ?_, ?_, ?_, ?_, State.goesOn_retire (by rw [hsel]; exact hadv) 1, ?_⟩
    all_goals rw [hsel]
    · rfl
    · rfl
    · rfl
    · rfl
    · cases delayed <;> cases nz <;> exact State.endsAs_withView hh rfl

/-! ## IJx and DJx -/

theorem State.countBranch_ends {delta : Word} {nz delayed wr : Bool} {cc : CCCC} {d : RegAddr} {x : RegOrImm} {s : State}
    {da sa tgt : RegAddr} {c : Cog} {dv : Word} (hs : s.ok = true) (hp : s.cog.pend = none)
    (hr : s.cog.resolve cc (some d) x.regField = .ok (.go da sa c)) (hd : c.read da = .ok dv)
    (ht : c.target x sa = .ok tgt)
    (hahead : delayed = true ∨ ((dv + delta == 0) == nz) = true
      ∨ ∀ g, c.result wr da (dv + delta) = .ok g → g.stepsAhead = false) :
    ∃ t, s.branchInstr cc (some d) x.regField (fun da sa v => v.countBranch delta nz delayed wr da x sa) = .next t
      ∧ c.WroteIf t.cog wr da (dv + delta)
      ∧ Statement.MayJump s t ((dv + delta == 0) != nz) delayed tgt
      ∧ s.EndsAs t s.hub { c.withRegs t.cog with
          z := if nz then t.cog.z else c.z, c := if delayed then t.cog.c else c.c } := by
  have hpc := Cog.resolve_pc hr
  obtain ⟨p, hw, hwrote⟩ := Cog.result_regs (wr := wr) (Cog.resolve_keeps (State.cog_ok hs) hr) (dv + delta)
    fun _ => Cog.read_plain hd
  have hstay : delayed = true ∨ ((dv + delta == 0) != nz) = false
      ∨ ((s.viewOf c).withCog { c.withRegs p with haz := p.haz }).cog.stepsAhead = false :=
    hahead.imp_right fun h => h.imp (fun h => by rw [bne, h]; rfl) fun h => h _ hw
  obtain ⟨w, hnext, hram, hquad, hbase, hlast, hjump, hends⟩ := View.testEnd (s := s)
    (v := (s.viewOf c).withCog { c.withRegs p with haz := p.haz }) rfl hp hpc nz tgt hstay
  have hregs : c.withRegs w.cog = c.withRegs p := by
    simp only [Cog.withRegs, hram, hquad, hlast]
    rfl
  refine ⟨_, State.branchInstr_next hp hr ((View.countBranch_eq (v := s.viewOf c) hd ht hw).trans hnext), ?_, hjump, ?_⟩
  · rw [State.cog_withView]
    exact hwrote _ hram hquad hbase hlast
  · rw [State.cog_withView, hregs]
    exact hends

/-- Settles O53: the eight instructions have one body. -/
theorem countBranches : Obligations.CountBranches := by
  unfold Obligations.CountBranches
  refine ⟨?_, ?_, ?_, ?_, ?_, ?_, ?_, ?_⟩ <;>
    exact fun wr cc d x s da sa tgt c dv hs hp hr hd ht hahead => State.countBranch_ends hs hp hr hd ht hahead

/-! ## TJx and JPx -/

/-- TJx jumps as its test of D says. -/
theorem testBranch_of_test {taken : Word → Bool → Bool} {nz delayed : Bool} {i : CCCC → RegAddr → RegOrImm → Instr}
    (hi : ∀ cc d x s, exec (i cc d x) s =
      s.branchInstr cc (some d) x.regField fun da sa v => v.testBranch nz delayed da x sa)
    (htaken : ∀ dv level, taken dv level = ((dv == 0) != nz)) : Statement.testBranch taken nz delayed i := by
  intro cc d x s da sa tgt c dv hp hr hd ht hahead
  simp only [htaken, forall_const] at hahead
  obtain ⟨w, hnext, -, -, -, -, hjump, hends⟩ := View.testEnd (s := s) (v := s.viewOf c) rfl hp (Cog.resolve_pc hr) nz tgt
    (hahead.imp_right Or.symm)
  refine ⟨_, false, (hi cc d x s).trans
    (State.branchInstr_next hp hr ((View.testBranch_eq (v := s.viewOf c) hd ht).trans hnext)), ?_, ?_⟩
  · rw [htaken]
    exact hjump
  · rw [State.cog_withView]
    exact hends

/-- JPx jumps as its test of a free level says. -/
theorem testBranch_of_pin {taken : Word → Bool → Bool} {low delayed : Bool} {i : CCCC → RegAddr → RegOrImm → Instr}
    (hi : ∀ cc d x s, exec (i cc d x) s =
      s.branchInstr cc (some d) x.regField fun da sa v => v.pinBranch low delayed da x sa)
    (htaken : ∀ dv level, taken dv level = (level != low)) : Statement.testBranch taken low delayed i := by
  intro cc d x s da sa tgt c dv hp hr hd ht hahead
  simp only [htaken] at hahead
  obtain ⟨w, hnext, -, -, -, -, hjump, hends⟩ := View.testEnd (s := s)
    (v := { s.viewOf c with draws := s.draws + 1 }) rfl hp (Cog.resolve_pc hr) low tgt
    (taken := Config.freeBit s.draws != low) (hahead.imp_right fun h => h.symm.imp_left fun h => h _)
  refine ⟨_, Config.freeBit s.draws, (hi cc d x s).trans
    (State.branchInstr_next hp hr ((View.pinBranch_eq (v := s.viewOf c) hd ht).trans hnext)), ?_, ?_⟩
  · rw [htaken]
    exact hjump
  · rw [State.cog_withView]
    exact hends

/-- Settles O54: TJx test D, JPx a free level; the negated form of each tests the opposite. -/
theorem testBranches : Obligations.TestBranches := by
  unfold Obligations.TestBranches
  have hpos (b : Bool) : b = (b != false) := (Bool.bne_false b).symm
  have hneg (b : Bool) : (!b) = (b != true) := (Bool.bne_true b).symm
  exact ⟨testBranch_of_test (fun _ _ _ _ => rfl) fun dv _ => hpos (dv == 0),
    testBranch_of_test (fun _ _ _ _ => rfl) fun dv _ => hneg (dv == 0),
    testBranch_of_pin (fun _ _ _ _ => rfl) fun _ level => hpos level,
    testBranch_of_pin (fun _ _ _ _ => rfl) fun _ level => hneg level,
    testBranch_of_test (fun _ _ _ _ => rfl) fun dv _ => hpos (dv == 0),
    testBranch_of_test (fun _ _ _ _ => rfl) fun dv _ => hneg (dv == 0),
    testBranch_of_pin (fun _ _ _ _ => rfl) fun _ level => hpos level,
    testBranch_of_pin (fun _ _ _ _ => rfl) fun _ level => hneg level⟩

/-! ## Refusals -/

theorem State.nrInstr_pending {s : State} {d : BitVec 9} (hd : isIndAddr d = false) (hp : s.cog.pend ≠ none) (cc : CCCC)
    (x : Option RegAddr) (body : RegAddr → View → Except Refusal View) :
    s.nrInstr cc d x body = .refused .branchInDelaySlot := by
  rw [State.nrInstr_eq hd, State.branchInstr_pending hp]

/-- Every branch is refused in the slots of a delayed branch (R321). -/
theorem exec_branch_pending {i : Instr} {s : State} (hb : Statement.isBranch i = true)
    (hc : Statement.collides i = false) (hp : s.cog.pend ≠ none) : exec i s = .refused .branchInDelaySlot := by
  cases i
  case jmpretSNR | jmpretNNR | jmpretdSNR | jmpretdNNR => exact State.nrInstr_pending hc hp _ _ _
  case jmpS | jmpN | ret | jmpdS | jmpdN | retd => exact State.nrInstr_pending (d := 0) rfl hp _ _ _
  case jmpretS | jmpretN | call | tasksw | jmpretdS | jmpretdN | calld | taskswd | ijz | ijnz | djz | djnz | ijzd | ijnzd
      | djzd | djnzd | tjz | tjnz | jp | jnp | tjzd | tjnzd | jpd | jnpd => exact State.branchInstr_pending hp _ _ _ _
  all_goals cases hb

theorem stepsPointer_iff (i : Instr) : stepsPointer i = true
    ↔ ((instrFields i).2.1.bind indReg ≠ none ∧ formD (instrFields i).1 ≠ 0)
      ∨ ((instrFields i).2.2.bind indReg ≠ none ∧ formS (instrFields i).1 ≠ 0) := by
  simp only [stepsPointer, Bool.or_eq_true, Bool.and_eq_true, Option.isSome_iff_ne_none, bne_iff_ne]

/-- What lies ahead is looked at in the three registers after the cog's address (R544). -/
theorem Cog.stepsAhead_iff (c : Cog) : c.stepsAhead = true ↔ ∃ (k : RegAddr) (i : Instr), 1 ≤ k.toNat ∧ k.toNat ≤ 3
    ∧ (c.pc + k).toNat < 0x1F6 ∧ decode (c.x (c.pc + k)) = .ok i ∧ stepsPointer i = true := by
  have hmem (k : RegAddr) : k ∈ [1, 2, 3] ↔ 1 ≤ k.toNat ∧ k.toNat ≤ 3 := by
    simp only [List.mem_cons, List.not_mem_nil, or_false, ← BitVec.toNat_inj]
    show k.toNat = 1 ∨ k.toNat = 2 ∨ k.toNat = 3 ↔ _
    omega
  rw [Cog.stepsAhead, List.any_eq_true]
  constructor
  · rintro ⟨k, hk, h⟩
    obtain ⟨h1, h3⟩ := (hmem k).mp hk
    obtain ⟨hlt, hi⟩ := Bool.and_eq_true_iff.mp h
    cases hd : decode (c.x (c.pc + k)) with
    | error e =>
      rw [hd] at hi
      cases hi
    | ok i =>
      rw [hd] at hi
      exact ⟨k, i, h1, h3, of_decide_eq_true hlt, hd, hi⟩
  · rintro ⟨k, i, h1, h3, hlt, hd, hs⟩
    refine ⟨k, (hmem k).mpr ⟨h1, h3⟩, Bool.and_eq_true_iff.mpr ⟨decide_eq_true hlt, ?_⟩⟩
    rw [hd]
    exact hs

theorem isIndAddr_of_indReg {a : RegAddr} (h : indReg a = none) : isIndAddr a = false := by
  rw [isIndAddr_eq_false]
  constructor <;> (rintro rfl; cases h)

theorem conditional_of_ne {cc : CCCC} {d x : Option RegAddr} (hcc : cc ≠ 0b1111) (hd : d.bind indReg = none)
    (hx : x.bind indReg = none) : conditional cc d x = true := by
  rw [conditional, hd, hx]
  exact bne_iff_ne.mpr hcc

/-- Without an indirect operand an instruction whose condition holds executes. -/
theorem Cog.resolve_holds {c : Cog} {cc : CCCC} {d x : Option RegAddr} (hd : d.bind indReg = none)
    (hx : x.bind indReg = none) (h : condHolds cc c.z c.c = true) :
    c.resolve cc d x = .ok (.go (d.getD 0) (x.getD 0) c) := by
  rw [Cog.resolve_direct hd hx, if_pos h]

theorem refusedAhead_jmpretReg {d x : RegAddr} {i : Bool → Bool → CCCC → Instr}
    (hi : ∀ wz wc cc s, exec (i wz wc cc) s = s.branchInstr cc (some d) (some x) fun da sa v =>
      v.jmpretReg false wz wc (conditional cc (some d) (some x)) da sa) : Statement.refusedAhead true d (some x) i := by
  intro wz wc cc s g hp hcc hd hx hcond hl hahead
  obtain ⟨hx, sv, hv⟩ := hx x rfl
  rw [if_pos rfl] at hl
  have hsteps := (Cog.stepsAhead_reload g wz wc sv).trans hahead
  have hbody := (View.jmpretReg_eq (v := s.viewOf s.cog) hv hl true).trans
    (View.branch_ahead (v := (s.viewOf s.cog).withCog (g.reload wz wc sv)) hsteps _)
  rw [hi, conditional_of_ne (d := some d) (x := some x) hcc hd hx]
  exact State.branchInstr_refused hp (Cog.resolve_holds (d := some d) (x := some x) hd hx hcond) hbody

theorem refusedAhead_jmpretImm {d : RegAddr} {n : BitVec 9} {i : Bool → Bool → CCCC → Instr}
    (hi : ∀ wz wc cc s, exec (i wz wc cc) s = s.branchInstr cc (some d) none fun da _ v =>
      v.jmpretImm false wz wc (conditional cc (some d) none) da n) : Statement.refusedAhead true d none i := by
  intro wz wc cc s g hp hcc hd _ hcond hl hahead
  rw [if_pos rfl] at hl
  have hbody := (View.jmpretImm_eq (v := s.viewOf s.cog) hl true n).trans
    (View.branch_ahead (v := (s.viewOf s.cog).withCog g) hahead _)
  rw [hi, conditional_of_ne (d := some d) hcc hd rfl]
  exact State.branchInstr_refused hp (Cog.resolve_holds (d := some d) hd rfl hcond) hbody

theorem refusedAhead_jmpReg {d x : RegAddr} {f : BitVec 9} {i : Bool → Bool → CCCC → Instr}
    (hf : indReg d = none → isIndAddr f = false)
    (hi : ∀ wz wc cc s, exec (i wz wc cc) s = s.nrInstr cc f (some x) fun sa v =>
      v.jmpReg false wz wc (conditional cc none (some x)) sa) : Statement.refusedAhead false d (some x) i := by
  intro wz wc cc s g hp hcc hd hx hcond hl hahead
  obtain ⟨hx, sv, hv⟩ := hx x rfl
  rw [if_neg Bool.false_ne_true] at hl
  subst hl
  have hsteps := (Cog.stepsAhead_reload s.cog wz wc sv).trans hahead
  have hbody := (View.jmpReg_eq (v := s.viewOf s.cog) hv false wz wc true).trans
    (View.branch_ahead (v := (s.viewOf s.cog).withCog (s.cog.reload wz wc sv)) hsteps _)
  rw [hi, conditional_of_ne (x := some x) hcc rfl hx]
  exact State.nrInstr_refused (hf hd) hp (Cog.resolve_holds (x := some x) rfl hx hcond) hbody

theorem refusedAhead_jmpImm {d : RegAddr} {f e n : BitVec 9} {i : Bool → Bool → CCCC → Instr}
    (hf : indReg d = none → isIndAddr f = false)
    (hi : ∀ wz wc cc s, exec (i wz wc cc) s = s.nrInstr cc f none fun _ v =>
      v.jmpImm false wz wc (conditional cc none none) e n) : Statement.refusedAhead false d none i := by
  intro wz wc cc s g hp hcc hd _ hcond hl hahead
  rw [if_neg Bool.false_ne_true] at hl
  subst hl
  have hsteps : ((s.cog.flagC wc (e.getLsbD 0)).flagZ wz (e.getLsbD 1)).stepsAhead = true :=
    (Cog.stepsAhead_congr rfl rfl rfl rfl).trans hahead
  rw [hi, conditional_of_ne hcc rfl rfl]
  exact State.nrInstr_refused (hf hd) hp (Cog.resolve_holds rfl rfl hcond)
    ((View.jmpImm_eq (s.viewOf s.cog) false wz wc true e n).trans
      (View.branch_ahead (v := (s.viewOf s.cog).withCog _) hsteps _))

theorem countAhead_of {delta : Word} {nz : Bool} {i : Bool → CCCC → RegAddr → RegOrImm → Instr}
    (hi : ∀ wr cc d x s, exec (i wr cc d x) s =
      s.branchInstr cc (some d) x.regField fun da sa v => v.countBranch delta nz false wr da x sa) :
    Statement.countAhead delta nz i := by
  intro wr cc d x s da sa tgt c g dv hp hr hd ht hw htaken hahead
  rw [hi]
  refine State.branchInstr_refused hp hr ((View.countBranch_eq (v := s.viewOf c) hd ht hw).trans ?_)
  rw [show (zeroFlag (dv + delta) != nz) = true from htaken]
  exact View.testBranch_ahead (v := (s.viewOf c).withCog g) hahead nz tgt

/-- A conditional normal branch with a stepping operand ahead is refused when it is taken, and else goes on. -/
theorem View.ahead_cases {s : State} {v : View} (hahead : v.cog.stepsAhead = true) (hadv : v.cog.advance = s.cog.advance)
    (nz taken : Bool) (tgt : RegAddr) :
    if taken then (v.selectors nz false).branch false true taken tgt = .error .stepAfterBranch
    else ∃ w, (v.selectors nz false).branch false true taken tgt = .ok w ∧ s.GoesOn (s.withView w) := by
  cases taken with
  | true => exact View.testBranch_ahead hahead nz tgt
  | false =>
    refine ⟨_, View.branch_passed _ _ _ tgt, State.goesOn_retire ?_ 1⟩
    rw [View.selectors_eq]
    exact hadv

theorem testAhead_of_body {taken : Word → Bool → Bool} {i : CCCC → RegAddr → RegOrImm → Instr}
    {body : RegOrImm → RegAddr → RegAddr → View → Except Refusal View} {nz : Bool} {bit : State → Bool}
    {view : State → Cog → View} (hi : ∀ cc d x s, exec (i cc d x) s = s.branchInstr cc (some d) x.regField (body x))
    (hview : ∀ s c, (view s c).cog = c)
    (hbody : ∀ x da sa s c dv tgt, c.read da = .ok dv → c.target x sa = .ok tgt →
      body x da sa (s.viewOf c) = ((view s c).selectors nz false).branch false true (taken dv (bit s)) tgt) :
    Statement.testAhead taken i := by
  intro cc d x s da sa tgt c dv hp hr hd ht hahead
  refine ⟨bit s, ?_⟩
  have hcases := View.ahead_cases (s := s) (v := view s c) (by rw [hview, hahead])
    (by rw [hview]; exact Cog.resolve_advance hr) nz (taken dv (bit s)) tgt
  have hrun := hbody x da sa s c dv tgt hd ht
  rw [hi]
  split at hcases
  · next h => exact (if_pos h).mpr (State.branchInstr_refused hp hr (hrun.trans hcases))
  · next h =>
    obtain ⟨w, hw, hgoes⟩ := hcases
    exact (if_neg h).mpr ⟨_, State.branchInstr_next hp hr (hrun.trans hw), hgoes⟩

/-- Settles O47: the pending branch, what lies ahead, and each normal branch taken with a stepping operand ahead. -/
theorem branchesRefused : Obligations.BranchesRefused := by
  unfold Obligations.BranchesRefused
  refine ⟨fun i s => exec_branch_pending, fun c => ?ahead, fun d x n => ?jumps, countAhead_of fun _ _ _ _ _ => rfl,
    countAhead_of fun _ _ _ _ _ => rfl, countAhead_of fun _ _ _ _ _ => rfl, countAhead_of fun _ _ _ _ _ => rfl,
    ?tjz, ?tjnz, ?jp, ?jnp⟩
  case ahead => simp only [Cog.stepsAhead_iff, stepsPointer_iff]
  case jumps =>
    have hzero : indReg d = none → isIndAddr 0 = false := fun _ => rfl
    exact ⟨refusedAhead_jmpretReg fun _ _ _ _ => rfl, refusedAhead_jmpretImm fun _ _ _ _ => rfl,
      refusedAhead_jmpretImm fun _ _ _ _ => rfl, refusedAhead_jmpReg isIndAddr_of_indReg fun _ _ _ _ => rfl,
      refusedAhead_jmpImm isIndAddr_of_indReg fun _ _ _ _ => rfl, refusedAhead_jmpReg hzero fun _ _ _ _ => rfl,
      refusedAhead_jmpImm hzero fun _ _ _ _ => rfl, refusedAhead_jmpImm hzero fun _ _ _ _ => rfl⟩
  case tjz =>
    refine testAhead_of_body (view := fun s c => s.viewOf c) (bit := fun _ => false) (nz := false)
      (fun _ _ _ _ => rfl) (fun _ _ => rfl) fun x da sa s c dv tgt hd ht => ?_
    rw [View.testBranch_eq (v := s.viewOf c) hd ht, Bool.bne_false]
    rfl
  case tjnz =>
    refine testAhead_of_body (view := fun s c => s.viewOf c) (bit := fun _ => false) (nz := true)
      (fun _ _ _ _ => rfl) (fun _ _ => rfl) fun x da sa s c dv tgt hd ht => ?_
    rw [View.testBranch_eq (v := s.viewOf c) hd ht, Bool.bne_true]
    rfl
  case jp =>
    refine testAhead_of_body (view := fun s c => { s.viewOf c with draws := s.draws + 1 })
      (bit := fun s => Config.freeBit s.draws) (nz := false) (fun _ _ _ _ => rfl) (fun _ _ => rfl)
      fun x da sa s c dv tgt hd ht => ?_
    rw [View.pinBranch_eq (v := s.viewOf c) hd ht, Bool.bne_false]
    rfl
  case jnp =>
    refine testAhead_of_body (view := fun s c => { s.viewOf c with draws := s.draws + 1 })
      (bit := fun s => Config.freeBit s.draws) (nz := true) (fun _ _ _ _ => rfl) (fun _ _ => rfl)
      fun x da sa s c dv tgt hd ht => ?_
    rw [View.pinBranch_eq (v := s.viewOf c) hd ht, Bool.bne_true]
    rfl

end Sys2Proof.Machine
end

section
/-! PROOFS. The accumulators (R491..R497, R572..R577). -/

-- The check compiles one text under a memory limit that bounds the threads: elaborate in order.
set_option Elab.async false

namespace Sys2Proof.Machine

/-! ## The shared frames of the instructions without an encoding -/

theorem State.absDual_next {k : Ctl} {d : RegAddr} {x : RegOrImm} {n : Nat} {s : State} {da sa : RegAddr} {c g : Cog}
    {dv sv : Word} (hwz : k.wz = false) (hwc : k.wc = false)
    (hr : s.cog.resolve k.cc (some d) x.regField = .ok (.go da sa c)) (hd : c.read da = .ok dv)
    (hv : c.operand x sa = .ok sv) {f : Word → Word → View → Except Refusal Cog} (hf : f dv sv (s.viewOf c) = .ok g) :
    s.absDual k d x n f = .next (s.withView { s.viewOf c with cog := g.retire 1, draws := s.draws + n }) := by
  unfold State.absDual
  exact State.instr_next hr (by simp only [State.viewOf_cog, hd, hv, hf, Except.ok_bind, hwz, hwc]; rfl)

theorem State.absAct_next {k : Ctl} {clk : Cog → Nat} {n : Nat} {s : State} {da sa : RegAddr} {c : Cog}
    (hwz : k.wz = false) (hwc : k.wc = false) (hr : s.cog.resolve k.cc none none = .ok (.go da sa c)) (f : View → Cog) :
    s.absAct k clk n f = .next (s.withView
      { s.viewOf c with cog := (f (s.viewOf c)).retire (clk c), draws := s.draws + n }) := by
  unfold State.absAct
  exact State.instr_next hr (by simp only [hwz, hwc]; rfl)

theorem State.absGet_next {k : Ctl} {d : RegAddr} {clk : Cog → Nat} {s : State} {da sa : RegAddr} {c e g : Cog} {r : Word}
    (hr : s.cog.resolve k.cc (some d) none = .ok (.go da sa c)) {f : Cog → Except Refusal (Word × Cog)}
    (hf : f c = .ok (r, e)) (hw : e.result k.wr da r = .ok g) :
    s.absGet k d clk f = .next (s.withView
      ((((s.viewOf c).withCog (g.flagZ k.wz (zeroFlag r))).selectors false k.wc).retire (clk c))) := by
  unfold State.absGet
  exact State.instr_next hr (by simp only [State.viewOf_cog, hf, hw, Except.ok_bind]; rfl)

theorem State.absGet_refused {k : Ctl} {d : RegAddr} {clk : Cog → Nat} {s : State} {da sa : RegAddr} {c : Cog}
    {e : Refusal} (hr : s.cog.resolve k.cc (some d) none = .ok (.go da sa c)) {f : Cog → Except Refusal (Word × Cog)}
    (hf : f c = .error e) : s.absGet k d clk f = .refused e := by
  unfold State.absGet
  exact State.instr_refused hr (by simp only [State.viewOf_cog, hf, Except.error_bind])

/-! ## Accumulators of a cog -/

theorem Cog.acc_eq (c : Cog) (w : Which) : c.acc w = Statement.acc c w := by
  cases w <;> rfl

theorem Cog.setAcc_eq (c : Cog) (w : Which) (a : Acc) : c.setAcc w a = Statement.withAcc c w a := by
  cases w <;> rfl

theorem Cog.advance_setAcc (c : Cog) (w : Which) (a : Acc) : (c.setAcc w a).advance = c.advance := by
  cases w <;> exact Cog.advance_congr rfl rfl

/-! ## MACx -/

/-- The product added by MACx is that of the numbers, modulo 2^64 (R492). -/
theorem add_macProduct (v : BitVec 64) (d x : Word) : v + macProduct d x =
    BitVec.ofInt 64 (v.toNat + (d.extractLsb' 0 20).toInt * (x.extractLsb' 0 20).toInt) := by
  rw [BitVec.ofInt_add, BitVec.ofInt_mul, BitVec.ofInt_natCast, BitVec.ofNat_toNat, BitVec.setWidth_eq]
  rfl

theorem execMac_next {w : Which} {k : Ctl} {d : RegAddr} {x : RegOrImm} {s : State} {da sa : RegAddr}
    {c : Cog} {dv sv : Word} (hwz : k.wz = false) (hwc : k.wc = false)
    (hr : s.cog.resolve k.cc (some d) x.regField = .ok (.go da sa c)) (hd : c.read da = .ok dv)
    (hv : c.operand x sa = .ok sv) :
    execMac k w d x s = .next (s.withView { s.viewOf c with
      cog := ((c.setAcc w (.fresh ((c.acc w).val + macProduct dv sv))).markMac).retire 1, draws := s.draws + 0 }) := by
  unfold execMac
  exact State.absDual_next hwz hwc hr hd hv rfl

/-! ## GETACCx -/

theorem Acc.get_low {a : Acc} (h : a.reads = .low) : a.get = .ok (a.val.extractLsb' 0 32, ⟨a.val, .high⟩) := by
  simp only [Acc.get, h]

theorem Acc.get_high {a : Acc} (h : a.reads = .high) : a.get = .ok (a.val.extractLsb' 32 32, ⟨a.val, .spent⟩) := by
  simp only [Acc.get, h]

theorem Acc.get_spent {a : Acc} (h : a.reads = .spent) : a.get = .error .accReadAgain := by
  simp only [Acc.get, h]

theorem extractLsb'_low (v : BitVec 64) : v.extractLsb' 0 32 = BitVec.ofNat 32 v.toNat := rfl

theorem extractLsb'_high (v : BitVec 64) : v.extractLsb' 32 32 = BitVec.ofNat 32 (v.toNat / 2 ^ 32) := by
  rw [BitVec.extractLsb', Nat.shiftRight_eq_div_pow]

theorem execGetacc_next {w : Which} {k : Ctl} {d : RegAddr} {s : State} {da sa : RegAddr} {c g : Cog} {r : Word} {a : Acc}
    (hr : s.cog.resolve k.cc (some d) none = .ok (.go da sa c)) (hget : (c.acc w).get = .ok (r, a))
    (hw : (c.setAcc w a).result k.wr da r = .ok g) :
    execGetacc k w d s = .next (s.withView
      ((((s.viewOf c).withCog (g.flagZ k.wz (zeroFlag r))).selectors false k.wc).retire (c.accClocks 1))) := by
  unfold execGetacc
  exact State.absGet_next hr (by simp only [hget, Except.ok_map]) hw

theorem execGetacc_refused {w : Which} {k : Ctl} {d : RegAddr} {s : State} {da sa : RegAddr} {c : Cog}
    (hr : s.cog.resolve k.cc (some d) none = .ok (.go da sa c)) (h : (c.acc w).reads = .spent) :
    execGetacc k w d s = .refused .accReadAgain := by
  unfold execGetacc
  exact State.absGet_refused hr (by simp only [Acc.get_spent h, Except.error_map])

/-- A read of an accumulator writes D and marks the read. -/
theorem getacc_finishes {w : Which} {k : Ctl} {d : RegAddr} {s : State} {da sa : RegAddr} {c : Cog} {r : Word}
    {reads : AccRead} (hs : s.ok = true) (hr : s.cog.resolve k.cc (some d) none = .ok (.go da sa c))
    (ha : k.wr = true → plainReg da) (hget : (c.acc w).get = .ok (r, ⟨(c.acc w).val, reads⟩)) :
    ∃ t, execAbs k (.getacc w d) s = .next t ∧ c.WroteIf t.cog k.wr da r
      ∧ s.Finishes t { Statement.withAcc (c.withRegs t.cog) w ⟨(c.acc w).val, reads⟩ with
          z := if k.wz then r == 0 else c.z, c := if k.wc then t.cog.c else c.c } := by
  have hc := Cog.resolve_keeps (State.cog_ok hs) hr
  have hset : (c.setAcc w ⟨(c.acc w).val, reads⟩).ok = true := by
    cases w <;> exact Cog.ok_congr hc rfl rfl rfl rfl rfl
  obtain ⟨p, hw, hwrote⟩ := Cog.result_regs hset (wr := k.wr) r ha
  refine ⟨_, execGetacc_next hr hget hw, ?_⟩
  rw [State.cog_withView]
  cases w <;> cases k.wc <;> exact ⟨hwrote _ rfl rfl rfl rfl, State.finishes_resolved hr rfl rfl rfl⟩

/-- Settles O56: the sum of the product, and the three reads. -/
theorem accumulators : Obligations.Accumulators := by
  unfold Obligations.Accumulators
  refine ⟨fun w cc wr d x s da sa c dv sv hr hd hv => ?mac, fun w k d s da sa c hs hr ha => ?get⟩
  case mac =>
    dsimp only
    rw [← Cog.acc_eq, ← add_macProduct, ← Cog.setAcc_eq]
    have hadv := Cog.advance_setAcc c w (.fresh ((c.acc w).val + macProduct dv sv))
    exact ⟨_, execMac_next rfl rfl hr hd hv, State.finishes_resolved hr rfl rfl hadv⟩
  case get =>
    simp only [← Cog.acc_eq]
    refine ⟨fun h => ?_, fun h => ?_, fun h => execGetacc_refused hr h⟩
    · rw [← extractLsb'_low]
      exact getacc_finishes hs hr ha (Acc.get_low h)
    · rw [← extractLsb'_high]
      exact getacc_finishes hs hr ha (Acc.get_high h)

/-! ## CLRACCx and SETACCx -/

theorem execSetacc_next {w : Which} {k : Ctl} {d : RegAddr} {x : RegOrImm} {s : State} {da sa : RegAddr} {c : Cog}
    {dv sv : Word} (hwz : k.wz = false) (hwc : k.wc = false)
    (hr : s.cog.resolve k.cc (some d) x.regField = .ok (.go da sa c)) (hd : c.read da = .ok dv)
    (hv : c.operand x sa = .ok sv) :
    execSetacc k w d x s = .next (s.withView { s.viewOf c with
      cog := (c.setAcc w (.fresh (sv ++ dv))).retire 1, draws := s.draws + 0 }) := by
  unfold execSetacc
  exact State.absDual_next hwz hwc hr hd hv rfl

theorem execClracc_next {w : Which} {k : Ctl} {s : State} {da sa : RegAddr} {c : Cog} (hwz : k.wz = false)
    (hwc : k.wc = false) (hr : s.cog.resolve k.cc none none = .ok (.go da sa c)) :
    execClracc k w s = .next (s.withView { s.viewOf c with
      cog := (c.setAcc w (.fresh 0)).retire 1, draws := s.draws + 0 }) := by
  unfold execClracc
  exact State.absAct_next hwz hwc hr _

theorem execClraccs_next {k : Ctl} {s : State} {da sa : RegAddr} {c : Cog} (hwz : k.wz = false)
    (hwc : k.wc = false) (hr : s.cog.resolve k.cc none none = .ok (.go da sa c)) :
    execClraccs k s = .next (s.withView { s.viewOf c with
      cog := ({ c with acca := .fresh 0, accb := .fresh 0 } : Cog).retire 1, draws := s.draws + 0 }) := by
  unfold execClraccs
  exact State.absAct_next hwz hwc hr _

/-- Settles O57: each replaces accumulators alone. -/
theorem accumulatorSets : Obligations.AccumulatorSets := by
  unfold Obligations.AccumulatorSets
  refine ⟨fun k s da sa c hwz hwc hr => ⟨?_, ?_, ?_⟩, fun k d x s da sa c dv sv v hwz hwc hr hd hv hval => ?_⟩
  · exact ⟨_, execClracc_next (w := .a) hwz hwc hr, State.finishes_resolved hr rfl rfl rfl⟩
  · exact ⟨_, execClracc_next (w := .b) hwz hwc hr, State.finishes_resolved hr rfl rfl rfl⟩
  · exact ⟨_, execClraccs_next hwz hwc hr, State.finishes_resolved hr rfl rfl rfl⟩
  · obtain rfl : v = sv ++ dv := BitVec.eq_of_toNat_eq (hval.trans (toNat_append_eq_add sv dv).symm)
    exact ⟨⟨_, execSetacc_next (w := .a) hwz hwc hr hd hv, State.finishes_resolved hr rfl rfl rfl⟩,
      ⟨_, execSetacc_next (w := .b) hwz hwc hr hd hv, State.finishes_resolved hr rfl rfl rfl⟩⟩

/-! ## FITACCx -/

theorem toInt_sshiftRight_eq (a : BitVec 64) (e : Nat) : (a.sshiftRight e).toInt = a.toInt / 2 ^ e := by
  rw [BitVec.toInt_sshiftRight, Int.shiftRight_eq_div_pow]
  rfl

theorem fits_iff (a : BitVec 64) (e : Nat) : fits a e = true ↔ Statement.fitsAt a e := by
  rw [fits, Statement.fitsAt, Bool.and_eq_true, decide_eq_true_eq, decide_eq_true_eq, toInt_sshiftRight_eq]

/-- Shifted down by 32 every accumulator fits. -/
theorem fits_32 (a : BitVec 64) : fits a 32 = true := by
  have hlo := BitVec.le_toInt a
  have hhi := BitVec.toInt_lt (x := a)
  rw [fits_iff, Statement.fitsAt]
  constructor <;> omega

/-- What `leastFrom` finds. -/
theorem leastFrom_spec (p : Nat → Bool) (fuel e : Nat) (h : p (e + fuel) = true) :
    e ≤ leastFrom p fuel e ∧ leastFrom p fuel e ≤ e + fuel ∧ p (leastFrom p fuel e) = true
      ∧ ∀ j, e ≤ j → j < leastFrom p fuel e → p j = false := by
  induction fuel generalizing e with
  | zero => exact ⟨le_refl _, le_refl _, h, fun j h1 h2 => absurd h2 (Nat.not_lt.mpr h1)⟩
  | succ fuel ih =>
    rw [leastFrom]
    split
    · next hp => exact ⟨le_refl _, Nat.le_add_right _ _, hp, fun j h1 h2 => absurd h2 (Nat.not_lt.mpr h1)⟩
    · next hp =>
      obtain ⟨hge, hle, hpass, hleast⟩ := ih (e + 1) (by rw [Nat.add_right_comm]; exact h)
      refine ⟨by omega, by omega, hpass, fun j h1 h2 => ?_⟩
      rcases Nat.eq_or_lt_of_le h1 with rfl | h1
      · exact Bool.eq_false_iff.mpr hp
      · exact hleast j h1 h2

/-- The exponent is the least of 0..32 that fits (R496). -/
theorem fitExponent_spec {p : Nat → Bool} (h : p 32 = true) :
    fitExponent p ≤ 32 ∧ p (fitExponent p) = true ∧ ∀ j, j < fitExponent p → ¬ p j = true := by
  obtain ⟨-, hle, hpass, hleast⟩ := leastFrom_spec p 32 0 h
  exact ⟨hle, hpass, fun j hj => by simp [hleast j (Nat.zero_le j) hj]⟩

theorem extractLsb'_append_low {m n : Nat} (x : BitVec m) (y : BitVec n) : (x ++ y).extractLsb' 0 n = y := by
  ext i hi
  simp [BitVec.getLsbD_append, hi]

/-- The low long of a value, as a number, from its signed number. -/
theorem toInt_emod_toNat (v : BitVec 64) : (v.toInt % 2 ^ 32).toNat = v.toNat % 2 ^ 32 := by
  have hv := v.isLt
  rw [BitVec.toInt_eq_toNat_cond]
  split <;> omega

/-- What FITACCx leaves of an accumulator. -/
theorem fittedBy_fitted (a : BitVec 64) (e n : Nat) : Statement.fittedBy a (fitted a e n) e := by
  refine ⟨extractLsb'_append_high _ _, fun h0 => ?_, ?_⟩
  · rw [fitted, extractLsb'_append_low, if_pos h0]
  · rw [fitted, extractLsb'_append_low, ← toInt_sshiftRight_eq, toInt_emod_toNat]
    split
    · next h0 =>
      subst h0
      rw [BitVec.sshiftRight_zero, BitVec.extractLsb'_toNat, Nat.shiftRight_zero]
    · rw [toNat_append_eq_add, BitVec.extractLsb'_toNat, BitVec.toNat_ofBool, Nat.shiftRight_eq_div_pow]
      have hb := Bool.toNat_lt_two (Config.freeBit n)
      omega

theorem execFitacc_next {w : Which} {k : Ctl} {s : State} {da sa : RegAddr} {c : Cog} (hwz : k.wz = false)
    (hwc : k.wc = false) (hr : s.cog.resolve k.cc none none = .ok (.go da sa c)) :
    execFitacc k w s = .next (s.withView { s.viewOf c with
      cog := (c.setAcc w (.fresh (fitted (c.acc w).val (fitExponent (fits (c.acc w).val)) s.draws))).retire
        (c.accClocks 2), draws := s.draws + 1 }) := by
  unfold execFitacc
  exact State.absAct_next hwz hwc hr _

theorem execFitaccs_next {k : Ctl} {s : State} {da sa : RegAddr} {c : Cog} (hwz : k.wz = false)
    (hwc : k.wc = false) (hr : s.cog.resolve k.cc none none = .ok (.go da sa c)) :
    execFitaccs k s = .next (s.withView { s.viewOf c with
      cog := ({ c with
        acca := .fresh (fitted c.acca.val (commonExponent c.acca.val c.accb.val) s.draws),
        accb := .fresh (fitted c.accb.val (commonExponent c.acca.val c.accb.val) (s.draws + 1)) } : Cog).retire
        (c.accClocks 2), draws := s.draws + 2 }) := by
  unfold execFitaccs
  exact State.absAct_next hwz hwc hr _

/-- Settles O58: the exponents by `leastFrom`, the values by the shift. -/
theorem fitExponents : Obligations.FitExponents := by
  unfold Obligations.FitExponents
  refine fun k s da sa c hwz hwc hr => ⟨fun w => ?single, ?both⟩
  case single =>
    obtain ⟨hle, hfits, hleast⟩ := fitExponent_spec (fits_32 (c.acc w).val)
    simp only [fits_iff] at hfits hleast
    rw [← Cog.acc_eq]
    refine ⟨_, fitExponent (fits (c.acc w).val), fitted (c.acc w).val (fitExponent (fits (c.acc w).val)) s.draws,
      execFitacc_next hwz hwc hr, hle, hfits, hleast, fittedBy_fitted _ _ _, ?_⟩
    have hadv := Cog.advance_setAcc c w (.fresh (fitted (c.acc w).val (fitExponent (fits (c.acc w).val)) s.draws))
    rw [← Cog.setAcc_eq]
    exact State.finishes_resolved hr rfl rfl hadv
  case both =>
    have h32 : (fits c.acca.val 32 && fits c.accb.val 32) = true := by rw [fits_32, fits_32]; rfl
    obtain ⟨hle, hfits, hleast⟩ := fitExponent_spec (p := fun e => fits c.acca.val e && fits c.accb.val e) h32
    simp only [Bool.and_eq_true, fits_iff] at hfits hleast
    refine ⟨_, commonExponent c.acca.val c.accb.val, fitted c.acca.val (commonExponent c.acca.val c.accb.val) s.draws,
      fitted c.accb.val (commonExponent c.acca.val c.accb.val) (s.draws + 1), execFitaccs_next hwz hwc hr, hle,
      hfits.1, hfits.2, hleast, fittedBy_fitted _ _ _, fittedBy_fitted _ _ _, State.finishes_resolved hr rfl rfl rfl⟩

end Sys2Proof.Machine
end

section
/-! PROOFS. The divider and the square rooter (R460, R468..R477). -/

-- The check compiles one text under a memory limit that bounds the threads: elaborate in order.
set_option Elab.async false

namespace Sys2Proof.Machine

/-! ## The shared frames of the units -/

theorem State.absSet_next {k : Ctl} {x : RegOrImm} {s : State} {da sa : RegAddr} {c g : Cog} {v : Word}
    (hwz : k.wz = false) (hwc : k.wc = false) (hf : fieldOk (!x.sel) x.field)
    (hr : s.cog.resolve k.cc x.regField none = .ok (.go da sa c)) (hv : c.operand x da = .ok v)
    {f : Word → View → Except Refusal Cog} (hg : f v (s.viewOf c) = .ok g) :
    s.absSet k x f = .next (s.withView { s.viewOf c with cog := g.retire 1 }) := by
  rw [← RegOrImm.regField_eq] at hr
  exact State.fieldInstr_next hf hr (by simp only [State.viewOf_cog, hv, hg, Except.ok_bind, hwz, hwc]; rfl)

theorem State.absSetDraw_next {k : Ctl} {x : RegOrImm} {n : Nat} {s : State} {da sa : RegAddr} {c g : Cog} {v : Word}
    (hwz : k.wz = false) (hwc : k.wc = false) (hf : fieldOk (!x.sel) x.field)
    (hr : s.cog.resolve k.cc x.regField none = .ok (.go da sa c)) (hv : c.operand x da = .ok v)
    {f : Word → View → Except Refusal Cog} (hg : f v (s.viewOf c) = .ok g) :
    s.absSetDraw k x n f = .next (s.withView { s.viewOf c with cog := g.retire 1, draws := s.draws + n }) := by
  rw [← RegOrImm.regField_eq] at hr
  exact State.fieldInstr_next hf hr (by simp only [State.viewOf_cog, hv, hg, Except.ok_bind, hwz, hwc]; rfl)

theorem State.absSetDraw_refused {k : Ctl} {x : RegOrImm} {n : Nat} {s : State} {da sa : RegAddr} {c : Cog} {v : Word}
    {e : Refusal} (hf : fieldOk (!x.sel) x.field) (hr : s.cog.resolve k.cc x.regField none = .ok (.go da sa c))
    (hv : c.operand x da = .ok v) {f : Word → View → Except Refusal Cog} (he : f v (s.viewOf c) = .error e) :
    s.absSetDraw k x n f = .refused e := by
  rw [← RegOrImm.regField_eq] at hr
  exact State.fieldInstr_refused hf hr (by simp only [State.viewOf_cog, hv, he, Except.ok_bind, Except.error_bind])

/-- Marking a unit done touches nothing else of the cog. -/
structure DoneFrame (done : Cog → Cog) : Prop where
  ok : ∀ c : Cog, c.ok = true → (done c).ok = true
  regs : ∀ c p : Cog, done (c.withRegs p) = (done c).withRegs p
  wrote : ∀ (c t : Cog) (wr : Bool) (da : RegAddr) (v : Word), (done c).WroteIf t wr da v → c.WroteIf t wr da v
  z : ∀ c : Cog, (done c).z = c.z
  advance : ∀ c : Cog, (done c).advance = c.advance

theorem divDone_frame : DoneFrame Cog.divDone :=
  ⟨fun _ h => Cog.ok_congr h rfl rfl rfl rfl rfl, fun _ _ => rfl, fun _ _ _ _ _ h => h, fun _ => rfl,
    fun _ => Cog.advance_congr rfl rfl⟩

theorem sqrDone_frame : DoneFrame Cog.sqrDone :=
  ⟨fun _ h => Cog.ok_congr h rfl rfl rfl rfl rfl, fun _ _ => rfl, fun _ _ _ _ _ h => h, fun _ => rfl,
    fun _ => Cog.advance_congr rfl rfl⟩

theorem State.unitGet_next {k : Ctl} {d : RegAddr} {started busy : Cog → Bool} {done : Cog → Cog} {result : Cog → Word}
    {s : State} {da sa : RegAddr} {c g : Cog} (hwc : k.wc = false)
    (hr : s.cog.resolve k.cc (some d) none = .ok (.go da sa c)) (hst : started c = true)
    (hw : (done c).result k.wr da (result c) = .ok g) :
    s.unitGet k d started busy done result = .next (s.withView { s.viewOf c with
      cog := ((g.flagZ k.wz (zeroFlag (result c))).flagC k.wc true).retire 1, draws := s.draws + 0 }) := by
  unfold State.unitGet
  refine State.instr_next hr ?_
  simp only [State.viewOf_cog, hst, hwc, Bool.not_true, Bool.not_false, Bool.false_eq_true, if_false, if_true,
    View.getEnd, hw, Except.ok_bind]
  rfl

theorem State.unitGet_refused {k : Ctl} {d : RegAddr} {started busy : Cog → Bool} {done : Cog → Cog}
    {result : Cog → Word} {s : State} {da sa : RegAddr} {c : Cog}
    (hr : s.cog.resolve k.cc (some d) none = .ok (.go da sa c)) (hst : started c = false) :
    s.unitGet k d started busy done result = .refused .unitNotStarted := by
  unfold State.unitGet
  exact State.instr_refused hr (by simp only [State.viewOf_cog, hst, Bool.not_false, if_true])

/-- A GET without WC returns the unit's result and marks it done. -/
theorem unitGet_of_frame {i : RegAddr → AbsInstr} {started busy : Cog → Bool} {done : Cog → Cog} {result : Cog → Word}
    (hi : ∀ k d s, execAbs k (i d) s = s.unitGet k d started busy done result) (hdone : DoneFrame done) :
    Statement.unitGet i started done result := by
  intro k d s da sa c hs hwc hr ha
  refine ⟨fun hst => ?_, fun hst => (hi k d s).trans (State.unitGet_refused hr hst)⟩
  obtain ⟨p, hw, hwrote⟩ := Cog.result_regs (hdone.ok c (Cog.resolve_keeps (State.cog_ok hs) hr)) (result c) ha
  refine ⟨_, (hi k d s).trans (State.unitGet_next hwc hr hst hw), ?_⟩
  have hadv := hdone.advance c
  rw [State.cog_withView, hdone.regs, ← hdone.z, hwc]
  exact ⟨hdone.wrote c _ _ _ _ (hwrote _ rfl rfl rfl rfl), State.finishes_resolved hr rfl rfl hadv⟩

/-! ## The divider -/

theorem quotRem_zero (signed : Bool) (n : BitVec 64) : quotRem signed n 0 = none := if_pos rfl

theorem quotRem_unsigned {n : BitVec 64} {b : Word} (hb : b ≠ 0) : quotRem false n b =
    if n.toNat / b.toNat < 2 ^ 32 then
      some (BitVec.ofNat 32 (n.toNat / b.toNat), BitVec.ofNat 32 (n.toNat % b.toNat))
    else none := by
  rw [quotRem, if_neg hb]
  rfl

theorem quotRem_signed {n : BitVec 64} {b : Word} (hb : b ≠ 0) : quotRem true n b =
    if -(2 ^ 31) ≤ n.toInt.tdiv b.toInt ∧ n.toInt.tdiv b.toInt < 2 ^ 31 then
      some (BitVec.ofInt 32 (n.toInt.tdiv b.toInt), BitVec.ofInt 32 (n.toInt.tmod b.toInt))
    else none := by
  rw [quotRem, if_neg hb]
  rfl

theorem toNat_pos_of_ne_zero {b : Word} (hb : b ≠ 0) : 0 < b.toNat :=
  Nat.pos_of_ne_zero fun h => hb (BitVec.eq_of_toNat_eq h)

/-- The law of the unsigned division (R470). -/
theorem quotRem_unsigned_law {n : BitVec 64} {b : Word} (hb : b ≠ 0) (hn : n.toNat < b.toNat * 2 ^ 32) :
    ∃ q r, quotRem false n b = some (q, r) ∧ n.toNat = q.toNat * b.toNat + r.toNat ∧ r.toNat < b.toNat := by
  have hpos := toNat_pos_of_ne_zero hb
  have hq : n.toNat / b.toNat < 2 ^ 32 := Nat.div_lt_of_lt_mul hn
  have hr : n.toNat % b.toNat < b.toNat := Nat.mod_lt _ hpos
  refine ⟨_, _, (quotRem_unsigned hb).trans (if_pos hq), ?_, ?_⟩
  · rw [BitVec.toNat_ofNat, BitVec.toNat_ofNat, Nat.mod_eq_of_lt hq, Nat.mod_eq_of_lt (hr.trans b.isLt)]
    exact (Nat.div_add_mod' _ _).symm
  · rw [BitVec.toNat_ofNat, Nat.mod_eq_of_lt (hr.trans b.isLt)]
    exact hr

theorem quotRem_unsigned_none {n : BitVec 64} {b : Word} (hb : b ≠ 0) (hn : b.toNat * 2 ^ 32 ≤ n.toNat) :
    quotRem false n b = none := by
  rw [quotRem_unsigned hb, if_neg]
  rw [Nat.not_lt, Nat.le_div_iff_mul_le (toNat_pos_of_ne_zero hb), Nat.mul_comm]
  exact hn

/-- A signed number that fits 32 bits is that of its long. -/
theorem toInt_ofInt_32 {m : Int} (hlo : -(2 ^ 31) ≤ m) (hhi : m < 2 ^ 31) : (BitVec.ofInt 32 m).toInt = m :=
  BitVec.toInt_ofInt_eq_self (by decide) hlo hhi

/-- The remainder of the division that truncates is smaller than the divisor and has the sign of the dividend. -/
theorem tmod_bounds {n b : Int} (hb : b ≠ 0) :
    (n.tmod b).natAbs < b.natAbs ∧ (n.tmod b = 0 ∨ (n.tmod b < 0 ↔ n < 0)) := by
  constructor
  · rw [Int.natAbs_tmod]
    exact Nat.mod_lt _ (Int.natAbs_pos.mpr hb)
  · rcases Int.lt_or_le n 0 with hn | hn
    · have hneg : 0 ≤ (-n).tmod b := Int.tmod_nonneg b (by omega)
      rw [Int.neg_tmod] at hneg
      omega
    · have hpos := Int.tmod_nonneg b hn
      omega

/-- The law of the signed division, truncated toward zero (R470). -/
theorem quotRem_signed_law {n : BitVec 64} {b : Word} (hb : b ≠ 0) (hlo : -(2 ^ 31) ≤ n.toInt.tdiv b.toInt)
    (hhi : n.toInt.tdiv b.toInt < 2 ^ 31) :
    ∃ q r, quotRem true n b = some (q, r) ∧ n.toInt = q.toInt * b.toInt + r.toInt
      ∧ r.toInt.natAbs < b.toInt.natAbs ∧ (r.toInt = 0 ∨ (r.toInt < 0 ↔ n.toInt < 0)) := by
  have hb0 : b.toInt ≠ 0 := fun h => hb (BitVec.eq_of_toInt_eq h)
  obtain ⟨hlt, hsign⟩ := tmod_bounds (n := n.toInt) hb0
  have hblo := BitVec.le_toInt b
  have hbhi := BitVec.toInt_lt (x := b)
  have hr : (BitVec.ofInt 32 (n.toInt.tmod b.toInt)).toInt = n.toInt.tmod b.toInt :=
    toInt_ofInt_32 (by omega) (by omega)
  refine ⟨_, _, (quotRem_signed hb).trans (if_pos ⟨hlo, hhi⟩), ?_, ?_⟩
  · rw [toInt_ofInt_32 hlo hhi, hr]
    exact (Int.tdiv_mul_add_tmod _ _).symm
  · rw [hr]
    exact ⟨hlt, hsign⟩

theorem quotRem_signed_none {n : BitVec 64} {b : Word} (hb : b ≠ 0)
    (hn : n.toInt.tdiv b.toInt < -(2 ^ 31) ∨ 2 ^ 31 ≤ n.toInt.tdiv b.toInt) : quotRem true n b = none := by
  rw [quotRem_signed hb, if_neg]
  omega

theorem setdivb_refused {k : Ctl} {x : RegOrImm} {s : State} {da sa : RegAddr} {c : Cog} {b : Word}
    (hf : fieldOk (!x.sel) x.field) (hr : s.cog.resolve k.cc x.regField none = .ok (.go da sa c))
    (hb : c.operand x da = .ok b) (hbusy : c.div.busy = true) : execAbs k (.setdivb x) s = .refused .unitBusy :=
  State.absSetDraw_refused hf hr hb (if_pos hbusy)

/-- Settles O59: the law of the division, the start of the unit, and the shared GET. -/
theorem dividerDivides : Obligations.DividerDivides := by
  unfold Obligations.DividerDivides
  refine ⟨fun n b => ⟨fun signed hb => hb ▸ quotRem_zero signed n, quotRem_unsigned_law, quotRem_unsigned_none,
      quotRem_signed_law, quotRem_signed_none⟩,
    fun k x s da sa c b hwz hwc hf hr hb => ⟨fun hbusy => ?_, setdivb_refused hf hr hb⟩,
    unitGet_of_frame (busy := (·.div.busy)) (fun _ _ _ => rfl) divDone_frame,
    unitGet_of_frame (busy := (·.div.busy)) (fun _ _ _ => rfl) divDone_frame⟩
  refine ⟨_, (c.div.results b s.draws).1, (c.div.results b s.draws).2,
    State.absSetDraw_next hwz hwc hf hr hb (if_neg (by simp [hbusy])), fun p hp => ?_,
    State.finishes_resolved hr rfl rfl rfl⟩
  rw [Div.results, hp]
  rfl

/-! ## The square rooter -/

/-- Each bit keeps the root between the value so far and the value with all lower bits set. -/
theorem isqrtFrom_spec (n k acc : Nat) (hlo : acc * acc ≤ n) (hhi : n < (acc + 2 ^ k) * (acc + 2 ^ k)) :
    isqrtFrom n k acc * isqrtFrom n k acc ≤ n ∧ n < (isqrtFrom n k acc + 1) * (isqrtFrom n k acc + 1) := by
  induction k generalizing acc with
  | zero => exact ⟨hlo, hhi⟩
  | succ k ih =>
    rw [isqrtFrom]
    split
    · next h =>
      refine ih _ h ?_
      rw [Nat.add_assoc, ← Nat.two_mul, ← Nat.pow_succ']
      exact hhi
    · next h => exact ih _ hlo (Nat.lt_of_not_le h)

/-- The bitwise root is the floor of the square root. -/
theorem isqrt_eq_sqrt {n : Nat} (h : n < 2 ^ 64) : isqrt n = Nat.sqrt n := by
  obtain ⟨hlo, hhi⟩ := isqrtFrom_spec n 32 0 (Nat.zero_le n) (by simpa using h)
  exact Nat.eq_sqrt.mpr ⟨hlo, hhi⟩

theorem rootOf_toNat (n : BitVec 64) (up : Bool) : (rootOf n up).toNat =
    (if Nat.sqrt n.toNat * Nat.sqrt n.toNat = n.toNat then Nat.sqrt n.toNat
     else if up then Nat.sqrt n.toNat + 1 else Nat.sqrt n.toNat) % 2 ^ 32 := by
  rw [rootOf, BitVec.toNat_ofNat, isqrt_eq_sqrt n.isLt]

theorem sqrt_lt (n : BitVec 64) : Nat.sqrt n.toNat < 2 ^ 32 :=
  Nat.sqrt_lt.mpr (by simpa using n.isLt)

/-- The root is exact for a square. -/
theorem rootOf_square {n : BitVec 64} {k : Nat} (h : k * k = n.toNat) (up : Bool) : (rootOf n up).toNat = k := by
  have hsqrt : Nat.sqrt n.toNat = k := by rw [← h, Nat.sqrt_eq]
  have hk := sqrt_lt n
  rw [rootOf_toNat, hsqrt, if_pos h]
  exact Nat.mod_eq_of_lt (hsqrt ▸ hk)

/-- The root is the floor of the square root or one more. -/
theorem rootOf_near (n : BitVec 64) (up : Bool) : (rootOf n up).toNat = Nat.sqrt n.toNat
    ∨ (rootOf n up).toNat = (Nat.sqrt n.toNat + 1) % 2 ^ 32 := by
  have hfloor := Nat.mod_eq_of_lt (sqrt_lt n)
  rw [rootOf_toNat]
  split
  · exact .inl hfloor
  · split
    · exact .inr rfl
    · exact .inl hfloor

/-- Settles O60: the root by its bits, the start of the unit, and the shared GET. -/
theorem rootIsNear : Obligations.RootIsNear := by
  unfold Obligations.RootIsNear
  refine ⟨fun n up => ⟨fun k h => rootOf_square h up, Nat.sqrt n.toNat, Nat.sqrt_le _, Nat.lt_succ_sqrt _,
      rootOf_near n up⟩,
    fun k x s da sa c v hwz hwc hf hr hv => ⟨fun hbusy => ?_, fun hbusy => ?_⟩,
    unitGet_of_frame (busy := (·.sqr.busy)) (fun _ _ _ => rfl) sqrDone_frame⟩
  · refine ⟨⟨_, State.absSet_next hwz hwc hf hr hv (if_neg (by simp [hbusy])), State.finishes_resolved hr rfl rfl rfl⟩,
      _, Config.freeBit s.draws, State.absSetDraw_next hwz hwc hf hr hv (if_neg (by simp [hbusy])),
      State.finishes_resolved hr rfl rfl rfl⟩
  · exact ⟨State.absSet_refused hf hr hv (if_pos hbusy), State.absSetDraw_refused hf hr hv (if_pos hbusy)⟩

end Sys2Proof.Machine
end
